-- ==== Sys2Proof/Word.lean ====
section
/-! DEFINITION. The word types of the part and their plainest arithmetic. -/

namespace Sys2Proof

/-- One byte of a block, a descriptor or the DRAM. -/
abbrev Byte := BitVec 8

/-- A 32-bit register or parameter word. -/
abbrev Word := BitVec 32

/-- A 64-bit host address (spec 11_formats.md: host addresses are 64-bit). -/
abbrev HostAddr := BitVec 64

/-- A 16-bit generation (spec 00_scope.md, Generations). -/
abbrev Generation := BitVec 16

/-- A count that rises by one and saturates at `top` (00_scope.md, Numbers and ranges). -/
def satInc (top n : Nat) : Nat := min (n + 1) top

/-- The generation after `g`: an advance from 65535 gives 1 (00_scope.md, Generations; R2, R47). -/
def nextGeneration (g : Generation) : Generation := if g = 65535#16 then 1#16 else g + 1#16

end Sys2Proof
end

