-- ==== Sys2Proof/Syntax.lean ====
section
/-! DEFINITION. The commands and events of spec/opcode_table.json, one constructor a row, with their operands: the
parameters of a request as the descriptor holds them (11_formats.md, 11.3), the word a register write carries, what a
link read brought, the die an answer comes from. -/

namespace Sys2Proof

/-- What every request descriptor holds beside its kind and parameters: next pointer, tag, flags (11.3). -/
structure Header where
  next : HostAddr
  tag : Word
  flags : BitVec 16
  deriving DecidableEq, Repr

/-- One raw entry of DEFINE's extent list: start address (4 bytes), block count (2 bytes). -/
structure RawExtent where
  start : Word
  count : BitVec 16
  deriving DecidableEq, Repr

/-- One raw entry of DEFINE's span list: skip and count (2 bytes each). -/
structure RawSpan where
  skip : BitVec 16
  count : BitVec 16
  deriving DecidableEq, Repr

/-- DEFINE's parameters: 15 raw extents and 8 raw spans stand in the descriptor whatever the counts say. -/
structure DefineParams where
  id : BitVec 16
  format : Byte
  extentCount : Byte
  spanCount : Byte
  options : Byte
  headBlocks : BitVec 16
  length : Word
  loopStart : Word
  loopEnd : Word
  expectedCrc : Word
  extents : List RawExtent
  spans : List RawSpan
  deriving DecidableEq, Repr

/-- A record named by id and generation (R2), as LOAD_HEAD and UNLOAD_HEAD carry it. -/
structure RecordName where
  id : BitVec 16
  generation : Generation
  deriving DecidableEq, Repr

/-- CONFIGURE_MEMORY's parameters. -/
structure ConfigureParams where
  headBands : Byte
  slotBlocks : BitVec 16
  windowBlocks : BitVec 16
  deriving DecidableEq, Repr

/-- START's parameters; `at` is the 8-byte field whose bits 47:0 are read. -/
structure StartParams where
  sample : RecordName
  offset : Word
  position : BitVec 64
  rate : Word
  priority : Byte
  leadClass : Byte
  loopFollow : Byte
  cookie : Word
  deriving DecidableEq, Repr

/-- A voice named by slot and generation (R47). -/
structure VoiceName where
  slot : BitVec 16
  generation : Generation
  deriving DecidableEq, Repr

/-- RETUNE's parameters: presence bits 0 rate, 1 priority, 2 lead class. -/
structure RetuneParams where
  voice : VoiceName
  presence : Byte
  rate : Word
  priority : Byte
  leadClass : Byte
  deriving DecidableEq, Repr

/-- SET_PACE's parameters as codes. -/
structure PaceParams where
  source : Byte
  rateCode : Byte
  periodCode : Byte
  deriving DecidableEq, Repr

/-- STORE's parameters. -/
structure StoreParams where
  host : HostAddr
  first : Word
  count : BitVec 16
  deriving DecidableEq, Repr

/-- One raw lead class entry of TUNE_ENGINE: target then tolerance. -/
structure RawLead where
  target : Byte
  tolerance : Byte
  deriving DecidableEq, Repr

/-- TUNE_ENGINE's parameters: a presence mask and one value for each tunable. -/
structure TuneParams where
  mask : Word
  voiceLimit : BitVec 16
  retryLimit : Byte
  pollInterval : Byte
  readTimeout : Byte
  programTimeout : Byte
  programGuard : Byte
  loadAllowance : Byte
  coalescingCount : Byte
  ageLimit : Byte
  priorityThreshold : Byte
  lead0 : RawLead
  lead1 : RawLead
  lead2 : RawLead
  lead3 : RawLead
  deriving DecidableEq, Repr

/-- A request's kind with its parameters; `badKind` is a kind code of no kind of the part (R169). -/
inductive RequestBody where
  | define (p : DefineParams)
  | setPin (r : RecordName) (pin : Byte)
  | retire (r : RecordName) (force : Byte)
  | loadHead (r : RecordName)
  | unloadHead (r : RecordName)
  | configureMemory (p : ConfigureParams)
  | start (p : StartParams)
  | release (v : VoiceName)
  | stop (v : VoiceName)
  | retune (p : RetuneParams)
  | run
  | halt
  | locate (position : BitVec 64)
  | setPace (p : PaceParams)
  | store (p : StoreParams)
  | probeDie (die : Byte)
  | reviveDie (die : Byte)
  | tuneEngine (p : TuneParams)
  | badKind (kind : BitVec 16)
  deriving DecidableEq, Repr

/-- A whole request as a descriptor read brings it. -/
structure Request where
  header : Header
  body : RequestBody
  deriving DecidableEq, Repr

/-- The five counters of R183, in the order of their registers. -/
inductive CounterName where
  | blockCheck | unrecovered | underrun | starve | steal
  deriving DecidableEq, Repr

/-- The wide registers of 11.1: those that occupy a lower and an upper word. -/
inductive WideRegister where
  | requestListPointer
  | bufferListPointer
  | transportPosition
  | periodIndex
  | inspectData (n : Fin 16)
  deriving DecidableEq, Repr

/-- THE COMMANDS: one constructor for each row of spec/opcode_table.json, in its order. -/
inductive Instr where
  | define (h : Header) (p : DefineParams)
  | setPin (h : Header) (r : RecordName) (pin : Byte)
  | retire (h : Header) (r : RecordName) (force : Byte)
  | loadHead (h : Header) (r : RecordName)
  | unloadHead (h : Header) (r : RecordName)
  | configureMemory (h : Header) (p : ConfigureParams)
  | start (h : Header) (p : StartParams)
  | release (h : Header) (v : VoiceName)
  | stop (h : Header) (v : VoiceName)
  | retune (h : Header) (p : RetuneParams)
  | run (h : Header)
  | halt (h : Header)
  | locate (h : Header) (position : BitVec 64)
  | setPace (h : Header) (p : PaceParams)
  | store (h : Header) (p : StoreParams)
  | probeDie (h : Header) (die : Byte)
  | reviveDie (h : Header) (die : Byte)
  | tuneEngine (h : Header) (p : TuneParams)
  | badKind (h : Header) (kind : BitVec 16)
  | requestFetchFailed
  | requestNextRereadEnd (read : Option HostAddr)
  | statusWriteFailed
  | requestListPointer (lower : Word)
  | requestResume
  | bufferListPointer (lower : Word)
  | bufferResume
  | bufferFetchArrival (next : HostAddr) (buffer : HostAddr) (done : Bool)
  | bufferFetchFailed
  | bufferNextRereadEnd (read : Option HostAddr)
  | dataDelivery
  | endDelivery
  | deliveryWriteFailed
  | panic
  | engineReset
  | engineResetClear
  | interruptStatusWrite (value : Word)
  | interruptMaskWrite (value : Word)
  | counterWrite (counter : CounterName)
  | inspectCapture (table : BitVec 3) (index : BitVec 24) (page : Bool)
  | inspectPageSelect (page : Bool)
  | wideRegisterUpperWrite (register : WideRegister) (value : Word)
  | wideRegisterLowerRead (register : WideRegister)
  | registerWrite (offset : BitVec 12) (value : Word)
  | msiEnableChange (enable : Bool) (vector : Word)
  | powerOn
  | linkReset
  | periodExpiry
  | clockLoss
  | fetchEnqueue
  | diePollInterval (die : Fin 16)
  | dieAddressAck (die : Fin 16)
  | dieAddressRefused (die : Fin 16)
  | dieReadyAnswer (die : Fin 16) (elapsed : Word)
  | dieBusyAnswer (die : Fin 16) (elapsed : Word)
  /-- The bytes the die gave up, in the order it gave them: the block's 4,096 data bytes, then the 4 of its stored CRC (R123). -/
  | dieTransferEnd (die : Fin 16) (data storedCrc : List Byte)
  | readTimeout (die : Fin 16)
  | pollTimeout (die : Fin 16)
  | programDataPhaseEnd (die : Fin 16) (data : List Byte)
  | programDmaFailed (die : Fin 16)
  | programTimeout (die : Fin 16)
  | wordClockEdge
  | requestFetchHeld (r : Request)
  deriving DecidableEq, Repr

end Sys2Proof
end

