-- ==== Sys2Proof/WellFormed.lean ====
section
/-! DEFINITION. Which commands the layouts of 11_formats.md can give: a check a prover can compute. A command that fails it
spells no access or arrival of the part. -/

namespace Sys2Proof

/-- The eighteen kind codes of 11.3. -/
def kindCodes : List Nat :=
  [0x01, 0x02, 0x03, 0x04, 0x05, 0x06, 0x10, 0x11, 0x12, 0x13, 0x20, 0x21, 0x22, 0x23, 0x30, 0x31, 0x32, 0x40]

/-- A request body is well formed when its lists fill the descriptor's areas (15 extents, 8 spans, 11.3) and a bad kind is
a code of no kind. -/
def RequestBody.wellFormed : RequestBody → Bool
  | .define p => p.extents.length == 15 && p.spans.length == 8
  | .badKind k => !kindCodes.contains k.toNat
  | .setPin _ _ | .retire _ _ | .loadHead _ | .unloadHead _ | .configureMemory _ | .start _ | .release _ | .stop _
  | .retune _ | .run | .halt | .locate _ | .setPace _ | .store _ | .probeDie _ | .reviveDie _ | .tuneEngine _ => true

/-- Whether a write of this word at this offset has a row of its own (11.1); Engine Control has one only for the actions
01 and 10 (R177). -/
def writeHasOwnRow (offset : BitVec 12) (value : Word) : Bool :=
  let o := offset.toNat
  (o == 0x004 && (value.toNat % 4 == 1 || value.toNat % 4 == 2)) ||
  [0x010, 0x014, 0x018, 0x028, 0x02C, 0x030, 0x040, 0x044, 0x050, 0x054, 0x058, 0x05C, 0x060, 0x074, 0x07C, 0x080].contains o ||
  (0x100 ≤ o && o < 0x180 && o % 8 == 4)

/-- The check on a command. -/
def Instr.wellFormed : Instr → Bool
  | .define _ p => RequestBody.wellFormed (.define p)
  | .badKind _ k => RequestBody.wellFormed (.badKind k)
  | .requestFetchHeld r => r.body.wellFormed
  | .registerWrite offset value => offset.toNat % 4 == 0 && !writeHasOwnRow offset value
  | .dieTransferEnd _ data storedCrc => data.length == 4096 && storedCrc.length == 4
  | .programDataPhaseEnd _ data => data.length == 4096
  | .setPin _ _ _ | .retire _ _ _ | .loadHead _ _ | .unloadHead _ _ | .configureMemory _ _ | .start _ _ | .release _ _
  | .stop _ _ | .retune _ _ | .run _ | .halt _ | .locate _ _ | .setPace _ _ | .store _ _ | .probeDie _ _ | .reviveDie _ _
  | .tuneEngine _ _ | .requestFetchFailed | .requestNextRereadEnd _ | .statusWriteFailed | .requestListPointer _
  | .requestResume | .bufferListPointer _ | .bufferResume | .bufferFetchArrival _ _ _ | .bufferFetchFailed
  | .bufferNextRereadEnd _ | .dataDelivery | .endDelivery | .deliveryWriteFailed | .panic | .engineReset
  | .engineResetClear | .interruptStatusWrite _ | .interruptMaskWrite _ | .counterWrite _ | .inspectCapture _ _ _
  | .inspectPageSelect _ | .wideRegisterUpperWrite _ _ | .wideRegisterLowerRead _ | .msiEnableChange _ _ | .powerOn
  | .linkReset | .periodExpiry | .clockLoss | .fetchEnqueue | .diePollInterval _ | .dieAddressAck _
  | .dieAddressRefused _ | .dieReadyAnswer _ _ | .dieBusyAnswer _ _ | .readTimeout _ | .pollTimeout _
  | .programDmaFailed _ | .programTimeout _ | .wordClockEdge => true

end Sys2Proof
end

