-- ==== Sys2Proof/Decode.lean ====
section
/-! DEFINITION. Reading commands from bits. The opcode table gives no row any bits, so `decodeTableWord` answers none.
The layouts of 11_formats.md do give bits: a request descriptor (11.3), a buffer descriptor (11.4) and the register map
(11.1) are read here, each field once. -/

namespace Sys2Proof

/-- The command that a word spells by the opcode table's bits: no row gives any. -/
def decodeTableWord (_nbits _w : Nat) : Option Instr := none

/-- The little-endian number in `size` bytes at `offset` (11_formats.md: little-endian byte order). -/
def leField (bytes : List Byte) (offset : Nat) : (size : Nat) → Nat
  | 0 => 0
  | size + 1 => (bytes.getD offset 0#8).toNat + 256 * leField bytes (offset + 1) size

/-- The 15 extent entries at 0x28: 8 bytes each, of which 2 are reserved (11.3). -/
def decodeExtents (d : List Byte) : List RawExtent :=
  (List.range 15).map fun n =>
    { start := BitVec.ofNat 32 (leField d (0x28 + 8 * n) 4), count := BitVec.ofNat 16 (leField d (0x2C + 8 * n) 2) }

/-- The 8 span entries at 0xA0: 4 bytes each (11.3). -/
def decodeSpans (d : List Byte) : List RawSpan :=
  (List.range 8).map fun n =>
    { skip := BitVec.ofNat 16 (leField d (0xA0 + 4 * n) 2), count := BitVec.ofNat 16 (leField d (0xA2 + 4 * n) 2) }

/-- A byte of the descriptor. -/
def byteAt (d : List Byte) (offset : Nat) : Byte := d.getD offset 0#8

/-- A little-endian field of the descriptor as a bit vector of its width. -/
def fieldAt (d : List Byte) (offset size : Nat) : BitVec (8 * size) := BitVec.ofNat (8 * size) (leField d offset size)

/-- A record named at 0x10 and 0x12. -/
def recordNameAt (d : List Byte) : RecordName := { id := fieldAt d 0x10 2, generation := fieldAt d 0x12 2 }

/-- A voice named at 0x10 and 0x12. -/
def voiceNameAt (d : List Byte) : VoiceName := { slot := fieldAt d 0x10 2, generation := fieldAt d 0x12 2 }

/-- A lead class entry of TUNE_ENGINE: target then tolerance. -/
def leadAt (d : List Byte) (offset : Nat) : RawLead := { target := byteAt d offset, tolerance := byteAt d (offset + 1) }

/-- DEFINE's parameters (11.3). -/
def defineAt (d : List Byte) : DefineParams :=
  { id := fieldAt d 0x10 2, format := byteAt d 0x12, extentCount := byteAt d 0x13, spanCount := byteAt d 0x14
    options := byteAt d 0x15, headBlocks := fieldAt d 0x16 2, length := fieldAt d 0x18 4, loopStart := fieldAt d 0x1C 4
    loopEnd := fieldAt d 0x20 4, expectedCrc := fieldAt d 0x24 4, extents := decodeExtents d, spans := decodeSpans d }

/-- START's parameters (11.3). -/
def startAt (d : List Byte) : StartParams :=
  { sample := recordNameAt d, offset := fieldAt d 0x14 4, position := fieldAt d 0x18 8, rate := fieldAt d 0x20 4
    priority := byteAt d 0x24, leadClass := byteAt d 0x25, loopFollow := byteAt d 0x26, cookie := fieldAt d 0x28 4 }

/-- TUNE_ENGINE's parameters (11.3). -/
def tuneAt (d : List Byte) : TuneParams :=
  { mask := fieldAt d 0x10 4, voiceLimit := fieldAt d 0x14 2, retryLimit := byteAt d 0x16, pollInterval := byteAt d 0x17
    readTimeout := byteAt d 0x18, programTimeout := byteAt d 0x19, programGuard := byteAt d 0x1A
    loadAllowance := byteAt d 0x1B, coalescingCount := byteAt d 0x1C, ageLimit := byteAt d 0x1D
    priorityThreshold := byteAt d 0x1E, lead0 := leadAt d 0x20, lead1 := leadAt d 0x22, lead2 := leadAt d 0x24
    lead3 := leadAt d 0x26 }

/-- The request body of a descriptor with kind code `k` (11.3); a code of no kind is a bad kind (R169, R188). -/
def decodeBody (d : List Byte) (k : BitVec 16) : RequestBody :=
  match k.toNat with
  | 0x01 => .define (defineAt d)
  | 0x02 => .setPin (recordNameAt d) (byteAt d 0x14)
  | 0x03 => .retire (recordNameAt d) (byteAt d 0x14)
  | 0x04 => .loadHead (recordNameAt d)
  | 0x05 => .unloadHead (recordNameAt d)
  | 0x06 => .configureMemory
      { headBands := byteAt d 0x10, slotBlocks := fieldAt d 0x12 2, windowBlocks := fieldAt d 0x14 2 }
  | 0x10 => .start (startAt d)
  | 0x11 => .release (voiceNameAt d)
  | 0x12 => .stop (voiceNameAt d)
  | 0x13 => .retune
      { voice := voiceNameAt d, presence := byteAt d 0x14, rate := fieldAt d 0x18 4, priority := byteAt d 0x1C
        leadClass := byteAt d 0x1D }
  | 0x20 => .run
  | 0x21 => .halt
  | 0x22 => .locate (fieldAt d 0x10 8)
  | 0x23 => .setPace { source := byteAt d 0x10, rateCode := byteAt d 0x11, periodCode := byteAt d 0x12 }
  | 0x30 => .store { host := fieldAt d 0x10 8, first := fieldAt d 0x18 4, count := fieldAt d 0x1C 2 }
  | 0x31 => .probeDie (byteAt d 0x10)
  | 0x32 => .reviveDie (byteAt d 0x10)
  | 0x40 => .tuneEngine (tuneAt d)
  | _ => .badKind k

/-- A request descriptor of 256 bytes, read whole (R166, 11.3). Its status area is not used. -/
def decodeDescriptor (d : List Byte) : Option Request :=
  if d.length = 256 then
    some { header := { next := fieldAt d 0x00 8, tag := fieldAt d 0x08 4, flags := fieldAt d 0x0E 2 }
           body := decodeBody d (fieldAt d 0x0C 2) }
  else none

/-- The event that the arrival of a request is: the take of its kind's row. -/
def Request.arrival (r : Request) : Instr :=
  match r.body with
  | .define p => .define r.header p
  | .setPin n p => .setPin r.header n p
  | .retire n f => .retire r.header n f
  | .loadHead n => .loadHead r.header n
  | .unloadHead n => .unloadHead r.header n
  | .configureMemory p => .configureMemory r.header p
  | .start p => .start r.header p
  | .release v => .release r.header v
  | .stop v => .stop r.header v
  | .retune p => .retune r.header p
  | .run => .run r.header
  | .halt => .halt r.header
  | .locate p => .locate r.header p
  | .setPace p => .setPace r.header p
  | .store p => .store r.header p
  | .probeDie d => .probeDie r.header d
  | .reviveDie d => .reviveDie r.header d
  | .tuneEngine p => .tuneEngine r.header p
  | .badKind k => .badKind r.header k

/-- A buffer descriptor fetch of bytes 0x00 to 0x17: next pointer, buffer address and the done flag, bit 0 of byte 0x10
(11.4). -/
def decodeBufferDescriptor (d : List Byte) : Option Instr :=
  if d.length = 24 then
    some (.bufferFetchArrival (fieldAt d 0x00 8) (fieldAt d 0x08 8) ((byteAt d 0x10).toNat % 2 == 1))
  else none

/-- The stored CRC that a die gives up after a block's data: 4 bytes, least significant first (R123). -/
def transferCrc (stored : List Byte) : Word := fieldAt stored 0 4

/-- The command that a 32-bit write at an offset of the register window is (11.1). -/
def decodeRegisterWrite (offset : BitVec 12) (value : Word) : Instr :=
  match offset.toNat with
  | 0x004 =>
    match value.toNat % 4 with
    | 1 => .panic
    | 2 => .engineReset
    | _ => .registerWrite offset value
  | 0x010 => .requestListPointer value
  | 0x014 => .wideRegisterUpperWrite .requestListPointer value
  | 0x018 => .requestResume
  | 0x028 => .bufferListPointer value
  | 0x02C => .wideRegisterUpperWrite .bufferListPointer value
  | 0x030 => .bufferResume
  | 0x040 => .interruptStatusWrite value
  | 0x044 => .interruptMaskWrite value
  | 0x050 => .counterWrite .blockCheck
  | 0x054 => .counterWrite .unrecovered
  | 0x058 => .counterWrite .underrun
  | 0x05C => .counterWrite .starve
  | 0x060 => .counterWrite .steal
  | 0x074 => .wideRegisterUpperWrite .transportPosition value
  | 0x07C => .wideRegisterUpperWrite .periodIndex value
  | 0x080 =>
    if value.toNat.testBit 7 then .inspectCapture (value.extractLsb' 0 3) (value.extractLsb' 8 24) (value.toNat.testBit 3)
    else .inspectPageSelect (value.toNat.testBit 3)
  | n =>
    if 0x100 ≤ n ∧ n < 0x180 ∧ n % 8 = 4 then
      .wideRegisterUpperWrite (.inspectData (Fin.ofNat 16 ((n - 0x100) / 8))) value
    else .registerWrite offset value

end Sys2Proof
end

