-- ==== Sys2Proof/Config.lean ====
section
/-! DEFINITION. What the part fixes once and for all (00_scope.md, The card; the limits its rules name), and the
free values: constants with no body for what the spec leaves open, so that no proof can see them. -/

namespace Sys2Proof.Config

/-- A block holds 4,096 bytes (00_scope.md, The card). -/
def blockBytes : Nat := 4096

/-- DRAM blocks in one band of 256 MiB (02, section 2.1). -/
def bandBlocks : Nat := 65536

/-- DRAM bands (02, section 2.1). -/
def bands : Nat := 64

/-- Store block addresses lie in 0 .. 2^30 − 1 (00_scope.md, Store addresses). -/
def storeBlocks : Nat := 2 ^ 30

/-- Dies on the card (00_scope.md, The card). -/
def dies : Nat := 16

/-- Voice slots (00_scope.md, The card). -/
def voiceSlots : Nat := 1024

/-- Head slots and windows never exceed these counts (R29). -/
def maxHeadSlots : Nat := 65536

/-- See `maxHeadSlots`. -/
def maxWindows : Nat := 1024

/-- The Fetch Queue holds at most 4,096 entries (R108). -/
def queueLimit : Nat := 4096

/-- At most four STOREs are in flight (R131, R132). -/
def storeLimit : Nat := 4

/-- A die's poll list holds at most four requests (R119, R127, R128). -/
def pollLimit : Nat := 4

/-- The limit of the stream counts, 2^32 − 1 (R61). -/
def streamLimit : Nat := 2 ^ 32 - 1

/-- The largest value of C in units of 1 / 65,536 frame: 32.16 fixed point (R48, R67). -/
def consumedLimit : Nat := 2 ^ 48 - 1

/-- FREE VALUE (log 6, DESIGN CHOICE). A return word of a DONE status that no rule states, of the request whose take
had the given order; the second argument is the word's number. -/
opaque unstatedWord : Nat → Nat → Word

/-- FREE VALUE (log 7, DESIGN CHOICE). Whether the die's arbiter takes a just enqueued load entry before the load fails at
its next head block on an OFFLINE die; applied to the counter `State.freeCount`. The spec leaves the order open (R111). -/
opaque dieChoosesFirst : Nat → Bool

end Sys2Proof.Config
end

