-- ==== Sys2Proof/Machine/State.lean ====
section
/-! DEFINITION. The state of the part as plain data: every record, register, queue and mark the spec gives it, block by
block, and the state right after power-on. Counts, positions and indexes are numbers; what a register or a descriptor
holds as bits is a bit vector. -/

namespace Sys2Proof.Machine

/-- Sparse data by number in one canonical form: keys strictly rising, no entry equal to the table's blank value. -/
abbrev Table (α : Type) := List (Nat × α)

/-! ### The Sample Catalog and the Head Store (01, 02) -/

/-- The five sample formats (00_scope.md, Sample formats). -/
inductive Format where
  | m16 | s16 | m32 | s32 | q32
  deriving DecidableEq, Repr

/-- The six record states (1.1). -/
inductive RecordState where
  | vacant | defined | loading | resident | stale | retiring
  deriving DecidableEq, Repr

/-- Why a record last entered STALE (R6). -/
inductive StaleReason where
  | none | mismatch | blockError | dieOffline | overwritten
  deriving DecidableEq, Repr

/-- A run of consecutive store block addresses (R3). -/
structure Extent where
  start : Nat
  count : Nat
  deriving DecidableEq, Repr

/-- One span of a signature: bytes passed, then bytes taken (R40). -/
structure Span where
  skip : Nat
  count : Nat
  deriving DecidableEq, Repr

/-- The loop body: source frames start .. stop − 1 (R5). -/
structure Loop where
  start : Nat
  stop : Nat
  deriving DecidableEq, Repr

/-- The optional check on a head (R5, R40). -/
structure Signature where
  spans : List Span
  expected : Word
  deriving DecidableEq, Repr

/-- What DEFINE sets and the record keeps until VACANT, the pin apart (R1). -/
structure Layout where
  format : Format
  length : Nat
  extents : List Extent
  headBlocks : Nat
  loop : Option Loop
  signature : Option Signature
  deriving DecidableEq, Repr

/-- A completion token of a long request (R170): descriptor address, tag, NOTIFY, and the order of its take. -/
structure Token where
  address : HostAddr
  tag : Word
  notify : Bool
  order : Nat
  deriving DecidableEq, Repr

/-- A load in progress (R36). The record's id and generation are those of the record that holds it; head blocks from
`nextBlock` on are not yet queued; `arrived` lists the head blocks arrived. -/
structure Load where
  slot : Nat
  nextBlock : Nat
  arrived : List Nat
  evicted : Option (Generation × Nat)
  token : Token
  deriving DecidableEq, Repr

/-- A sample record (1.1) with the load the Head Store holds against it (R36) and the token of a RETIRE pending on it. -/
structure Record where
  state : RecordState
  generation : Generation
  layout : Option Layout
  pin : Bool
  refs : Nat
  headSlot : Option Nat
  staleReason : StaleReason
  loadReads : Nat
  load : Option Load
  retire : Option Token
  deriving DecidableEq, Repr

/-- The VACANT record of a generation (R1). -/
def Record.vacant (g : Generation) : Record :=
  { state := .vacant, generation := g, layout := none, pin := false, refs := 0, headSlot := none, staleReason := .none
    loadReads := 0, load := none, retire := none }

/-- Every record at power-on: VACANT with generation 0 (R26). -/
def Record.blank : Record := Record.vacant 0#16

/-- A RECLAIMING head slot with its outstanding-read count and the record of its load (R32). -/
structure Reclaim where
  slot : Nat
  outstanding : Nat
  id : Nat
  generation : Generation
  deriving DecidableEq, Repr

/-- The DRAM partition settings H, S and W (R29). -/
structure Partition where
  headBands : Nat
  slotBlocks : Nat
  windowBlocks : Nat
  deriving DecidableEq, Repr

/-! ### The Staging Pool (02) -/

/-- The run of frames a window place holds (R43). -/
structure Run where
  block : Nat
  source : Nat
  frames : Nat
  stream : Nat
  damaged : Bool
  deriving DecidableEq, Repr

/-- A window place (R43). -/
inductive Place where
  | empty
  | awaited (run : Run)
  | filled (run : Run)
  deriving DecidableEq, Repr

/-- A staging window: its places that are not EMPTY, the fill point and the delivery point (R43). -/
structure Window where
  places : Table Place
  fill : Nat
  delivery : Nat
  deriving DecidableEq, Repr

/-- A window as START finds it: every place EMPTY, both points at place 0 (R43). -/
def Window.blank : Window := { places := [], fill := 0, delivery := 0 }

/-! ### The Voice Table (03) -/

/-- The six voice states, in the order of their codes (11.1). -/
inductive VoiceState where
  | free | priming | playing | releasing | draining | ending
  deriving DecidableEq, Repr

/-- Why a voice ended (3.1). -/
inductive EndReason where
  | natural | stopped | stolen | located | retired | stale | panic
  deriving DecidableEq, Repr

/-- The fetch cursor (3.4). -/
structure Cursor where
  source : Nat
  stream : Nat
  atEnd : Bool
  deriving DecidableEq, Repr

/-- The Delivery Engine's record of a voice slot (R146). -/
structure DeliveryRecord where
  source : Nat
  latestWrap : Option Nat
  loopedPending : Bool
  deriving DecidableEq, Repr

/-- A delivery record as the resets leave it (R162). -/
def DeliveryRecord.blank : DeliveryRecord := { source := 0, latestWrap := none, loopedPending := false }

/-- A voice record (3.1) with its delivery record (R146). Rates are 16.16 and C is 32.16, both in units of 1 / 65,536. -/
structure Voice where
  state : VoiceState
  generation : Generation
  sampleId : Nat
  sampleGeneration : Generation
  headMode : Bool
  window : Nat
  startOffset : Nat
  position : Nat
  rate : Nat
  pendingRate : Option Nat
  priority : Nat
  leadClass : Nat
  loopFollow : Bool
  released : Bool
  cookie : Word
  startSequence : Nat
  cursor : Cursor
  scheduled : Nat
  delivered : Nat
  consumed : Nat
  total : Option Nat
  starved : Bool
  underruns : Nat
  reads : Nat
  endReason : Option EndReason
  endPosted : Bool
  firstDelivery : Bool
  delivery : DeliveryRecord
  deriving DecidableEq, Repr

/-- Every voice slot at power-on (R76). -/
def Voice.blank : Voice :=
  { state := .free, generation := 0#16, sampleId := 0, sampleGeneration := 0#16, headMode := false, window := 0
    startOffset := 0, position := 0, rate := 0, pendingRate := none, priority := 0, leadClass := 0, loopFollow := false
    released := false, cookie := 0#32, startSequence := 0, cursor := { source := 0, stream := 0, atEnd := false }
    scheduled := 0, delivered := 0, consumed := 0, total := none, starved := false, underruns := 0, reads := 0
    endReason := none, endPosted := false, firstDelivery := false, delivery := DeliveryRecord.blank }

/-! ### The Pace Timer (04) -/

/-- The pace sources (4.1). -/
inductive PaceSource where
  | internal | external
  deriving DecidableEq, Repr

/-- The pace states, in the order of their codes (11.1). -/
inductive PaceState where
  | internal | externalLocked | freewheel
  deriving DecidableEq, Repr

/-- Settings a SET_PACE carries (4.4). -/
structure PaceSettings where
  source : PaceSource
  internalRate : Nat
  period : Nat
  deriving DecidableEq, Repr

/-- The pace and transport record (4.1). -/
structure Pace where
  source : PaceSource
  internalRate : Nat
  state : PaceState
  period : Nat
  frame : Nat
  index : Nat
  clockPresent : Bool
  pending : Option (PaceSettings × Token)
  running : Bool
  haltPending : Option Token
  position : Nat
  deriving DecidableEq, Repr

/-! ### The Fetch Scheduler (05) -/

/-- One lead class: target and tolerance in periods (R97). -/
structure LeadClass where
  target : Nat
  tolerance : Nat
  deriving DecidableEq, Repr

/-- Who a fetch entry reads for (R105): a voice's slot and generation, or a load's record id and generation. -/
inductive Owner where
  | voice (slot : Nat) (generation : Generation)
  | load (id : Nat) (generation : Generation)
  deriving DecidableEq, Repr

/-- Where a read's block goes (R105): a window place, or a head block of a head slot. -/
inductive Destination where
  | place (window : Nat) (index : Nat)
  | headBlock (slot : Nat) (index : Nat)
  deriving DecidableEq, Repr

/-- One pending block read (R105). -/
structure FetchEntry where
  owner : Owner
  address : Nat
  destination : Destination
  deadline : Nat
  stamp : Nat
  deriving DecidableEq, Repr

/-! ### The Die Controllers (06) -/

/-- The five die states, in the order of their codes (11.1). -/
inductive DieState where
  | ready | addressing | polling | transferring | offline
  deriving DecidableEq, Repr

/-- One entry of a die's program queue (R132): the STORE's table place, the block and its host address. -/
structure ProgramEntry where
  place : Nat
  address : Nat
  host : HostAddr
  deriving DecidableEq, Repr

/-- What a die is asked to do (R120). -/
inductive Work where
  | read (entry : FetchEntry)
  | program (entry : ProgramEntry)
  | poll
  deriving DecidableEq, Repr

/-- A die's current operation (R119), with the poll interval and timeout it started with (R130). -/
structure Operation where
  work : Work
  attempt : Nat
  discard : Bool
  pollInterval : Nat
  timeout : Nat
  deriving DecidableEq, Repr

/-- One request of a die's poll list (R119): PROBE_DIE, or REVIVE_DIE. -/
structure PollRequest where
  revive : Bool
  token : Token
  deriving DecidableEq, Repr

/-- A die record (R119) with the controller's transfer buffer (R123). -/
structure Die where
  state : DieState
  operation : Option Operation
  retries : Nat
  programs : List ProgramEntry
  polls : List PollRequest
  buffer : List Byte
  deriving DecidableEq, Repr

/-- Every die at power-on (R137). -/
def Die.blank : Die := { state := .ready, operation := none, retries := 0, programs := [], polls := [], buffer := [] }

/-- One entry of the STOREs-in-flight table (R132); the failure is the block that failed it. -/
structure StoreEntry where
  place : Nat
  token : Token
  first : Nat
  count : Nat
  host : HostAddr
  programmed : Nat
  queued : Nat
  inFlight : Nat
  failure : Option Nat
  deriving DecidableEq, Repr

/-! ### The Delivery Engine (07) -/

/-- The Delivery Engine's states (R141). -/
inductive DeliveryState where
  | idle | active | parked
  deriving DecidableEq, Repr

/-- The Delivery Engine's park reasons, in the order of their codes from 1 (11.1). -/
inductive BufferPark where
  | endOfList | notReclaimed | linkError
  deriving DecidableEq, Repr

/-- The link read the Delivery Engine has in flight or due in ACTIVE. -/
inductive BufferRead where
  | none | descriptor | next
  deriving DecidableEq, Repr

/-- The Delivery Engine's record (7.2). In ACTIVE, `holding` tells HOLDING from FETCHING; `waiting` marks a fetch due
that waits for the end of an engine reset (R163). `rereads` counts the next-pointer reads that Buffer Resume writes have begun
in PARKED (R144); `lateRereads` those in flight whose descriptor the engine has left (log 44). -/
structure DeliveryEngine where
  state : DeliveryState
  holding : Bool
  address : HostAddr
  heldNext : Option HostAddr
  heldBuffer : Option HostAddr
  parkReason : Option BufferPark
  usedMark : Bool
  resumePending : Bool
  read : BufferRead
  rereads : Nat
  lateRereads : Nat
  waiting : Bool
  noticeCount : Nat
  noticeStamp : Option Nat
  count : Word
  deriving DecidableEq, Repr

/-- The Delivery Engine at power-on and after a link reset (R162). -/
def DeliveryEngine.blank : DeliveryEngine :=
  { state := .idle, holding := false, address := 0#64, heldNext := none, heldBuffer := none, parkReason := none
    usedMark := false, resumePending := false, read := .none, rereads := 0, lateRereads := 0, waiting := false
    noticeCount := 0, noticeStamp := none, count := 0#32 }

/-! ### The Request Processor (08) -/

/-- The Request Processor's states (R164). -/
inductive ProcessorState where
  | idle | fetching | parked
  deriving DecidableEq, Repr

/-- The Request Processor's park reasons, in the order of their codes from 1 (11.1). -/
inductive RequestPark where
  | endOfList | linkError
  deriving DecidableEq, Repr

/-- The link read the Request Processor has in flight or due in FETCHING: a descriptor, or a next pointer read again by an
advance (R167) or by a resume that an engine reset made wait (R168, R174). -/
inductive RequestRead where
  | none | descriptor | nextAtAdvance | nextAtResume
  deriving DecidableEq, Repr

/-- The Request Processor's record (8.1). In FETCHING, `waiting` tells WAITING from READING; `held` is a descriptor
that arrived untaken during an engine reset (R166). `rereads` counts the next-pointer reads that Request Resume writes have
begun in PARKED (R168); `lateRereads` those in flight whose descriptor the processor has left (log 44). -/
structure RequestProcessor where
  state : ProcessorState
  waiting : Bool
  address : HostAddr
  heldNext : Option HostAddr
  parkReason : Option RequestPark
  takenMark : Bool
  resumePending : Bool
  takenCount : Word
  lastTag : Word
  read : RequestRead
  rereads : Nat
  lateRereads : Nat
  held : Option Request
  deriving DecidableEq, Repr

/-- The Request Processor at power-on and after a link reset (R175). -/
def RequestProcessor.blank : RequestProcessor :=
  { state := .idle, waiting := false, address := 0#64, heldNext := none, parkReason := none, takenMark := false
    resumePending := false, takenCount := 0#32, lastTag := 0#32, read := .none, rereads := 0
    lateRereads := 0, held := none }

/-- The result codes in the order of section 8.4. -/
inductive Result where
  | ok | okLate | abandoned | badKind | badParam | noRecord | recordBusy | sampleStale | sampleRetiring | noVoice
  | noWindow | outranked | noHeadSlot | staleVoice | notEmpty | busy | claimed | dieOffline | blockError
  | signatureMismatch | noClock | ready | absent
  deriving DecidableEq, Repr

/-- A long or immediate request whose DONE status is to be written (R170). -/
structure Completion where
  token : Token
  result : Result
  word0 : Word
  word1 : Word
  deriving DecidableEq, Repr

/-! ### The Register Window (09) -/

/-- The engine states (R178). -/
inductive EngineState where
  | ready | resetting
  deriving DecidableEq, Repr

/-- The five counters (R183). -/
structure Counters where
  blockCheck : Nat
  unrecovered : Nat
  underrun : Nat
  starve : Nat
  steal : Nat
  deriving DecidableEq, Repr

/-- The Register Window's own state (R186); the holds of a wide register stand at its number. -/
structure RegisterWindow where
  engine : EngineState
  status : BitVec 10
  mask : BitVec 10
  msiEnable : Bool
  msiVector : Word
  counters : Counters
  selectTable : BitVec 3
  selectIndex : BitVec 24
  selectPage : Bool
  snapshot : List (BitVec 64)
  writeHolds : Table Word
  readHolds : Table Word
  deriving DecidableEq, Repr

/-- No counts (R183). -/
def Counters.zero : Counters := { blockCheck := 0, unrecovered := 0, underrun := 0, starve := 0, steal := 0 }

/-- The Register Window at power-on (R186); the message vector is the model's (log 21, DESIGN CHOICE). -/
def RegisterWindow.blank : RegisterWindow :=
  { engine := .ready, status := 0#10, mask := 0#10, msiEnable := false, msiVector := 0#32, counters := Counters.zero
    selectTable := 0#3, selectIndex := 0#24, selectPage := false, snapshot := List.replicate 32 0#64, writeHolds := []
    readHolds := [] }

/-- The tunables of TUNE_ENGINE (8.6). -/
structure Tunables where
  voiceLimit : Nat
  leadClasses : Vector LeadClass 4
  retryLimit : Nat
  pollInterval : Nat
  readTimeout : Nat
  programTimeout : Nat
  programGuard : Nat
  loadAllowance : Nat
  coalescingCount : Nat
  ageLimit : Nat
  priorityThreshold : Nat
  deriving DecidableEq, Repr

/-- The power-on values of section 8.6. -/
def Tunables.powerOn : Tunables :=
  { voiceLimit := 960, leadClasses := #v[⟨4, 1⟩, ⟨8, 2⟩, ⟨16, 4⟩, ⟨32, 8⟩], retryLimit := 2, pollInterval := 4
    readTimeout := 20, programTimeout := 20, programGuard := 4, loadAllowance := 64, coalescingCount := 16, ageLimit := 1
    priorityThreshold := 12 }

/-! ### What leaves the part -/

/-- One thing the part has put on the host link or on a die's bus (log 10). -/
inductive Output where
  /-- A posted link write of bytes at a host address. -/
  | hostWrite (address : HostAddr) (bytes : List Byte)
  /-- A link read begun, of so many bytes. -/
  | hostRead (address : HostAddr) (bytes : Nat)
  /-- One message-signalled interrupt (R182). -/
  | message (vector : Word)
  /-- The value a register read returned. -/
  | readData (value : Word)
  /-- A die-local block index sent in an address phase (R122, R133). -/
  | dieAddress (die : Nat) (index : Nat)
  /-- One poll of a die (R122, R127, R133). -/
  | diePoll (die : Nat)
  /-- The bytes a program gives to a die, in order: the block's data, then its block CRC (R133). -/
  | dieProgram (die : Nat) (bytes : List Byte)
  deriving DecidableEq, Repr

/-! ### The whole part -/

/-- THE STATE. The last six fields are the model's own: commands waiting, what left the part, the count of takes that
orders completions (R170), the completions of the event under way, the counter of the free value of log 7. -/
structure State where
  registers : RegisterWindow
  requests : RequestProcessor
  stores : List StoreEntry
  catalog : Table Record
  partition : Partition
  dram : List Host.Cell
  reclaiming : List Reclaim
  recency : List Nat
  windows : Table Window
  voices : Table Voice
  startCount : Nat
  pace : Pace
  queue : List FetchEntry
  enqueueCount : Nat
  dies : Table Die
  delivery : DeliveryEngine
  tunables : Tunables
  out : List Output
  takes : Nat
  completions : List Completion
  freeCount : Nat
  pending : List Instr
  deriving DecidableEq, Repr

/-- Why the part stops: the spec names no condition that stops it, so there is none. -/
inductive Fault where
  deriving DecidableEq, Repr

/-- Why the model gives a command no meaning. -/
inductive Refusal where
  /-- Raised only by an arm of `exec` whose command has no meaning yet (safe); no arm is so. -/
  | notModelled (mnemonic : String)
  deriving DecidableEq, Repr

/-- The Pace Timer at power-on (R94). -/
def Pace.powerOn : Pace :=
  { source := .internal, internalRate := 48000, state := .internal, period := 256, frame := 0, index := 0
    clockPresent := false, pending := none, running := false, haltPending := none, position := 0 }

/-- The part right after power-on (R26, R29, R46, R76, R94, R118, R137, R162, R175, R186). -/
def State.reset : State :=
  { registers := RegisterWindow.blank, requests := RequestProcessor.blank, stores := [], catalog := []
    partition := { headBands := 32, slotBlocks := 32, windowBlocks := 64 }, dram := [], reclaiming := [], recency := []
    windows := [], voices := [], startCount := 0, pace := Pace.powerOn, queue := [], enqueueCount := 0, dies := []
    delivery := DeliveryEngine.blank, tunables := Tunables.powerOn, out := [], takes := 0, completions := []
    freeCount := 0, pending := [] }

end Sys2Proof.Machine
end

