-- ==== Sys2Proof/Machine/Ops.lean ====
section
/-! DEFINITION. Named operations shared by every meaning: tables in canonical form, searches for the lowest free number,
the DRAM by byte, and the State's records by number. -/

namespace Sys2Proof.Machine

/-! ### Tables -/

/-- The value at a key; `blank` where nothing is listed. -/
def Table.get {α : Type} (blank : α) : Table α → Nat → α
  | [], _ => blank
  | (k', v) :: rest, k => if k' = k then v else Table.get blank rest k

/-- Put a listed value at a key, keeping the keys rising. -/
def Table.insert {α : Type} (k : Nat) (v : α) : Table α → Table α
  | [] => [(k, v)]
  | (k', v') :: rest =>
    if k < k' then (k, v) :: (k', v') :: rest
    else if k = k' then (k, v) :: rest
    else (k', v') :: Table.insert k v rest

/-- Remove a key. -/
def Table.erase {α : Type} (k : Nat) (t : Table α) : Table α := t.filter fun e => e.1 != k

/-- Set the value at a key; the blank value is not listed. -/
def Table.set {α : Type} [DecidableEq α] (blank : α) (t : Table α) (k : Nat) (v : α) : Table α :=
  if v = blank then Table.erase k t else Table.insert k v t

/-- Apply a function to every listed value, dropping those that become blank. -/
def Table.update {α : Type} [DecidableEq α] (blank : α) (f : Nat → α → α) (t : Table α) : Table α :=
  t.filterMap fun e => if f e.1 e.2 = blank then none else some (e.1, f e.1 e.2)

/-- The listed keys, in rising order. -/
def Table.keys {α : Type} (t : Table α) : List Nat := t.map Prod.fst

/-- A table is in canonical form: keys strictly rising, no blank value listed. -/
def Table.wf {α : Type} [DecidableEq α] (blank : α) (t : Table α) : Bool :=
  decide (t.Pairwise fun a b => a.1 < b.1) && t.all fun e => decide (e.2 ≠ blank)

/-! ### Searches -/

/-- The first number from `k` on, within `fuel` numbers, that satisfies `p`. -/
def findFrom (p : Nat → Bool) : (fuel k : Nat) → Option Nat
  | 0, _ => none
  | fuel + 1, k => if p k then some k else findFrom p fuel (k + 1)

/-- The lowest number below `bound` that satisfies `p`. -/
def lowest (p : Nat → Bool) (bound : Nat) : Option Nat := findFrom p bound 0

/-- Whether one key comes before another, number by number from the left. -/
def keyBefore : List Nat → List Nat → Bool
  | a :: as, b :: bs => a < b || (a == b && keyBefore as bs)
  | _, _ => false

/-- The choice with the least key; the first of equals. -/
def leastBy {α : Type} (key : α → List Nat) : List α → Option α
  | [] => none
  | x :: xs =>
    match leastBy key xs with
    | none => some x
    | some y => if keyBefore (key y) (key x) then some y else some x

/-! ### The DRAM -/

/-- What a byte of the DRAM that nothing has written reads as (log 8, DESIGN CHOICE). -/
def dramBlank : Byte := 0#8

/-- One byte of the DRAM. -/
def Memory.read : List Host.Cell → Nat → Byte
  | [], _ => dramBlank
  | (a', b) :: rest, a => if a' = a then b else Memory.read rest a

/-- The cells of consecutive bytes from an address, those that read as unlisted left out. -/
def Memory.cells : Nat → List Byte → List Host.Cell
  | _, [] => []
  | a, b :: bs => if b = dramBlank then Memory.cells (a + 1) bs else (a, b) :: Memory.cells (a + 1) bs

/-- Write consecutive bytes from an address. -/
def Memory.write (m : List Host.Cell) (a : Nat) (bytes : List Byte) : List Host.Cell :=
  m.filter (fun c => c.1 < a) ++ Memory.cells a bytes ++ m.filter (fun c => a + bytes.length ≤ c.1)

/-- Consecutive bytes from an address. -/
def Memory.readRange (m : List Host.Cell) (a : Nat) : (count : Nat) → List Byte
  | 0 => []
  | count + 1 => Memory.read m a :: Memory.readRange m (a + 1) count

/-- The DRAM is in canonical form: addresses strictly rising, no cell equal to what an unlisted address reads as. -/
def Memory.wf (m : List Host.Cell) : Bool :=
  decide (m.Pairwise fun a b => a.1 < b.1) && m.all fun c => decide (c.2 ≠ dramBlank)

/-! ### Records of the state by number -/

/-- A catalog record (1.1). -/
def State.record (s : State) (id : Nat) : Record := Table.get Record.blank s.catalog id

/-- Set a catalog record. -/
def State.setRecord (s : State) (id : Nat) (r : Record) : State :=
  { s with catalog := Table.set Record.blank s.catalog id r }

/-- A voice slot's record (3.1). -/
def State.voice (s : State) (slot : Nat) : Voice := Table.get Voice.blank s.voices slot

/-- Set a voice slot's record. -/
def State.setVoice (s : State) (slot : Nat) (v : Voice) : State :=
  { s with voices := Table.set Voice.blank s.voices slot v }

/-- A staging window (R43). -/
def State.window (s : State) (w : Nat) : Window := Table.get Window.blank s.windows w

/-- Set a staging window. -/
def State.setWindow (s : State) (w : Nat) (x : Window) : State :=
  { s with windows := Table.set Window.blank s.windows w x }

/-- A die record (R119). -/
def State.die (s : State) (d : Nat) : Die := Table.get Die.blank s.dies d

/-- Set a die record. -/
def State.setDie (s : State) (d : Nat) (x : Die) : State := { s with dies := Table.set Die.blank s.dies d x }

/-- A place of a window. -/
def Window.place (w : Window) (i : Nat) : Place := Table.get Place.empty w.places i

/-- Set a place of a window. -/
def Window.setPlace (w : Window) (i : Nat) (p : Place) : Window :=
  { w with places := Table.set Place.empty w.places i p }

/-- Put one more thing on the link or on a die's bus. -/
def State.emit (s : State) (o : Output) : State := { s with out := s.out ++ [o] }

/-- Whether an engine reset is in progress (R178). -/
def State.resetting (s : State) : Bool := s.registers.engine == .resetting

/-- A die is OFFLINE (R120). -/
def State.dieOffline (s : State) (d : Nat) : Bool := (s.die d).state == .offline

/-- A voice in PRIMING, PLAYING, RELEASING or DRAINING is sounding (3.2). -/
def Voice.sounding (v : Voice) : Bool :=
  match v.state with
  | .priming | .playing | .releasing | .draining => true
  | .free | .ending => false

/-- The sounding slots in rising order. -/
def State.soundingSlots (s : State) : List Nat := (s.voices.filter fun e => e.2.sounding).map Prod.fst

/-- The sounding count (3.2). -/
def State.soundingCount (s : State) : Nat := s.soundingSlots.length

/-- The lead class entry of a voice as it stands (R97). -/
def State.leadClass (s : State) (v : Voice) : LeadClass := s.tunables.leadClasses[v.leadClass]?.getD ⟨1, 0⟩

/-- The layout of the record a voice plays. -/
def State.layoutOf (s : State) (v : Voice) : Option Layout := (s.record v.sampleId).layout

/-- The die of a store block address (R119). -/
def dieOf (address : Nat) : Nat := address % Config.dies

/-- The die-local block index of a store block address (R119). -/
def dieIndex (address : Nat) : Nat := address / Config.dies

/-- The entries of a die's sub-queue, in order (R109). -/
def State.subQueue (s : State) (d : Nat) : List FetchEntry := s.queue.filter fun e => dieOf e.address == d

/-- Every die has no operation in flight (R179). -/
def State.noOperation (s : State) : Bool := s.dies.all fun e => e.2.operation.isNone

/-- EMPTY: every record VACANT, every voice FREE, no STORE in flight (R30, R180). -/
def State.isEmpty (s : State) : Bool :=
  s.catalog.all (fun e => e.2.state == .vacant) && s.voices.all (fun e => e.2.state == .free) && s.stores.isEmpty

end Sys2Proof.Machine
end

