-- ==== Sys2Proof/Machine/Flags.lean ====
section
/-! DEFINITION. Interrupt flags, their mask and the message (R181, R182), the counters (R183), and the flags of a DATA
delivery (R154). -/

namespace Sys2Proof.Machine

/-- The ten flags of Interrupt Status, by their positions (11.1). -/
inductive Flag where
  | requestDone | delivery | priorityDelivery | bufferParked | leadLow | underrun | blockFault | dieFault | paceLost
  | portError
  deriving DecidableEq, Repr

/-- A flag's position (11.1). -/
def Flag.position : Flag → Nat
  | .requestDone => 0
  | .delivery => 1
  | .priorityDelivery => 2
  | .bufferParked => 3
  | .leadLow => 4
  | .underrun => 5
  | .blockFault => 6
  | .dieFault => 7
  | .paceLost => 8
  | .portError => 9

/-- The word with the flag's bit alone. -/
def Flag.bit (f : Flag) : BitVec 10 := 1#10 <<< f.position

/-- A source latches a flag (R181); the mask has no part in it. -/
def State.latch (s : State) (f : Flag) : State :=
  { s with registers := { s.registers with status := s.registers.status ||| f.bit } }

/-- A flag is latched. -/
def State.latched (s : State) (f : Flag) : Bool := s.registers.status.getLsbD f.position

/-- The masked status (R182). -/
def State.maskedStatus (s : State) : BitVec 10 := s.registers.status &&& s.registers.mask

/-- A message is wanted while messages are enabled and the masked status is not empty (R182). -/
def State.messageWanted (s : State) : Bool := s.registers.msiEnable && s.maskedStatus != 0#10

/-- One message at an event that takes the part from no message wanted to one wanted (R182): a latch, a mask write, or the
enabling of messages. `before` is the state the event found. -/
def sendMessage (before after : State) : State :=
  if !before.messageWanted && after.messageWanted then after.emit (.message after.registers.msiVector) else after

/-- A counter rises by one, saturating at 65,535 (R183). -/
def Counters.rise (c : Counters) : CounterName → Counters
  | .blockCheck => { c with blockCheck := satInc 65535 c.blockCheck }
  | .unrecovered => { c with unrecovered := satInc 65535 c.unrecovered }
  | .underrun => { c with underrun := satInc 65535 c.underrun }
  | .starve => { c with starve := satInc 65535 c.starve }
  | .steal => { c with steal := satInc 65535 c.steal }

/-- A counter is set to 0 (R183). -/
def Counters.clear (c : Counters) : CounterName → Counters
  | .blockCheck => { c with blockCheck := 0 }
  | .unrecovered => { c with unrecovered := 0 }
  | .underrun => { c with underrun := 0 }
  | .starve => { c with starve := 0 }
  | .steal => { c with steal := 0 }

/-- A counter's value. -/
def Counters.value (c : Counters) : CounterName → Nat
  | .blockCheck => c.blockCheck
  | .unrecovered => c.unrecovered
  | .underrun => c.underrun
  | .starve => c.starve
  | .steal => c.steal

/-- A counter of the Register Window rises. -/
def State.count (s : State) (c : CounterName) : State :=
  { s with registers := { s.registers with counters := s.registers.counters.rise c } }

/-- The flags of a DATA delivery (R154). -/
structure DeliveryFlags where
  first : Bool
  looped : Bool
  damaged : Bool
  late : Bool
  final : Bool
  deriving DecidableEq, Repr

/-- The flags byte (11.4). 11.4 names bits 0 to 4 alone: the model writes bits 7:5 as 0 (log 40, DESIGN CHOICE). -/
def DeliveryFlags.code (f : DeliveryFlags) : Nat :=
  f.first.toNat + 2 * f.looped.toNat + 4 * f.damaged.toNat + 8 * f.late.toNat + 16 * f.final.toNat

end Sys2Proof.Machine
end

