-- ==== Sys2Proof/Machine/Formats.lean ====
section
/-! DEFINITION. The codes of 11_formats.md and the byte layouts of the statuses the part writes (11.3, 11.4, R189). -/

namespace Sys2Proof.Machine

/-- The `n` bytes of a number, little-endian (11_formats.md). -/
def leBytes : (n : Nat) → Nat → List Byte
  | 0, _ => []
  | n + 1, v => BitVec.ofNat 8 v :: leBytes n (v / 256)

/-- Bytes per frame (00_scope.md, Sample formats). -/
def Format.frameBytes : Format → Nat
  | .m16 => 2
  | .s16 => 4
  | .m32 => 4
  | .s32 => 8
  | .q32 => 16

/-- Frames per block, fpb (00_scope.md, Sample formats). -/
def Format.framesPerBlock : Format → Nat
  | .m16 => 2048
  | .s16 => 1024
  | .m32 => 1024
  | .s32 => 512
  | .q32 => 256

/-- M16 0 to Q32 4 (11.2). -/
def Format.code : Format → Nat
  | .m16 => 0
  | .s16 => 1
  | .m32 => 2
  | .s32 => 3
  | .q32 => 4

/-- VACANT 0 to RETIRING 5 (11.2). -/
def RecordState.code : RecordState → Nat
  | .vacant => 0
  | .defined => 1
  | .loading => 2
  | .resident => 3
  | .stale => 4
  | .retiring => 5

/-- NONE 0 to OVERWRITTEN 4 (11.2). -/
def StaleReason.code : StaleReason → Nat
  | .none => 0
  | .mismatch => 1
  | .blockError => 2
  | .dieOffline => 3
  | .overwritten => 4

/-- The voice state codes (11.1). -/
def VoiceState.code : VoiceState → Nat
  | .free => 0
  | .priming => 1
  | .playing => 2
  | .releasing => 3
  | .draining => 4
  | .ending => 5

/-- The end reason codes (11.1); none is 0. -/
def endReasonCode : Option EndReason → Nat
  | none => 0
  | some .natural => 1
  | some .stopped => 2
  | some .stolen => 3
  | some .located => 4
  | some .retired => 5
  | some .stale => 6
  | some .panic => 7

/-- The pace state codes (11.1). -/
def PaceState.code : PaceState → Nat
  | .internal => 0
  | .externalLocked => 1
  | .freewheel => 2

/-- The die state codes (11.1). -/
def DieState.code : DieState → Nat
  | .ready => 0
  | .addressing => 1
  | .polling => 2
  | .transferring => 3
  | .offline => 4

/-- Result codes run in the order of the table in section 8.4 (11.3). -/
def Result.code : Result → Nat
  | .ok => 0
  | .okLate => 1
  | .abandoned => 2
  | .badKind => 3
  | .badParam => 4
  | .noRecord => 5
  | .recordBusy => 6
  | .sampleStale => 7
  | .sampleRetiring => 8
  | .noVoice => 9
  | .noWindow => 10
  | .outranked => 11
  | .noHeadSlot => 12
  | .staleVoice => 13
  | .notEmpty => 14
  | .busy => 15
  | .claimed => 16
  | .dieOffline => 17
  | .blockError => 18
  | .signatureMismatch => 19
  | .noClock => 20
  | .ready => 21
  | .absent => 22

/-- Bytes 0xF0 to 0xFF of a request descriptor (11.3, R189): state, result, return words, reserved bytes 0. -/
def requestStatusBytes (state : Nat) (result : Nat) (word0 word1 : Word) : List Byte :=
  leBytes 1 state ++ leBytes 1 0 ++ leBytes 2 result ++ leBytes 4 0 ++ leBytes 4 word0.toNat ++ leBytes 4 word1.toNat

/-- The host address of a request descriptor's status area (11.3). -/
def requestStatusAddress (descriptor : HostAddr) : HostAddr := descriptor + 0xF0#64

/-- The TAKEN status: state 1, result and return words 0 (R170, R189). -/
def takenBytes : List Byte := requestStatusBytes 1 0 0#32 0#32

/-- The DONE status: state 2 with result and return words (R170). -/
def doneBytes (result : Result) (word0 word1 : Word) : List Byte := requestStatusBytes 2 result.code word0 word1

/-- What a delivery status says (R155). -/
structure DeliveryStatus where
  kind : Nat
  flags : Nat
  endReason : Nat
  slot : Nat
  generation : Generation
  cookie : Word
  sampleId : Nat
  sampleGeneration : Generation
  stream : Nat
  source : Nat
  frames : Nat
  byteOffset : Nat
  deriving DecidableEq, Repr

/-- Bytes 0x10 to 0x2F of a buffer descriptor (11.4, R189), the done flag set. The spec does not say what bits 7:1 of byte 0x10
and bytes 0x2C to 0x2F are written as: the model writes them as 0 (log 40, DESIGN CHOICE). -/
def deliveryStatusBytes (x : DeliveryStatus) : List Byte :=
  leBytes 1 1 ++ leBytes 1 x.kind ++ leBytes 1 x.flags ++ leBytes 1 x.endReason ++ leBytes 2 x.slot ++
    leBytes 2 x.generation.toNat ++ leBytes 4 x.cookie.toNat ++ leBytes 2 x.sampleId ++
    leBytes 2 x.sampleGeneration.toNat ++ leBytes 4 x.stream ++ leBytes 4 x.source ++ leBytes 2 x.frames ++
    leBytes 2 x.byteOffset ++ leBytes 4 0

/-- The host address of a buffer descriptor's status area (11.4). -/
def deliveryStatusAddress (descriptor : HostAddr) : HostAddr := descriptor + 0x10#64

end Sys2Proof.Machine
end

