-- ==== Sys2Proof/Machine/Crc.lean ====
section
/-! DEFINITION. The CRC-32 of blocks and signatures (R40, R123, R133) and the byte sequence of a signature's spans. -/

namespace Sys2Proof.Machine

/-- One shift of the CRC register: right by one place, and the reflected polynomial when the bit shifted out was 1 (R40). -/
def crcShift (r : Word) : Word :=
  if r.getLsbD 0 then (r >>> 1) ^^^ 0xEDB88320#32 else r >>> 1

/-- One byte into the CRC register: combined into the low eight bits, then eight shifts (R40). -/
def crcByte (r : Word) (b : Byte) : Word :=
  let r := r ^^^ b.setWidth 32
  crcShift (crcShift (crcShift (crcShift (crcShift (crcShift (crcShift (crcShift r)))))))

/-- The CRC of a byte sequence (R40): from all ones, inverted at the end. -/
def crc32 (bytes : List Byte) : Word := ~~~ (bytes.foldl crcByte 0xFFFFFFFF#32)

/-- A block's data bytes with their block CRC after them, least significant byte first, as a die takes them (R133). -/
def withBlockCrc (data : List Byte) : List Byte := data ++ leBytes 4 (crc32 data).toNat

/-- The bytes the spans draw from the bytes that follow the position (R40). -/
def spanBytes : List Span → List Byte → List Byte
  | [], _ => []
  | sp :: rest, bytes => (bytes.drop sp.skip).take sp.count ++ spanBytes rest (bytes.drop (sp.skip + sp.count))

/-- The DRAM address of head slot `n` (R29). -/
def State.slotBase (s : State) (n : Nat) : Nat := n * s.partition.slotBlocks * Config.blockBytes

/-- The DRAM address of a place of staging window `w` (R29). -/
def State.placeBase (s : State) (w i : Nat) : Nat :=
  (s.partition.headBands * Config.bandBlocks + w * s.partition.windowBlocks + i) * Config.blockBytes

/-- The signature CRC of a head in a slot (R40). -/
def State.signatureCrc (s : State) (slot : Nat) (l : Layout) (g : Signature) : Word :=
  crc32 (spanBytes g.spans (Memory.readRange s.dram (s.slotBase slot) (l.headBlocks * Config.blockBytes)))

end Sys2Proof.Machine
end

