-- ==== Sys2Proof/Machine/Completion.lean ====
section
/-! DEFINITION. Status writeback (R170, R171): completions gathered during an event and written, in the order their
requests were taken, when it ends. -/

namespace Sys2Proof.Machine

/-- An owner reports a completion (R170); the DONE write is made by `State.flush`. -/
def State.complete (s : State) (t : Token) (r : Result) (word0 word1 : Word) : State :=
  { s with completions := { token := t, result := r, word0 := word0, word1 := word1 } :: s.completions }

/-- A completion whose return words no rule states (log 6). -/
def State.completeUnstated (s : State) (t : Token) (r : Result) : State :=
  s.complete t r (Config.unstatedWord t.order 0) (Config.unstatedWord t.order 1)

/-- A refusal with both return words zero, as most kinds' rules state. -/
def State.refuse (s : State) (t : Token) (r : Result) : State := s.complete t r 0#32 0#32

/-- One DONE write: the status, the Last Completed Tag, and REQUEST_DONE when NOTIFY is set (R171). -/
def State.writeDone (s : State) (c : Completion) : State :=
  let s := s.emit (.hostWrite (requestStatusAddress c.token.address) (doneBytes c.result c.word0 c.word1))
  let s := { s with requests := { s.requests with lastTag := c.token.tag } }
  if c.token.notify then s.latch .requestDone else s

/-- The TAKEN write of a long request (R170): it moves neither the tag nor the flag (R171). -/
def State.writeTaken (s : State) (t : Token) : State :=
  s.emit (.hostWrite (requestStatusAddress t.address) takenBytes)

/-- Put a completion in its place by the order of the takes. -/
def insertCompletion (c : Completion) : List Completion → List Completion
  | [] => [c]
  | x :: xs => if x.token.order ≤ c.token.order then x :: insertCompletion c xs else c :: x :: xs

/-- Completions in the order their requests were taken (R170). -/
def sortCompletions : List Completion → List Completion
  | [] => []
  | x :: xs => insertCompletion x (sortCompletions xs)

/-- The DONE writes of the event's completions, in the order those requests were taken (R170). -/
def State.flush (s : State) : State :=
  (sortCompletions s.completions).foldl State.writeDone { s with completions := [] }

end Sys2Proof.Machine
end

