-- ==== Sys2Proof/Machine/Catalog.lean ====
section
/-! DEFINITION. The Sample Catalog's shared operations (01): naming, the extent map, claims, the way to VACANT. -/

namespace Sys2Proof.Machine

/-- A request names a record when it is not VACANT and holds the named generation (R2). -/
def State.names (s : State) (n : RecordName) : Bool :=
  (s.record n.id.toNat).state != .vacant && (s.record n.id.toNat).generation == n.generation

/-- The sum of the extents' block counts (1.1). -/
def totalBlocks (extents : List Extent) : Nat := (extents.map Extent.count).sum

/-- The store block address of sample block `k` (R3). -/
def blockAddress : List Extent → (k : Nat) → Option Nat
  | [], _ => none
  | e :: rest, k => if k < e.count then some (e.start + k) else blockAddress rest (k - e.count)

/-- Head frames: the smaller of head blocks × fpb and the length (1.1). -/
def Layout.headFrames (l : Layout) : Nat := min (l.headBlocks * l.format.framesPerBlock) l.length

/-- Some extent has a block in the range of `count` blocks from `first` (R9, R23). -/
def extentsMeet (extents : List Extent) (first count : Nat) : Bool :=
  extents.any fun e => e.start < first + count && first < e.start + e.count

/-- A record has an extent block in a range (R23). -/
def Record.meets (r : Record) (first count : Nat) : Bool :=
  match r.layout with
  | none => false
  | some l => extentsMeet l.extents first count

/-- Some extent block lies in the range of a STORE in flight (R9, R23). -/
def State.storeClaims (s : State) (extents : List Extent) : Bool :=
  s.stores.any fun x => extentsMeet extents x.first x.count

/-- A record forbids a STORE over its blocks (R23). -/
def Record.forbidsStore (r : Record) : Bool :=
  r.state == .loading || r.state == .resident || r.state == .retiring || 0 < r.refs

/-- Entry to VACANT (R18): the record keeps its generation alone, leaves the recency list, and its head slot is free with
its head slot field. -/
def State.toVacant (s : State) (id : Nat) : State :=
  let s' := s.setRecord id (Record.vacant (s.record id).generation)
  { s' with recency := s.recency.filter (· != id) }

/-- A RETIRING record whose reference count and load reads in flight are both 0 becomes VACANT and its RETIRE completes OK
(R17). -/
def State.settleRetiring (s : State) (id : Nat) : State :=
  let r := s.record id
  if r.state = .retiring ∧ r.refs = 0 ∧ r.loadReads = 0 then
    match r.retire with
    | some t => (s.completeUnstated t .ok).toVacant id
    | none => s.toVacant id
  else s

/-- A voice that names the record enters ENDING: the reference count falls by one (R12), and a RETIRING record may become
VACANT (R17). -/
def State.dropReference (s : State) (id : Nat) (g : Generation) : State :=
  let r := s.record id
  if r.state ≠ .vacant ∧ r.generation = g then
    (s.setRecord id { r with refs := r.refs - 1 }).settleRetiring id
  else s

/-- A STORE marks a record it overlaps (R24). -/
def Record.overwrite (first count : Nat) (r : Record) : Record :=
  if r.meets first count then
    match r.state with
    | .defined | .stale => { r with state := .stale, staleReason := .overwritten }
    | .vacant | .loading | .resident | .retiring => r
  else r

/-- A RESIDENT record moves to the front of the recency list, the others keeping their order (R33). -/
def State.touch (s : State) (id : Nat) : State :=
  { s with recency := id :: s.recency.filter (· != id) }

/-- A record leaves the recency list (R33). -/
def State.leaveRecency (s : State) (id : Nat) : State := { s with recency := s.recency.filter (· != id) }

end Sys2Proof.Machine
end

