-- ==== Sys2Proof/Machine/Voices.lean ====
section
/-! DEFINITION. The Voice Table's shared operations (03): entry to ENDING, return to FREE, the choice of slots, windows and
victims, and the run a voice is given next. -/

namespace Sys2Proof.Machine

/-- A sounding voice names a record by id and generation (R12). -/
def Voice.plays (v : Voice) (id : Nat) (g : Generation) : Bool :=
  v.sounding && v.sampleId == id && v.sampleGeneration == g

/-- The sounding slots that name a record, in rising order. -/
def State.slotsPlaying (s : State) (id : Nat) (g : Generation) : List Nat :=
  (s.voices.filter fun e => e.2.plays id g).map Prod.fst

/-- The sounding slots in head mode that name a record, in rising order. -/
def State.headSlotsPlaying (s : State) (id : Nat) (g : Generation) : List Nat :=
  (s.voices.filter fun e => e.2.plays id g && e.2.headMode).map Prod.fst

/-- Which places of a window the given entries are to fill. -/
def placesOf (entries : List FetchEntry) : List Nat :=
  entries.filterMap fun e =>
    match e.destination with
    | .place _ i => some i
    | .headBlock _ _ => none

/-- A window emptied at an entry to ENDING (R45): FILLED places and AWAITED places whose entry was still queued become
EMPTY; an AWAITED place whose read is in flight stays. -/
def Window.endEmpty (w : Window) (queued : List Nat) : Window :=
  { w with places := Table.update Place.empty (fun i p =>
      match p with
      | .awaited r => if queued.contains i then .empty else .awaited r
      | .empty | .filled _ => .empty) w.places }

/-- A fetch entry is one voice's. -/
def FetchEntry.ofVoice (e : FetchEntry) (slot : Nat) (g : Generation) : Bool := e.owner == .voice slot g

/-- A sounding voice enters ENDING with a reason (R45, R71, R110): its queued entries leave the Fetch Queue, its window is
emptied, its pending rate is dropped, its record's reference count falls. A voice no longer sounding is left as it is
(R70). -/
def State.endVoice (reason : EndReason) (s : State) (slot : Nat) : State :=
  let v := s.voice slot
  if v.sounding then
    let queued := placesOf (s.queue.filter fun e => e.ofVoice slot v.generation)
    let s1 := { s with queue := s.queue.filter fun e => !e.ofVoice slot v.generation }
    let s2 := s1.setWindow v.window ((s.window v.window).endEmpty queued)
    let s3 := s2.setVoice slot { v with state := .ending, endReason := some reason, pendingRate := none }
    s3.dropReference v.sampleId v.sampleGeneration
  else s

/-- Several voices end at one event with the same reason (R70). -/
def State.endVoices (reason : EndReason) (s : State) (slots : List Nat) : State := slots.foldl (State.endVoice reason) s

/-- An ENDING voice becomes FREE when its END is posted and no read is in flight (R73); its window returns to the pool
with every place EMPTY. -/
def State.settleFree (s : State) (slot : Nat) : State :=
  let v := s.voice slot
  if v.state = .ending ∧ v.endPosted = true ∧ v.reads = 0 then
    (s.setWindow v.window Window.blank).setVoice slot { v with state := .free }
  else s

/-- The lowest-numbered FREE slot (R51, R54). -/
def State.lowestFreeSlot (s : State) : Option Nat := lowest (fun n => (s.voice n).state == .free) Config.voiceSlots

/-- The window count (R29). -/
def Partition.windowCount (p : Partition) : Nat :=
  min Config.maxWindows ((Config.bands - p.headBands) * Config.bandBlocks / p.windowBlocks)

/-- The head slot count (R29). -/
def Partition.slotCount (p : Partition) : Nat := min Config.maxHeadSlots (p.headBands * Config.bandBlocks / p.slotBlocks)

/-- A window is free when no voice slot that is not FREE holds it (R42). -/
def State.windowFree (s : State) (w : Nat) : Bool :=
  s.voices.all fun e => e.2.state == .free || e.2.window != w

/-- The lowest-numbered free window (R42). -/
def State.lowestFreeWindow (s : State) : Option Nat := lowest s.windowFree s.partition.windowCount

/-- The steal choice (R53): lowest priority; then RELEASING or DRAINING before PRIMING or PLAYING; then smallest start
sequence. -/
def Voice.victimKey (v : Voice) : List Nat :=
  [v.priority, (match v.state with | .releasing | .draining => 0 | .free | .priming | .playing | .ending => 1),
    v.startSequence]

/-- The victim of a steal among the sounding voices (R53). -/
def State.victim (s : State) : Option Nat := leastBy (fun n => (s.voice n).victimKey) s.soundingSlots

/-! ### Runs (section 3.4) -/

/-- A voice can wrap at all: the record has a loop, loop follow is set, and the frame is below the loop end (R58, R61). -/
def Voice.loopAhead (v : Voice) (l : Layout) (source : Nat) : Bool :=
  match l.loop with
  | some lp => v.loopFollow && source < lp.stop
  | none => false

/-- The voice is wrapping: it can wrap and is unreleased (R58). -/
def Voice.wrapping (v : Voice) (l : Layout) : Bool := v.loopAhead l v.cursor.source && !v.released

/-- The source frame at which the next run ends (R58). -/
def Voice.runEnd (v : Voice) (l : Layout) : Nat :=
  let blockEnd := (v.cursor.source / l.format.framesPerBlock + 1) * l.format.framesPerBlock
  let stop := match l.loop with
    | some lp => if v.wrapping l then lp.stop else l.length
    | none => l.length
  min (min blockEnd stop) l.length

/-- The frames of the next run (R58). -/
def Voice.runFrames (v : Voice) (l : Layout) : Nat := v.runEnd l - v.cursor.source

/-- The next run would not carry the stream count beyond 2^32 − 1 (R61). -/
def Voice.runFits (v : Voice) (l : Layout) : Bool := v.cursor.stream + v.runFrames l ≤ Config.streamLimit

/-- The cursor is brought to the end where it stands (R60, R61): at-end mark, total, and DRAINING from PLAYING or
RELEASING. -/
def Voice.reachEnd (v : Voice) : Voice :=
  { v with
    cursor := { v.cursor with atEnd := true }
    total := some v.cursor.stream
    state := match v.state with
      | .playing | .releasing => .draining
      | .free => .free
      | .priming => .priming
      | .draining => .draining
      | .ending => .ending }

/-- The cursor after a run that ended at source frame `stop`: it wraps at the loop end of a wrapping voice (R59, R146),
or reaches the sample end (R60), or stands there. `v` is the voice before the run. -/
def Voice.afterRun (v : Voice) (l : Layout) (moved : Voice) : Voice :=
  match l.loop with
  | some lp =>
    if v.wrapping l && moved.cursor.source == lp.stop then
      { moved with
        cursor := { moved.cursor with source := lp.start }
        delivery := { moved.delivery with latestWrap := some moved.cursor.stream } }
    else if moved.cursor.source == l.length then moved.reachEnd
    else moved
  | none => if moved.cursor.source == l.length then moved.reachEnd else moved

/-- The voice after its next run is given (R58 to R61): the cursor and the scheduled frames move by the run's frames, or
the cursor is brought to the end at the stream limit. -/
def Voice.giveRun (v : Voice) (l : Layout) : Voice :=
  if v.runFits l then
    v.afterRun l
      { v with
        cursor := { v.cursor with source := v.runEnd l, stream := v.cursor.stream + v.runFrames l }
        scheduled := v.scheduled + v.runFrames l }
  else v.reachEnd

/-- The run at the cursor, as a window place describes it (R43). -/
def Voice.nextRun (v : Voice) (l : Layout) (damaged : Bool) : Run :=
  { block := v.cursor.source / l.format.framesPerBlock, source := v.cursor.source, frames := v.runFrames l
    stream := v.cursor.stream, damaged := damaged }

/-- The next run is head-sourced (R58). -/
def Voice.headNext (v : Voice) (l : Layout) : Bool := v.headMode && v.cursor.source < l.headFrames

end Sys2Proof.Machine
end

