-- ==== Sys2Proof/Machine/HeadStore.lean ====
section
/-! DEFINITION. The Head Store's shared operations (02): the slot pool, eviction, and the ends of a load. -/

namespace Sys2Proof.Machine

/-- A head slot is HELD by a record (R31). -/
def State.slotHeld (s : State) (n : Nat) : Bool := s.catalog.any fun e => e.2.headSlot == some n

/-- A head slot is RECLAIMING (R32). -/
def State.slotReclaiming (s : State) (n : Nat) : Bool := s.reclaiming.any fun r => r.slot == n

/-- A head slot is FREE (R31). -/
def State.slotFree (s : State) (n : Nat) : Bool := !s.slotHeld n && !s.slotReclaiming n

/-- The lowest-numbered FREE head slot (R34). -/
def State.lowestFreeHeadSlot (s : State) : Option Nat := lowest s.slotFree s.partition.slotCount

/-- The eviction victim: from the back of the recency list, the first record unpinned and with reference count 0 (R35). -/
def State.evictionVictim (s : State) : Option Nat :=
  s.recency.reverse.find? fun id => !(s.record id).pin && (s.record id).refs == 0

/-- The queued entries of a load leave the Fetch Queue (R111). -/
def State.dropLoadEntries (s : State) (id : Nat) (g : Generation) : State :=
  { s with queue := s.queue.filter fun e => e.owner != .load id g }

/-- A load gives up its slot: RECLAIMING while its reads are outstanding, FREE otherwise (R31, R32). -/
def State.releaseSlot (s : State) (slot reads id : Nat) (g : Generation) : State :=
  if 0 < reads then
    { s with reclaiming := s.reclaiming ++ [{ slot := slot, outstanding := reads, id := id, generation := g }] }
  else s

/-- The record's load is no more: no load, no head slot. -/
def Record.withoutLoad (r : Record) : Record := { r with load := none, headSlot := none }

/-- A LOADING record's load is abandoned (R15, R41): entries leave the queue, waiting head-mode voices end with the reason,
the LOAD_HEAD completes ABANDONED, the slot is released. The record's state is the caller's. -/
def State.abandonLoad (s : State) (id : Nat) (reason : EndReason) : State :=
  let r := s.record id
  match r.load with
  | none => s
  | some l =>
    let s1 := s.dropLoadEntries id r.generation
    let s2 := s1.endVoices reason (s1.headSlotsPlaying id r.generation)
    let s3 := s2.complete l.token .abandoned (BitVec.ofNat 32 l.arrived.length) 0#32
    (s3.setRecord id (s3.record id).withoutLoad).releaseSlot l.slot r.loadReads id r.generation

/-- Why a load fails (R39). -/
inductive LoadFailure where
  | blockError (block : Nat)
  | dieOffline (block : Nat)
  | mismatch (computed expected : Word)
  deriving DecidableEq, Repr

/-- The stale reason of a failed load (R39). -/
def LoadFailure.staleReason : LoadFailure → StaleReason
  | .blockError _ => .blockError
  | .dieOffline _ => .dieOffline
  | .mismatch _ _ => .mismatch

/-- The LOAD_HEAD's final status of a failed load: result and return words (R38, R39). -/
def LoadFailure.complete (f : LoadFailure) (s : State) (l : Load) : State :=
  match f with
  | .blockError k => s.complete l.token .blockError (BitVec.ofNat 32 k) (BitVec.ofNat 32 l.arrived.length)
  | .dieOffline k => s.complete l.token .dieOffline (BitVec.ofNat 32 k) (BitVec.ofNat 32 l.arrived.length)
  | .mismatch c e => s.complete l.token .signatureMismatch c e

/-- A running load fails (R39): its queued entries leave, every sounding voice naming the record ends STALE, the record
becomes STALE, the LOAD_HEAD completes, the slot is released. A record no longer LOADING has no load to fail (R20). -/
def State.failLoad (s : State) (id : Nat) (f : LoadFailure) : State :=
  let r := s.record id
  match r.load with
  | none => s
  | some l =>
    let s1 := s.dropLoadEntries id r.generation
    let s2 := s1.endVoices .stale (s1.slotsPlaying id r.generation)
    let s3 := f.complete s2 l
    (s3.setRecord id { (s3.record id).withoutLoad with state := .stale, staleReason := f.staleReason }).releaseSlot
      l.slot r.loadReads id r.generation

/-- The return word naming an evicted record (R38): generation in the upper 16 bits, id in the lower, or 0. -/
def evictedWord : Option (Generation × Nat) → Word
  | none => 0#32
  | some (g, id) => BitVec.ofNat 32 (g.toNat * 65536 + id)

/-- A load ends well (R37): the record becomes RESIDENT at the front of the recency list and its LOAD_HEAD completes OK. -/
def State.finishLoad (s : State) (id : Nat) (l : Load) : State :=
  let r := s.record id
  let s1 := s.setRecord id { r with state := .resident, load := none }
  (s1.touch id).complete l.token .ok (BitVec.ofNat 32 l.slot) (evictedWord l.evicted)

/-- The last head block has arrived: without a signature, or with a matching one, the load is good; otherwise it fails with
SIGNATURE_MISMATCH (R37, R40). -/
def State.judgeLoad (s : State) (id : Nat) (layout : Layout) (l : Load) : State :=
  match layout.signature with
  | none => s.finishLoad id l
  | some g =>
    let computed := s.signatureCrc l.slot layout g
    if computed = g.expected then s.finishLoad id l else s.failLoad id (.mismatch computed g.expected)

/-- A read of a failed or abandoned load ends (R32): the slot's outstanding count falls, and the slot becomes FREE at 0. -/
def lowerReclaim (slot id : Nat) (g : Generation) (rs : List Reclaim) : List Reclaim :=
  rs.filterMap fun r =>
    if r.slot = slot ∧ r.id = id ∧ r.generation = g then
      if r.outstanding ≤ 1 then none else some { r with outstanding := r.outstanding - 1 }
    else some r

end Sys2Proof.Machine
end

