-- ==== Sys2Proof/Machine/Fetch.lean ====
section
/-! DEFINITION. The Fetch Scheduler (05): horizons and deadlines, candidates, the giving of head-sourced, silent and
store-sourced runs, the enqueue. Frame quantities compared with C are in units of 1 / 65,536 frame. -/

namespace Sys2Proof.Machine

/-- One frame in units of C. -/
def frameUnits (f : Nat) : Nat := f * 65536

/-- A voice's horizon: C + (T + tolerance) × P × rate (R98). -/
def State.horizon (s : State) (v : Voice) : Nat :=
  v.consumed + ((s.leadClass v).target + (s.leadClass v).tolerance) * s.pace.period * v.rate

/-- The deadline of a stream frame: the period index plus the least n with n × P × rate at or above f − C (R99). -/
def State.deadline (s : State) (v : Voice) (f : Nat) : Nat :=
  let step := s.pace.period * v.rate
  s.pace.index + (frameUnits f - v.consumed + (step - 1)) / step

/-- A voice that may be given its next run: in PRIMING, PLAYING or RELEASING, not at its end, and below its horizon (R100,
R101). -/
def State.runDue (s : State) (v : Voice) : Bool :=
  (match v.state with
    | .priming | .playing | .releasing => true
    | .free | .draining | .ending => false) &&
    !v.cursor.atEnd && frameUnits v.cursor.stream < s.horizon v

/-- A head-sourced run is due (R100). -/
def State.headRunDue (s : State) (v : Voice) (l : Layout) : Bool := s.runDue v && v.headNext l

/-- The place at a voice's fill point is EMPTY (R101). -/
def State.fillPointEmpty (s : State) (v : Voice) : Bool :=
  (s.window v.window).place (s.window v.window).fill == .empty

/-- A voice is a fetch candidate (R101). -/
def State.candidate (s : State) (v : Voice) (l : Layout) : Bool := s.runDue v && !v.headNext l && s.fillPointEmpty v

/-- A voice's candidate block's store block address (R101, R3). -/
def Voice.candidateAddress (v : Voice) (l : Layout) : Option Nat :=
  blockAddress l.extents (v.cursor.source / l.format.framesPerBlock)

/-- The candidate block's die is OFFLINE (R106). -/
def State.candidateOffline (s : State) (v : Voice) (l : Layout) : Bool :=
  match v.candidateAddress l with
  | some a => s.dieOffline (dieOf a)
  | none => false

/-- A window takes a run at its fill point, and the fill point advances in ring order (R43, R44). -/
def State.fillPlace (s : State) (w : Nat) (p : Place) : State :=
  let x := s.window w
  s.setWindow w { (x.setPlace x.fill p) with fill := (x.fill + 1) % s.partition.windowBlocks }

/-- The frames of a damaged place are written as zero (R44). -/
def State.zeroRun (s : State) (w i : Nat) (r : Run) (format : Format) : State :=
  let start := s.placeBase w i + r.source % format.framesPerBlock * format.frameBytes
  { s with dram := Memory.write s.dram start (List.replicate (r.frames * format.frameBytes) 0#8) }

/-- A silent place: the run of a block on an OFFLINE die, FILLED with zero frames and damaged (R106); at the stream limit
no run is given (R61). -/
def State.giveSilent (s : State) (slot : Nat) (v : Voice) (l : Layout) : State :=
  if v.runFits l then
    let r := v.nextRun l true
    ((s.zeroRun v.window (s.window v.window).fill r l.format).fillPlace v.window (.filled r)).setVoice slot (v.giveRun l)
  else s.setVoice slot (v.giveRun l)

/-- Give a voice its head-sourced runs and silent places while they are due (R100, R106), at most `fuel` of them. -/
def State.giveRuns : (fuel : Nat) → State → (slot : Nat) → State
  | 0, s, _ => s
  | fuel + 1, s, slot =>
    let v := s.voice slot
    match s.layoutOf v with
    | none => s
    | some l =>
      if s.headRunDue v l then State.giveRuns fuel (s.setVoice slot (v.giveRun l)) slot
      else if s.candidate v l && s.candidateOffline v l then State.giveRuns fuel (s.giveSilent slot v l) slot
      else s

/-- More runs than can be due before the cursor reaches the horizon: each carries at least one frame. -/
def State.runFuel (s : State) (v : Voice) : Nat := s.horizon v / 65536 + 2 - v.cursor.stream

/-- A voice is judged for its next runs (R100, R102, R106); during an engine reset no run is given (R117). -/
def State.settleVoice (s : State) (slot : Nat) : State :=
  if s.resetting then s else s.giveRuns (s.runFuel (s.voice slot)) slot

/-- Every voice is judged, slot by slot. -/
def State.settleVoices (s : State) : State := (Table.keys s.voices).foldl State.settleVoice s

/-- The store block address of a load's candidate block, its lowest head block not yet queued (R103). -/
def Record.loadAddress (r : Record) : Option Nat :=
  match r.load, r.layout with
  | some l, some y => if l.nextBlock < y.headBlocks then blockAddress y.extents l.nextBlock else none
  | _, _ => none

/-- A load fails when its candidate block lies on an OFFLINE die (R106); not during an engine reset (R117). -/
def State.settleLoad (s : State) (id : Nat) : State :=
  let r := s.record id
  match r.load, r.loadAddress with
  | some l, some a => if !s.resetting && s.dieOffline (dieOf a) then s.failLoad id (.dieOffline l.nextBlock) else s
  | _, _ => s

/-- Every load is judged, record by record. -/
def State.settleLoads (s : State) : State := (Table.keys s.catalog).foldl State.settleLoad s

/-! ### The fill arbiter -/

/-- A candidate block of the fill arbiter, on a die that is not OFFLINE (R104). -/
inductive Candidate where
  | load (id address : Nat)
  | voice (slot address : Nat)
  deriving DecidableEq, Repr

/-- The loads' candidate blocks (R103). -/
def State.loadCandidates (s : State) : List Candidate :=
  s.catalog.filterMap fun e =>
    match e.2.loadAddress with
    | some a => if s.dieOffline (dieOf a) then none else some (.load e.1 a)
    | none => none

/-- The voices' candidate blocks (R101). -/
def State.voiceCandidates (s : State) : List Candidate :=
  s.voices.filterMap fun e =>
    match s.layoutOf e.2 with
    | none => none
    | some l =>
      match e.2.candidateAddress l with
      | some a => if s.candidate e.2 l && !s.dieOffline (dieOf a) then some (.voice e.1 a) else none
      | none => none

/-- The deadline reckoned for a candidate at the choice (R99, R103). -/
def State.candidateDeadline (s : State) : Candidate → Nat
  | .load _ _ => s.pace.index + s.tunables.loadAllowance
  | .voice slot _ => s.deadline (s.voice slot) (s.voice slot).cursor.stream

/-- The arbiter's order (R104): earliest deadline; loads before voices, lowest record id first; then higher priority, then
lower slot. -/
def State.candidateKey (s : State) (c : Candidate) : List Nat :=
  match c with
  | .load id _ => [s.candidateDeadline c, 0, id, 0]
  | .voice slot _ => [s.candidateDeadline c, 1, 15 - (s.voice slot).priority, slot]

/-- The fill arbiter's choice: none while the queue is full or during an engine reset (R104, R108, R117). -/
def State.fillChoice (s : State) : Option Candidate :=
  if s.resetting || Config.queueLimit ≤ s.queue.length then none
  else leastBy s.candidateKey (s.loadCandidates ++ s.voiceCandidates)

/-- Put an entry in its place by deadline and age stamp (R109). -/
def insertEntry (e : FetchEntry) : List FetchEntry → List FetchEntry
  | [] => [e]
  | x :: xs => if keyBefore [e.deadline, e.stamp] [x.deadline, x.stamp] then e :: x :: xs else x :: insertEntry e xs

/-- An entry joins the queue with the next age stamp (R105). -/
def State.enqueue (s : State) (owner : Owner) (address : Nat) (destination : Destination) (deadline : Nat) : State :=
  let e : FetchEntry :=
    { owner := owner, address := address, destination := destination, deadline := deadline, stamp := s.enqueueCount }
  { s with queue := insertEntry e s.queue, enqueueCount := s.enqueueCount + 1 }

/-- An enqueue for a voice (R105): the run takes the place at the fill point, AWAITED, and its entry joins the queue. At
the stream limit no run is given (R61). -/
def State.enqueueVoice (s : State) (slot address : Nat) : State :=
  let v := s.voice slot
  match s.layoutOf v with
  | none => s
  | some l =>
    if v.runFits l then
      let i := (s.window v.window).fill
      let s1 := s.enqueue (.voice slot v.generation) address (.place v.window i) (s.deadline v v.cursor.stream)
      (s1.fillPlace v.window (.awaited (v.nextRun l false))).setVoice slot (v.giveRun l)
    else s.setVoice slot (v.giveRun l)

/-- An enqueue for a load (R105): its head block is marked queued. -/
def State.enqueueLoad (s : State) (id address : Nat) : State :=
  let r := s.record id
  match r.load with
  | none => s
  | some l =>
    let s1 := s.enqueue (.load id r.generation) address (.headBlock l.slot l.nextBlock)
      (s.pace.index + s.tunables.loadAllowance)
    s1.setRecord id { r with load := some { l with nextBlock := l.nextBlock + 1 } }

end Sys2Proof.Machine
end

