-- ==== Sys2Proof/Machine/Pace.lean ====
section
/-! DEFINITION. The Pace Timer (04) and what each owner does at an expiry: consumption, the way out of PRIMING, NATURAL
ends (03), the lead monitor (05), the notice age test (07). -/

namespace Sys2Proof.Machine

/-- The low 32 bits of a count, as a return word. -/
def lowWord (n : Nat) : Word := BitVec.ofNat 32 n

/-- Bits 47:32 of a count, as a return word. -/
def highWord (n : Nat) : Word := BitVec.ofNat 32 (n / 2 ^ 32 % 2 ^ 16)

/-- The pace state that a source gives (R85). -/
def paceStateFor (source : PaceSource) (clockPresent : Bool) : PaceState :=
  match source with
  | .internal => .internal
  | .external => if clockPresent then .externalLocked else .freewheel

/-- The result of an application of settings (R85). -/
def paceResult (source : PaceSource) (clockPresent : Bool) : Result :=
  match source with
  | .internal => .ok
  | .external => if clockPresent then .ok else .noClock

/-- The settings of a SET_PACE are applied (R85): rate, period length, source and pace state, the frame counter at 0; and
the SET_PACE is written DONE. -/
def State.applyPace (s : State) (x : PaceSettings) (t : Token) : State :=
  let state := paceStateFor x.source s.pace.clockPresent
  let p := { s.pace with source := x.source, internalRate := x.internalRate, period := x.period, state := state, frame := 0 }
  { s with pace := p }.complete t (paceResult x.source s.pace.clockPresent) (BitVec.ofNat 32 state.code) (lowWord s.pace.index)

/-- Consumption at an advancing expiry (R67): a pending rate takes effect, and C rises from `at` or the old position. -/
def Voice.consume (v : Voice) (old new : Nat) : Voice :=
  let rate := v.pendingRate.getD v.rate
  let consumed := if v.position ≤ new then min Config.consumedLimit (v.consumed + (new - max v.position old) * rate)
    else v.consumed
  { v with rate := rate, pendingRate := none, consumed := consumed }

/-- A PRIMING voice whose `at` lies below the new position leaves PRIMING (R68). -/
def Voice.leavePriming (v : Voice) (new : Nat) : Voice :=
  if v.state = .priming ∧ v.position < new then
    { v with state := if v.cursor.atEnd then .draining else if v.released then .releasing else .playing }
  else v

/-- What an advancing expiry does to each voice of the table: sounding voices alone (R67, R68). -/
def Voice.advance (old new : Nat) (v : Voice) : Voice :=
  if v.sounding then (v.consume old new).leavePriming new else v

/-- The slots the lead monitor tests: those in PLAYING or RELEASING when the expiry came (R113). -/
def State.leadTested (s : State) : List Nat :=
  (s.voices.filter fun e => e.2.state == .playing || e.2.state == .releasing).map Prod.fst

/-- The starve line (T − tolerance) × P × rate (R114). -/
def State.starveLine (s : State) (v : Voice) : Nat :=
  ((s.leadClass v).target - (s.leadClass v).tolerance) * s.pace.period * v.rate

/-- The lead is below the starve line: D − C < line (R114). -/
def State.leadLow (s : State) (v : Voice) : Bool := frameUnits v.delivered < v.consumed + s.starveLine v

/-- D is below C (R115). -/
def Voice.behind (v : Voice) : Bool := frameUnits v.delivered < v.consumed

/-- The starved test (R114): the flag follows the test; a flag newly set latches LEAD_LOW and counts. -/
def State.starvedTest (s : State) (slot : Nat) : State :=
  let v := s.voice slot
  let low := s.leadLow v
  let s1 := s.setVoice slot { v with starved := low }
  if low && !v.starved then (s1.latch .leadLow).count .starve else s1

/-- The underrun test (R115). -/
def State.underrunTest (s : State) (slot : Nat) : State :=
  let v := s.voice slot
  if v.behind then
    ((s.setVoice slot { v with underruns := satInc 255 v.underruns }).latch .underrun).count .underrun
  else s

/-- The lead monitor's pair of tests on one voice (R113). -/
def State.leadTest (s : State) (slot : Nat) : State := (s.starvedTest slot).underrunTest slot

/-- A voice's total is known, delivered, and consumed (R69). -/
def Voice.exhausted (v : Voice) : Bool :=
  match v.total with
  | some n => v.sounding && v.delivered == n && frameUnits n ≤ v.consumed
  | none => false

/-- A voice that meets R69's condition enters ENDING with reason NATURAL. -/
def State.naturalEnd (s : State) (slot : Nat) : State :=
  if (s.voice slot).exhausted then s.endVoice .natural slot else s

/-- The voices at an advancing expiry: consumption and PRIMING (R67, R68), the lead tests (R113), NATURAL ends (R69), then
the runs that the moved horizons allow (R100, R102, R106). DESIGN CHOICE (log 47: R69 and R100 do not order these): the NATURAL
test comes before the runs, so a total that the stream limit (R61) makes known by those runs counts at a later expiry. -/
def State.advanceVoices (s : State) (tested : List Nat) (old new : Nat) : State :=
  let s1 := { s with voices := Table.update Voice.blank (fun _ v => v.advance old new) s.voices }
  let s2 := tested.foldl State.leadTest s1
  let s3 := s2.soundingSlots.foldl State.naturalEnd s2
  s3.settleVoices

/-- The notice counter and stamp return to none, and DELIVERY is latched (R158). -/
def State.postNotice (s : State) : State :=
  { s with delivery := { s.delivery with noticeCount := 0, noticeStamp := none } }.latch .delivery

/-- The age test of the notice counter at an expiry (R158). -/
def State.noticeAge (s : State) : State :=
  match s.delivery.noticeStamp with
  | some stamp =>
    if 0 < s.delivery.noticeCount ∧ s.tunables.ageLimit < s.pace.index - stamp then s.postNotice else s
  | none => s

/-- Steps 1 to 3 of an expiry (R82): the frame counter to 0, the index up, the position by P while RUNNING. -/
def Pace.expire (p : Pace) : Pace :=
  { p with frame := 0, index := p.index + 1, position := if p.running then p.position + p.period else p.position }

/-- Step 4 of an expiry (R82, R87): pending settings are applied. -/
def State.applyPending (s : State) : State :=
  match s.pace.pending with
  | some (x, t) => { s with pace := { s.pace with pending := none } }.applyPace x t
  | none => s

/-- Step 5 of an expiry (R82, R90): a pending HALT completes. -/
def State.completeHalt (s : State) : State :=
  match s.pace.haltPending with
  | some t =>
    { s with pace := { s.pace with haltPending := none, running := false } }.complete t .ok (lowWord s.pace.position)
      (highWord s.pace.position)
  | none => s

/-- THE PERIOD EXPIRY (R82, R83): the Pace Timer's five steps, then the voices when it advances, then the notice age. -/
def State.expiry (s : State) : State :=
  let s1 := ({ s with pace := s.pace.expire }.applyPending).completeHalt
  let s2 := if s.pace.running then s1.advanceVoices s.leadTested s.pace.position s1.pace.position else s1
  s2.noticeAge

/-- One frame is counted (R79, R82): the P-th is the expiry. -/
def State.countFrame (s : State) : State :=
  if s.pace.period ≤ s.pace.frame + 1 then s.expiry
  else { s with pace := { s.pace with frame := s.pace.frame + 1 } }

/-- One frame of the card oscillator (R79): counted in INTERNAL and FREEWHEEL. -/
def State.countInternalFrame (s : State) : State :=
  if s.pace.state = .externalLocked then s else s.countFrame

/-- A rising edge on the word clock input (R79, R80): clock present, and one frame while EXTERNAL_LOCKED. -/
def State.clockEdge (s : State) : State :=
  let s1 := { s with pace := { s.pace with clockPresent := true } }
  if s.pace.state = .externalLocked then s1.countFrame else s1

/-- 2 ms pass without an edge (R80, R81): clock present becomes no; while EXTERNAL_LOCKED that is the clock loss. -/
def State.clockLost (s : State) : State :=
  if s.pace.state = .externalLocked then
    { s with pace := { s.pace with clockPresent := false, state := .freewheel } }.latch .paceLost
  else { s with pace := { s.pace with clockPresent := false } }

end Sys2Proof.Machine
end

