-- ==== Sys2Proof/Machine/Delivery.lean ====
section
/-! DEFINITION. The Delivery Engine (07): the Buffer List, what is ready, the arbiter's choice, the making of a delivery. -/

namespace Sys2Proof.Machine

/-! ### The list (7.2) -/

/-- The engine enters PARKED (R145): BUFFER_PARKED is latched; a park for LINK_ERROR latches PORT_ERROR and clears resume
pending (R144). -/
def State.parkBuffer (s : State) (reason : BufferPark) (address : HostAddr) (used : Bool) : State :=
  let e := s.delivery
  let link := reason == .linkError
  let e' := { e with
    state := .parked, holding := false, address := address, heldNext := none, heldBuffer := none
    parkReason := some reason, usedMark := used, read := .none, waiting := false
    resumePending := e.resumePending && !link }
  let s1 := { s with delivery := e' }.latch .bufferParked
  if link then s1.latch .portError else s1

/-- A buffer descriptor or buffer address is a multiple of 64 (R187). -/
def bufferAligned (a : HostAddr) : Bool := a.toNat % 64 == 0

/-- The engine leaves its descriptor: next-pointer reads of it still in flight come too late (log 44). -/
def DeliveryEngine.leave (e : DeliveryEngine) : DeliveryEngine :=
  { e with lateRereads := e.lateRereads + e.rereads + (e.read == .next).toNat, rereads := 0, read := .none }

/-- A descriptor fetch begins or falls due (R142): it waits during an engine reset (R163), and a misaligned address is
fetched as a failed fetch (R187). -/
def State.fetchBuffer (s : State) (a : HostAddr) : State :=
  let e' := { s.delivery.leave with
    state := .active, holding := false, address := a, heldNext := none, heldBuffer := none, parkReason := none
    usedMark := false, read := .descriptor, waiting := s.resetting }
  if s.resetting then { s with delivery := e' }
  else if bufferAligned a then { s with delivery := e' }.emit (.hostRead a 24)
  else { s with delivery := s.delivery.leave }.parkBuffer .linkError a false

/-- The next pointer of the descriptor at the descriptor address is read again in ACTIVE (R153). -/
def State.rereadBuffer (s : State) : State :=
  { s with delivery := { s.delivery with read := .next } }.emit (.hostRead s.delivery.address 8)

/-- The next pointer of the parked descriptor is read again by a resume (R144); a resume written while such a read is in
flight begins another (log 16). -/
def State.rereadAtBufferResume (s : State) : State :=
  { s with delivery := { s.delivery with rereads := s.delivery.rereads + 1 } }.emit (.hostRead s.delivery.address 8)

/-- A re-read, or an advance, that finds next pointer 0 (R144, R153): resume pending asks for one further read, else the
engine parks with END_OF_LIST. -/
def State.endOfBuffers (s : State) : State :=
  if s.delivery.resumePending then { s with delivery := { s.delivery with resumePending := false } }.rereadBuffer
  else s.parkBuffer .endOfList s.delivery.address false

/-- The engine advances from the descriptor it used (R153). -/
def State.advanceBuffer (s : State) (next : HostAddr) : State :=
  let s1 := { s with delivery := { s.delivery with holding := false, heldNext := none, heldBuffer := none } }
  if next = 0#64 then s1.endOfBuffers else s1.fetchBuffer next

/-- A write of the Buffer List Pointer (R143, R187). -/
def State.writeBufferPointer (s : State) (a : HostAddr) : State :=
  if s.delivery.state = .active then s.latch .portError
  else if a = 0#64 then
    { s with delivery := { s.delivery.leave with
        state := .idle, holding := false, address := 0#64, parkReason := none, usedMark := false, resumePending := false
        waiting := false } }
  else if bufferAligned a then
    { s with delivery := { s.delivery with resumePending := false } }.fetchBuffer a
  else s.latch .portError

/-- A write of Buffer Resume (R144). -/
def State.resumeBuffer (s : State) : State :=
  match s.delivery.state with
  | .idle => s
  | .active => { s with delivery := { s.delivery with resumePending := true } }
  | .parked =>
    match s.delivery.parkReason, s.delivery.usedMark with
    | some .endOfList, _ => s.rereadAtBufferResume
    | some .linkError, true => s.rereadAtBufferResume
    | some .linkError, false => s.fetchBuffer s.delivery.address
    | some .notReclaimed, _ => s.fetchBuffer s.delivery.address
    | none, _ => s

/-- A descriptor read is in flight. -/
def State.bufferReading (s : State) : Bool :=
  s.delivery.state == .active && s.delivery.read == .descriptor && !s.delivery.waiting

/-- A descriptor fetch arrives (R142, R187). -/
def State.bufferArrives (s : State) (next buffer : HostAddr) (done : Bool) : State :=
  if !s.bufferReading then s
  else if !bufferAligned buffer then s.parkBuffer .linkError s.delivery.address false
  else if !done then
    { s with delivery := { s.delivery with
        holding := true, heldNext := some next, heldBuffer := some buffer, read := .none } }
  else if s.delivery.resumePending then
    { s with delivery := { s.delivery with resumePending := false } }.fetchBuffer s.delivery.address
  else s.parkBuffer .notReclaimed s.delivery.address false

/-- A descriptor fetch fails on the link (R142). -/
def State.bufferFetchFails (s : State) : State :=
  if s.bufferReading then s.parkBuffer .linkError s.delivery.address false else s

/-- A next pointer read again is taken (R144, R153): a pointer is fetched, 0 parks, a failure parks with the used mark. -/
def State.rereadBufferEnds (s : State) (read : Option HostAddr) : State :=
  match read with
  | none => s.parkBuffer .linkError s.delivery.address true
  | some a => if a = 0#64 then s.endOfBuffers else s.fetchBuffer a

/-- A re-read of a next pointer ends; with none in flight nothing changes. Re-reads end in the order they were begun: one whose
descriptor the engine has left comes first and moves nothing, its failure latching PORT_ERROR (log 44). -/
def State.bufferReread (s : State) (read : Option HostAddr) : State :=
  if 0 < s.delivery.lateRereads then
    let s1 := { s with delivery := { s.delivery with lateRereads := s.delivery.lateRereads - 1 } }
    if read.isNone then s1.latch .portError else s1
  else if s.delivery.read = .next then
    { s with delivery := { s.delivery with read := .none } }.rereadBufferEnds read
  else if s.delivery.state = .parked ∧ 0 < s.delivery.rereads then
    { s with delivery := { s.delivery with rereads := s.delivery.rereads - 1 } }.rereadBufferEnds read
  else s

/-! ### What is ready (7.3) -/

/-- The run at D is head-sourced (R147). -/
def Voice.headDelivery (v : Voice) (l : Layout) : Bool := v.headMode && v.delivery.source < l.headFrames

/-- A record holds its head resident: RESIDENT, or RETIRING from RESIDENT (R147). -/
def Record.headReady (r : Record) : Bool :=
  r.headSlot.isSome && (r.state == .resident || r.state == .retiring)

/-- The place at a voice's delivery point. -/
def State.deliveryPlace (s : State) (v : Voice) : Place := (s.window v.window).place (s.window v.window).delivery

/-- The frames at D are available (R147). -/
def State.framesAvailable (s : State) (v : Voice) (l : Layout) : Bool :=
  if v.headDelivery l then (s.record v.sampleId).headReady
  else
    match s.deliveryPlace v with
    | .filled r => r.stream == v.delivered
    | .empty | .awaited _ => false

/-- A DATA delivery is ready for a voice (R147). -/
def State.dataReady (s : State) (v : Voice) : Bool :=
  match s.layoutOf v with
  | some l => v.sounding && v.delivered < v.scheduled && s.framesAvailable v l
  | none => false

/-- An END delivery is ready for a voice (R149). -/
def Voice.endReady (v : Voice) : Bool := v.state == .ending && !v.endPosted

/-- The slots whose DATA delivery is ready, in rising order. -/
def State.dataSlots (s : State) : List Nat := (s.voices.filter fun e => s.dataReady e.2).map Prod.fst

/-- The slots whose END delivery is ready, in rising order. -/
def State.endSlots (s : State) : List Nat := (s.voices.filter fun e => e.2.endReady).map Prod.fst

/-- The engine may write a delivery: ACTIVE, HOLDING, no engine reset in progress (R141, R163). -/
def State.canDeliver (s : State) : Bool := s.delivery.state == .active && s.delivery.holding && !s.resetting

/-- The END delivery the arbiter chooses: the lowest-numbered slot (R150). -/
def State.endChoice (s : State) : Option Nat := if s.canDeliver then s.endSlots.head? else none

/-- The DATA delivery the arbiter chooses when no END is ready: earliest deadline, higher priority, lower slot (R150). -/
def State.dataChoice (s : State) : Option Nat :=
  if s.canDeliver && s.endSlots.isEmpty then
    leastBy (fun n => [s.deadline (s.voice n) (s.voice n).delivered, 15 - (s.voice n).priority, n]) s.dataSlots
  else none

/-! ### Making a delivery (7.4, 7.5) -/

/-- The loop end falls at a wrap of the voice in this pass (R146, R148). -/
def Voice.wrapAhead (v : Voice) (lp : Loop) : Bool :=
  v.delivery.source < lp.stop &&
    match v.delivery.latestWrap with
    | some w => v.delivered + (lp.stop - v.delivery.source) ≤ w
    | none => false

/-- The source frame at which the delivery at D ends (R148). -/
def Voice.deliveryEnd (v : Voice) (l : Layout) : Nat :=
  let blockEnd := (v.delivery.source / l.format.framesPerBlock + 1) * l.format.framesPerBlock
  let stop := match l.loop with
    | some lp => if v.wrapAhead lp then lp.stop else l.length
    | none => l.length
  min (min blockEnd stop) l.length

/-- The frames of the delivery at D (R148). -/
def Voice.deliveryFrames (v : Voice) (l : Layout) : Nat := v.deliveryEnd l - v.delivery.source

/-- The delivery record after a delivery (R148): to the loop start with looped pending at a wrap, else on by its frames. -/
def Voice.afterDelivery (v : Voice) (l : Layout) : DeliveryRecord :=
  match l.loop with
  | some lp =>
    if v.wrapAhead lp && v.deliveryEnd l == lp.stop then { v.delivery with source := lp.start, loopedPending := true }
    else { v.delivery with source := v.deliveryEnd l, loopedPending := false }
  | none => { v.delivery with source := v.deliveryEnd l, loopedPending := false }

/-- The byte offset of a delivery in its buffer (R148). -/
def Voice.deliveryOffset (v : Voice) (l : Layout) : Nat :=
  v.delivery.source % l.format.framesPerBlock * l.format.frameBytes

/-- The run at D comes from a damaged place. -/
def State.deliveryDamaged (s : State) (v : Voice) (l : Layout) : Bool :=
  !v.headDelivery l &&
    match s.deliveryPlace v with
    | .filled r => r.damaged
    | .empty | .awaited _ => false

/-- The DRAM address of the frames at D (R151): in the record's head slot, or in the place at the delivery point. -/
def State.deliveryBase (s : State) (v : Voice) (l : Layout) : Nat :=
  if v.headDelivery l then
    s.slotBase ((s.record v.sampleId).headSlot.getD 0) + v.delivery.source * l.format.frameBytes
  else s.placeBase v.window (s.window v.window).delivery + v.deliveryOffset l

/-- The bytes a DATA delivery writes; a damaged place supplies zero frames (R151). -/
def State.deliveryBytes (s : State) (v : Voice) (l : Layout) : List Byte :=
  let n := v.deliveryFrames l * l.format.frameBytes
  if s.deliveryDamaged v l then List.replicate n 0#8 else Memory.readRange s.dram (s.deliveryBase v l) n

/-- The flags of a DATA delivery (R154). -/
def State.deliveryFlags (s : State) (v : Voice) (l : Layout) : DeliveryFlags :=
  { first := v.delivered == 0
    looped := v.delivery.loopedPending
    damaged := s.deliveryDamaged v l
    late := frameUnits v.delivered < v.consumed
    final := v.total == some (v.delivered + v.deliveryFrames l) }

/-- The status of a DATA delivery (R155). -/
def State.dataStatus (s : State) (slot : Nat) (v : Voice) (l : Layout) : DeliveryStatus :=
  { kind := 1, flags := (s.deliveryFlags v l).code, endReason := 0, slot := slot, generation := v.generation
    cookie := v.cookie, sampleId := v.sampleId, sampleGeneration := v.sampleGeneration, stream := v.delivered
    source := v.delivery.source, frames := v.deliveryFrames l, byteOffset := v.deliveryOffset l }

/-- The status of an END delivery (R155). -/
def endStatus (slot : Nat) (v : Voice) : DeliveryStatus :=
  { kind := 2, flags := 0, endReason := endReasonCode v.endReason, slot := slot, generation := v.generation
    cookie := v.cookie, sampleId := v.sampleId, sampleGeneration := v.sampleGeneration, stream := v.delivered
    source := v.delivery.source, frames := 0, byteOffset := 0 }

/-- The status write of a delivery into the held descriptor (R189). -/
def State.writeDelivery (s : State) (x : DeliveryStatus) : State :=
  s.emit (.hostWrite (deliveryStatusAddress s.delivery.address) (deliveryStatusBytes x))

/-- A delivery made is counted (R151, R158): Delivery Count, and the notice counter, which latches DELIVERY at the
coalescing count. -/
def State.countDelivery (s : State) : State :=
  let e := s.delivery
  let stamp := if e.noticeCount = 0 then some s.pace.index else e.noticeStamp
  let s1 := { s with delivery := { e with count := e.count + 1#32, noticeCount := e.noticeCount + 1, noticeStamp := stamp } }
  if s.tunables.coalescingCount ≤ e.noticeCount + 1 then s1.postNotice else s1

/-- A place emptied by a delivery: the delivery point advances (R44). -/
def State.takePlace (s : State) (w : Nat) : State :=
  let x := s.window w
  s.setWindow w { (x.setPlace x.delivery .empty) with delivery := (x.delivery + 1) % s.partition.windowBlocks }

/-- The voice after a DATA delivery (R151, R148). -/
def Voice.deliver (v : Voice) (l : Layout) : Voice :=
  { v with
    delivered := v.delivered + v.deliveryFrames l
    delivery := v.afterDelivery l
    firstDelivery := v.firstDelivery || v.delivered == 0 }

/-- A DATA delivery is made for a slot (R151): frames, status, D, the place, the counts, the priority notice (R159), the
NATURAL end (R69), the voice's next runs (R102), the advance (R153). DESIGN CHOICE (log 47: R69 and R102 do not order these):
the NATURAL test comes before the runs. -/
def State.makeData (s : State) (slot : Nat) (l : Layout) (next buffer : HostAddr) : State :=
  let v := s.voice slot
  let s1 := s.emit (.hostWrite (buffer + BitVec.ofNat 64 (v.deliveryOffset l)) (s.deliveryBytes v l))
  let s2 := s1.writeDelivery (s.dataStatus slot v l)
  let s3 := if v.headDelivery l then s2 else s2.takePlace v.window
  let s4 := (s3.setVoice slot (v.deliver l)).countDelivery
  let s5 := if v.delivered = 0 ∧ s.tunables.priorityThreshold ≤ v.priority then s4.latch .priorityDelivery else s4
  ((s5.naturalEnd slot).settleVoice slot).advanceBuffer next

/-- An END delivery is made for a slot (R152). -/
def State.makeEnd (s : State) (slot : Nat) (next : HostAddr) : State :=
  let v := s.voice slot
  let s1 := s.writeDelivery (endStatus slot v)
  let s2 := s1.setVoice slot { v with endPosted := true }
  ((s2.countDelivery).settleFree slot).advanceBuffer next

/-- The Delivery Engine makes the DATA delivery its arbiter chooses; nothing when it chooses none. -/
def State.deliverData (s : State) : State :=
  match s.dataChoice with
  | none => s
  | some slot =>
    match s.layoutOf (s.voice slot), s.delivery.heldNext, s.delivery.heldBuffer with
    | some l, some next, some buffer => s.makeData slot l next buffer
    | _, _, _ => s

/-- The Delivery Engine makes the END delivery its arbiter chooses; nothing when it chooses none. -/
def State.deliverEnd (s : State) : State :=
  match s.endChoice, s.delivery.heldNext with
  | some slot, some next => s.makeEnd slot next
  | _, _ => s

/-- The chosen delivery's write fails on the link (R156): the delivery is not made and the engine parks with LINK_ERROR. -/
def State.deliveryFails (s : State) : State :=
  if s.endChoice.isSome || s.dataChoice.isSome then s.parkBuffer .linkError s.delivery.address false else s

end Sys2Proof.Machine
end

