-- ==== Sys2Proof/Machine/Operands.lean ====
section
/-! DEFINITION. Operand forms: what each request's parameters say, checked as their rules list (R8, R30, R49, R65, R84,
R131, R173), reserved bits and entries beyond the counts unread (R188). -/

namespace Sys2Proof.Machine

/-- A byte read as a flag: set when nonzero (11.3). -/
def byteSet (b : Byte) : Bool := b != 0#8

/-- The NOTIFY flag, bit 0 of the flags (11.3, R188). -/
def notifyOf (h : Header) : Bool := h.flags.getLsbD 0

/-- A format code (11.2): M16 0 to Q32 4. -/
def formatOf (b : Byte) : Option Format :=
  match b.toNat with
  | 0 => some .m16
  | 1 => some .s16
  | 2 => some .m32
  | 3 => some .s32
  | 4 => some .q32
  | _ => none

/-- The extents within the count; bits 29:0 of the start are the address (R188). -/
def extentsOf (p : DefineParams) : List Extent :=
  (p.extents.take p.extentCount.toNat).map fun e => { start := e.start.toNat % Config.storeBlocks, count := e.count.toNat }

/-- The spans within the count (R188). -/
def spansOf (p : DefineParams) : List Span :=
  (p.spans.take p.spanCount.toNat).map fun x => { skip := x.skip.toNat, count := x.count.toNat }

/-- The loop part, present by option bit 0 (11.3). -/
def loopOf (p : DefineParams) : Option Loop :=
  if p.options.getLsbD 0 then some { start := p.loopStart.toNat, stop := p.loopEnd.toNat } else none

/-- The signature part, present by option bit 1 (11.3). -/
def signatureOf (p : DefineParams) : Option Signature :=
  if p.options.getLsbD 1 then some { spans := spansOf p, expected := p.expectedCrc } else none

/-- The pin, option bit 2 (11.3). -/
def pinOf (p : DefineParams) : Bool := p.options.getLsbD 2

/-- Extents valid by R8. -/
def extentsValid (es : List Extent) : Bool :=
  es.all fun e => 1 ≤ e.count && e.start + e.count ≤ Config.storeBlocks

/-- A loop valid by R8. -/
def loopValid (length : Nat) : Option Loop → Bool
  | none => true
  | some lp => lp.start < lp.stop && lp.stop ≤ length

/-- A signature valid by R8. -/
def signatureValid (spanCount headBlocks : Nat) : Option Signature → Bool
  | none => true
  | some g => 1 ≤ spanCount && spanCount ≤ 8 && g.spans.all (fun x => 1 ≤ x.count) &&
      (g.spans.map fun x => x.skip + x.count).sum ≤ headBlocks * Config.blockBytes

/-- DEFINE's parameters as a layout, when R8 finds them valid against the head slot size in force. -/
def layoutOf (p : DefineParams) (slotBlocks : Nat) : Option Layout :=
  match formatOf p.format with
  | none => none
  | some f =>
    let es := extentsOf p
    let total := totalBlocks es
    let length := p.length.toNat
    let head := p.headBlocks.toNat
    if 1 ≤ p.extentCount.toNat && p.extentCount.toNat ≤ 15 && extentsValid es &&
        (1 ≤ length && length ≤ total * f.framesPerBlock) && (1 ≤ head && head ≤ min slotBlocks total) &&
        loopValid length (loopOf p) && signatureValid p.spanCount.toNat head (signatureOf p) then
      some { format := f, length := length, extents := es, headBlocks := head, loop := loopOf p, signature := signatureOf p }
    else none

/-- H, S and W within their choices (R30). -/
def partitionOf (p : ConfigureParams) : Option Partition :=
  let h := p.headBands.toNat
  let s := p.slotBlocks.toNat
  let w := p.windowBlocks.toNat
  if 1 ≤ h && h ≤ 63 && [8, 16, 32, 64].contains s && [16, 32, 64, 128, 256].contains w then
    some { headBands := h, slotBlocks := s, windowBlocks := w }
  else none

/-- The legal rates (00_scope.md, Rate). -/
def rateValid (r : Word) : Bool := 0x1000 ≤ r.toNat && r.toNat ≤ 0x40000

/-- START's first check (R49). -/
def startValid (p : StartParams) : Bool := rateValid p.rate && p.priority.toNat ≤ 15 && p.leadClass.toNat ≤ 3

/-- START's at: bits 47:0 (11.3). -/
def startPosition (p : StartParams) : Nat := p.position.toNat % 2 ^ 48

/-- A slot number in range (R47). -/
def slotValid (v : VoiceName) : Bool := v.slot.toNat < Config.voiceSlots

/-- RETUNE's rate when present. -/
def retuneRate (p : RetuneParams) : Option Nat := if p.presence.getLsbD 0 then some p.rate.toNat else none

/-- RETUNE's priority when present. -/
def retunePriority (p : RetuneParams) : Option Nat := if p.presence.getLsbD 1 then some p.priority.toNat else none

/-- RETUNE's lead class when present. -/
def retuneLead (p : RetuneParams) : Option Nat := if p.presence.getLsbD 2 then some p.leadClass.toNat else none

/-- RETUNE's own parameters are valid (R62, R65). -/
def retuneValid (p : RetuneParams) : Bool :=
  slotValid p.voice && (!p.presence.getLsbD 0 || rateValid p.rate) &&
    (!p.presence.getLsbD 1 || p.priority.toNat ≤ 15) && (!p.presence.getLsbD 2 || p.leadClass.toNat ≤ 3)

/-- A pace source code (11.3). -/
def sourceOf (b : Byte) : Option PaceSource :=
  match b.toNat with
  | 0 => some .internal
  | 1 => some .external
  | _ => none

/-- A rate code (11.3). -/
def internalRateOf (b : Byte) : Option Nat :=
  match b.toNat with
  | 0 => some 44100
  | 1 => some 48000
  | 2 => some 88200
  | 3 => some 96000
  | _ => none

/-- A period code (11.3). -/
def periodOf (b : Byte) : Option Nat :=
  match b.toNat with
  | 0 => some 64
  | 1 => some 128
  | 2 => some 256
  | 3 => some 512
  | 4 => some 1024
  | _ => none

/-- SET_PACE's settings, when every code is of its table (R84). -/
def settingsOf (p : PaceParams) : Option PaceSettings :=
  match sourceOf p.source, internalRateOf p.rateCode, periodOf p.periodCode with
  | some s, some r, some n => some { source := s, internalRate := r, period := n }
  | _, _, _ => none

/-- STORE's parameters are valid (R131). -/
def storeValid (p : StoreParams) : Bool :=
  1 ≤ p.count.toNat && p.count.toNat ≤ 256 && p.first.toNat + p.count.toNat ≤ Config.storeBlocks &&
    p.host.toNat % 4096 == 0

/-- The store block addresses of a range, in increasing order. -/
def rangeBlocks (first count : Nat) : List Nat := (List.range count).map (first + ·)

/-- A lead class entry in its range (R97). -/
def leadValid (x : RawLead) : Bool :=
  1 ≤ x.target.toNat && x.target.toNat ≤ 64 && x.tolerance.toNat < x.target.toNat

/-- The mask names tunable `n` of section 8.6 (11.3). -/
def tuneNamed (p : TuneParams) (n : Nat) : Bool := p.mask.getLsbD n

/-- A named value lies in its range; one not named is not read (R173). -/
def tuneInRange (p : TuneParams) (n value low high : Nat) : Bool := !tuneNamed p n || (low ≤ value && value ≤ high)

/-- TUNE_ENGINE's first check (R173). -/
def tuneValid (p : TuneParams) : Bool :=
  tuneInRange p 0 p.voiceLimit.toNat 1 1024 &&
    (!tuneNamed p 1 || (leadValid p.lead0 && leadValid p.lead1 && leadValid p.lead2 && leadValid p.lead3)) &&
    tuneInRange p 2 p.retryLimit.toNat 0 7 && tuneInRange p 3 p.pollInterval.toNat 1 255 &&
    tuneInRange p 4 p.readTimeout.toNat 1 255 && tuneInRange p 5 p.programTimeout.toNat 1 255 &&
    tuneInRange p 6 p.programGuard.toNat 0 15 && tuneInRange p 7 p.loadAllowance.toNat 1 255 &&
    tuneInRange p 8 p.coalescingCount.toNat 1 255 && tuneInRange p 9 p.ageLimit.toNat 0 15 &&
    tuneInRange p 10 p.priorityThreshold.toNat 0 16

/-- A lead class entry as the table holds it. -/
def leadOf (x : RawLead) : LeadClass := { target := x.target.toNat, tolerance := x.tolerance.toNat }

/-- A tunable after an accepted TUNE_ENGINE. -/
def tunePick (p : TuneParams) (n value old : Nat) : Nat := if tuneNamed p n then value else old

/-- The tunables after an accepted TUNE_ENGINE: every named one set, the others kept (R173). -/
def tuned (t : Tunables) (p : TuneParams) : Tunables :=
  { voiceLimit := tunePick p 0 p.voiceLimit.toNat t.voiceLimit
    leadClasses :=
      if tuneNamed p 1 then #v[leadOf p.lead0, leadOf p.lead1, leadOf p.lead2, leadOf p.lead3] else t.leadClasses
    retryLimit := tunePick p 2 p.retryLimit.toNat t.retryLimit
    pollInterval := tunePick p 3 p.pollInterval.toNat t.pollInterval
    readTimeout := tunePick p 4 p.readTimeout.toNat t.readTimeout
    programTimeout := tunePick p 5 p.programTimeout.toNat t.programTimeout
    programGuard := tunePick p 6 p.programGuard.toNat t.programGuard
    loadAllowance := tunePick p 7 p.loadAllowance.toNat t.loadAllowance
    coalescingCount := tunePick p 8 p.coalescingCount.toNat t.coalescingCount
    ageLimit := tunePick p 9 p.ageLimit.toNat t.ageLimit
    priorityThreshold := tunePick p 10 p.priorityThreshold.toNat t.priorityThreshold }

/-- The presence mask as applied: bits 10:0 (R173, R188). -/
def tuneApplied (p : TuneParams) : Word := p.mask &&& 0x7FF#32

/-- A die number byte in range (R127, R128). -/
def dieValid (b : Byte) : Bool := b.toNat < Config.dies

end Sys2Proof.Machine
end

