-- ==== Sys2Proof/Machine/TakeCatalog.lean ====
section
/-! DEFINITION. The takes of the Sample Catalog's and the Head Store's requests (01, 02): DEFINE, SET_PIN, RETIRE, LOAD_HEAD,
UNLOAD_HEAD, CONFIGURE_MEMORY. Each gives the state with the completions its take reports. -/

namespace Sys2Proof.Machine

/-- The record a DEFINE fills (R10). -/
def Record.defined (g : Generation) (l : Layout) (pin : Bool) : Record :=
  { state := .defined, generation := g, layout := some l, pin := pin, refs := 0, headSlot := none, staleReason := .none
    loadReads := 0, load := none, retire := none }

/-- DEFINE (R8 to R10). -/
def takeDefine (t : Token) (p : DefineParams) (s : State) : State :=
  let id := p.id.toNat
  let r := s.record id
  match layoutOf p s.partition.slotBlocks with
  | none => s.refuse t .badParam
  | some l =>
    if r.state ≠ .vacant then s.refuse t .recordBusy
    else if s.storeClaims l.extents then s.refuse t .claimed
    else
      let g := nextGeneration r.generation
      (s.setRecord id (Record.defined g l (pinOf p))).complete t .ok (g.setWidth 32) (BitVec.ofNat 32 l.headFrames)

/-- A flag as a return word: 1 when set, 0 when clear. -/
def boolWord (b : Bool) : Word := if b then 1#32 else 0#32

/-- SET_PIN (R11); the words no rule states are free values (log 6). -/
def takeSetPin (t : Token) (n : RecordName) (pin : Byte) (s : State) : State :=
  let id := n.id.toNat
  let r := s.record id
  if s.names n then
    (s.setRecord id { r with pin := byteSet pin }).complete t .ok (boolWord r.pin) (Config.unstatedWord t.order 1)
  else s.completeUnstated t .noRecord

/-- RETIRE (R14 to R17); its return words are free values (log 6). -/
def takeRetire (t : Token) (n : RecordName) (force : Byte) (s : State) : State :=
  let id := n.id.toNat
  let r := s.record id
  if !s.names n then s.completeUnstated t .noRecord
  else if r.state = .retiring then s.completeUnstated t .busy
  else if r.state ≠ .loading ∧ r.refs = 0 then (s.toVacant id).completeUnstated t .ok
  else
    let s1 := if byteSet force then s.endVoices .retired (s.slotsPlaying id n.generation) else s
    let s2 := if r.state = .loading then s1.abandonLoad id .retired else s1
    let s3 := s2.leaveRecency id
    (s3.setRecord id { s3.record id with state := .retiring, retire := some t }).settleRetiring id

/-- A RESIDENT record returns to DEFINED and gives up its slot (R22). -/
def State.unload (s : State) (id : Nat) : State :=
  (s.setRecord id { s.record id with state := .defined, headSlot := none }).leaveRecency id

/-- The slot a LOAD_HEAD takes: the lowest FREE one, else the eviction victim's, with the victim's generation and id (R34,
R35). -/
def State.slotForLoad (s : State) : Option (Nat × Option (Generation × Nat)) :=
  match s.lowestFreeHeadSlot with
  | some n => some (n, none)
  | none =>
    match s.evictionVictim with
    | none => none
    | some v => (s.record v).headSlot.map fun n => (n, some ((s.record v).generation, v))

/-- A LOAD_HEAD begins a load in a slot (R19, R36). -/
def State.beginLoad (s : State) (t : Token) (id slot : Nat) (evicted : Option (Generation × Nat)) : State :=
  s.setRecord id { s.record id with
    state := .loading, headSlot := some slot, staleReason := .none, loadReads := 0
    load := some { slot := slot, nextBlock := 0, arrived := [], evicted := evicted, token := t } }

/-- An accepted LOAD_HEAD: eviction where needed, the load, and its failure within the take when its first head block lies on
an OFFLINE die (R34, R106). -/
def State.acceptLoad (s : State) (t : Token) (id slot : Nat) (evicted : Option (Generation × Nat)) : State :=
  let s1 := match evicted with
    | none => s
    | some (_, v) => s.unload v
  (s1.beginLoad t id slot evicted).settleLoad id

/-- Some extent block of the record lies in the range of a STORE in flight (R34). -/
def State.recordClaimed (s : State) (r : Record) : Bool :=
  match r.layout with
  | none => false
  | some l => s.storeClaims l.extents

/-- LOAD_HEAD (R34). -/
def takeLoadHead (t : Token) (n : RecordName) (s : State) : State :=
  let id := n.id.toNat
  let r := s.record id
  if !s.names n then s.refuse t .noRecord
  else if r.state = .retiring then s.refuse t .sampleRetiring
  else if r.state = .loading then s.refuse t .busy
  else if r.state = .resident then (s.touch id).complete t .ok (BitVec.ofNat 32 (r.headSlot.getD 0)) 0#32
  else if 0 < r.loadReads then s.refuse t .busy
  else if s.recordClaimed r then s.refuse t .claimed
  else
    match s.slotForLoad with
    | none => s.refuse t .noHeadSlot
    | some (slot, evicted) => s.acceptLoad t id slot evicted

/-- UNLOAD_HEAD of a LOADING record (R41, R21): the load is abandoned and the record returns to DEFINED. -/
def State.unloadLoading (s : State) (id : Nat) : State :=
  let s1 := s.abandonLoad id .stale
  s1.setRecord id { s1.record id with state := .defined }

/-- UNLOAD_HEAD (R41). -/
def takeUnloadHead (t : Token) (n : RecordName) (s : State) : State :=
  let id := n.id.toNat
  let r := s.record id
  let slot := BitVec.ofNat 32 (r.headSlot.getD 0)
  if !s.names n then s.refuse t .noRecord
  else
    match r.state with
    | .retiring => s.refuse t .sampleRetiring
    | .resident => if r.refs = 0 then (s.unload id).complete t .ok slot 1#32 else s.refuse t .busy
    | .loading => (s.unloadLoading id).complete t .ok slot 1#32
    | .vacant | .defined | .stale => s.complete t .ok 0#32 0#32

/-- CONFIGURE_MEMORY (R30); a refusal's return words are free values (log 6). -/
def takeConfigureMemory (t : Token) (p : ConfigureParams) (s : State) : State :=
  match partitionOf p with
  | none => s.completeUnstated t .badParam
  | some x =>
    if !s.isEmpty then s.completeUnstated t .notEmpty
    else if !s.reclaiming.isEmpty then s.completeUnstated t .busy
    else
      { s with partition := x, recency := [], windows := [] }.complete t .ok (BitVec.ofNat 32 x.slotCount)
        (BitVec.ofNat 32 x.windowCount)

end Sys2Proof.Machine
end

