-- ==== Sys2Proof/Machine/Dies.lean ====
section
/-! DEFINITION. The Die Controllers' shared operations (06): the die arbiter, the issue and end of operations, the handing
over of a read's outcome, a die going OFFLINE, and the STOREs a program serves. -/

namespace Sys2Proof.Machine

/-! ### STOREs in flight (R132 to R135) -/

/-- Change the table entry at a place. -/
def State.updateStore (s : State) (place : Nat) (f : StoreEntry → StoreEntry) : State :=
  { s with stores := s.stores.map fun x => if x.place = place then f x else x }

/-- The table entry at a place. -/
def State.storeAt (s : State) (place : Nat) : Option StoreEntry := s.stores.find? fun x => x.place == place

/-- The DONE status of a STORE that leaves the table (R135). -/
def StoreEntry.complete (x : StoreEntry) (s : State) : State :=
  match x.failure with
  | none => s.complete x.token .ok (BitVec.ofNat 32 x.programmed) 0#32
  | some b => s.complete x.token .blockError (BitVec.ofNat 32 x.programmed) (BitVec.ofNat 32 b)

/-- A STORE completes when its entries queued and programs in flight are both 0 (R135). -/
def State.judgeStore (s : State) (place : Nat) : State :=
  match s.storeAt place with
  | none => s
  | some x =>
    if x.queued = 0 ∧ x.inFlight = 0 then
      x.complete { s with stores := s.stores.filter fun y => y.place != place }
    else s

/-- Every STORE in the table is judged. -/
def State.judgeStores (s : State) : State := (s.stores.map StoreEntry.place).foldl State.judgeStore s

/-- The queued program entries of a STORE leave every die's program queue (R134). -/
def State.dropPrograms (s : State) (place : Nat) : State :=
  let keep (_ : Nat) (x : Die) : Die := { x with programs := x.programs.filter fun p => p.place != place }
  { s with dies := Table.update Die.blank keep s.dies }

/-- A STORE whose failure is absent fails at a block: its queued entries are removed (R134). A STORE that has failed keeps
its first failure. -/
def State.failStore (s : State) (place block : Nat) : State :=
  match s.storeAt place with
  | none => s
  | some x =>
    if x.failure.isSome then s
    else (s.dropPrograms place).updateStore place fun y => { y with failure := some block, queued := 0 }

/-! ### Issuing (R121, R127, R133) -/

/-- A read begins for its owner: reads in flight rise by one (R7, R73). -/
def State.raiseReads (s : State) : Owner → State
  | .voice slot _ => s.setVoice slot { s.voice slot with reads := (s.voice slot).reads + 1 }
  | .load id _ => s.setRecord id { s.record id with loadReads := (s.record id).loadReads + 1 }

/-- A read is issued for a fetch entry (R121): the entry leaves the queue, the die enters ADDRESSING at attempt 1. -/
def State.issueRead (s : State) (d : Nat) (e : FetchEntry) : State :=
  let s1 := { s with queue := s.queue.erase e }
  let s2 := s1.setDie d { s1.die d with
    state := .addressing, retries := 0
    operation := some { work := .read e, attempt := 1, discard := false, pollInterval := s.tunables.pollInterval
                        timeout := s.tunables.readTimeout } }
  (s2.raiseReads e.owner).emit (.dieAddress d (dieIndex e.address))

/-- A program is issued for the head of a die's program queue (R133). -/
def State.issueProgram (s : State) (d : Nat) (p : ProgramEntry) (rest : List ProgramEntry) : State :=
  let s1 := s.setDie d { s.die d with
    state := .addressing, programs := rest
    operation := some { work := .program p, attempt := 1, discard := false, pollInterval := s.tunables.pollInterval
                        timeout := s.tunables.programTimeout } }
  (s1.updateStore p.place fun x => { x with queued := x.queued - 1, inFlight := x.inFlight + 1 }).emit
    (.dieAddress d (dieIndex p.address))

/-- A POLL is made for the head request of a die's poll list (R127): POLLING, or OFFLINE if it was OFFLINE. -/
def State.issuePoll (s : State) (d : Nat) : State :=
  let x := s.die d
  (s.setDie d { x with
    state := if x.state = .offline then .offline else .polling
    operation := some { work := .poll, attempt := 1, discard := false, pollInterval := s.tunables.pollInterval
                        timeout := s.tunables.readTimeout } }).emit (.diePoll d)

/-- Steps 2 to 5 of the arbiter's choice on a READY die (R129). -/
def State.chooseTransfer (s : State) (d : Nat) : State :=
  match s.subQueue d, (s.die d).programs with
  | e :: _, p :: rest =>
    if e.deadline ≤ s.pace.index + s.tunables.programGuard then s.issueRead d e else s.issueProgram d p rest
  | e :: _, [] => s.issueRead d e
  | [], p :: rest => s.issueProgram d p rest
  | [], [] => s

/-- Step 1 of the choice on a READY die, along the poll list: a REVIVE_DIE whose die is no longer OFFLINE completes OK
without a poll (R128); a PROBE_DIE is polled. -/
def State.chooseReady (d : Nat) : List PollRequest → State → State
  | [], s => s.chooseTransfer d
  | q :: rest, s =>
    if q.revive then
      State.chooseReady d rest
        ((s.setDie d { s.die d with polls := rest }).complete q.token .ok (BitVec.ofNat 32 DieState.ready.code) 0#32)
    else s.issuePoll d

/-- The die's arbiter chooses its next operation (R129): on a READY die with no operation, or, step 1 alone, on an OFFLINE
die; nothing during an engine reset (R139). -/
def State.arbitrate (s : State) (d : Nat) : State :=
  let x := s.die d
  if s.resetting || x.operation.isSome then s
  else
    match x.state with
    | .ready => State.chooseReady d x.polls s
    | .offline => if x.polls.isEmpty then s else s.issuePoll d
    | .addressing | .polling | .transferring => s

/-! ### The end of a read (R124, R125) -/

/-- How a read ended (R37, R125, R126). -/
inductive ReadEnd where
  | good (data : List Byte)
  | unrecovered
  | offline
  deriving DecidableEq, Repr

/-- An AWAITED place becomes FILLED with good data, or with zero frames and its damaged mark (R44). -/
def State.fillAwaited (s : State) (w i : Nat) (l : Layout) (e : ReadEnd) : State :=
  match (s.window w).place i with
  | .awaited r =>
    match e with
    | .good data =>
      let s1 := { s with dram := Memory.write s.dram (s.placeBase w i) data }
      s1.setWindow w ((s.window w).setPlace i (.filled r))
    | .unrecovered | .offline =>
      let r' := { r with damaged := true }
      (s.zeroRun w i r' l.format).setWindow w ((s.window w).setPlace i (.filled r'))
  | .empty | .filled _ => s

/-- A voice's read ends (R125): a sounding voice's place is FILLED, an ENDING voice's place becomes EMPTY (R45); reads in
flight fall by one, and an ENDING voice may become FREE (R73). -/
def State.endVoiceRead (s : State) (slot : Nat) (g : Generation) (w i : Nat) (e : ReadEnd) : State :=
  let v := s.voice slot
  if v.generation = g ∧ v.state ≠ .free then
    let s1 := s.setVoice slot { v with reads := v.reads - 1 }
    if v.sounding then
      match s.layoutOf v with
      | some l => s1.fillAwaited w i l e
      | none => s1
    else (s1.setWindow w ((s1.window w).setPlace i .empty)).settleFree slot
  else s

/-- A read of a running load ends well (R37): its block is written into the slot and marked arrived; the last arrival ends
the load. -/
def State.arriveHead (s : State) (id k : Nat) (data : List Byte) : State :=
  let r := s.record id
  match r.load, r.layout with
  | some l, some y =>
    let l' := { l with arrived := k :: l.arrived }
    let s1 := { s with dram := Memory.write s.dram (s.slotBase l.slot + k * Config.blockBytes) data }
    let s2 := s1.setRecord id { r with load := some l' }
    if l'.arrived.length = y.headBlocks then s2.judgeLoad id y l' else s2
  | _, _ => s

/-- A load read's count falls (R7): the record's own while it keeps the load's generation and is not VACANT, and the
RECLAIMING slot's when the load has failed or been abandoned (R32). -/
def State.lowerLoadReads (s : State) (id : Nat) (g : Generation) (slot : Nat) : State :=
  let r := s.record id
  let s1 := { s with reclaiming := lowerReclaim slot id g s.reclaiming }
  if r.state ≠ .vacant ∧ r.generation = g then s1.setRecord id { r with loadReads := r.loadReads - 1 } else s1

/-- The load of a record's generation is still running. -/
def State.loadRunning (s : State) (id : Nat) (g : Generation) : Bool :=
  (s.record id).generation == g && (s.record id).load.isSome

/-- A load's read ends (R125): a running load takes the block or fails; otherwise the counts alone fall, and a RETIRING
record may become VACANT (R17). -/
def State.endLoadRead (s : State) (id : Nat) (g : Generation) (slot k : Nat) (e : ReadEnd) : State :=
  let s1 := s.lowerLoadReads id g slot
  if s.loadRunning id g then
    match e with
    | .good data => s1.arriveHead id k data
    | .unrecovered => s1.failLoad id (.blockError k)
    | .offline => s1.failLoad id (.dieOffline k)
  else s1.settleRetiring id

/-- A read's outcome is handed to the entry's owner as it stands (R125). -/
def State.handOver (s : State) (f : FetchEntry) (e : ReadEnd) : State :=
  match f.owner, f.destination with
  | .voice slot g, .place w i => s.endVoiceRead slot g w i e
  | .load id g, .headBlock slot k => s.endLoadRead id g slot k e
  | .voice _ _, .headBlock _ _ | .load _ _, .place _ _ => s

/-- A die's operation ends and the die returns to READY (R125). -/
def State.dieIdle (s : State) (d : Nat) : State :=
  s.setDie d { s.die d with state := .ready, operation := none, retries := 0, buffer := [] }

/-- A read ends on a die that stays in service (R125): the die returns to READY, the outcome is handed over unless the
discard mark is set (R138), and the arbiter chooses again. -/
def State.endRead (s : State) (d : Nat) (f : FetchEntry) (discard : Bool) (e : ReadEnd) : State :=
  let s1 := s.dieIdle d
  (if discard then s1 else s1.handOver f e).arbitrate d

/-- A read attempt ends with ADDRESS_REFUSED or CRC_MISMATCH (R124): retried below the retry limit, else UNRECOVERED. A
marked read makes no retry and counts nothing (R138). -/
def State.endAttempt (s : State) (d : Nat) (f : FetchEntry) (o : Operation) : State :=
  let x := s.die d
  if o.discard then s.endRead d f true .unrecovered
  else if x.retries < s.tunables.retryLimit then
    (s.setDie d { x with
      state := .addressing, retries := x.retries + 1, buffer := []
      operation := some { o with attempt := o.attempt + 1, pollInterval := s.tunables.pollInterval
                                 timeout := s.tunables.readTimeout } }).emit (.dieAddress d (dieIndex f.address))
  else ((s.count .unrecovered).latch .blockFault).endRead d f false .unrecovered

/-! ### The end of a program and of a POLL (R127, R128, R133, R134) -/

/-- A program ends with success (R133). -/
def State.endProgram (s : State) (d : Nat) (p : ProgramEntry) (discard : Bool) : State :=
  let s1 := s.dieIdle d
  (if discard then s1
    else (s1.updateStore p.place fun x => { x with inFlight := x.inFlight - 1, programmed := x.programmed + 1 }).judgeStore
      p.place).arbitrate d

/-- A program's failure reaches its STORE (R134): programs in flight fall by one, and the STORE fails at the block unless
it already has. -/
def State.programFails (s : State) (p : ProgramEntry) : State :=
  (s.updateStore p.place fun x => { x with inFlight := x.inFlight - 1 }).failStore p.place p.address

/-- A program fails on a die that stays in service (R134). -/
def State.failProgram (s : State) (d : Nat) (p : ProgramEntry) (discard : Bool) : State :=
  let s1 := s.dieIdle d
  (if discard then s1 else (s1.programFails p).judgeStore p.place).arbitrate d

/-- What a POLL was answered (R127). -/
inductive PollAnswer where
  | ready | busy | silent
  deriving DecidableEq, Repr

/-- PROBE_DIE's result for an answer (R127). -/
def PollAnswer.probeResult : PollAnswer → Result
  | .ready => .ready
  | .busy => .busy
  | .silent => .absent

/-- The die's state after a POLL: READY from POLLING; an OFFLINE die stays OFFLINE unless a REVIVE_DIE finds it ready
(R127, R128). -/
def stateAfterPoll (before : DieState) (revives : Bool) : DieState :=
  if before = .offline ∧ ¬ revives = true then .offline else .ready

/-- A POLL ends (R127, R128): it leaves the head of the poll list, its request completes, the arbiter chooses again. A
marked POLL writes no status, revives nothing, and takes no request from the list (R138). -/
def State.endPoll (s : State) (d : Nat) (o : Operation) (answer : PollAnswer) (elapsed : Nat) : State :=
  let x := s.die d
  let idle := { x with operation := none, retries := 0, buffer := [] }
  match o.discard, x.polls with
  | true, _ => (s.setDie d { idle with state := stateAfterPoll x.state false }).arbitrate d
  | false, [] => (s.setDie d { idle with state := stateAfterPoll x.state false }).arbitrate d
  | false, q :: rest =>
    let after := stateAfterPoll x.state (q.revive && answer == .ready)
    let result := if q.revive then (if answer = .ready then .ok else .dieOffline) else answer.probeResult
    ((s.setDie d { idle with state := after, polls := rest }).complete q.token result
      (BitVec.ofNat 32 after.code) (BitVec.ofNat 32 (max 1 elapsed))).arbitrate d

/-! ### A die goes OFFLINE (R126, R112) -/

/-- The load owners among entries: record ids and generations. -/
def loadOwners (entries : List FetchEntry) : List (Nat × Generation) :=
  entries.filterMap fun e =>
    match e.owner with
    | .load id g => some (id, g)
    | .voice _ _ => none

/-- The head blocks among entries that belong to one load. -/
def headBlocksOf (id : Nat) (g : Generation) (entries : List FetchEntry) : List Nat :=
  entries.filterMap fun e =>
    match e.destination with
    | .headBlock _ k => if e.owner = .load id g then some k else none
    | .place _ _ => none

/-- A load with reads on the lost die fails once, reporting the lowest head block among them (R112, R126). -/
def State.failLoadOffline (entries : List FetchEntry) (s : State) (owner : Nat × Generation) : State :=
  if s.loadRunning owner.1 owner.2 then
    match (headBlocksOf owner.1 owner.2 entries).min? with
    | some k => s.failLoad owner.1 (.dieOffline k)
    | none => s
  else s

/-- A voice entry of the lost die fails without having been issued (R112): its place is FILLED, zero and damaged. -/
def State.failVoiceEntry (s : State) (e : FetchEntry) : State :=
  match e.owner, e.destination with
  | .voice slot g, .place w i =>
    let v := s.voice slot
    if v.generation = g ∧ v.sounding = true then
      match s.layoutOf v with
      | some l => s.fillAwaited w i l .offline
      | none => s
    else s
  | .voice _ _, .headBlock _ _ | .load _ _, _ => s

/-- A STORE with entries in the lost die's program queue fails at the lowest-addressed of them (R134). -/
def State.failQueuedStore (programs : List ProgramEntry) (s : State) (place : Nat) : State :=
  match ((programs.filter fun p => p.place == place).map ProgramEntry.address).min? with
  | some a => s.failStore place a
  | none => s

/-- The read that timed out hands over its end (R126): a voice's in full; a load's counts, its failure coming with the
other entries of the die. -/
def State.timedOutRead (s : State) (f : FetchEntry) : State :=
  match f.owner, f.destination with
  | .voice slot g, .place w i => s.endVoiceRead slot g w i .offline
  | .load id g, .headBlock slot _ =>
    if s.loadRunning id g then s.lowerLoadReads id g slot else (s.lowerLoadReads id g slot).settleRetiring id
  | .voice _ _, .headBlock _ _ | .load _ _, .place _ _ => s

/-- The operation that timed out ends (R126, step 2); a marked one hands over nothing (R138). -/
def State.timedOutWork (s : State) (o : Operation) : State :=
  if o.discard then s
  else
    match o.work with
    | .read f => s.timedOutRead f
    | .program p => s.programFails p
    | .poll => s

/-- The fetch entry of a timed-out read that is not marked. -/
def Operation.lostEntry (o : Operation) : List FetchEntry :=
  match o.work with
  | .read f => if o.discard then [] else [f]
  | .program _ | .poll => []

/-- A die goes OFFLINE as the operation on it times out (R126, R139): DIE_FAULT is latched, and its queued entries fail,
or, during an engine reset, leave without outcome. Voices and loads whose candidate block lies on it are then judged
(R106). DESIGN CHOICE (log 41: R39, R106 and R112 do not order these): a load with a timed-out or queued entry fails before
any waiting voice has its silent runs, so its voices end STALE without them; a load that fails only by its unqueued candidate
block fails after, so its voices have theirs first. -/
def State.goOffline (s : State) (d : Nat) (o : Operation) : State :=
  let entries := s.subQueue d
  let programs := (s.die d).programs
  let s1 := (s.setDie d { s.die d with
    state := .offline, operation := none, retries := 0, buffer := [], programs := [] }).latch .dieFault
  let s2 := { s1 with queue := s1.queue.filter fun e => dieOf e.address != d }
  if s.resetting then s2
  else
    let s3 := s2.timedOutWork o
    let s4 := entries.foldl State.failVoiceEntry s3
    let lost := o.lostEntry ++ entries
    let s5 := (loadOwners lost).foldl (State.failLoadOffline lost) s4
    let s6 := (programs.map ProgramEntry.place).foldl (State.failQueuedStore programs) s5
    s6.judgeStores.settleVoices.settleLoads

end Sys2Proof.Machine
end

