-- ==== Sys2Proof/Machine/TakeDies.lean ====
section
/-! DEFINITION. The takes of the Die Controllers' requests (06) and of TUNE_ENGINE (08): STORE, PROBE_DIE, REVIVE_DIE,
TUNE_ENGINE, and the refusal of a kind the part does not define. -/

namespace Sys2Proof.Machine

/-- Some record forbids a STORE over a range (R23, R131). -/
def State.recordForbids (s : State) (first count : Nat) : Bool :=
  s.catalog.any fun e => e.2.meets first count && e.2.forbidsStore

/-- Some block of a range lies on an OFFLINE die (R131). -/
def State.rangeOffline (s : State) (first count : Nat) : Bool :=
  (rangeBlocks first count).any fun a => s.dieOffline (dieOf a)

/-- The place of the STOREs-in-flight table that an accepted STORE takes. DESIGN CHOICE (log 49: R132 names none): the lowest free
one. -/
def State.freeStorePlace (s : State) : Nat :=
  (lowest (fun n => !(s.stores.any fun x => x.place == n)) Config.storeLimit).getD Config.storeLimit

/-- The program entry of one block of a STORE (R132). -/
def programFor (place : Nat) (host : HostAddr) (first address : Nat) : ProgramEntry :=
  { place := place, address := address, host := host + BitVec.ofNat 64 ((address - first) * Config.blockBytes) }

/-- A program entry joins the end of its die's program queue (R132). -/
def State.queueProgram (s : State) (p : ProgramEntry) : State :=
  let d := dieOf p.address
  s.setDie d { s.die d with programs := (s.die d).programs ++ [p] }

/-- The dies that hold a block of a range, in rising number. -/
def rangeDies (first count : Nat) : List Nat :=
  (List.range Config.dies).filter fun d => (rangeBlocks first count).any fun a => dieOf a == d

/-- The arbiters of the dies that an accepted STORE gave an entry choose (R129); of these one that is not idle chooses
nothing. No other die is given work, so no other arbiter chooses. -/
def State.arbitrateRange (s : State) (first count : Nat) : State := (rangeDies first count).foldl State.arbitrate s

/-- An accepted STORE (R132). -/
def State.acceptStore (s : State) (t : Token) (p : StoreParams) : State :=
  let first := p.first.toNat
  let count := p.count.toNat
  let place := s.freeStorePlace
  let entry : StoreEntry :=
    { place := place, token := t, first := first, count := count, host := p.host, programmed := 0, queued := count
      inFlight := 0, failure := none }
  let s1 := { s with
    catalog := Table.update Record.blank (fun _ r => r.overwrite first count) s.catalog
    stores := s.stores ++ [entry] }
  (((rangeBlocks first count).map (programFor place p.host first)).foldl State.queueProgram s1).arbitrateRange first count

/-- STORE (R131, R132). -/
def takeStore (t : Token) (p : StoreParams) (s : State) : State :=
  let first := p.first.toNat
  let count := p.count.toNat
  if !storeValid p then s.refuse t .badParam
  else if Config.storeLimit ≤ s.stores.length then s.refuse t .busy
  else if s.recordForbids first count then s.refuse t .claimed
  else if s.storeClaims [{ start := first, count := count }] then s.refuse t .claimed
  else if s.rangeOffline first count then s.refuse t .dieOffline
  else s.acceptStore t p

/-- A request joins the end of a die's poll list, and the die's arbiter chooses (R127, R128, R129). -/
def State.joinPolls (s : State) (d : Nat) (q : PollRequest) : State :=
  (s.setDie d { s.die d with polls := (s.die d).polls ++ [q] }).arbitrate d

/-- A die's poll list is full (R127, R128). -/
def State.pollsFull (s : State) (d : Nat) : Bool := Config.pollLimit ≤ (s.die d).polls.length

/-- PROBE_DIE (R127). -/
def takeProbeDie (t : Token) (die : Byte) (s : State) : State :=
  if !dieValid die then s.refuse t .badParam
  else if s.pollsFull die.toNat then s.refuse t .busy
  else s.joinPolls die.toNat { revive := false, token := t }

/-- REVIVE_DIE (R128). -/
def takeReviveDie (t : Token) (die : Byte) (s : State) : State :=
  if !dieValid die then s.refuse t .badParam
  else if !s.dieOffline die.toNat then s.complete t .ok (BitVec.ofNat 32 (s.die die.toNat).state.code) 0#32
  else if s.pollsFull die.toNat then s.refuse t .busy
  else s.joinPolls die.toNat { revive := true, token := t }

/-- TUNE_ENGINE (R173); a new lead class table moves the horizons (R97, R98). -/
def takeTuneEngine (t : Token) (p : TuneParams) (s : State) : State :=
  if !tuneValid p then s.refuse t .badParam
  else if tuneNamed p 0 && p.voiceLimit.toNat < s.soundingCount then s.refuse t .busy
  else
    let s1 := { s with tunables := tuned s.tunables p }
    let s2 := if tuneNamed p 1 then s1.settleVoices else s1
    s2.complete t .ok (tuneApplied p) (BitVec.ofNat 32 s.soundingCount)

/-- A kind that is not one of the kinds of section 8.5 (R169); its return words are free values (log 6). -/
def takeBadKind (t : Token) (s : State) : State := s.completeUnstated t .badKind

end Sys2Proof.Machine
end

