-- ==== Sys2Proof/Machine/TakePace.lean ====
section
/-! DEFINITION. The takes of the Pace Timer's requests (04): RUN, HALT, LOCATE, SET_PACE. -/

namespace Sys2Proof.Machine

/-- A completion with OK and the transport position in its words: low 32 bits, high 16 bits (R89, R90). -/
def State.completePosition (s : State) (t : Token) : State :=
  s.complete t .ok (lowWord s.pace.position) (highWord s.pace.position)

/-- RUN (R89). -/
def takeRun (t : Token) (s : State) : State :=
  if s.pace.running then s.completePosition t
  else { s with pace := { s.pace with running := true, frame := 0 } }.completePosition t

/-- HALT (R90). -/
def takeHalt (t : Token) (s : State) : State :=
  if !s.pace.running then s.completePosition t
  else if s.pace.haltPending.isSome then s.refuse t .busy
  else { s with pace := { s.pace with haltPending := some t } }

/-- LOCATE (R92). -/
def takeLocate (t : Token) (position : BitVec 64) (s : State) : State :=
  if 2 ^ 47 ≤ position.toNat then s.refuse t .badParam
  else if s.pace.running then s.refuse t .busy
  else
    let s1 := { s with pace := { s.pace with position := position.toNat } }
    (s1.endVoices .located s.soundingSlots).complete t .ok (BitVec.ofNat 32 s.soundingCount) 0#32

/-- SET_PACE (R84 to R87); settings applied while STOPPED move the horizons (R98). -/
def takeSetPace (t : Token) (p : PaceParams) (s : State) : State :=
  match settingsOf p with
  | none => s.refuse t .badParam
  | some x =>
    if s.pace.pending.isSome then s.refuse t .busy
    else if s.pace.running then { s with pace := { s.pace with pending := some (x, t) } }
    else (s.applyPace x t).settleVoices

end Sys2Proof.Machine
end

