-- ==== Sys2Proof/Machine/TakeVoices.lean ====
section
/-! DEFINITION. The takes of the Voice Table's requests (03): START with its steal, RELEASE, STOP, RETUNE. -/

namespace Sys2Proof.Machine

/-- Head mode is decided at the take (R56). -/
def headModeFor (r : Record) (l : Layout) (offset : Nat) : Bool :=
  r.state == .resident || (r.state == .loading && offset < l.headFrames)

/-- START's at is replaced by the position: RUNNING and below it (R55). -/
def State.startLate (s : State) (p : StartParams) : Bool := s.pace.running && startPosition p < s.pace.position

/-- The voice a START sets up (R54 to R56, R61, R146). -/
def State.newVoice (s : State) (p : StartParams) (r : Record) (l : Layout) (slot window : Nat) : Voice :=
  let offset := p.offset.toNat
  let v : Voice :=
    { Voice.blank with
      state := .priming, generation := nextGeneration (s.voice slot).generation, sampleId := p.sample.id.toNat
      sampleGeneration := p.sample.generation, headMode := headModeFor r l offset, window := window
      startOffset := offset, position := if s.startLate p then s.pace.position else startPosition p
      rate := p.rate.toNat, priority := p.priority.toNat, leadClass := p.leadClass.toNat
      loopFollow := byteSet p.loopFollow, cookie := p.cookie, startSequence := s.startCount
      cursor := { source := offset, stream := 0, atEnd := false }
      delivery := { source := offset, latestWrap := none, loopedPending := false } }
  { v with total := if v.loopAhead l offset then none else some (l.length - offset) }

/-- A record gains a voice (R12), and a RESIDENT one moves to the front of the recency list (R33). -/
def State.addReference (s : State) (id : Nat) : State :=
  let r := s.record id
  let s1 := s.setRecord id { r with refs := r.refs + 1 }
  if r.state = .resident then s1.touch id else s1

/-- An accepted START sets up its voice (R54), which is judged at once for its first runs (R102). The count of accepted STARTs,
a 48-bit field in 3.1, is not bounded here (log 45, DESIGN CHOICE: the spec does not say what follows 2^48 − 1). -/
def State.acceptStart (s : State) (t : Token) (p : StartParams) (l : Layout) (slot window : Nat) : State :=
  let id := p.sample.id.toNat
  let v := s.newVoice p (s.record id) l slot window
  let s1 := (s.setWindow window Window.blank).setVoice slot v
  let s2 := { s1 with startCount := s.startCount + 1 }.addReference id
  (s2.settleVoice slot).complete t (if s.startLate p then .okLate else .ok) (BitVec.ofNat 32 slot)
    (v.generation.setWidth 32)

/-- A steal (R53): the victim enters ENDING with reason STOLEN and the steal counter rises. -/
def State.steal (s : State) (victim : Nat) : State := (s.endVoice .stolen victim).count .steal

/-- The victim a START needs and may take: none needed below the voice limit; otherwise the chosen victim unless it
outranks the new voice (R52, R53). -/
def State.admission (s : State) (priority : Nat) : Option (Option Nat) :=
  if s.soundingCount < s.tunables.voiceLimit then some none
  else
    match s.victim with
    | none => none
    | some n => if priority < (s.voice n).priority then none else some (some n)

/-- START (R49 to R56). -/
def takeStart (t : Token) (p : StartParams) (s : State) : State :=
  let r := s.record p.sample.id.toNat
  if !startValid p then s.refuse t .badParam
  else if !s.names p.sample then s.refuse t .noRecord
  else if r.state = .stale then s.refuse t .sampleStale
  else if r.state = .retiring then s.refuse t .sampleRetiring
  else
    match r.layout with
    | none => s.refuse t .badParam
    | some l =>
      if l.length ≤ p.offset.toNat then s.refuse t .badParam
      else
        match s.lowestFreeSlot, s.lowestFreeWindow, s.admission p.priority.toNat with
        | none, _, _ => s.refuse t .noVoice
        | some _, none, _ => s.refuse t .noWindow
        | some _, some _, none => s.refuse t .outranked
        | some slot, some w, some none => s.acceptStart t p l slot w
        | some slot, some w, some (some victim) => (s.steal victim).acceptStart t p l slot w

/-- A request names the voice of a slot: not FREE, of the named generation (R47). -/
def State.namesVoice (s : State) (n : VoiceName) : Bool :=
  slotValid n && (s.voice n.slot.toNat).state != .free && (s.voice n.slot.toNat).generation == n.generation

/-- The DONE status of a RELEASE, STOP or RETUNE that names a voice: OK, the rule's value, the voice's state after the take
(R62). -/
def State.completeVoice (s : State) (t : Token) (slot value : Nat) : State :=
  s.complete t .ok (BitVec.ofNat 32 value) (BitVec.ofNat 32 (s.voice slot).state.code)

/-- The released flag is set on a voice where it was clear (R63, R61). -/
def Voice.setReleased (v : Voice) (l : Layout) : Voice :=
  { v with
    released := true
    total := match v.total with
      | some n => some n
      | none => some (v.cursor.stream + (l.length - v.cursor.source))
    state := match v.state with
      | .playing => .releasing
      | .free => .free
      | .priming => .priming
      | .releasing => .releasing
      | .draining => .draining
      | .ending => .ending }

/-- RELEASE's effect on a voice (R63): in PRIMING, PLAYING or RELEASING with the flag clear. -/
def Voice.release (v : Voice) (l : Layout) : Voice :=
  match v.state with
  | .priming | .playing | .releasing => if v.released then v else v.setReleased l
  | .free | .draining | .ending => v

/-- RELEASE (R47, R62, R63); the words of a refusal are free values (log 6). -/
def takeRelease (t : Token) (n : VoiceName) (s : State) : State :=
  let slot := n.slot.toNat
  if !slotValid n then s.completeUnstated t .badParam
  else if !s.namesVoice n then s.completeUnstated t .staleVoice
  else
    let v := s.voice slot
    let s1 := match s.layoutOf v with
      | some l => s.setVoice slot (v.release l)
      | none => s
    s1.completeVoice t slot ((s1.voice slot).total.getD 0)

/-- STOP (R47, R62, R64); the words of a refusal are free values (log 6). -/
def takeStop (t : Token) (n : VoiceName) (s : State) : State :=
  let slot := n.slot.toNat
  if !slotValid n then s.completeUnstated t .badParam
  else if !s.namesVoice n then s.completeUnstated t .staleVoice
  else (s.endVoice .stopped slot).completeVoice t slot (s.voice slot).delivered

/-- RETUNE's effect on a sounding voice (R65, R66). -/
def Voice.retune (v : Voice) (p : RetuneParams) (running : Bool) : Voice :=
  let v1 := { v with
    priority := (retunePriority p).getD v.priority
    leadClass := (retuneLead p).getD v.leadClass }
  match retuneRate p with
  | none => v1
  | some x => if running then { v1 with pendingRate := some x } else { v1 with rate := x, pendingRate := none }

/-- RETUNE (R47, R62, R65, R66); the words of a refusal are free values (log 6). -/
def takeRetune (t : Token) (p : RetuneParams) (s : State) : State :=
  let slot := p.voice.slot.toNat
  if !retuneValid p then s.completeUnstated t .badParam
  else if !s.namesVoice p.voice then s.completeUnstated t .staleVoice
  else
    let v := s.voice slot
    let s1 := if v.sounding then (s.setVoice slot (v.retune p s.pace.running)).settleVoice slot else s
    s1.completeVoice t slot (s1.voice slot).rate

end Sys2Proof.Machine
end

