-- ==== Sys2Proof/Machine/Requests.lean ====
section
/-! DEFINITION. The Request Processor (08): the Request List, the arrival and the take of a descriptor, the advance, the
re-reads of a next pointer; and what every event ends with: DONE writes and the interrupt message. -/

namespace Sys2Proof.Machine

/-! ### The list (8.1, 8.2) -/

/-- A request descriptor address is a multiple of 256 (R187). -/
def requestAligned (a : HostAddr) : Bool := a.toNat % 256 == 0

/-- The next-pointer reads in flight for the descriptor the processor works at. -/
def RequestProcessor.nextReads (q : RequestProcessor) : Nat :=
  q.rereads + (!q.waiting && (q.read == .nextAtAdvance || q.read == .nextAtResume)).toNat

/-- The processor leaves its descriptor: next-pointer reads of it still in flight come too late (log 44). -/
def RequestProcessor.leave (q : RequestProcessor) : RequestProcessor :=
  { q with lateRereads := q.lateRereads + q.nextReads, rereads := 0, read := .none, held := none }

/-- The processor enters PARKED with LINK_ERROR (R164, R166, R167): PORT_ERROR is latched and resume pending clears. -/
def State.parkRequestsLinkError (s : State) (address : HostAddr) (taken : Bool) : State :=
  { s with requests := { s.requests.leave with
      state := .parked, waiting := false, address := address, heldNext := none, parkReason := some .linkError
      takenMark := taken, resumePending := false } }.latch .portError

/-- The processor enters PARKED with END_OF_LIST at its descriptor address (R167, R168): no flag is latched. -/
def State.parkRequestsEnd (s : State) : State :=
  { s with requests := { s.requests with
      state := .parked, waiting := false, heldNext := none, parkReason := some .endOfList, takenMark := false
      read := .none, held := none } }

/-- A descriptor fetch begins or falls due (R165 to R168): it waits during an engine reset (R174), and a misaligned address
is fetched as a failed fetch (R187). -/
def State.fetchRequest (s : State) (a : HostAddr) : State :=
  let q' := { s.requests.leave with
    state := .fetching, waiting := s.resetting, address := a, heldNext := none, parkReason := none, takenMark := false
    read := .descriptor }
  if s.resetting then { s with requests := q' }
  else if requestAligned a then { s with requests := q' }.emit (.hostRead a 256)
  else s.parkRequestsLinkError a false

/-- A next pointer is read again with the processor FETCHING; during an engine reset the read waits (R174). Resume pending, if it
asked for the read, clears (R167, R168). -/
def State.rereadFetching (s : State) (kind : RequestRead) : State :=
  let q' := { s.requests with
    state := .fetching, waiting := s.resetting, heldNext := none, parkReason := none, takenMark := false
    resumePending := false, read := kind }
  if s.resetting then { s with requests := q' } else { s with requests := q' }.emit (.hostRead s.requests.address 8)

/-- The next pointer of the descriptor just taken is read again at an advance (R167). -/
def State.rereadAtAdvance (s : State) : State := s.rereadFetching .nextAtAdvance

/-- The next pointer of a parked descriptor is read again by a resume (R168); during an engine reset the read waits with
the processor FETCHING (R174, log 13). A resume written while such a read is in flight begins another, the one in flight
running to its end (log 16). -/
def State.rereadAtResume (s : State) : State :=
  if s.resetting then
    { s with requests := { s.requests with
        state := .fetching, waiting := true, parkReason := none, takenMark := false, read := .nextAtResume } }
  else { s with requests := { s.requests with rereads := s.requests.rereads + 1 } }.emit (.hostRead s.requests.address 8)

/-- A resume's re-read that found 0 with resume pending set asks for one further read, and resume pending clears, so that no
request linked behind the descriptor is lost (R168, log 16): in FETCHING, where an engine reset had made the first read wait
(log 39), or in PARKED. -/
def State.rereadAgain (s : State) : State :=
  if s.requests.state = .fetching then s.rereadFetching .nextAtResume
  else { s with requests := { s.requests with resumePending := false } }.rereadAtResume

/-- The advance from a descriptor taken, with the next pointer read at its fetch (R167). -/
def State.advanceRequests (s : State) (next : HostAddr) : State :=
  if next ≠ 0#64 then s.fetchRequest next
  else if s.requests.resumePending then s.rereadAtAdvance
  else s.parkRequestsEnd

/-- A write of the Request List Pointer (R165, R187). -/
def State.writeRequestPointer (s : State) (a : HostAddr) : State :=
  if s.requests.state = .fetching then s.latch .portError
  else if a = 0#64 then
    { s with requests := { s.requests.leave with
        state := .idle, waiting := false, address := 0#64, parkReason := none, takenMark := false
        resumePending := false } }
  else if requestAligned a then
    { s with requests := { s.requests with resumePending := false } }.fetchRequest a
  else s.latch .portError

/-- A write of Request Resume (R168). -/
def State.resumeRequests (s : State) : State :=
  match s.requests.state with
  | .idle => s
  | .fetching => { s with requests := { s.requests with resumePending := true } }
  | .parked =>
    match s.requests.parkReason, s.requests.takenMark with
    | some .endOfList, _ => s.rereadAtResume
    | some .linkError, true => s.rereadAtResume
    | some .linkError, false => s.fetchRequest s.requests.address
    | none, _ => s

/-- A descriptor read is in flight: FETCHING, READING (R164). -/
def State.requestReading (s : State) : Bool :=
  s.requests.state == .fetching && s.requests.read == .descriptor && !s.requests.waiting

/-- A descriptor read fails on the link (R166). -/
def State.requestFetchFails (s : State) : State :=
  if s.requestReading then s.parkRequestsLinkError s.requests.address false else s

/-- The re-read of a next pointer, begun by an advance, ends (R167). -/
def State.rereadAtAdvanceEnds (s : State) (read : Option HostAddr) : State :=
  match read with
  | none => s.parkRequestsLinkError s.requests.address true
  | some a => s.advanceRequests a

/-- The re-read of a next pointer, begun by a resume, ends (R168): a nonzero pointer is fetched; 0 parks the processor with
END_OF_LIST, or, with resume pending set, is read once more; a failure leaves it parked with END_OF_LIST (log 16). -/
def State.rereadAtResumeEnds (s : State) (read : Option HostAddr) : State :=
  match read with
  | none => s.parkRequestsEnd.latch .portError
  | some a =>
    if a ≠ 0#64 then s.fetchRequest a
    else if s.requests.resumePending then s.rereadAgain
    else s.parkRequestsEnd

/-- A re-read that has no more say ends (log 16, log 44): a failure latches PORT_ERROR. -/
def State.rereadUnused (s : State) (read : Option HostAddr) : State := if read.isNone then s.latch .portError else s

/-- A resume's re-read begun in PARKED ends after a further resume has made the processor wait, FETCHING, to read once more
(log 16): a nonzero pointer is fetched; 0 or a failure leaves the decision to the read that is to come. -/
def State.olderRereadEnds (s : State) (read : Option HostAddr) : State :=
  match read with
  | none => s.rereadUnused none
  | some a => if a ≠ 0#64 then s.fetchRequest a else s

/-- The end of one of the reads that resumes began in PARKED (R168, log 16). -/
def State.parkedRereadEnds (s : State) (read : Option HostAddr) : State :=
  let s1 := { s with requests := { s.requests with rereads := s.requests.rereads - 1 } }
  if s.requests.state = .parked then s1.rereadAtResumeEnds read else s1.olderRereadEnds read

/-- The end of the read that the processor, FETCHING, has in flight; with none in flight nothing changes (log 1). -/
def State.fetchingRereadEnds (s : State) (read : Option HostAddr) : State :=
  let s1 := { s with requests := { s.requests with read := .none } }
  if s.requests.waiting then s
  else
    match s.requests.read with
    | .nextAtAdvance => s1.rereadAtAdvanceEnds read
    | .nextAtResume => s1.rereadAtResumeEnds read
    | .none | .descriptor => s

/-- A re-read of a next pointer ends. Re-reads end in the order they were begun: one whose descriptor the processor has left
comes first and moves nothing (log 44). -/
def State.requestReread (s : State) (read : Option HostAddr) : State :=
  if 0 < s.requests.lateRereads then
    { s with requests := { s.requests with lateRereads := s.requests.lateRereads - 1 } }.rereadUnused read
  else if 0 < s.requests.rereads then s.parkedRereadEnds read
  else s.fetchingRereadEnds read

/-! ### The take (R169, R170) -/

/-- The owner's decision on a request (R169, steps 2 and 3). -/
def takeBody (t : Token) : RequestBody → State → State
  | .define p => takeDefine t p
  | .setPin n pin => takeSetPin t n pin
  | .retire n force => takeRetire t n force
  | .loadHead n => takeLoadHead t n
  | .unloadHead n => takeUnloadHead t n
  | .configureMemory p => takeConfigureMemory t p
  | .start p => takeStart t p
  | .release n => takeRelease t n
  | .stop n => takeStop t n
  | .retune p => takeRetune t p
  | .run => takeRun t
  | .halt => takeHalt t
  | .locate position => takeLocate t position
  | .setPace p => takeSetPace t p
  | .store p => takeStore t p
  | .probeDie die => takeProbeDie t die
  | .reviveDie die => takeReviveDie t die
  | .tuneEngine p => takeTuneEngine t p
  | .badKind _ => takeBadKind t

/-- The completion token of a request taken from the descriptor address (R170). -/
def State.tokenFor (s : State) (h : Header) : Token :=
  { address := s.requests.address, tag := h.tag, notify := notifyOf h, order := s.takes }

/-- The taken count rises, the descriptor's read is over, its next pointer is held (R169, step 1; R167). -/
def State.beginTake (s : State) (h : Header) : State :=
  { s with
    takes := s.takes + 1
    requests := { s.requests with
      waiting := false, takenCount := s.requests.takenCount + 1#32, heldNext := some h.next, read := .none, held := none } }

/-- A take's own status is among the event's completions. -/
def State.completesNow (s : State) (t : Token) : Bool := s.completions.any fun c => c.token.order == t.order

/-- The statuses of a take (R170): the DONE statuses of earlier requests and its own, or TAKEN for a long request. -/
def State.writeStatuses (s : State) (t : Token) : State :=
  if s.completesNow t then s.flush else s.flush.writeTaken t

/-- THE TAKE of a request, one event (R169). -/
def State.takeRequest (s : State) (r : Request) : State :=
  let t := s.tokenFor r.header
  ((takeBody t r.body (s.beginTake r.header)).writeStatuses t).advanceRequests r.header.next

/-- A descriptor arrives (R166): taken, or held untaken in WAITING during an engine reset; with no descriptor read in flight
nothing changes (log 1). -/
def State.requestArrives (s : State) (r : Request) : State :=
  if !s.requestReading then s
  else if s.resetting then
    { s with requests := { s.requests with waiting := true, read := .none, held := some r } }
  else s.takeRequest r

/-- A waiting read of a next pointer begins. The processor stays FETCHING, now READING, while it is in flight, a resume's re-read
too (log 39, DESIGN CHOICE: R174 keeps the state, R168 has a resume's re-read leave it PARKED). -/
def State.beginReread (s : State) : State :=
  { s with requests := { s.requests with waiting := false } }.emit (.hostRead s.requests.address 8)

/-- The return of Engine Status to READY (R174): a held descriptor is taken, a waiting read begins. -/
def State.releaseRequests (s : State) : State :=
  if s.requests.state = .fetching ∧ s.requests.waiting = true then
    match s.requests.held, s.requests.read with
    | some r, _ => s.takeRequest r
    | none, .descriptor => s.fetchRequest s.requests.address
    | none, .nextAtResume => s.beginReread
    | none, .nextAtAdvance => s.beginReread
    | none, .none => s
  else s

/-! ### An event of the part -/

/-- An event: what its owners do, the DONE writes of the long requests it completed (R170), and the interrupt message
(R182). DESIGN CHOICE, the spec ordering neither: the DONE writes leave after the link traffic of the owners' own work, a
descriptor fetch or a delivery among it (log 46), and the message last of all (log 42). -/
def event (f : State → State) (s : State) : Host.Outcome State Fault Refusal := .next (sendMessage s (f s).flush)

end Sys2Proof.Machine
end

