-- ==== Sys2Proof/Machine/Resets.lean ====
section
/-! DEFINITION. The three resets: power-on (R26, R46, R76, R94, R118, R137, R162, R175, R186), link reset (R27, R46, R77, R95,
R118, R138, R162, R175, R186) and engine reset with its two events (R178, R179 and the owners' rules they name). -/

namespace Sys2Proof.Machine

/-! ### What the two later resets share -/

/-- A voice slot after a link reset or an engine reset's clear (R77, R78, R162): FREE, its generation, END posted and last
fields kept, its pending rate dropped, no read in flight, its delivery record cleared. -/
def Voice.cleared (v : Voice) : Voice :=
  { v with state := .free, pendingRate := none, reads := 0, delivery := DeliveryRecord.blank }

/-- Every voice slot is cleared and every window returns to the pool with every place EMPTY (R45, R46, R77). -/
def State.clearVoices (s : State) : State :=
  { s with voices := Table.update Voice.blank (fun _ v => v.cleared) s.voices, windows := [] }

/-- A die whose waiting work is dropped (R138, R139). -/
def Die.emptied (x : Die) : Die := { x with programs := [], polls := [] }

/-- An operation in flight has its discard mark set (R138, R139). -/
def Die.marked (x : Die) : Die := { x with operation := x.operation.map fun o => { o with discard := true } }

/-- The transport stops and what is pending on it is dropped (R95, R96). -/
def Pace.stopped (p : Pace) : Pace := { p with running := false, pending := none, haltPending := none }

/-- The Pace Timer after a link reset or an engine reset's clear (R95, R96). -/
def Pace.cleared (p : Pace) : Pace := { p.stopped with position := 0, index := 0, frame := 0 }

/-- The Fetch Queue is emptied without outcome, and its enqueue count returns to 0 (R118). -/
def State.clearQueue (s : State) : State := { s with queue := [], enqueueCount := 0 }

/-! ### Link reset -/

/-- A record at a link reset (R27). -/
def Record.linkReset (r : Record) : Record :=
  match r.state with
  | .loading => { r with state := .defined, refs := 0, loadReads := 0, headSlot := none, load := none, retire := none }
  | .retiring => Record.vacant r.generation
  | .vacant | .defined | .resident | .stale => { r with refs := 0, loadReads := 0, load := none, retire := none }

/-- The Register Window at a link reset (R186, R182); the vector is kept (log 21). -/
def RegisterWindow.linkReset (w : RegisterWindow) : RegisterWindow := { RegisterWindow.blank with msiVector := w.msiVector }

/-- LINK RESET. -/
def State.linkReset (s : State) : State :=
  let s1 := s.clearVoices.clearQueue
  { s1 with
    registers := s.registers.linkReset
    requests := RequestProcessor.blank
    stores := []
    catalog := Table.update Record.blank (fun _ r => r.linkReset) s.catalog
    reclaiming := []
    pace := s.pace.cleared
    dies := Table.update Die.blank (fun _ x => x.marked.emptied) s.dies
    delivery := DeliveryEngine.blank
    completions := [] }

/-! ### Engine reset -/

/-- The engine reset clears the part (R179): the owners take their engine reset values and Engine Status becomes READY. -/
def State.clearPart (s : State) : State :=
  let s1 := s.clearVoices.clearQueue
  { s1 with
    registers := { s.registers with engine := .ready }
    stores := []
    catalog := Table.update Record.blank (fun _ r => Record.vacant r.generation) s.catalog
    reclaiming := []
    recency := []
    pace := s.pace.cleared
    dies := Table.update Die.blank (fun _ x => x.emptied) s.dies
    delivery := { s.delivery with noticeCount := 0, noticeStamp := none }
    completions := [] }

/-- A waiting buffer descriptor fetch begins at the return to READY (R163). -/
def State.releaseBuffers (s : State) : State :=
  if s.delivery.waiting then s.fetchBuffer s.delivery.address else s

/-- The engine reset completes when no die has an operation in flight (R179): the part is cleared, and a held descriptor or
a waiting fetch goes on against the cleared part (R163, R174). Both may go on in this one event; the buffer fetch is put on
the link first (log 43, DESIGN CHOICE: the spec does not order them). -/
def State.finishEngineReset (s : State) : State :=
  if s.resetting && s.noOperation then s.clearPart.releaseBuffers.releaseRequests else s

/-- The start of an engine reset (R178): the transport stops (R96), pending rates are dropped (R78), every operation in
flight is marked (R139). -/
def State.startEngineReset (s : State) : State :=
  { s with
    registers := { s.registers with engine := .resetting }
    pace := s.pace.stopped
    voices := Table.update Voice.blank (fun _ v => { v with pendingRate := none }) s.voices
    dies := Table.update Die.blank (fun _ x => x.marked) s.dies }

/-- A write of ENGINE RESET to Engine Control (R177, R178, R179): ignored while RESETTING. -/
def State.engineReset (s : State) : State := if s.resetting then s else s.startEngineReset.finishEngineReset

/-- Power-on: every state of the part at its power-on value. The model's own fields stay: the commands waiting, what has
left the part, and the counters that keep free values apart (log 9, 10, 25). -/
def State.powerOn (s : State) : State :=
  { State.reset with out := s.out, takes := s.takes, freeCount := s.freeCount, pending := s.pending }

end Sys2Proof.Machine
end

