-- ==== Sys2Proof/Machine/Window.lean ====
section
/-! DEFINITION. The Register Window (09, 11.1): wide registers and their holds, engine control, interrupt status and mask,
counters, and the value every register reads as. The inspection port is in Inspect.lean. -/

namespace Sys2Proof.Machine

/-! ### Wide registers (R176) -/

/-- The number a wide register's holds stand at. -/
def wideNumber : WideRegister → Nat
  | .requestListPointer => 0
  | .bufferListPointer => 1
  | .transportPosition => 2
  | .periodIndex => 3
  | .inspectData n => 4 + n.val

/-- The wide registers that are written (R176): the two list pointers. -/
def wideWritable : WideRegister → Bool
  | .requestListPointer | .bufferListPointer => true
  | .transportPosition | .periodIndex | .inspectData _ => false

/-- Inspect Data `n` of the page shown (R184). -/
def State.inspectData (s : State) (n : Nat) : BitVec 64 :=
  s.registers.snapshot.getD ((if s.registers.selectPage then 16 else 0) + n) 0#64

/-- A wide register's value (R143, R165, R93, R184). -/
def State.wideValue (s : State) : WideRegister → BitVec 64
  | .requestListPointer => s.requests.address
  | .bufferListPointer => s.delivery.address
  | .transportPosition => BitVec.ofNat 64 (s.pace.position % 2 ^ 48)
  | .periodIndex => BitVec.ofNat 64 (s.pace.index % 2 ^ 48)
  | .inspectData n => s.inspectData n.val

/-- A wide register's write hold. -/
def State.writeHold (s : State) (r : WideRegister) : Word := Table.get 0#32 s.registers.writeHolds (wideNumber r)

/-- A wide register's read hold. -/
def State.readHold (s : State) (r : WideRegister) : Word := Table.get 0#32 s.registers.readHolds (wideNumber r)

/-- Set a wide register's write hold. -/
def State.setWriteHold (s : State) (r : WideRegister) (v : Word) : State :=
  { s with registers := { s.registers with writeHolds := Table.set 0#32 s.registers.writeHolds (wideNumber r) v } }

/-- Set a wide register's read hold. -/
def State.setReadHold (s : State) (r : WideRegister) (v : Word) : State :=
  { s with registers := { s.registers with readHolds := Table.set 0#32 s.registers.readHolds (wideNumber r) v } }

/-- A write of the upper word of a wide register (R176); a read-only register's is ignored (log 23). -/
def State.writeUpper (s : State) (r : WideRegister) (v : Word) : State :=
  if wideWritable r then s.setWriteHold r v else s

/-- A read of the lower word of a wide register (R176). -/
def State.readLower (s : State) (r : WideRegister) : State :=
  let v := s.wideValue r
  (s.setReadHold r (v.extractLsb' 32 32)).emit (.readData (v.extractLsb' 0 32))

/-- The whole value that a write of the lower word writes: the write hold above it (R176). -/
def State.wholeWrite (s : State) (r : WideRegister) (lower : Word) : HostAddr := s.writeHold r ++ lower

/-- A write of the lower word of the Request List Pointer (R165, R176). -/
def State.requestPointerLower (s : State) (lower : Word) : State :=
  (s.setWriteHold .requestListPointer 0#32).writeRequestPointer (s.wholeWrite .requestListPointer lower)

/-- A write of the lower word of the Buffer List Pointer (R143, R176). -/
def State.bufferPointerLower (s : State) (lower : Word) : State :=
  (s.setWriteHold .bufferListPointer 0#32).writeBufferPointer (s.wholeWrite .bufferListPointer lower)

/-! ### Engine control, interrupts, counters -/

/-- A write of PANIC to Engine Control (R74, R177): ignored while RESETTING. -/
def State.panic (s : State) : State := if s.resetting then s else s.endVoices .panic s.soundingSlots

/-- A write of Interrupt Status clears each flag written 1 (R181). -/
def State.clearFlags (s : State) (value : Word) : State :=
  { s with registers := { s.registers with status := s.registers.status &&& ~~~(value.extractLsb' 0 10) } }

/-- A write of Interrupt Mask, whole (R182). -/
def State.writeMask (s : State) (value : Word) : State :=
  { s with registers := { s.registers with mask := value.extractLsb' 0 10 } }

/-- A write of a counter (R183). -/
def State.clearCounter (s : State) (c : CounterName) : State :=
  { s with registers := { s.registers with counters := s.registers.counters.clear c } }

/-- The message enable and vector of the link configuration change (R182). -/
def State.setMessages (s : State) (enable : Bool) (vector : Word) : State :=
  { s with registers := { s.registers with msiEnable := enable, msiVector := vector } }

/-! ### What registers read as (11.1) -/

/-- The Identity register. -/
def identityValue : Word := 0x3A522401#32

/-- The offline marks of Engine Status: bit 16 + n for die n (11.1, R136). -/
def State.offlineMarks (s : State) : Nat :=
  ((List.range Config.dies).map fun d => if s.dieOffline d then 2 ^ (16 + d) else 0).sum

/-- Engine Status (R180, 11.1). -/
def State.engineStatus (s : State) : Word :=
  BitVec.ofNat 32 (s.resetting.toNat + 2 * s.isEmpty.toNat + 4 * s.pace.state.code + 16 * s.pace.running.toNat + s.offlineMarks)

/-- The state field of the Request Processor's resume code (11.1). -/
def ProcessorState.code : ProcessorState → Nat
  | .idle => 0
  | .fetching => 1
  | .parked => 2

/-- The park reason field of the Request Processor's resume code (11.1). -/
def requestParkCode : Option RequestPark → Nat
  | none => 0
  | some .endOfList => 1
  | some .linkError => 2

/-- What Request Resume reads as (R168, 11.1). -/
def State.requestResumeCode (s : State) : Word :=
  let q := s.requests
  BitVec.ofNat 32 (q.state.code + 4 * q.waiting.toNat + 16 * requestParkCode q.parkReason + 256 * q.resumePending.toNat +
    512 * q.takenMark.toNat)

/-- The state field of the Delivery Engine's resume code (11.1). -/
def DeliveryState.code : DeliveryState → Nat
  | .idle => 0
  | .active => 1
  | .parked => 2

/-- The park reason field of the Delivery Engine's resume code (11.1). -/
def bufferParkCode : Option BufferPark → Nat
  | none => 0
  | some .endOfList => 1
  | some .notReclaimed => 2
  | some .linkError => 3

/-- What Buffer Resume reads as (R144, 11.1). -/
def State.bufferResumeCode (s : State) : Word :=
  let e := s.delivery
  BitVec.ofNat 32 (e.state.code + 4 * e.holding.toNat + 16 * bufferParkCode e.parkReason + 256 * e.resumePending.toNat +
    512 * e.usedMark.toNat)

/-- What Inspect Select reads as: table, page, index; the capture bit reads 0 (11.1, R184). -/
def State.inspectSelectValue (s : State) : Word :=
  BitVec.ofNat 32 (s.registers.selectTable.toNat + 8 * s.registers.selectPage.toNat + 256 * s.registers.selectIndex.toNat)

/-- The word read at an offset of the window (11.1). Reads but those of a wide register's lower word have no effect (R176),
so they have no command. DESIGN CHOICE (log 48): an offset that holds no register, or is no word's,
reads 0. -/
def State.readRegister (s : State) (offset : BitVec 12) : Word :=
  match offset.toNat with
  | 0x000 => identityValue
  | 0x008 => s.engineStatus
  | 0x010 => (s.wideValue .requestListPointer).extractLsb' 0 32
  | 0x014 => s.readHold .requestListPointer
  | 0x018 => s.requestResumeCode
  | 0x01C => s.requests.takenCount
  | 0x020 => s.requests.lastTag
  | 0x028 => (s.wideValue .bufferListPointer).extractLsb' 0 32
  | 0x02C => s.readHold .bufferListPointer
  | 0x030 => s.bufferResumeCode
  | 0x034 => s.delivery.count
  | 0x040 => s.registers.status.setWidth 32
  | 0x044 => s.registers.mask.setWidth 32
  | 0x050 => BitVec.ofNat 32 (s.registers.counters.value .blockCheck)
  | 0x054 => BitVec.ofNat 32 (s.registers.counters.value .unrecovered)
  | 0x058 => BitVec.ofNat 32 (s.registers.counters.value .underrun)
  | 0x05C => BitVec.ofNat 32 (s.registers.counters.value .starve)
  | 0x060 => BitVec.ofNat 32 (s.registers.counters.value .steal)
  | 0x070 => (s.wideValue .transportPosition).extractLsb' 0 32
  | 0x074 => s.readHold .transportPosition
  | 0x078 => (s.wideValue .periodIndex).extractLsb' 0 32
  | 0x07C => s.readHold .periodIndex
  | 0x080 => s.inspectSelectValue
  | n =>
    if 0x100 ≤ n ∧ n < 0x180 then
      let r := WideRegister.inspectData (Fin.ofNat 16 ((n - 0x100) / 8))
      if n % 8 = 0 then (s.wideValue r).extractLsb' 0 32 else if n % 8 = 4 then s.readHold r else 0#32
    else 0#32

end Sys2Proof.Machine
end

