-- ==== Sys2Proof/Machine/DeliveryCommands.lean ====
section
/-! DEFINITION. The meanings of the commands of the Buffer List and the Delivery Engine (07). -/

namespace Sys2Proof.Machine

/-- BUFFER_LIST_POINTER (R143, R176, R187): a write of the lower word. -/
def execBufferListPointer (lower : Word) (s : State) : Host.Outcome State Fault Refusal :=
  event (fun x => x.bufferPointerLower lower) s

/-- BUFFER_RESUME (R144). -/
def execBufferResume (s : State) : Host.Outcome State Fault Refusal := event State.resumeBuffer s

/-- BUFFER_FETCH_ARRIVAL (R142, R187). -/
def execBufferFetchArrival (next buffer : HostAddr) (done : Bool) (s : State) : Host.Outcome State Fault Refusal :=
  event (fun x => x.bufferArrives next buffer done) s

/-- BUFFER_FETCH_FAILED (R142). -/
def execBufferFetchFailed (s : State) : Host.Outcome State Fault Refusal := event State.bufferFetchFails s

/-- BUFFER_NEXT_REREAD_END (R144, R153): the pointer read, or a failure. -/
def execBufferNextRereadEnd (read : Option HostAddr) (s : State) : Host.Outcome State Fault Refusal :=
  event (fun x => x.bufferReread read) s

/-- DATA_DELIVERY (R150, R151). -/
def execDataDelivery (s : State) : Host.Outcome State Fault Refusal := event State.deliverData s

/-- END_DELIVERY (R150, R152). -/
def execEndDelivery (s : State) : Host.Outcome State Fault Refusal := event State.deliverEnd s

/-- DELIVERY_WRITE_FAILED (R156). -/
def execDeliveryWriteFailed (s : State) : Host.Outcome State Fault Refusal := event State.deliveryFails s


end Sys2Proof.Machine
end

