-- ==== Sys2Proof/Machine/DieEvents.lean ====
section
/-! DEFINITION. What the dies' answers, the part's timers and the fill arbiter's enqueue do (05, 06). An event that the die's
operation and phase have no place for changes nothing (log 1). The end of the last operation in flight during an engine reset
is the event at which the reset clears the part (R179). A die's command names the die alone: it is taken as the answer or the
timer of the operation the die then has, whichever operation it was sent for (log 50, DESIGN CHOICE). -/

namespace Sys2Proof.Machine

/-- A poll interval passes (R122, R133): the part polls a POLLING die once; a POLL has made its one poll (R127). -/
def State.pollInterval (s : State) (d : Nat) : State :=
  match (s.die d).operation, (s.die d).state with
  | some o, .polling =>
    match o.work with
    | .read _ | .program _ => s.emit (.diePoll d)
    | .poll => s
  | _, _ => s

/-- A die in ADDRESSING acknowledges the address (R122, R133): a read polls; a program begins its DMA read of the block. -/
def State.addressAck (s : State) (d : Nat) : State :=
  match (s.die d).operation, (s.die d).state with
  | some o, .addressing =>
    match o.work with
    | .read _ => s.setDie d { s.die d with state := .polling }
    | .program p => (s.setDie d { s.die d with state := .transferring }).emit (.hostRead p.host Config.blockBytes)
    | .poll => s
  | _, _ => s

/-- A die in ADDRESSING refuses the address (R122, R124, R134). -/
def State.addressRefused (s : State) (d : Nat) : State :=
  match (s.die d).operation, (s.die d).state with
  | some o, .addressing =>
    match o.work with
    | .read f => s.endAttempt d f o
    | .program p => s.failProgram d p o.discard
    | .poll => s
  | _, _ => s

/-- A die answers a poll with *ready* (R122, R127, R133). The command does not name its operation: it is
taken as the answer of the operation in flight, an answer late by a timeout (R122, R127) that finds another operation POLLING too
(log 50, DESIGN CHOICE). -/
def State.readyAnswer (s : State) (d elapsed : Nat) : State :=
  match (s.die d).operation with
  | none => s
  | some o =>
    match o.work with
    | .poll => s.endPoll d o .ready elapsed
    | .read _ => if (s.die d).state = .polling then s.setDie d { s.die d with state := .transferring } else s
    | .program p => if (s.die d).state = .polling then s.endProgram d p o.discard else s

/-- A die answers a poll with *busy* (R122, R127, R133): a read or a program goes on polling. Like a *ready* answer, it is taken as
that of the operation in flight (log 50, DESIGN CHOICE). -/
def State.busyAnswer (s : State) (d elapsed : Nat) : State :=
  match (s.die d).operation with
  | none => s
  | some o =>
    match o.work with
    | .poll => s.endPoll d o .busy elapsed
    | .read _ | .program _ => s

/-- The data and the stored CRC that a die gave up stand in the controller's transfer buffer (R123). -/
def State.holdTransfer (s : State) (d : Nat) (given : List Byte) : State := s.setDie d { s.die d with buffer := given }

/-- An attempt ends CRC_MISMATCH (R123): the block check counter rises, but for a marked read (R138). -/
def State.crcMismatch (s : State) (d : Nat) (f : FetchEntry) (o : Operation) : State :=
  (if o.discard then s else s.count .blockCheck).endAttempt d f o

/-- A read's data and stored CRC have been given up: the block CRC over the data is compared with the stored one as two 32-bit
numbers, and a good end hands over the data alone (R123). -/
def State.transferEnd (s : State) (d : Nat) (data stored : List Byte) : State :=
  match (s.die d).operation, (s.die d).state with
  | some o, .transferring =>
    match o.work with
    | .read f =>
      let s1 := s.holdTransfer d (data ++ stored)
      if crc32 data = transferCrc stored then s1.endRead d f o.discard (.good data) else s1.crcMismatch d f o
    | .program _ | .poll => s
  | _, _ => s

/-- The read timeout passes during a read attempt (R122, R126). -/
def State.readTimesOut (s : State) (d : Nat) : State :=
  match (s.die d).operation with
  | none => s
  | some o =>
    match o.work with
    | .read _ => s.goOffline d o
    | .program _ | .poll => s

/-- The read timeout passes during a POLL (R127): its time is the timeout it started with, in units of 100 µs (R130). -/
def State.pollTimesOut (s : State) (d : Nat) : State :=
  match (s.die d).operation with
  | none => s
  | some o =>
    match o.work with
    | .poll => s.endPoll d o .silent (o.timeout * 100)
    | .read _ | .program _ => s

/-- A program's data phase ends (R133): the block's bytes and then their CRC, least significant byte first, have gone to the die,
which enters POLLING. -/
def State.dataPhaseEnds (s : State) (d : Nat) (data : List Byte) : State :=
  match (s.die d).operation, (s.die d).state with
  | some o, .transferring =>
    match o.work with
    | .program _ => (s.setDie d { s.die d with state := .polling }).emit (.dieProgram d (withBlockCrc data))
    | .read _ | .poll => s
  | _, _ => s

/-- A program's DMA read of its block fails on the link (R134). -/
def State.dmaFails (s : State) (d : Nat) : State :=
  match (s.die d).operation, (s.die d).state with
  | some o, .transferring =>
    match o.work with
    | .program p => (s.latch .portError).failProgram d p o.discard
    | .read _ | .poll => s
  | _, _ => s

/-- The program timeout passes (R133, R126). -/
def State.programTimesOut (s : State) (d : Nat) : State :=
  match (s.die d).operation with
  | none => s
  | some o =>
    match o.work with
    | .program _ => s.goOffline d o
    | .read _ | .poll => s

/-! ### The fill arbiter's enqueue (R104, R105) -/

/-- The load's next head block lies on an OFFLINE die, so that the load is to fail at this event (R106). -/
def State.nextHeadOffline (s : State) (id : Nat) : Bool :=
  match (s.record id).loadAddress with
  | some a => s.dieOffline (dieOf a)
  | none => false

/-- An enqueue for a load and its two consequences: the die's choice (R129) and the load's failure at its next head block
(R106). Where both follow, their order is a free value (log 7). -/
def State.enqueueForLoad (s : State) (id address : Nat) : State :=
  let s1 := s.enqueueLoad id address
  let d := dieOf address
  if s1.nextHeadOffline id then
    let s2 := { s1 with freeCount := s.freeCount + 1 }
    if Config.dieChoosesFirst s.freeCount then (s2.arbitrate d).settleLoad id else (s2.settleLoad id).arbitrate d
  else s1.arbitrate d

/-- FETCH_ENQUEUE: the fill arbiter places one entry (R104, R105); the voice is judged for its next runs (R102) and the die's
arbiter chooses (R129). -/
def State.fetchEnqueue (s : State) : State :=
  match s.fillChoice with
  | none => s
  | some (.load id a) => s.enqueueForLoad id a
  | some (.voice slot a) => ((s.enqueueVoice slot a).settleVoice slot).arbitrate (dieOf a)

end Sys2Proof.Machine
end

