-- ==== Sys2Proof/Machine/DieCommands.lean ====
section
/-! DEFINITION. The meanings of the fill arbiter's enqueue and of the dies' answers and timers (05, 06). -/

namespace Sys2Proof.Machine

/-- An event of the dies or of their timers; during an engine reset it may be the one that leaves no operation in flight
(R179). -/
def dieEvent (f : State → State) (s : State) : Host.Outcome State Fault Refusal := event (fun x => (f x).finishEngineReset) s

/-- FETCH_ENQUEUE (R104, R105). -/
def execFetchEnqueue (s : State) : Host.Outcome State Fault Refusal := event State.fetchEnqueue s

/-- DIE_POLL_INTERVAL (R122, R133). -/
def execDiePollInterval (die : Fin 16) (s : State) : Host.Outcome State Fault Refusal :=
  event (fun x => x.pollInterval die.val) s

/-- DIE_ADDRESS_ACK (R122, R133). -/
def execDieAddressAck (die : Fin 16) (s : State) : Host.Outcome State Fault Refusal :=
  event (fun x => x.addressAck die.val) s

/-- DIE_ADDRESS_REFUSED (R122, R124, R134). -/
def execDieAddressRefused (die : Fin 16) (s : State) : Host.Outcome State Fault Refusal :=
  dieEvent (fun x => x.addressRefused die.val) s

/-- DIE_READY_ANSWER (R122, R127, R128, R133). -/
def execDieReadyAnswer (die : Fin 16) (elapsed : Word) (s : State) : Host.Outcome State Fault Refusal :=
  dieEvent (fun x => x.readyAnswer die.val elapsed.toNat) s

/-- DIE_BUSY_ANSWER (R122, R127, R128). -/
def execDieBusyAnswer (die : Fin 16) (elapsed : Word) (s : State) : Host.Outcome State Fault Refusal :=
  dieEvent (fun x => x.busyAnswer die.val elapsed.toNat) s

/-- DIE_TRANSFER_END (R123 to R125). -/
def execDieTransferEnd (die : Fin 16) (data storedCrc : List Byte) (s : State) : Host.Outcome State Fault Refusal :=
  dieEvent (fun x => x.transferEnd die.val data storedCrc) s

/-- READ_TIMEOUT (R122, R126). -/
def execReadTimeout (die : Fin 16) (s : State) : Host.Outcome State Fault Refusal :=
  dieEvent (fun x => x.readTimesOut die.val) s

/-- POLL_TIMEOUT (R127, R128). -/
def execPollTimeout (die : Fin 16) (s : State) : Host.Outcome State Fault Refusal :=
  dieEvent (fun x => x.pollTimesOut die.val) s

/-- PROGRAM_DATA_PHASE_END (R133). -/
def execProgramDataPhaseEnd (die : Fin 16) (data : List Byte) (s : State) : Host.Outcome State Fault Refusal :=
  event (fun x => x.dataPhaseEnds die.val data) s

/-- PROGRAM_DMA_FAILED (R134). -/
def execProgramDmaFailed (die : Fin 16) (s : State) : Host.Outcome State Fault Refusal :=
  dieEvent (fun x => x.dmaFails die.val) s

/-- PROGRAM_TIMEOUT (R126, R133, R134). -/
def execProgramTimeout (die : Fin 16) (s : State) : Host.Outcome State Fault Refusal :=
  dieEvent (fun x => x.programTimesOut die.val) s


end Sys2Proof.Machine
end

