-- ==== Sys2Proof/Machine/RequestCommands.lean ====
section
/-! DEFINITION. The meanings of the commands of the Request List (08): the nineteen takes, the ends of its link reads, its
register writes. -/

namespace Sys2Proof.Machine

/-- The arrival of a request's descriptor: its take, or its being held (R166). -/
def arrival (h : Header) (body : RequestBody) : State → State := fun s => s.requestArrives { header := h, body := body }

/-- DEFINE (R8 to R10). -/
def execDefine (h : Header) (p : DefineParams) (s : State) : Host.Outcome State Fault Refusal :=
  event (arrival h (.define p)) s

/-- SET_PIN (R11). -/
def execSetPin (h : Header) (n : RecordName) (pin : Byte) (s : State) : Host.Outcome State Fault Refusal :=
  event (arrival h (.setPin n pin)) s

/-- RETIRE (R14 to R18). -/
def execRetire (h : Header) (n : RecordName) (force : Byte) (s : State) : Host.Outcome State Fault Refusal :=
  event (arrival h (.retire n force)) s

/-- LOAD_HEAD (R34 to R36). -/
def execLoadHead (h : Header) (n : RecordName) (s : State) : Host.Outcome State Fault Refusal :=
  event (arrival h (.loadHead n)) s

/-- UNLOAD_HEAD (R41). -/
def execUnloadHead (h : Header) (n : RecordName) (s : State) : Host.Outcome State Fault Refusal :=
  event (arrival h (.unloadHead n)) s

/-- CONFIGURE_MEMORY (R30). -/
def execConfigureMemory (h : Header) (p : ConfigureParams) (s : State) : Host.Outcome State Fault Refusal :=
  event (arrival h (.configureMemory p)) s

/-- START (R49 to R57). -/
def execStart (h : Header) (p : StartParams) (s : State) : Host.Outcome State Fault Refusal :=
  event (arrival h (.start p)) s

/-- RELEASE (R62, R63). -/
def execRelease (h : Header) (n : VoiceName) (s : State) : Host.Outcome State Fault Refusal :=
  event (arrival h (.release n)) s

/-- STOP (R62, R64). -/
def execStop (h : Header) (n : VoiceName) (s : State) : Host.Outcome State Fault Refusal :=
  event (arrival h (.stop n)) s

/-- RETUNE (R62, R65, R66). -/
def execRetune (h : Header) (p : RetuneParams) (s : State) : Host.Outcome State Fault Refusal :=
  event (arrival h (.retune p)) s

/-- RUN (R89). -/
def execRun (h : Header) (s : State) : Host.Outcome State Fault Refusal := event (arrival h .run) s

/-- HALT (R90). -/
def execHalt (h : Header) (s : State) : Host.Outcome State Fault Refusal := event (arrival h .halt) s

/-- LOCATE (R92). -/
def execLocate (h : Header) (position : BitVec 64) (s : State) : Host.Outcome State Fault Refusal :=
  event (arrival h (.locate position)) s

/-- SET_PACE (R84 to R87). -/
def execSetPace (h : Header) (p : PaceParams) (s : State) : Host.Outcome State Fault Refusal :=
  event (arrival h (.setPace p)) s

/-- STORE (R131, R132). -/
def execStore (h : Header) (p : StoreParams) (s : State) : Host.Outcome State Fault Refusal :=
  event (arrival h (.store p)) s

/-- PROBE_DIE (R127). -/
def execProbeDie (h : Header) (die : Byte) (s : State) : Host.Outcome State Fault Refusal :=
  event (arrival h (.probeDie die)) s

/-- REVIVE_DIE (R128). -/
def execReviveDie (h : Header) (die : Byte) (s : State) : Host.Outcome State Fault Refusal :=
  event (arrival h (.reviveDie die)) s

/-- TUNE_ENGINE (R173). -/
def execTuneEngine (h : Header) (p : TuneParams) (s : State) : Host.Outcome State Fault Refusal :=
  event (arrival h (.tuneEngine p)) s

/-- BAD_KIND (R169). -/
def execBadKind (h : Header) (kind : BitVec 16) (s : State) : Host.Outcome State Fault Refusal :=
  event (arrival h (.badKind kind)) s

/-- REQUEST_FETCH_HELD (R166, R174). -/
def execRequestFetchHeld (r : Request) (s : State) : Host.Outcome State Fault Refusal :=
  event (fun x => x.requestArrives r) s

/-- REQUEST_FETCH_FAILED (R166). -/
def execRequestFetchFailed (s : State) : Host.Outcome State Fault Refusal := event State.requestFetchFails s

/-- REQUEST_NEXT_REREAD_END (R167, R168): the pointer read, or a failure. -/
def execRequestNextRereadEnd (read : Option HostAddr) (s : State) : Host.Outcome State Fault Refusal :=
  event (fun x => x.requestReread read) s

/-- STATUS_WRITE_FAILED (R171): PORT_ERROR alone; the tag and REQUEST_DONE moved when the write was made (log 28). -/
def execStatusWriteFailed (s : State) : Host.Outcome State Fault Refusal := event (fun x => x.latch .portError) s

/-- REQUEST_LIST_POINTER (R165, R176, R187): a write of the lower word. -/
def execRequestListPointer (lower : Word) (s : State) : Host.Outcome State Fault Refusal :=
  event (fun x => x.requestPointerLower lower) s

/-- REQUEST_RESUME (R168). -/
def execRequestResume (s : State) : Host.Outcome State Fault Refusal := event State.resumeRequests s


end Sys2Proof.Machine
end

