-- ==== Sys2Proof/Machine/TimeCommands.lean ====
section
/-! DEFINITION. The meanings of the resets and of the events of time (04). -/

namespace Sys2Proof.Machine

/-- POWER_ON (R26, R46, R76, R94, R118, R137, R162, R175, R186). -/
def execPowerOn (s : State) : Host.Outcome State Fault Refusal := event State.powerOn s

/-- LINK_RESET (R27, R46, R77, R95, R118, R138, R162, R175, R186). -/
def execLinkReset (s : State) : Host.Outcome State Fault Refusal := event State.linkReset s

/-- PERIOD_EXPIRY (R82, R83): the P-th frame, whatever the frame counter held (log 3). -/
def execPeriodExpiry (s : State) : Host.Outcome State Fault Refusal := event State.expiry s

/-- CLOCK_LOSS (R80, R81): 2 ms without an edge. -/
def execClockLoss (s : State) : Host.Outcome State Fault Refusal := event State.clockLost s

/-- WORD_CLOCK_EDGE (R79, R80). -/
def execWordClockEdge (s : State) : Host.Outcome State Fault Refusal := event State.clockEdge s


end Sys2Proof.Machine
end

