-- ==== Sys2Proof/Machine/Inspect.lean ====
section
/-! DEFINITION. The inspection port (R184, R185) and the pages of 11.2: one record copied at one instant. -/

namespace Sys2Proof.Machine

/-- One field of an inspection register: its lowest bit, its width, its value. -/
structure Field where
  low : Nat
  width : Nat
  value : Nat
  deriving DecidableEq, Repr

/-- A 64-bit register made of its fields. -/
def packFields (fields : List Field) : BitVec 64 :=
  BitVec.ofNat 64 ((fields.map fun f => f.value % 2 ^ f.width * 2 ^ f.low).sum)

/-- Inspect Data 0 of page 0: VALID, table, index (11.2). -/
def inspectHeader (table : BitVec 3) (index : BitVec 24) : BitVec 64 :=
  packFields [⟨0, 1, 1⟩, ⟨1, 3, table.toNat⟩, ⟨8, 24, index.toNat⟩]

/-- Registers from a list, the rest of sixteen 0. -/
def padPage (registers : List (BitVec 64)) : List (BitVec 64) := (registers ++ List.replicate 16 0#64).take 16

/-- Registers 1 to 4 of a CATALOG snapshot (R25, 11.2); absent fields read 0. -/
def catalogRegisters (r : Record) : List (BitVec 64) :=
  let format := (r.layout.map fun l => l.format.code).getD 0
  let extents := (r.layout.map fun l => l.extents.length).getD 0
  let length := (r.layout.map fun l => l.length).getD 0
  let head := (r.layout.map fun l => l.headBlocks).getD 0
  let loop := r.layout.bind Layout.loop
  let signature := r.layout.bind Layout.signature
  [ packFields [⟨0, 4, r.state.code⟩, ⟨4, 4, format⟩, ⟨8, 4, extents⟩,
      ⟨12, 4, (signature.map fun g => g.spans.length).getD 0⟩, ⟨16, 16, r.generation.toNat⟩, ⟨32, 32, length⟩],
    packFields [⟨0, 16, head⟩, ⟨16, 1, r.pin.toNat⟩, ⟨17, 1, loop.isSome.toNat⟩, ⟨18, 1, signature.isSome.toNat⟩,
      ⟨19, 1, r.headSlot.isSome.toNat⟩, ⟨20, 4, r.staleReason.code⟩, ⟨24, 8, r.loadReads⟩, ⟨32, 11, r.refs⟩],
    packFields [⟨0, 32, (loop.map Loop.start).getD 0⟩, ⟨32, 32, (loop.map Loop.stop).getD 0⟩],
    packFields [⟨0, 32, (signature.map fun g => g.expected.toNat).getD 0⟩, ⟨32, 32, r.headSlot.getD 0⟩] ]

/-- Page 1 of a CATALOG snapshot: the extents (11.2). -/
def extentRegisters (r : Record) : List (BitVec 64) :=
  ((r.layout.map Layout.extents).getD []).map fun e => packFields [⟨0, 30, e.start⟩, ⟨32, 16, e.count⟩]

/-- Registers 1 to 10 of a VOICE snapshot (R75, 11.2). -/
def voiceRegisters (v : Voice) : List (BitVec 64) :=
  [ packFields [⟨0, 3, v.state.code⟩, ⟨3, 1, v.headMode.toNat⟩, ⟨4, 1, v.loopFollow.toNat⟩, ⟨5, 1, v.released.toNat⟩,
      ⟨6, 1, v.starved.toNat⟩, ⟨7, 1, v.endPosted.toNat⟩, ⟨8, 1, v.firstDelivery.toNat⟩,
      ⟨9, 1, v.pendingRate.isSome.toNat⟩, ⟨10, 1, v.total.isSome.toNat⟩, ⟨11, 1, v.cursor.atEnd.toNat⟩,
      ⟨12, 4, v.priority⟩, ⟨16, 2, v.leadClass⟩, ⟨18, 4, endReasonCode v.endReason⟩, ⟨32, 16, v.generation.toNat⟩,
      ⟨48, 10, v.window⟩],
    packFields [⟨0, 16, v.sampleId⟩, ⟨16, 16, v.sampleGeneration.toNat⟩, ⟨32, 32, v.cookie.toNat⟩],
    packFields [⟨0, 32, v.startOffset⟩, ⟨32, 32, v.rate⟩],
    packFields [⟨0, 32, v.pendingRate.getD 0⟩, ⟨32, 8, v.underruns⟩, ⟨40, 10, v.reads⟩],
    packFields [⟨0, 48, v.position⟩],
    packFields [⟨0, 48, v.startSequence⟩],
    packFields [⟨0, 32, v.cursor.source⟩, ⟨32, 32, v.cursor.stream⟩],
    packFields [⟨0, 32, v.scheduled⟩, ⟨32, 32, v.delivered⟩],
    packFields [⟨0, 48, v.consumed⟩],
    packFields [⟨0, 32, v.total.getD 0⟩] ]

/-- The operation kind field (11.2): none, READ, PROGRAM, POLL. -/
def operationCode : Option Operation → Nat
  | none => 0
  | some o =>
    match o.work with
    | .read _ => 1
    | .program _ => 2
    | .poll => 3

/-- The operation's store block address; none of a POLL. -/
def operationAddress : Option Operation → Nat
  | none => 0
  | some o =>
    match o.work with
    | .read e => e.address
    | .program p => p.address
    | .poll => 0

/-- A READ's owner: kind code, slot or record id, generation (11.2). -/
def operationOwner : Option Operation → Nat × Nat × Nat
  | none => (0, 0, 0)
  | some o =>
    match o.work with
    | .read e =>
      match e.owner with
      | .voice slot g => (1, slot, g.toNat)
      | .load id g => (2, id, g.toNat)
    | .program _ | .poll => (0, 0, 0)

/-- Registers 1 to 3 of a DIE snapshot (R136, R116, 11.2). -/
def State.dieRegisters (s : State) (d : Nat) : List (BitVec 64) :=
  let x := s.die d
  let owner := operationOwner x.operation
  let deadline := (s.subQueue d).head?.map FetchEntry.deadline
  [ packFields [⟨0, 3, x.state.code⟩, ⟨4, 2, operationCode x.operation⟩, ⟨6, 4, (x.operation.map Operation.attempt).getD 0⟩,
      ⟨10, 3, x.retries⟩, ⟨16, 7, x.programs.length⟩, ⟨24, 3, x.polls.length⟩, ⟨28, 2, owner.1⟩,
      ⟨32, 13, (s.subQueue d).length⟩, ⟨63, 1, deadline.isSome.toNat⟩],
    packFields [⟨0, 32, operationAddress x.operation⟩, ⟨32, 16, owner.2.1⟩, ⟨48, 16, owner.2.2⟩],
    packFields [⟨0, 48, deadline.getD 0⟩] ]

/-- Register 1 of a LEAD_CLASS snapshot (R116, 11.2). -/
def State.leadRegisters (s : State) (n : Nat) : List (BitVec 64) :=
  let c := s.tunables.leadClasses[n]?.getD ⟨1, 0⟩
  [packFields [⟨32, 8, c.target⟩, ⟨40, 8, c.tolerance⟩, ⟨48, 13, s.queue.length⟩]]

/-- The index ranges of the four tables (R185); other codes name no table. -/
def inspectRange (table : BitVec 3) : Nat :=
  match table.toNat with
  | 0 => 65536
  | 1 => Config.voiceSlots
  | 2 => Config.dies
  | 3 => 4
  | _ => 0

/-- Registers 1 on of page 0. -/
def State.recordRegisters (s : State) (table : BitVec 3) (index : Nat) : List (BitVec 64) :=
  match table.toNat with
  | 0 => catalogRegisters (s.record index)
  | 1 => voiceRegisters (s.voice index)
  | 2 => s.dieRegisters index
  | _ => s.leadRegisters index

/-- Page 1: the extents of a CATALOG snapshot, 0 for the other tables. -/
def State.secondPage (s : State) (table : BitVec 3) (index : Nat) : List (BitVec 64) :=
  if table.toNat = 0 then extentRegisters (s.record index) else []

/-- The 32 registers of a snapshot (R185): all 0 with VALID 0 (log 24). -/
def State.snapshotOf (s : State) (table : BitVec 3) (index : BitVec 24) : List (BitVec 64) :=
  if index.toNat < inspectRange table then
    padPage (inspectHeader table index :: s.recordRegisters table index.toNat) ++ padPage (s.secondPage table index.toNat)
  else List.replicate 32 0#64

/-- A write of Inspect Select with the capture bit set (R184). -/
def State.capture (s : State) (table : BitVec 3) (index : BitVec 24) (page : Bool) : State :=
  { s with registers := { s.registers with
      selectTable := table, selectIndex := index, selectPage := page, snapshot := s.snapshotOf table index } }

/-- A write of Inspect Select with the capture bit clear (R184): only the page shown changes. -/
def State.selectPage (s : State) (page : Bool) : State :=
  { s with registers := { s.registers with selectPage := page } }

end Sys2Proof.Machine
end

