-- ==== Sys2Proof/Machine/WindowCommands.lean ====
section
/-! DEFINITION. The meanings of the commands of the Register Window (09). -/

namespace Sys2Proof.Machine

/-- PANIC (R74, R177). -/
def execPanic (s : State) : Host.Outcome State Fault Refusal := event State.panic s

/-- ENGINE_RESET (R177, R178). -/
def execEngineReset (s : State) : Host.Outcome State Fault Refusal := event State.engineReset s

/-- ENGINE_RESET_CLEAR (R179): the event at which no die has an operation in flight (log 5). -/
def execEngineResetClear (s : State) : Host.Outcome State Fault Refusal := event State.finishEngineReset s

/-- INTERRUPT_STATUS_WRITE (R181). -/
def execInterruptStatusWrite (value : Word) (s : State) : Host.Outcome State Fault Refusal :=
  event (fun x => x.clearFlags value) s

/-- INTERRUPT_MASK_WRITE (R182). -/
def execInterruptMaskWrite (value : Word) (s : State) : Host.Outcome State Fault Refusal :=
  event (fun x => x.writeMask value) s

/-- COUNTER_WRITE (R183). -/
def execCounterWrite (counter : CounterName) (s : State) : Host.Outcome State Fault Refusal :=
  event (fun x => x.clearCounter counter) s

/-- INSPECT_CAPTURE (R184, R185). -/
def execInspectCapture (table : BitVec 3) (index : BitVec 24) (page : Bool) (s : State) : Host.Outcome State Fault Refusal :=
  event (fun x => x.capture table index page) s

/-- INSPECT_PAGE_SELECT (R184). -/
def execInspectPageSelect (page : Bool) (s : State) : Host.Outcome State Fault Refusal :=
  event (fun x => x.selectPage page) s

/-- WIDE_REGISTER_UPPER_WRITE (R176). -/
def execWideRegisterUpperWrite (register : WideRegister) (value : Word) (s : State) : Host.Outcome State Fault Refusal :=
  event (fun x => x.writeUpper register value) s

/-- WIDE_REGISTER_LOWER_READ (R176). -/
def execWideRegisterLowerRead (register : WideRegister) (s : State) : Host.Outcome State Fault Refusal :=
  event (fun x => x.readLower register) s

/-- REGISTER_WRITE (R176, R177): ignored, whatever the offset and value. DESIGN CHOICE (log 48): so is a write at an offset that
holds no register. -/
def execRegisterWrite (_offset : BitVec 12) (_value : Word) (s : State) : Host.Outcome State Fault Refusal :=
  event (fun x => x) s

/-- MSI_ENABLE_CHANGE (R182). -/
def execMsiEnableChange (enable : Bool) (vector : Word) (s : State) : Host.Outcome State Fault Refusal :=
  event (fun x => x.setMessages enable vector) s


end Sys2Proof.Machine
end

