-- ==== Sys2Proof/Machine/Dispatch.lean ====
section
/-! DEFINITION. The effect of every command on everything but the queue: one arm a constructor. -/

namespace Sys2Proof.Machine

def exec (i : Instr) (s : State) : Host.Outcome State Fault Refusal :=
  match i with
  | .define h p => Sys2Proof.Machine.execDefine h p s
  | .setPin h r pin => Sys2Proof.Machine.execSetPin h r pin s
  | .retire h r force => Sys2Proof.Machine.execRetire h r force s
  | .loadHead h r => Sys2Proof.Machine.execLoadHead h r s
  | .unloadHead h r => Sys2Proof.Machine.execUnloadHead h r s
  | .configureMemory h p => Sys2Proof.Machine.execConfigureMemory h p s
  | .start h p => Sys2Proof.Machine.execStart h p s
  | .release h v => Sys2Proof.Machine.execRelease h v s
  | .stop h v => Sys2Proof.Machine.execStop h v s
  | .retune h p => Sys2Proof.Machine.execRetune h p s
  | .run h => Sys2Proof.Machine.execRun h s
  | .halt h => Sys2Proof.Machine.execHalt h s
  | .locate h position => Sys2Proof.Machine.execLocate h position s
  | .setPace h p => Sys2Proof.Machine.execSetPace h p s
  | .store h p => Sys2Proof.Machine.execStore h p s
  | .probeDie h die => Sys2Proof.Machine.execProbeDie h die s
  | .reviveDie h die => Sys2Proof.Machine.execReviveDie h die s
  | .tuneEngine h p => Sys2Proof.Machine.execTuneEngine h p s
  | .badKind h kind => Sys2Proof.Machine.execBadKind h kind s
  | .requestFetchFailed => Sys2Proof.Machine.execRequestFetchFailed s
  | .requestNextRereadEnd read => Sys2Proof.Machine.execRequestNextRereadEnd read s
  | .statusWriteFailed => Sys2Proof.Machine.execStatusWriteFailed s
  | .requestListPointer lower => Sys2Proof.Machine.execRequestListPointer lower s
  | .requestResume => Sys2Proof.Machine.execRequestResume s
  | .bufferListPointer lower => Sys2Proof.Machine.execBufferListPointer lower s
  | .bufferResume => Sys2Proof.Machine.execBufferResume s
  | .bufferFetchArrival next buffer done => Sys2Proof.Machine.execBufferFetchArrival next buffer done s
  | .bufferFetchFailed => Sys2Proof.Machine.execBufferFetchFailed s
  | .bufferNextRereadEnd read => Sys2Proof.Machine.execBufferNextRereadEnd read s
  | .dataDelivery => Sys2Proof.Machine.execDataDelivery s
  | .endDelivery => Sys2Proof.Machine.execEndDelivery s
  | .deliveryWriteFailed => Sys2Proof.Machine.execDeliveryWriteFailed s
  | .panic => Sys2Proof.Machine.execPanic s
  | .engineReset => Sys2Proof.Machine.execEngineReset s
  | .engineResetClear => Sys2Proof.Machine.execEngineResetClear s
  | .interruptStatusWrite value => Sys2Proof.Machine.execInterruptStatusWrite value s
  | .interruptMaskWrite value => Sys2Proof.Machine.execInterruptMaskWrite value s
  | .counterWrite counter => Sys2Proof.Machine.execCounterWrite counter s
  | .inspectCapture table index page => Sys2Proof.Machine.execInspectCapture table index page s
  | .inspectPageSelect page => Sys2Proof.Machine.execInspectPageSelect page s
  | .wideRegisterUpperWrite register value => Sys2Proof.Machine.execWideRegisterUpperWrite register value s
  | .wideRegisterLowerRead register => Sys2Proof.Machine.execWideRegisterLowerRead register s
  | .registerWrite offset value => Sys2Proof.Machine.execRegisterWrite offset value s
  | .msiEnableChange enable vector => Sys2Proof.Machine.execMsiEnableChange enable vector s
  | .powerOn => Sys2Proof.Machine.execPowerOn s
  | .linkReset => Sys2Proof.Machine.execLinkReset s
  | .periodExpiry => Sys2Proof.Machine.execPeriodExpiry s
  | .clockLoss => Sys2Proof.Machine.execClockLoss s
  | .fetchEnqueue => Sys2Proof.Machine.execFetchEnqueue s
  | .diePollInterval die => Sys2Proof.Machine.execDiePollInterval die s
  | .dieAddressAck die => Sys2Proof.Machine.execDieAddressAck die s
  | .dieAddressRefused die => Sys2Proof.Machine.execDieAddressRefused die s
  | .dieReadyAnswer die elapsed => Sys2Proof.Machine.execDieReadyAnswer die elapsed s
  | .dieBusyAnswer die elapsed => Sys2Proof.Machine.execDieBusyAnswer die elapsed s
  | .dieTransferEnd die data storedCrc => Sys2Proof.Machine.execDieTransferEnd die data storedCrc s
  | .readTimeout die => Sys2Proof.Machine.execReadTimeout die s
  | .pollTimeout die => Sys2Proof.Machine.execPollTimeout die s
  | .programDataPhaseEnd die data => Sys2Proof.Machine.execProgramDataPhaseEnd die data s
  | .programDmaFailed die => Sys2Proof.Machine.execProgramDmaFailed die s
  | .programTimeout die => Sys2Proof.Machine.execProgramTimeout die s
  | .wordClockEdge => Sys2Proof.Machine.execWordClockEdge s
  | .requestFetchHeld r => Sys2Proof.Machine.execRequestFetchHeld r s

end Sys2Proof.Machine
end

