-- ==== Sys2Proof/Machine/Step.lean ====
section
/-! DEFINITION. One step: the command at the front of the queue, or, on an empty queue, one internal frame. -/

namespace Sys2Proof.Machine

/-- The step on an empty queue (log 2): the card oscillator counts one frame (R79). -/
def tick (s : State) : Host.Outcome State Fault Refusal := event State.countInternalFrame s

/-- ONE STEP: take the command at the front of the queue and run it on the state with the queue's rest; on an empty queue,
count one internal frame. -/
def step (s : State) : Host.Outcome State Fault Refusal :=
  match s.pending with
  | [] => tick s
  | c :: rest => exec c { s with pending := rest }

/-- The state with the command that a word spells at the front of its queue; unchanged where the word spells none. -/
def State.withFetchWord (s : State) (nbits w : Nat) : State :=
  match decodeTableWord nbits w with
  | none => s
  | some c => { s with pending := c :: s.pending }

end Sys2Proof.Machine
end

