-- ==== Sys2Proof/Safety.lean ====
section
/-! DEFINITION. What a safe part is: the invariants every step keeps, and the words the statements about commands are written
in: the position a command needs, the status a take writes, what of the state a command leaves alone. -/

namespace Sys2Proof.Machine

/-! ### Invariants -/

/-- The places of a window are in canonical form. -/
def Window.canonical (w : Window) : Prop := Table.wf Place.empty w.places = true

/-- Sparse data is in its one canonical form, so that equal contents are equal data. -/
structure State.Canonical (s : State) : Prop where
  dram : Memory.wf s.dram = true
  catalog : Table.wf Record.blank s.catalog = true
  voices : Table.wf Voice.blank s.voices = true
  windows : Table.wf Window.blank s.windows = true
  places : ∀ w, (s.window w).canonical
  dies : Table.wf Die.blank s.dies = true

/-- The bounds of the Fetch Queue (R108), the STOREs in flight (R132) and the poll lists (R119). -/
structure State.WithinLimits (s : State) : Prop where
  queue : s.queue.length ≤ Config.queueLimit
  stores : s.stores.length ≤ Config.storeLimit
  polls : ∀ d, (s.die d).polls.length ≤ Config.pollLimit

/-- The Pace Timer holds together: EXTERNAL_LOCKED only with a clock present (R80, R81, R85), nothing pending while STOPPED
(R87, R90, R91). -/
structure State.PaceSound (s : State) : Prop where
  locked : s.pace.state = .externalLocked → s.pace.clockPresent = true
  stopped : s.pace.running = false → s.pace.haltPending = none ∧ s.pace.pending = none

/-- The sounding count never exceeds the voice limit (R52). -/
def State.VoicesAdmitted (s : State) : Prop := s.soundingCount ≤ s.tunables.voiceLimit

/-- No window is held by two slots that are not FREE (R42). -/
def State.WindowsHeldOnce (s : State) : Prop :=
  ∀ m n, m ≠ n → (s.voice m).state ≠ .free → (s.voice n).state ≠ .free → (s.voice m).window ≠ (s.voice n).window

/-- A VACANT record holds no head slot (R1, R31). -/
def State.VacantHoldsNoSlot (s : State) : Prop := ∀ id, (s.record id).state = .vacant → (s.record id).headSlot = none

/-! ### The take of a request -/

/-- The Request Processor reads a descriptor and the part is READY: the arrival is the take (R166). -/
structure State.Taking (s : State) : Prop where
  reading : s.requests.state = .fetching
  read : s.requests.read = .descriptor
  begun : s.requests.waiting = false
  ready : s.registers.engine = .ready
  settled : s.completions = []

/-- The status area of the descriptor at an address was written with these bytes, as one link write (R170, R189), what was on
the link before still before it. -/
def wroteAt (s t : State) (descriptor : HostAddr) (bytes : List Byte) : Prop :=
  ∃ before after, t.out = s.out ++ before ++ .hostWrite (requestStatusAddress descriptor) bytes :: after

/-- A take wrote the status area of the descriptor it took. -/
def wroteStatus (s t : State) (bytes : List Byte) : Prop := wroteAt s t s.requests.address bytes

/-- The request was taken and written DONE with this result and these words, as the one completion of its event: status, taken
count, Last Completed Tag, and REQUEST_DONE latched exactly when NOTIFY is set (R169 to R171). -/
structure TakenDone (s t : State) (h : Header) (r : Result) (word0 word1 : Word) : Prop where
  status : wroteStatus s t (doneBytes r word0 word1)
  count : t.requests.takenCount = s.requests.takenCount + 1#32
  tag : t.requests.lastTag = h.tag
  flag : notifyOf h = true → t.latched .requestDone = true
  quiet : notifyOf h = false → t.latched .requestDone = s.latched .requestDone

/-- The request was taken and written DONE with this result, whatever its return words. -/
def TakenDoneAnyWords (s t : State) (h : Header) (r : Result) : Prop := ∃ word0 word1, TakenDone s t h r word0 word1

/-- The request was taken and written TAKEN (R170, R171): neither the tag nor REQUEST_DONE moves. -/
structure TakenLong (s t : State) : Prop where
  status : wroteStatus s t takenBytes
  count : t.requests.takenCount = s.requests.takenCount + 1#32
  tag : t.requests.lastTag = s.requests.lastTag
  flag : t.latched .requestDone = s.latched .requestDone

/-- Nothing waits for a die: no fetch entry, no program entry, no POLL. -/
def nothingWaits (s : State) (d : Nat) : Prop := s.subQueue d = [] ∧ (s.die d).programs = [] ∧ (s.die d).polls = []

/-! ### What a command leaves alone, block by block -/

/-- Every byte of the DRAM reads as before. -/
def SameDram (s t : State) : Prop := ∀ a, Memory.read t.dram a = Memory.read s.dram a

/-- The Sample Catalog and the Head Store, their memory apart, are as before. -/
def SameCatalog (s t : State) : Prop :=
  (∀ id, t.record id = s.record id) ∧ t.partition = s.partition ∧ t.reclaiming = s.reclaiming ∧ t.recency = s.recency

/-- The Voice Table and the Staging Pool are as before. -/
def SameVoices (s t : State) : Prop :=
  (∀ n, t.voice n = s.voice n) ∧ (∀ w, t.window w = s.window w) ∧ t.startCount = s.startCount

/-- The Fetch Queue is as before. -/
def SameQueue (s t : State) : Prop := t.queue = s.queue ∧ t.enqueueCount = s.enqueueCount

/-- The dies and the STOREs in flight are as before. -/
def SameDies (s t : State) : Prop := (∀ d, t.die d = s.die d) ∧ t.stores = s.stores

/-- The Register Window but for the interrupt flags is as before. -/
def SameWindow (s t : State) : Prop := t.registers = { s.registers with status := t.registers.status }

/-- The model's own fields but for what left the part are as before. -/
def SameModel (s t : State) : Prop := t.freeCount = s.freeCount ∧ t.pending = s.pending ∧ t.completions = s.completions

/-- What the library, the voices, the dies and the memory hold is as before. -/
def SameStreams (s t : State) : Prop :=
  SameDram s t ∧ SameCatalog s t ∧ SameVoices s t ∧ SameQueue s t ∧ SameDies s t ∧ t.tunables = s.tunables

/-- What has left the part stays as it was written, in its order. -/
def OutGrows (s t : State) : Prop := s.out <+: t.out

/-! ### Voices that end, places given in silence, operations that end -/

/-- A voice as its entry to ENDING leaves it (R71). -/
def Voice.endedWith (v : Voice) (reason : EndReason) : Voice :=
  { v with state := .ending, endReason := some reason, pendingRate := none }

/-- A byte of the DRAM lies among those that `State.zeroRun` writes for a run in a place of a window (R44). -/
def State.inRun (s : State) (w i : Nat) (r : Run) (f : Format) (a : Nat) : Prop :=
  let start := s.placeBase w i + r.source % f.framesPerBlock * f.frameBytes
  start ≤ a ∧ a < start + r.frames * f.frameBytes

/-- A byte of the DRAM lies in a silent place that the event gave (R106): FILLED and damaged after it in the window of a sounding
voice, EMPTY before, or in a window that was free, the run's block on an OFFLINE die. -/
def silentByte (s t : State) (a : Nat) : Prop :=
  ∃ n i r l b, (t.voice n).sounding = true ∧ t.layoutOf (t.voice n) = some l ∧
    (t.window (t.voice n).window).place i = .filled r ∧ r.damaged = true ∧
    ((s.window (t.voice n).window).place i = .empty ∨ s.windowFree (t.voice n).window = true) ∧
    blockAddress l.extents r.block = some b ∧ (t.die (b % 16)).state = .offline ∧ s.inRun (t.voice n).window i r l.format a

/-- Every byte reads as before but those of the silent places given, which read 0. -/
def OnlySilenceWritten (s t : State) : Prop :=
  ∀ a, Memory.read t.dram a = Memory.read s.dram a ∨ (Memory.read t.dram a = 0#8 ∧ silentByte s t a)

/-- The bytes of the silent places given read 0 (R44, R106), and every other byte reads as before. -/
def SilenceWritten (s t : State) : Prop :=
  ∀ a, (silentByte s t a → Memory.read t.dram a = 0#8) ∧
    (¬ silentByte s t a → Memory.read t.dram a = Memory.read s.dram a)

/-- A fetch entry is lost with a die that goes OFFLINE (R112, R126): it is queued on the die, or its read is the operation that timed
out, unmarked. -/
def State.lostEntry (s : State) (d : Nat) (o : Operation) (e : FetchEntry) : Prop :=
  (e ∈ s.queue ∧ dieOf e.address = d) ∨ (o.work = .read e ∧ o.discard = false)

/-- A byte of the DRAM lies in the run of an AWAITED place that a sounding voice's lost entry was to fill. -/
def State.lostByte (s : State) (d : Nat) (o : Operation) (a : Nat) : Prop :=
  ∃ e n w i r l, s.lostEntry d o e ∧ e.owner = .voice n (s.voice n).generation ∧ (s.voice n).sounding = true ∧
    e.destination = .place w i ∧ (s.window w).place i = .awaited r ∧ s.layoutOf (s.voice n) = some l ∧ s.inRun w i r l.format a

/-- A byte of the DRAM lies in a place that is not FILLED, in the window of a sounding voice. -/
def State.unfilledByte (s : State) (a : Nat) : Prop :=
  ∃ n i, (s.voice n).sounding = true ∧ (∀ r, (s.window (s.voice n).window).place i ≠ .filled r) ∧
    s.placeBase (s.voice n).window i ≤ a ∧ a < s.placeBase (s.voice n).window i + 4096

/-- A window as its voice's entry to ENDING leaves it (R45): every place EMPTY but the AWAITED ones whose read is in flight. -/
structure State.WindowEnded (s : State) (n : Nat) (w : Window) : Prop where
  points : w.fill = (s.window (s.voice n).window).fill ∧ w.delivery = (s.window (s.voice n).window).delivery
  emptied : ∀ i, (∀ r, (s.window (s.voice n).window).place i ≠ .awaited r) → w.place i = .empty
  queued : ∀ i e, e ∈ s.queue → e.owner = .voice n (s.voice n).generation → e.destination = .place (s.voice n).window i →
    w.place i = .empty
  inFlight : ∀ i r, (s.window (s.voice n).window).place i = .awaited r →
    (∀ e ∈ s.queue, e.owner = .voice n (s.voice n).generation → ∀ x, e.destination ≠ .place x i) → w.place i = .awaited r

/-- The queue without the entries of the voices of some slots (R110). -/
def State.queueWithout (s : State) (ends : Nat → Bool) : List FetchEntry :=
  s.queue.filter fun e =>
    match e.owner with
    | .voice n g => !(ends n && (s.voice n).generation == g)
    | .load _ _ => true

/-- A record that `ended` voices naming it have left for ENDING (R12, R17): its count falls by as many; a RETIRING record left with
no voice and no load read is VACANT, its RETIRE written DONE. -/
structure State.RecordLeft (s t : State) (id ended : Nat) : Prop where
  untouched : ended = 0 ∨ (s.record id).state = .vacant → t.record id = s.record id
  counted : (s.record id).state ≠ .vacant →
    (s.record id).state ≠ .retiring ∨ ended < (s.record id).refs ∨ 0 < (s.record id).loadReads →
    t.record id = { s.record id with refs := (s.record id).refs - ended }
  retired : 0 < ended → (s.record id).state = .retiring → (s.record id).refs ≤ ended → (s.record id).loadReads = 0 →
    (t.record id).state = .vacant ∧ (t.record id).generation = (s.record id).generation ∧
      ∀ k, (s.record id).retire = some k → ∃ word0 word1, wroteAt s t k.address (doneBytes .ok word0 word1)

/-- Every sounding voice enters ENDING at one event (R12, R45, R70, R71, R110): the other slots, the other windows, the dies, the
STOREs and the memory stay as they were. -/
structure State.AllEnd (s t : State) (reason : EndReason) : Prop where
  voices : ∀ n, (s.voice n).sounding = true → t.voice n = (s.voice n).endedWith reason
  others : ∀ n, (s.voice n).sounding = false → t.voice n = s.voice n
  queue : t.queue = s.queueWithout fun n => (s.voice n).sounding
  windows : s.WindowsHeldOnce → ∀ n, (s.voice n).sounding = true → s.WindowEnded n (t.window (s.voice n).window)
  otherWindows : ∀ w, (∀ n, (s.voice n).sounding = true → (s.voice n).window ≠ w) → t.window w = s.window w
  records : ∀ id, s.RecordLeft t id (s.slotsPlaying id (s.record id).generation).length
  dies : SameDies s t
  dram : SameDram s t

/-- A command ends the operation on a die and leaves the die in a state, where the operation makes no further attempt: the ends
of an attempt of a read (R122 to R124, R126), of a program (R133, R134) and of a POLL (R127). -/
def endsWork (s : State) (d : Fin 16) (o : Operation) (after : DieState) (c : Instr) : Prop :=
  match o.work with
  | .read _ =>
    ((s.die d.val).state = .addressing ∧ c = .dieAddressRefused d ∧ after = .ready) ∨
      ((s.die d.val).state = .transferring ∧ (∃ data stored, c = .dieTransferEnd d data stored) ∧ after = .ready) ∨
      (c = .readTimeout d ∧ after = .offline)
  | .program _ =>
    ((s.die d.val).state = .addressing ∧ c = .dieAddressRefused d ∧ after = .ready) ∨
      ((s.die d.val).state = .transferring ∧ c = .programDmaFailed d ∧ after = .ready) ∨
      ((s.die d.val).state = .polling ∧ (∃ n, c = .dieReadyAnswer d n) ∧ after = .ready) ∨
      (c = .programTimeout d ∧ after = .offline)
  | .poll =>
    ((∃ n, c = .dieReadyAnswer d n) ∨ (∃ n, c = .dieBusyAnswer d n) ∨ c = .pollTimeout d) ∧
      after = if (s.die d.val).state = .offline then .offline else .ready

/-- An attempt of a read ends with the retry limit reached, by a refused address or a CRC mismatch, and this is what the counters then
show (R123, R124): the unrecovered counter rises, and at a mismatch the block check counter with it. -/
def endsUnrecovered (s : State) (d : Fin 16) (c : Instr) (counters : Counters) : Prop :=
  s.tunables.retryLimit ≤ (s.die d.val).retries ∧
    (((s.die d.val).state = .addressing ∧ c = .dieAddressRefused d ∧
        counters = s.registers.counters.rise .unrecovered) ∨
      ((s.die d.val).state = .transferring ∧ (∃ data stored : List Byte,
          leField stored 0 4 ≠ (crc32 data).toNat ∧ c = .dieTransferEnd d data stored) ∧
        counters = (s.registers.counters.rise .blockCheck).rise .unrecovered))

/-- A command takes a die OFFLINE while the part is READY: the timeout of a read attempt or of a program (R126). -/
def timesOut (s : State) (d : Fin 16) (o : Operation) (c : Instr) : Prop :=
  s.Canonical ∧ s.registers.engine = .ready ∧ (s.die d.val).operation = some o ∧
    (((∃ f, o.work = .read f) ∧ c = .readTimeout d) ∨ ((∃ p, o.work = .program p) ∧ c = .programTimeout d))

/-- A die whose operation has ended. -/
def Die.ended (x : Die) (after : DieState) : Die :=
  { x with state := after, operation := none, retries := 0, buffer := [] }

/-! ### STOREs -/

/-- The STOREs in flight after an entry has changed: it leaves the table with nothing of it queued or in flight (R135). -/
def State.storesAfter (s : State) (x y : StoreEntry) : List StoreEntry :=
  if y.queued = 0 ∧ y.inFlight = 0 then s.stores.filter fun z => z.place != x.place
  else s.stores.map fun z => if z.place = x.place then y else z

/-- A STORE as a program's failure leaves it (R134): a first failure is recorded and nothing of the STORE stays queued. -/
def StoreEntry.afterFailure (x : StoreEntry) (block : Nat) : StoreEntry :=
  match x.failure with
  | none => { x with inFlight := x.inFlight - 1, failure := some block, queued := 0 }
  | some _ => { x with inFlight := x.inFlight - 1 }

/-- What a STORE's DONE write holds (R135): the blocks programmed, and the block that failed. -/
def StoreEntry.doneStatus (x : StoreEntry) : List Byte :=
  match x.failure with
  | none => doneBytes .ok (BitVec.ofNat 32 x.programmed) 0#32
  | some block => doneBytes .blockError (BitVec.ofNat 32 x.programmed) (BitVec.ofNat 32 block)

/-! ### The die arbiter -/

/-- The entry's owner is the voice of a slot. -/
def Owner.isVoice (n : Nat) : Owner → Bool
  | .voice m _ => m == n
  | .load _ _ => false

/-- The entry's owner is the load of a record. -/
def Owner.isLoad (id : Nat) : Owner → Bool
  | .voice _ _ => false
  | .load j _ => j == id

/-- The operation that a READY die with no operation is given (R129): the POLL of the first PROBE_DIE of its poll list, the
REVIVE_DIEs before it completing without one (R128); else the head of its sub-queue with a deadline at or below the period index
plus the program guard; else the head of its program queue; else the head of its sub-queue; else none. -/
def State.dieChoice (s : State) (d : Nat) : Option Work :=
  let head := (s.subQueue d).head?
  let urgent := head.filter fun e => e.deadline ≤ s.pace.index + s.tunables.programGuard
  if ((s.die d).polls.dropWhile PollRequest.revive).isEmpty then
    (urgent.map Work.read).or (((s.die d).programs.head?.map Work.program).or (head.map Work.read))
  else some .poll

/-- An operation as it begins (R121, R127, R130, R133): attempt 1, the discard mark clear, the interval and the timeout in force. -/
def State.begun (s : State) (w : Work) : Operation :=
  { work := w, attempt := 1, discard := false, pollInterval := s.tunables.pollInterval
    timeout := match w with
      | .read _ | .poll => s.tunables.readTimeout
      | .program _ => s.tunables.programTimeout }

/-- The reads that a die's choice begins for an owner: one or none. -/
def State.readsBegun (s : State) (d : Nat) (owner : Owner → Bool) : Nat :=
  match s.dieChoice d with
  | some (.read e) => (owner e.owner).toNat
  | some (.program _) | some .poll | none => 0

/-- A READY die with no operation is given its choice (R121, R127 to R129, R133): the die takes the operation, its entry leaves the
queue it stood in, and the entry's owner counts it. -/
structure State.Arbitrated (s t : State) (d : Nat) : Prop where
  die : t.die d =
    let x := { s.die d with
      polls := (s.die d).polls.dropWhile PollRequest.revive, operation := (s.dieChoice d).map s.begun }
    match s.dieChoice d with
    | none => x
    | some .poll => { x with state := .polling }
    | some (.read _) => { x with state := .addressing, retries := 0 }
    | some (.program _) => { x with state := .addressing, programs := x.programs.tail }
  asked : match s.dieChoice d with
    | none => True
    | some .poll => .diePoll d ∈ t.out
    | some (.read e) => .dieAddress d (e.address / 16) ∈ t.out
    | some (.program p) => .dieAddress d (p.address / 16) ∈ t.out
  queue : t.queue = match s.dieChoice d with
    | some (.read e) => s.queue.erase e
    | some (.program _) | some .poll | none => s.queue
  stores : t.stores = match s.dieChoice d with
    | some (.program p) => s.stores.map fun x =>
        if x.place = p.place then { x with queued := x.queued - 1, inFlight := x.inFlight + 1 } else x
    | some (.read _) | some .poll | none => s.stores
  voice : ∀ n, t.voice n = { s.voice n with reads := (s.voice n).reads + s.readsBegun d (Owner.isVoice n) }
  record : ∀ id, t.record id = { s.record id with loadReads := (s.record id).loadReads + s.readsBegun d (Owner.isLoad id) }
  others : ∀ x, x ≠ d → t.die x = s.die x

/-- Each REVIVE_DIE at the head of a READY die's poll list is written DONE OK, with the state READY and no microseconds (R128). -/
def State.revivesWritten (s t : State) (d : Nat) : Prop :=
  ∀ q ∈ (s.die d).polls.takeWhile PollRequest.revive, wroteAt s t q.token.address (doneBytes .ok 0#32 0#32)

/-! ### What the choices are made among -/

/-- A voice may be given its next run (R98, R100, R101): in PRIMING, PLAYING or RELEASING, not at its end, its cursor below the
horizon. -/
def State.wantsRun (s : State) (v : Voice) : Prop :=
  (v.state = .priming ∨ v.state = .playing ∨ v.state = .releasing) ∧ v.cursor.atEnd = false ∧
    v.cursor.stream * 65536 <
      v.consumed + ((s.leadClass v).target + (s.leadClass v).tolerance) * s.pace.period * v.rate

/-- A voice's next run is store-sourced, with its block at a store block address and an EMPTY place at the fill point of its window
(R58, R101). -/
def Voice.storeNext (v : Voice) (l : Layout) (w : Window) (a : Nat) : Prop :=
  (v.headMode = false ∨ l.headFrames ≤ v.cursor.source) ∧ w.place w.fill = .empty ∧
    blockAddress l.extents (v.cursor.source / l.format.framesPerBlock) = some a

/-- A load's or a voice's block waits for the fill arbiter (R101, R103, R104): the conditions of R101 for a voice; for a load, a
head block not yet queued; the block's die not OFFLINE. -/
def State.waitsForFetch (s : State) : Candidate → Prop
  | .load id a =>
    (∃ l y, (s.record id).load = some l ∧ (s.record id).layout = some y ∧ l.nextBlock < y.headBlocks ∧
      blockAddress y.extents l.nextBlock = some a) ∧ (s.die (a % 16)).state ≠ .offline
  | .voice slot a =>
    let v := s.voice slot
    s.wantsRun v ∧ (∃ l, s.layoutOf v = some l ∧ v.storeNext l (s.window v.window) a) ∧ (s.die (a % 16)).state ≠ .offline

/-- The order among candidates of equal deadlines (R104): loads by record id, then voices by priority and slot. -/
def State.servedBefore (s : State) : Candidate → Candidate → Prop
  | .load i _, .load j _ => i < j
  | .load _ _, .voice _ _ => True
  | .voice _ _, .load _ _ => False
  | .voice m _, .voice n _ =>
    (s.voice n).priority < (s.voice m).priority ∨ ((s.voice m).priority = (s.voice n).priority ∧ m < n)

/-- The order of the steal choice (R53): lowest priority; then RELEASING or DRAINING before PRIMING or PLAYING; then smallest start
sequence. -/
def Voice.stolenBefore (v w : Voice) : Prop :=
  let late (x : Voice) : Prop := x.state = .releasing ∨ x.state = .draining
  v.priority < w.priority ∨ (v.priority = w.priority ∧
    ((late v ∧ ¬ late w) ∨ ((late v ↔ late w) ∧ v.startSequence ≤ w.startSequence)))

/-! ### Runs -/

/-- The loop in which a voice is wrapping (R58): loop follow set, released clear, the cursor below the loop end. -/
def Voice.wrappingLoop (v : Voice) (l : Layout) : Option Loop :=
  l.loop.filter fun lp => v.loopFollow && !v.released && v.cursor.source < lp.stop

/-- The source frame before which the next run ends (R58): the end of its sample block, the loop end of a wrapping voice, the
sample end, whichever comes first. -/
def Voice.nextStop (v : Voice) (l : Layout) : Nat :=
  let block := (v.cursor.source / l.format.framesPerBlock + 1) * l.format.framesPerBlock
  min (min block ((v.wrappingLoop l).elim l.length Loop.stop)) l.length

/-- A voice's next run turns it into another (R58 to R61, R146): the cursor and the scheduled frames move by the run's frames;
at the loop end of a wrapping voice the cursor wraps; at the sample end, and where the stream count would pass 2^32 − 1, in
which case no frame is given, the cursor is at its end, the total is known, and a PLAYING or RELEASING voice is DRAINING. -/
def Voice.givenRun (l : Layout) (v w : Voice) : Prop :=
  let stop := v.nextStop l
  let frames := stop - v.cursor.source
  let wraps : Prop := ∃ lp, v.wrappingLoop l = some lp ∧ stop = lp.stop
  let goesOn : Prop := w.cursor.atEnd = v.cursor.atEnd ∧ w.total = v.total ∧ w.state = v.state
  let ends : Prop := w.cursor.atEnd = true ∧ w.total = some w.cursor.stream ∧
    w.state = if v.state = .playing ∨ v.state = .releasing then .draining else v.state
  w = { v with cursor := w.cursor, scheduled := w.scheduled, total := w.total, state := w.state, delivery := w.delivery } ∧
  (v.cursor.stream + frames ≤ 2 ^ 32 - 1 →
    w.cursor.stream = v.cursor.stream + frames ∧ w.scheduled = v.scheduled + frames ∧
    (wraps → v.wrappingLoop l = some ⟨w.cursor.source, stop⟩ ∧
      w.delivery = { v.delivery with latestWrap := some w.cursor.stream } ∧ goesOn) ∧
    (¬ wraps → w.cursor.source = stop ∧ w.delivery = v.delivery ∧ (stop = l.length → ends) ∧ (stop ≠ l.length → goesOn))) ∧
  (2 ^ 32 - 1 < v.cursor.stream + frames →
    w.cursor.stream = v.cursor.stream ∧ w.cursor.source = v.cursor.source ∧ w.scheduled = v.scheduled ∧
      w.delivery = v.delivery ∧ ends)

/-- A head-sourced run is due for a voice (R98, R100): its next run, in head mode, is below the record's head frames. -/
def State.waitsForHeadRun (s : State) (l : Layout) (v : Voice) : Prop :=
  s.wantsRun v ∧ v.headMode = true ∧ v.cursor.source < l.headFrames

/-- A silent place is due for a voice and its window (R101, R106): its candidate block lies on an OFFLINE die. -/
def State.waitsForSilence (s : State) (l : Layout) (v : Voice) (w : Window) : Prop :=
  s.wantsRun v ∧ ∃ a, v.storeNext l w a ∧ (s.die (a % 16)).state = .offline

/-- A window takes a voice's next run at its fill point (R43, R44): the place holds the run in its state, and the fill point advances
in ring order; where the stream count would pass 2^32 − 1 no run is given and the window stays (R61). -/
def State.takesRun (s : State) (l : Layout) (v : Voice) (w : Window) (place : Run → Place) (damaged : Bool) : Window :=
  let frames := v.nextStop l - v.cursor.source
  if v.cursor.stream + frames ≤ 2 ^ 32 - 1 then
    { w.setPlace w.fill (place
        { block := v.cursor.source / l.format.framesPerBlock, source := v.cursor.source, frames := frames
          stream := v.cursor.stream, damaged := damaged }) with
      fill := (w.fill + 1) % s.partition.windowBlocks }
  else w

/-- The runs due are given to a voice and its window one after another until none is due (R100, R102, R106): a head-sourced run moves
the voice alone, a run whose block lies on an OFFLINE die takes a place of the window too, FILLED and damaged. -/
inductive State.RunsGiven (s : State) (l : Layout) : Voice → Window → Voice → Window → Prop
  | none (v : Voice) (w : Window) : ¬ s.waitsForHeadRun l v → ¬ s.waitsForSilence l v w → State.RunsGiven s l v w v w
  | head (u v v' : Voice) (w w' : Window) : s.waitsForHeadRun l u → u.givenRun l v → State.RunsGiven s l v w v' w' →
    State.RunsGiven s l u w v' w'
  | silent (u v v' : Voice) (w w' : Window) : s.waitsForSilence l u w → u.givenRun l v →
    State.RunsGiven s l v (s.takesRun l u w .filled true) v' w' → State.RunsGiven s l u w v' w'

/-- The voice of a slot and its window, as they stood before an event or as it has changed them, have been given the runs that are
due after the event. -/
def State.GivenRuns (s t : State) (n : Nat) (v : Voice) (w : Window) : Prop :=
  ∀ l, s.layoutOf v = some l → t.layoutOf v = some l → t.RunsGiven l v w (t.voice n) (t.window v.window)

/-- The places of a voice's window as a die that goes OFFLINE leaves them (R112, R126): an AWAITED place changes only to FILLED,
damaged, where an entry lost with the die was to fill it. -/
structure State.PlacesLost (s : State) (d : Nat) (o : Operation) (w : Nat) (x : Window) : Prop where
  points : x.fill = (s.window w).fill ∧ x.delivery = (s.window w).delivery
  places : ∀ i, x.place i = (s.window w).place i ∨
    ∃ r e, (s.window w).place i = .awaited r ∧ s.lostEntry d o e ∧ e.destination = .place w i ∧
      x.place i = .filled { r with damaged := true }

/-! ### Deliveries -/

/-- The loop end at which a voice's delivery ends at a wrap (R148): s below the loop end, and the stream frame D + (loop end − s) at
or below the latest wrap point (R146). -/
def Voice.deliveryLoop (v : Voice) (l : Layout) : Option Loop :=
  l.loop.filter fun lp => v.delivery.source < lp.stop &&
    v.delivery.latestWrap.any fun w => v.delivered + (lp.stop - v.delivery.source) ≤ w

/-- The source frame before which a voice's delivery ends (R148): the end of its sample block, the loop end at a wrap, the record's
length, whichever comes first. -/
def Voice.deliveryStop (v : Voice) (l : Layout) : Nat :=
  let block := (v.delivery.source / l.format.framesPerBlock + 1) * l.format.framesPerBlock
  min (min block ((v.deliveryLoop l).elim l.length Loop.stop)) l.length

/-- The run at D is head-sourced (R147). -/
def Voice.fromHead (v : Voice) (l : Layout) : Prop := v.headMode = true ∧ v.delivery.source < l.headFrames

/-- The run of the place at a voice's delivery point, where that place is FILLED. -/
def State.filledRun (s : State) (v : Voice) : Option Run :=
  match (s.window v.window).place (s.window v.window).delivery with
  | .filled r => some r
  | .empty | .awaited _ => none

/-- The frames at D are available (R147): of a head-sourced run while the record holds its head resident, RESIDENT or RETIRING
from RESIDENT; of another while the place at the delivery point, whose first stream frame is D, is FILLED. -/
def State.available (s : State) (v : Voice) (l : Layout) : Prop :=
  (v.fromHead l ∧ (s.record v.sampleId).headSlot ≠ none ∧
      ((s.record v.sampleId).state = .resident ∨ (s.record v.sampleId).state = .retiring)) ∨
    (¬ v.fromHead l ∧ ∃ r, s.filledRun v = some r ∧ r.stream = v.delivered)

/-- Where in the memory a head-sourced run at D begins (R29, R151): in a head slot, at the source frame from the slot's start. -/
def State.headFrames (s : State) (v : Voice) (l : Layout) (slot : Nat) : Nat :=
  slot * s.partition.slotBlocks * 4096 + v.delivery.source * l.format.frameBytes

/-- Where in the memory another run at D begins (R29, R151): in the place at the delivery point of the voice's window, at the
source frame's offset in its block. -/
def State.placeFrames (s : State) (v : Voice) (l : Layout) : Nat :=
  (s.partition.headBands * 65536 + v.window * s.partition.windowBlocks + (s.window v.window).delivery) * 4096 +
    v.delivery.source % l.format.framesPerBlock * l.format.frameBytes

/-! ### Misaligned pointers met at a fetch (R187) -/

/-- The Request Processor has parked at an address that it took nothing from and read nothing at. -/
structure RequestsParkedAt (s t : State) (a : HostAddr) : Prop where
  state : t.requests.state = .parked ∧ t.requests.parkReason = some .linkError ∧ t.requests.takenMark = false
  address : t.requests.address = a ∧ t.requests.resumePending = false ∧ t.requests.waiting = false
  count : t.requests.takenCount = s.requests.takenCount
  flag : t.latched .portError = true
  reads : ∀ x n, .hostRead x n ∈ t.out → .hostRead x n ∈ s.out

/-- The Delivery Engine has parked at an address that it wrote nothing to and read nothing at. -/
structure BufferParkedAt (s t : State) (a : HostAddr) : Prop where
  state : t.delivery.state = .parked ∧ t.delivery.parkReason = some .linkError ∧ t.delivery.usedMark = false
  address : t.delivery.address = a ∧ t.delivery.resumePending = false ∧ t.delivery.waiting = false
  count : t.delivery.count = s.delivery.count
  flags : t.latched .portError = true ∧ t.latched .bufferParked = true
  reads : ∀ x n, .hostRead x n ∈ t.out → .hostRead x n ∈ s.out

/-! ### What a snapshot shows -/

/-- The bits of a register from a place on, as a number. -/
def slice (x : BitVec 64) (low width : Nat) : Nat := x.toNat / 2 ^ low % 2 ^ width

/-- A register of the snapshot holds these values, each at its lowest bit and in its width (11.2). -/
def shows (s : State) (register : Nat) (fields : List (Nat × Nat × Nat)) : Prop :=
  ∀ f ∈ fields, slice (s.registers.snapshot.getD register 0#64) f.1 f.2.1 = f.2.2 % 2 ^ f.2.1

/-! ### The engine reset and the message -/

/-- What an engine reset leaves as it clears the part (R179 and the owners' rules it names: R28, R46, R78, R96, R117, R139,
R163, R174). -/
structure ClearedPart (s t : State) : Prop where
  records : ∀ id, t.record id =
    { state := .vacant, generation := (s.record id).generation, layout := none, pin := false, refs := 0
      headSlot := none, staleReason := .none, loadReads := 0, load := none, retire := none }
  slots : t.reclaiming = [] ∧ t.recency = [] ∧ t.partition = s.partition
  voices : ∀ n, t.voice n = { s.voice n with
    state := .free, pendingRate := none, reads := 0
    delivery := { source := 0, latestWrap := none, loopedPending := false } }
  windows : ∀ w i, (t.window w).place i = .empty
  starts : t.startCount = s.startCount
  queue : t.queue = [] ∧ t.enqueueCount = 0
  dies : ∀ d, t.die d = { s.die d with programs := [], polls := [] }
  stores : t.stores = []
  pace : t.pace =
    { s.pace with running := false, pending := none, haltPending := none, position := 0, index := 0, frame := 0 }
  delivery : t.delivery = { s.delivery with noticeCount := 0, noticeStamp := none }
  tunables : t.tunables = s.tunables
  dram : SameDram s t
  engine : t.registers.engine = .ready
  empty : t.isEmpty = true
  window : t.registers =
    { s.registers with engine := .ready, status := t.registers.status }

/-- Messages are enabled and some flag is latched and enabled (R182). -/
def State.wantsMessage (s : State) : Prop := s.registers.msiEnable = true ∧ s.registers.status &&& s.registers.mask ≠ 0#10

/-- One message goes out exactly when messages are enabled, some flag is latched and enabled after the event, and that was not
so before it (R182); nothing else goes out. -/
def oneMessage (s t : State) : Prop :=
  (¬ s.wantsMessage → t.wantsMessage → t.out = s.out ++ [.message t.registers.msiVector]) ∧
    ((s.wantsMessage ∨ ¬ t.wantsMessage) → t.out = s.out)

/-- The vectors of the messages that have left the part, in their order. -/
def State.messages (s : State) : List Word :=
  s.out.filterMap fun
    | .message vector => some vector
    | .hostWrite _ _ | .hostRead _ _ | .readData _ | .dieAddress _ _ | .diePoll _ | .dieProgram _ _ => none

/-- Among all that leaves the part at an event there is one message exactly when messages are enabled, some flag is latched and
enabled after the event, and that was not so before it (R182). -/
def messageMade (s t : State) : Prop :=
  (¬ s.wantsMessage → t.wantsMessage → t.messages = s.messages ++ [t.registers.msiVector]) ∧
    ((s.wantsMessage ∨ ¬ t.wantsMessage) → t.messages = s.messages)

end Sys2Proof.Machine
end

