-- ==== Sys2Proof/Certificates/Slice0/Obligations.lean ====
section
/-! DEFINITION. The statements for the provers: what the commands of the part do, rule by rule. Each statement about a command
has as its conclusion the next state that the command answers; `s.completions = []` says that no event is under way, which
`Obligations.EveryCommandAnswersNext` gives after every event. -/

open Sys2Proof Sys2Proof.Machine

/-! ### Steps -/

/-- The step takes the command at the front of the queue, the model's own field (log 9), and runs it on the state with the
queue's rest. -/
def Obligations.FrontCommandRuns : Prop :=
  ∀ (c : Instr) (rest : List Instr) (s : State), s.pending = c :: rest → step s = exec c { s with pending := rest }

/-- No command stops the part: each answers a next state with no event under way, what had left the part still written as it
was, and the commands that wait still waiting. The last three clauses speak of the model's own fields (log 9, 10, 25). -/
def Obligations.EveryCommandAnswersNext : Prop :=
  ∀ (c : Instr) (s : State), ∃ t, exec c s = .next t ∧ t.completions = [] ∧ OutGrows s t ∧ t.pending = s.pending

/-- The invariants hold right after power-on. -/
def Obligations.InvariantsAtReset : Prop :=
  State.reset.Canonical ∧ State.reset.WithinLimits ∧ State.reset.PaceSound ∧ State.reset.VoicesAdmitted ∧
    State.reset.WindowsHeldOnce ∧ State.reset.VacantHoldsNoSlot

/-- Sparse data stays in its one canonical form at every step. -/
def Obligations.CanonicalKept : Prop := ∀ s t : State, s.Canonical → step s = .next t → t.Canonical

/-- The Fetch Queue never holds more than 4,096 entries (R108), the STOREs-in-flight table no more than four, and a poll list no
more than four, at every step. -/
def Obligations.LimitsKept : Prop :=
  ∀ s t : State, s.Canonical → s.WithinLimits → step s = .next t → t.WithinLimits

/-- The Pace Timer stays sound at every step. -/
def Obligations.PaceSoundKept : Prop := ∀ s t : State, s.PaceSound → step s = .next t → t.PaceSound

/-- The sounding count never exceeds the voice limit, at every step (R52, R173). -/
def Obligations.VoicesAdmittedKept : Prop :=
  ∀ s t : State, s.Canonical → s.VoicesAdmitted → step s = .next t → t.VoicesAdmitted

/-- No window is held by two slots, at every step (R42). A VACANT record holds no head slot, at every step (R1, R18, R31). -/
def Obligations.WindowsHeldOnceKept : Prop :=
  (∀ s t : State, s.Canonical → s.WindowsHeldOnce → step s = .next t → t.WindowsHeldOnce) ∧
  ∀ s t : State, s.Canonical → s.VacantHoldsNoSlot → step s = .next t → t.VacantHoldsNoSlot

/-! ### The resets -/

/-- POWER_ON and the catalog (R26). -/
def Obligations.PowerOnCatalog : Prop :=
  ∀ s : State, ∃ t, exec .powerOn s = .next t ∧
    (∀ id, (t.record id).state = .vacant ∧ (t.record id).generation = 0#16 ∧ (t.record id).layout = none ∧
      (t.record id).pin = false ∧ (t.record id).refs = 0 ∧ (t.record id).headSlot = none ∧
      (t.record id).staleReason = .none ∧ (t.record id).loadReads = 0) ∧
    t.stores = [] ∧ (∀ extents, t.storeClaims extents = false) ∧
    ∀ (u : State) (h : Header) (p : DefineParams) (l : Layout), u.Taking → u.record p.id.toNat = t.record p.id.toNat →
      layoutOf p u.partition.slotBlocks = some l → u.storeClaims l.extents = false →
      ∃ w, exec (.define h p) u = .next w ∧ (w.record p.id.toNat).state = .defined ∧
        (w.record p.id.toNat).generation = 1#16

/-- POWER_ON and the voice slots (R76). -/
def Obligations.PowerOnVoices : Prop :=
  ∀ s : State, ∃ t, exec .powerOn s = .next t ∧
    (∀ n, t.voice n =
      { state := .free, generation := 0#16, sampleId := 0, sampleGeneration := 0#16, headMode := false, window := 0
        startOffset := 0, position := 0, rate := 0, pendingRate := none, priority := 0, leadClass := 0
        loopFollow := false, released := false, cookie := 0#32, startSequence := 0
        cursor := { source := 0, stream := 0, atEnd := false }, scheduled := 0, delivered := 0, consumed := 0
        total := none, starved := false, underruns := 0, reads := 0, endReason := none, endPosted := false
        firstDelivery := false, delivery := { source := 0, latestWrap := none, loopedPending := false } }) ∧
    (∀ w, t.windowFree w = true) ∧ t.tunables.voiceLimit = 960 ∧ t.startCount = 0 ∧
    ∀ (u : State) (p : StartParams) (r : Record) (l : Layout) (slot w : Nat), u.startCount = t.startCount →
      (u.voice slot).generation = (t.voice slot).generation →
      (u.newVoice p r l slot w).startSequence = 0 ∧ (u.newVoice p r l slot w).generation = 1#16

/-- POWER_ON and the other blocks: the partition (R46), the Pace Timer (R94), the Fetch Queue (R118), the dies (R137), the Delivery
Engine (R162), the Request Processor (R175), the Register Window (R186), and every tunable (R46, R97, R130, R160, R173). The
message vector is the model's choice (log 21), and so is what a byte of the DRAM then reads as (log 8). -/
def Obligations.PowerOnBlocks : Prop :=
  ∀ s : State, ∃ t, exec .powerOn s = .next t ∧
    t.partition = { headBands := 32, slotBlocks := 32, windowBlocks := 64 } ∧ t.reclaiming = [] ∧ t.recency = [] ∧
    (∀ w i, (t.window w).place i = .empty) ∧
    t.pace = { source := .internal, internalRate := 48000, state := .internal, period := 256, frame := 0, index := 0
               clockPresent := false, pending := none, running := false, haltPending := none, position := 0 } ∧
    t.queue = [] ∧ t.enqueueCount = 0 ∧
    t.tunables = { voiceLimit := 960, leadClasses := #v[⟨4, 1⟩, ⟨8, 2⟩, ⟨16, 4⟩, ⟨32, 8⟩], retryLimit := 2, pollInterval := 4
                   readTimeout := 20, programTimeout := 20, programGuard := 4, loadAllowance := 64, coalescingCount := 16
                   ageLimit := 1, priorityThreshold := 12 } ∧
    (∀ d, (t.die d).state = .ready ∧ (t.die d).operation = none ∧ (t.die d).retries = 0 ∧ (t.die d).programs = [] ∧
      (t.die d).polls = []) ∧
    t.delivery.state = .idle ∧ t.delivery.address = 0#64 ∧ t.delivery.resumePending = false ∧
    t.delivery.noticeCount = 0 ∧ t.delivery.count = 0#32 ∧
    t.requests.state = .idle ∧ t.requests.address = 0#64 ∧ t.requests.heldNext = none ∧
    t.requests.resumePending = false ∧ t.requests.takenCount = 0#32 ∧ t.requests.lastTag = 0#32 ∧
    t.registers.engine = .ready ∧ t.registers.status = 0#10 ∧ t.registers.mask = 0#10 ∧
    (∀ c, t.registers.counters.value c = 0) ∧ t.registers.selectTable = 0#3 ∧ t.registers.selectIndex = 0#24 ∧
    t.registers.selectPage = false ∧ (∀ n, t.inspectData n = 0#64) ∧
    (∀ r, t.writeHold r = 0#32 ∧ t.readHold r = 0#32) ∧ t.registers.msiEnable = false ∧
    t.registers.msiVector = 0#32 ∧ (∀ a, Memory.read t.dram a = 0#8)

/-- LINK_RESET, block by block: the records (R27), the windows (R45, R46), the voices (R77), the Pace Timer (R95), the Fetch
Queue (R118), the dies (R138), the Delivery Engine (R162), the Request Processor (R175), the Register Window (R186). -/
def Obligations.LinkResetBlocks : Prop :=
  ∀ s : State, s.Canonical → ∃ t, exec .linkReset s = .next t ∧
    (∀ id, t.record id =
      match (s.record id).state with
      | .retiring =>
        { state := .vacant, generation := (s.record id).generation, layout := none, pin := false, refs := 0
          headSlot := none, staleReason := .none, loadReads := 0, load := none, retire := none }
      | .loading => { s.record id with
          state := .defined, refs := 0, loadReads := 0, headSlot := none, load := none, retire := none }
      | .vacant | .defined | .resident | .stale => { s.record id with refs := 0, loadReads := 0, load := none, retire := none }) ∧
    t.reclaiming = [] ∧ t.recency = s.recency ∧ t.partition = s.partition ∧ SameDram s t ∧ t.stores = [] ∧
    (∀ n, t.voice n = { s.voice n with
      state := .free, pendingRate := none, reads := 0
      delivery := { source := 0, latestWrap := none, loopedPending := false } }) ∧
    (∀ w i, (t.window w).place i = .empty) ∧ t.startCount = s.startCount ∧
    t.pace = { s.pace with running := false, pending := none, haltPending := none, position := 0, index := 0, frame := 0 } ∧
    t.queue = [] ∧ t.enqueueCount = 0 ∧ t.tunables = s.tunables ∧
    (∀ d, t.die d = { s.die d with
      programs := [], polls := [], operation := (s.die d).operation.map fun o => { o with discard := true } }) ∧
    t.delivery.state = .idle ∧ t.delivery.address = 0#64 ∧ t.delivery.resumePending = false ∧ t.delivery.read = .none ∧
    t.delivery.noticeCount = 0 ∧ t.delivery.count = 0#32 ∧
    t.requests.state = .idle ∧ t.requests.address = 0#64 ∧ t.requests.heldNext = none ∧ t.requests.read = .none ∧
    t.requests.resumePending = false ∧ t.requests.takenCount = 0#32 ∧ t.requests.lastTag = 0#32 ∧
    t.registers.engine = .ready ∧ t.registers.status = 0#10 ∧ t.registers.mask = 0#10 ∧
    (∀ c, t.registers.counters.value c = 0) ∧ t.registers.selectTable = 0#3 ∧ t.registers.selectIndex = 0#24 ∧
    t.registers.selectPage = false ∧ (∀ n, t.inspectData n = 0#64) ∧
    (∀ r, t.writeHold r = 0#32 ∧ t.readHold r = 0#32) ∧ t.registers.msiEnable = false

/-- ENGINE_RESET while a die has an operation in flight (R178, R96, R78, R139): Engine Status becomes RESETTING, the transport
stops, pending rates are dropped, operations are marked, and the rest of the part keeps its state, resume pending too (the
model's reading, log 15). Written again while RESETTING, it is ignored (R177). -/
def Obligations.EngineResetBegins : Prop :=
  (∀ s : State, s.Canonical → s.registers.engine = .ready → s.noOperation = false → s.completions = [] →
    ∃ t, exec .engineReset s = .next t ∧ t.registers = { s.registers with engine := .resetting } ∧
      t.pace = { s.pace with running := false, pending := none, haltPending := none } ∧
      (∀ n, t.voice n = { s.voice n with pendingRate := none }) ∧
      (∀ d, t.die d = { s.die d with operation := (s.die d).operation.map fun o => { o with discard := true } }) ∧
      SameCatalog s t ∧ SameDram s t ∧ SameQueue s t ∧ (∀ w, t.window w = s.window w) ∧ t.startCount = s.startCount ∧
      t.stores = s.stores ∧ t.requests = s.requests ∧ t.delivery = s.delivery ∧ t.tunables = s.tunables ∧ t.out = s.out) ∧
  ∀ s : State, s.registers.engine = .resetting → s.completions = [] → exec .engineReset s = .next s

/-- The engine reset clears the part at the event at which no die has an operation in flight (R179): at ENGINE_RESET itself,
within the event that ends the last marked operation, or, where it still stands to be made, at the command ENGINE_RESET_CLEAR (the
model's reading of that row, log 5). A fetch that waited at a misaligned address then fails there (R187, log 36). Nothing waits:
the Request Processor and the Delivery Engine keep their records, resume pending with them (the model's reading, log 15). At the
return to READY a descriptor held untaken is taken by the cleared part as its arrival would be, and a waiting descriptor read,
re-read of a next pointer or buffer fetch begins (R163, R174); a re-read begun so leaves the processor FETCHING (log 39). The end
of the last marked operation clears the part whichever command brings it: a marked REVIVE_DIE's POLL revives nothing, even
answered ready (the model's reading of R138, log 18), the transfer buffer is empty between events (the model's reading, log 33),
and a die's command is taken as that of the operation in flight (the model's choice, log 50). -/
def Obligations.EngineResetClears : Prop :=
  (∀ s : State, s.Canonical → s.noOperation = true → s.completions = [] → s.requests.waiting = false →
    s.delivery.waiting = false →
    (s.registers.engine = .ready →
      ∃ t, exec .engineReset s = .next t ∧ ClearedPart s t ∧ t.requests = s.requests ∧ t.out = s.out) ∧
    (s.registers.engine = .resetting →
      ∃ t, exec .engineResetClear s = .next t ∧ ClearedPart s t ∧ t.requests = s.requests ∧ t.out = s.out)) ∧
  (∀ s : State, s.Canonical → s.noOperation = true → s.completions = [] → s.registers.engine = .resetting →
    (∀ h, s.requests.state = .fetching → s.requests.waiting = true → s.requests.held = some ⟨h, .run⟩ →
      s.delivery.waiting = false →
      ∃ t, exec .engineResetClear s = .next t ∧ TakenDone s t h .ok 0#32 0#32 ∧ t.pace.running = true ∧
        t.pace.position = 0) ∧
    (s.requests.state = .fetching → s.requests.waiting = true → s.requests.held = none → s.requests.read = .descriptor →
      requestAligned s.requests.address = true → s.delivery.waiting = false →
      ∃ t, exec .engineResetClear s = .next t ∧ t.out = s.out ++ [.hostRead s.requests.address 256] ∧
        t.requests.state = .fetching ∧ t.requests.waiting = false ∧ t.requests.address = s.requests.address ∧
        t.requests.read = .descriptor) ∧
    (s.requests.state = .fetching → s.requests.waiting = true → s.requests.held = none → s.requests.read = .descriptor →
      requestAligned s.requests.address = false → s.delivery.waiting = false →
      ∃ t, exec .engineResetClear s = .next t ∧ RequestsParkedAt s t s.requests.address) ∧
    (s.requests.waiting = false → s.delivery.waiting = true → bufferAligned s.delivery.address = true →
      ∃ t, exec .engineResetClear s = .next t ∧ t.out = s.out ++ [.hostRead s.delivery.address 24] ∧
        t.delivery.state = .active ∧ t.delivery.holding = false ∧ t.delivery.waiting = false ∧
        t.delivery.address = s.delivery.address ∧ t.delivery.read = .descriptor) ∧
    (s.requests.waiting = false → s.delivery.waiting = true → bufferAligned s.delivery.address = false →
      ∃ t, exec .engineResetClear s = .next t ∧ BufferParkedAt s t s.delivery.address) ∧
    (∀ h body, s.requests.state = .fetching → s.requests.waiting = true → s.requests.held = some ⟨h, body⟩ →
      s.delivery.waiting = false →
      ∃ u, ClearedPart s u ∧ u.Canonical ∧ u.Taking ∧ u.out = s.out ∧
        u.requests = { s.requests with waiting := false, read := .descriptor, held := none } ∧
        exec .engineResetClear s = exec (Request.arrival ⟨h, body⟩) u) ∧
    (s.requests.state = .fetching → s.requests.waiting = true → s.requests.held = none →
      s.requests.read = .nextAtAdvance ∨ s.requests.read = .nextAtResume → s.delivery.waiting = false →
      ∃ t, exec .engineResetClear s = .next t ∧ ClearedPart s t ∧ t.out = s.out ++ [.hostRead s.requests.address 8] ∧
        t.requests = { s.requests with waiting := false })) ∧
  (∀ (s : State) (d : Fin 16) (o : Operation) (after : DieState) (c : Instr), s.Canonical → s.completions = [] →
    s.registers.engine = .resetting → s.requests.waiting = false → s.delivery.waiting = false →
    (s.die d.val).operation = some o → o.discard = true → (∀ x, x ≠ d.val → (s.die x).operation = none) →
    endsWork s d o after c →
    ∃ t, exec c s = .next t ∧ ClearedPart (s.setDie d.val ((s.die d.val).ended after)) t ∧ t.requests = s.requests)

/-! ### The Register Window -/

/-- INTERRUPT_STATUS_WRITE clears each flag written 1 and keeps each written 0 (R181); COUNTER_WRITE sets its counter to 0
(R183). Neither changes anything else. INTERRUPT_MASK_WRITE writes the mask whole; MSI_ENABLE_CHANGE takes the enable and
the vector, whose width is the model's choice (log 21); each may send one message (R182). At every event of every command, whether
it latches a flag, enables one or enables messages, one message goes out exactly when the masked status goes from empty to not
empty with messages enabled (R182). -/
def Obligations.FlagsCountersMessages : Prop :=
  ((∀ (v : Word) (s : State), s.completions = [] →
    ∃ t, exec (.interruptStatusWrite v) s = .next t ∧
      (∀ f : Flag, t.latched f = (s.latched f && !v.getLsbD f.position)) ∧
      t = { s with registers := { s.registers with status := t.registers.status } }) ∧
  ∀ (c : CounterName) (s : State), s.completions = [] →
    ∃ t, exec (.counterWrite c) s = .next t ∧ t.registers.counters.value c = 0 ∧
      (∀ d, d ≠ c → t.registers.counters.value d = s.registers.counters.value d) ∧
      t = { s with registers := { s.registers with counters := t.registers.counters } }) ∧
  ((∀ (v : Word) (s : State), s.completions = [] →
    ∃ t, exec (.interruptMaskWrite v) s = .next t ∧ t.registers = { s.registers with mask := v.extractLsb' 0 10 } ∧
      oneMessage s t ∧ t = { s with registers := t.registers, out := t.out }) ∧
  ∀ (enable : Bool) (vector : Word) (s : State), s.completions = [] →
    ∃ t, exec (.msiEnableChange enable vector) s = .next t ∧
      t.registers = { s.registers with msiEnable := enable, msiVector := vector } ∧
      oneMessage s t ∧ t = { s with registers := t.registers, out := t.out }) ∧
  ∀ (c : Instr) (s t : State), exec c s = .next t → messageMade s t

/-- INSPECT_CAPTURE (R184, R185): table, index and page are kept, the snapshot is replaced whole, its first register holds
VALID, table and index; an index out of range or a code of no table gives a snapshot of zeros. INSPECT_PAGE_SELECT changes
the page alone. What a snapshot shows, field by field, at the places of 11.2: of CATALOG the record and, on page 1, its
extents (R25), of VOICE every field of the voice (R75), of DIE the die, its operation and its sub-queue (R116, R136), of
LEAD_CLASS the class and the Fetch Queue's count (R116). The model's readings: a snapshot of zeros has table and index 0 too (log
24); a total or a start sequence wider than its field shows its low bits (log 22, log 45). -/
def Obligations.InspectPort : Prop :=
  ((∀ (table : BitVec 3) (index : BitVec 24) (page : Bool) (s : State), s.completions = [] →
    ∃ t, exec (.inspectCapture table index page) s = .next t ∧ t.registers.selectTable = table ∧
      t.registers.selectIndex = index ∧ t.registers.selectPage = page ∧ t.registers.snapshot.length = 32 ∧
      (index.toNat < inspectRange table →
        (t.registers.snapshot.getD 0 0#64).toNat = 1 + 2 * table.toNat + 256 * index.toNat) ∧
      (inspectRange table ≤ index.toNat → ∀ n, t.registers.snapshot.getD n 0#64 = 0#64) ∧
      t = { s with registers := t.registers } ∧ t.registers =
        { s.registers with selectTable := table, selectIndex := index, selectPage := page
                           snapshot := t.registers.snapshot }) ∧
  ∀ (page : Bool) (s : State), s.completions = [] →
    exec (.inspectPageSelect page) s = .next { s with registers := { s.registers with selectPage := page } }) ∧
  (∀ (index : BitVec 24) (page : Bool) (s : State), s.completions = [] → index.toNat < 65536 →
    ∃ t, exec (.inspectCapture 0#3 index page) s = .next t ∧
      let r := s.record index.toNat
      let extents := (r.layout.map Layout.extents).getD []
      let loop := r.layout.bind Layout.loop
      let signature := r.layout.bind Layout.signature
      shows t 1 [(0, 4, r.state.code), (4, 4, (r.layout.map fun l => l.format.code).getD 0), (8, 4, extents.length),
        (12, 4, (signature.map fun g => g.spans.length).getD 0), (16, 16, r.generation.toNat),
        (32, 32, (r.layout.map Layout.length).getD 0)] ∧
      shows t 2 [(0, 16, (r.layout.map Layout.headBlocks).getD 0), (16, 1, r.pin.toNat), (17, 1, loop.isSome.toNat),
        (18, 1, signature.isSome.toNat), (19, 1, r.headSlot.isSome.toNat), (20, 4, r.staleReason.code),
        (24, 8, r.loadReads), (32, 11, r.refs)] ∧
      shows t 3 [(0, 32, (loop.map Loop.start).getD 0), (32, 32, (loop.map Loop.stop).getD 0)] ∧
      shows t 4 [(0, 32, (signature.map fun g => g.expected.toNat).getD 0), (32, 32, r.headSlot.getD 0)] ∧
      (∀ n e, n < 15 → extents[n]? = some e → shows t (16 + n) [(0, 30, e.start), (32, 16, e.count)]) ∧
      (∀ n, n < 15 → extents.length ≤ n → t.registers.snapshot.getD (16 + n) 0#64 = 0#64)) ∧
  (∀ (index : BitVec 24) (page : Bool) (s : State), s.completions = [] → index.toNat < 1024 →
    ∃ t, exec (.inspectCapture 1#3 index page) s = .next t ∧
      let v := s.voice index.toNat
      shows t 1 [(0, 3, v.state.code), (3, 1, v.headMode.toNat), (4, 1, v.loopFollow.toNat), (5, 1, v.released.toNat),
        (6, 1, v.starved.toNat), (7, 1, v.endPosted.toNat), (8, 1, v.firstDelivery.toNat),
        (9, 1, v.pendingRate.isSome.toNat), (10, 1, v.total.isSome.toNat), (11, 1, v.cursor.atEnd.toNat),
        (12, 4, v.priority), (16, 2, v.leadClass), (18, 4, endReasonCode v.endReason), (32, 16, v.generation.toNat),
        (48, 10, v.window)] ∧
      shows t 2 [(0, 16, v.sampleId), (16, 16, v.sampleGeneration.toNat), (32, 32, v.cookie.toNat)] ∧
      shows t 3 [(0, 32, v.startOffset), (32, 32, v.rate)] ∧
      shows t 4 [(0, 32, v.pendingRate.getD 0), (32, 8, v.underruns), (40, 10, v.reads)] ∧
      shows t 5 [(0, 48, v.position)] ∧ shows t 6 [(0, 48, v.startSequence)] ∧
      shows t 7 [(0, 32, v.cursor.source), (32, 32, v.cursor.stream)] ∧
      shows t 8 [(0, 32, v.scheduled), (32, 32, v.delivered)] ∧ shows t 9 [(0, 48, v.consumed)] ∧
      shows t 10 [(0, 32, v.total.getD 0)]) ∧
  (∀ (index : BitVec 24) (page : Bool) (s : State), s.completions = [] → index.toNat < 16 →
    ∃ t, exec (.inspectCapture 2#3 index page) s = .next t ∧
      let x := s.die index.toNat
      let queue := s.subQueue index.toNat
      shows t 1 [(0, 3, x.state.code), (10, 3, x.retries), (16, 7, x.programs.length), (24, 3, x.polls.length),
        (32, 13, queue.length), (63, 1, if queue = [] then 0 else 1)] ∧
      shows t 3 [(0, 48, (queue.head?.map FetchEntry.deadline).getD 0)] ∧
      (x.operation = none →
        shows t 1 [(4, 2, 0), (6, 4, 0), (28, 2, 0)] ∧ shows t 2 [(0, 32, 0), (32, 16, 0), (48, 16, 0)]) ∧
      (∀ o e slot g, x.operation = some o → o.work = .read e → e.owner = .voice slot g →
        shows t 1 [(4, 2, 1), (6, 4, o.attempt), (28, 2, 1)] ∧
          shows t 2 [(0, 32, e.address), (32, 16, slot), (48, 16, g.toNat)]) ∧
      (∀ o e id g, x.operation = some o → o.work = .read e → e.owner = .load id g →
        shows t 1 [(4, 2, 1), (6, 4, o.attempt), (28, 2, 2)] ∧
          shows t 2 [(0, 32, e.address), (32, 16, id), (48, 16, g.toNat)]) ∧
      (∀ o p, x.operation = some o → o.work = .program p →
        shows t 1 [(4, 2, 2), (6, 4, o.attempt), (28, 2, 0)] ∧ shows t 2 [(0, 32, p.address), (32, 16, 0), (48, 16, 0)]) ∧
      (∀ o, x.operation = some o → o.work = .poll →
        shows t 1 [(4, 2, 3), (6, 4, o.attempt), (28, 2, 0)] ∧ shows t 2 [(0, 32, 0), (32, 16, 0), (48, 16, 0)])) ∧
  (∀ (index : BitVec 24) (page : Bool) (s : State) (n : Fin 4), s.completions = [] → index.toNat = n.val →
    ∃ t, exec (.inspectCapture 3#3 index page) s = .next t ∧
      shows t 1 [(32, 8, s.tunables.leadClasses[n].target), (40, 8, s.tunables.leadClasses[n].tolerance),
        (48, 13, s.queue.length)])

/-- WIDE_REGISTER_UPPER_WRITE keeps the word in the write hold of a list pointer and is ignored for a read-only register;
WIDE_REGISTER_LOWER_READ returns the lower part and copies the upper part into the read hold (the model's reading of both, log
23); REGISTER_WRITE is ignored (R176, R177), at an offset that holds no register too (the model's choice, log 48). -/
def Obligations.RegisterAccesses : Prop :=
  (∀ (r : WideRegister) (v : Word) (s : State), s.completions = [] →
    ∃ t, exec (.wideRegisterUpperWrite r v) s = .next t ∧
      t.writeHold r = (if r = .requestListPointer ∨ r = .bufferListPointer then v else s.writeHold r) ∧
      (∀ q, q ≠ r → t.writeHold q = s.writeHold q) ∧
      t = { s with registers := { s.registers with writeHolds := t.registers.writeHolds } }) ∧
  (∀ (r : WideRegister) (s : State), s.completions = [] →
    ∃ t, exec (.wideRegisterLowerRead r) s = .next t ∧
      t.out = s.out ++ [.readData ((s.wideValue r).extractLsb' 0 32)] ∧
      t.readHold r = (s.wideValue r).extractLsb' 32 32 ∧ (∀ q, q ≠ r → t.readHold q = s.readHold q) ∧
      t = { s with registers := { s.registers with readHolds := t.registers.readHolds }, out := t.out }) ∧
  ∀ (offset : BitVec 12) (value : Word) (s : State), s.completions = [] →
    exec (.registerWrite offset value) s = .next s

/-- PANIC: while READY every sounding voice enters ENDING with reason PANIC, the other slots are unchanged, and so are the
transport, the STOREs, the limits and the start count (R74, R177); their queued entries leave the Fetch Queue (R110), their windows
are emptied but for the places whose reads are in flight (R45), and their records' reference counts fall (R12), a RETIRING record
left with no voice and no read becoming VACANT (R17); while RESETTING it is ignored. -/
def Obligations.PanicEndsVoices : Prop :=
  (∀ s : State, s.Canonical → s.registers.engine = .ready →
    ∃ t, exec .panic s = .next t ∧ s.AllEnd t .panic ∧ t.pace = s.pace ∧ t.tunables = s.tunables ∧
      t.startCount = s.startCount ∧ t.delivery = s.delivery ∧
      t.registers = { s.registers with status := t.registers.status }) ∧
  ∀ s : State, s.registers.engine = .resetting → s.completions = [] → exec .panic s = .next s

/-! ### The Request List -/

/-- REQUEST_LIST_POINTER, by the whole value written (R165, R176, R187): ignored with PORT_ERROR while FETCHING and, misaligned,
while not; 0 gives IDLE; an aligned value is fetched, or waits for the end of an engine reset. BUFFER_LIST_POINTER, by the
whole value written (R143, R176, R187). A write that moves the list leaves behind the next-pointer reads in flight: the model
counts them, to know their ends (log 44). -/
def Obligations.ListPointerWrites : Prop :=
  (∀ (lower : Word) (s : State) (a : HostAddr), a = s.writeHold .requestListPointer ++ lower → s.completions = [] →
    ∃ t, exec (.requestListPointer lower) s = .next t ∧ t.writeHold .requestListPointer = 0#32 ∧
      (s.requests.state = .fetching → t.requests = s.requests ∧ t.latched .portError = true) ∧
      (s.requests.state ≠ .fetching → a = 0#64 →
        t.requests.state = .idle ∧ t.requests.address = 0#64 ∧ t.requests.resumePending = false ∧
          t.registers.status = s.registers.status) ∧
      (s.requests.state ≠ .fetching → a ≠ 0#64 → requestAligned a = false →
        t.requests = s.requests ∧ t.latched .portError = true) ∧
      (s.requests.state ≠ .fetching → s.requests.read = .none → a = 0#64 ∨ requestAligned a = true →
        t.requests.rereads = 0 ∧ t.requests.lateRereads = s.requests.lateRereads + s.requests.rereads) ∧
      (s.requests.state ≠ .fetching → a ≠ 0#64 → requestAligned a = true →
        t.requests.state = .fetching ∧ t.requests.address = a ∧ t.requests.parkReason = none ∧
          t.requests.resumePending = false ∧ t.requests.read = .descriptor ∧ t.requests.waiting = s.resetting ∧
          t.registers.status = s.registers.status ∧
          t.out = s.out ++ (if s.resetting then [] else [.hostRead a 256]))) ∧
  (∀ (lower : Word) (s : State) (a : HostAddr), a = s.writeHold .bufferListPointer ++ lower → s.completions = [] →
    ∃ t, exec (.bufferListPointer lower) s = .next t ∧ t.writeHold .bufferListPointer = 0#32 ∧
      (s.delivery.state = .active → t.delivery = s.delivery ∧ t.latched .portError = true) ∧
      (s.delivery.state ≠ .active → a = 0#64 →
        t.delivery.state = .idle ∧ t.delivery.address = 0#64 ∧ t.delivery.resumePending = false ∧
          t.registers.status = s.registers.status) ∧
      (s.delivery.state ≠ .active → a ≠ 0#64 → bufferAligned a = false →
        t.delivery = s.delivery ∧ t.latched .portError = true) ∧
      (s.delivery.state ≠ .active → a = 0#64 ∨ bufferAligned a = true →
        t.delivery.rereads = 0 ∧ t.delivery.lateRereads =
          s.delivery.lateRereads + s.delivery.rereads + (if s.delivery.read = .next then 1 else 0)) ∧
      (s.delivery.state ≠ .active → a ≠ 0#64 → bufferAligned a = true →
        t.delivery.state = .active ∧ t.delivery.holding = false ∧ t.delivery.address = a ∧
          t.delivery.parkReason = none ∧ t.delivery.resumePending = false ∧ t.delivery.read = .descriptor ∧
          t.delivery.waiting = s.resetting ∧ t.registers.status = s.registers.status ∧
          t.out = s.out ++ (if s.resetting then [] else [.hostRead a 24])))

/-- REQUEST_RESUME, by the processor's state and park reason (R168): no effect in IDLE, resume pending in FETCHING; the next
pointer of a parked descriptor is read again, or the parked descriptor itself. During an engine reset a read waits (R174).
REQUEST_NEXT_REREAD_END (R167, R168): a nonzero pointer is fetched; 0 parks with END_OF_LIST; a failure parks with
LINK_ERROR and the taken mark at an advance, and leaves END_OF_LIST at a resume, with PORT_ERROR latched (the model's reading,
log 14; of the state while a pointer is read again, log 13). A 0 read with resume
pending set is read once more, at an advance as at a resume, and resume pending clears (the model's reading, log 16, log 39).
A resume written in PARKED while a resume's read is in flight begins another, each running to its end; one that an engine
reset makes wait leaves the decision on a 0 or a failure of the earlier read to the read that is to come (log 16). A read
whose descriptor the processor has left ends without effect but for PORT_ERROR at a failure (log 44). A misaligned pointer met at
an advance or a resume parks the processor with LINK_ERROR at that address, untaken, with PORT_ERROR latched and nothing read
there, and a resume there fails in the same way (R187); during an engine reset its fetch waits like any other (log 36). -/
def Obligations.RequestResumes : Prop :=
  (∀ s : State, s.completions = [] →
    (s.requests.state = .idle → exec .requestResume s = .next s) ∧
    (s.requests.state = .fetching →
      exec .requestResume s = .next { s with requests := { s.requests with resumePending := true } }) ∧
    (s.requests.state = .parked → s.resetting = false →
      s.requests.parkReason = some .endOfList ∨ (s.requests.parkReason = some .linkError ∧ s.requests.takenMark = true) →
      exec .requestResume s = .next { s with
        requests := { s.requests with rereads := s.requests.rereads + 1 }, out := s.out ++ [.hostRead s.requests.address 8] }) ∧
    (s.requests.state = .parked → s.resetting = true →
      s.requests.parkReason = some .endOfList ∨ (s.requests.parkReason = some .linkError ∧ s.requests.takenMark = true) →
      exec .requestResume s = .next { s with requests := { s.requests with
        state := .fetching, waiting := true, parkReason := none, takenMark := false, read := .nextAtResume } }) ∧
    (s.requests.state = .parked → s.requests.parkReason = some .linkError → s.requests.takenMark = false →
      requestAligned s.requests.address = false → s.resetting = false →
      ∃ t, exec .requestResume s = .next t ∧ RequestsParkedAt s t s.requests.address) ∧
    (s.requests.state = .parked → s.requests.parkReason = some .linkError → s.requests.takenMark = false →
      requestAligned s.requests.address = true ∨ s.resetting = true →
      ∃ t, exec .requestResume s = .next t ∧ t.requests.state = .fetching ∧ t.requests.address = s.requests.address ∧
        t.requests.read = .descriptor ∧ t.requests.waiting = s.resetting ∧
        t.out = s.out ++ (if s.resetting then [] else [.hostRead s.requests.address 256]))) ∧
  (∀ (s : State) (read : Option HostAddr), 0 < s.requests.lateRereads → s.completions = [] →
    ∃ t, exec (.requestNextRereadEnd read) s = .next t ∧
      t.requests = { s.requests with lateRereads := s.requests.lateRereads - 1 } ∧
      (read = none → t.latched .portError = true) ∧ (read ≠ none → t.registers = s.registers ∧ t.out = s.out)) ∧
  (∀ (s : State) (read : Option HostAddr), s.requests.lateRereads = 0 → 0 < s.requests.rereads →
    s.requests.state = .fetching → s.requests.read = .nextAtResume → s.completions = [] →
    ∃ t, exec (.requestNextRereadEnd read) s = .next t ∧
      (read = none ∨ read = some 0#64 → t.requests = { s.requests with rereads := s.requests.rereads - 1 }) ∧
      (read = none → t.latched .portError = true) ∧ (read = some 0#64 → t.registers = s.registers) ∧
      (∀ a, read = some a → a ≠ 0#64 → requestAligned a = false → s.resetting = false → RequestsParkedAt s t a) ∧
      ∀ a, read = some a → a ≠ 0#64 → requestAligned a = true ∨ s.resetting = true →
        t.requests.state = .fetching ∧ t.requests.address = a ∧ t.requests.read = .descriptor ∧
          t.requests.waiting = s.resetting ∧ t.requests.rereads = 0 ∧
          t.requests.lateRereads = s.requests.rereads - 1 + (if s.requests.waiting then 0 else 1) ∧
          t.out = s.out ++ (if s.resetting then [] else [.hostRead a 256])) ∧
  (∀ s : State, s.requests.lateRereads = 0 → s.completions = [] →
    ((s.requests.read = .nextAtAdvance ∨ s.requests.read = .nextAtResume) ∧ s.requests.waiting = false ∧
        s.requests.rereads = 0) ∨
      (s.requests.read = .none ∧ s.requests.state = .parked ∧ 0 < s.requests.rereads) →
    (∀ a, a ≠ 0#64 → requestAligned a = true → s.resetting = false →
      ∃ t, exec (.requestNextRereadEnd (some a)) s = .next t ∧ t.requests.state = .fetching ∧ t.requests.address = a ∧
        t.requests.read = .descriptor ∧ t.out = s.out ++ [.hostRead a 256]) ∧
    (∀ a, a ≠ 0#64 → requestAligned a = false → s.resetting = false →
      ∃ t, exec (.requestNextRereadEnd (some a)) s = .next t ∧ RequestsParkedAt s t a) ∧
    (∀ a, a ≠ 0#64 → s.resetting = true →
      ∃ t, exec (.requestNextRereadEnd (some a)) s = .next t ∧ t.requests.state = .fetching ∧ t.requests.address = a ∧
        t.requests.read = .descriptor ∧ t.requests.waiting = true ∧ t.registers = s.registers ∧ t.out = s.out) ∧
    (s.requests.resumePending = false →
      ∃ t, exec (.requestNextRereadEnd (some 0#64)) s = .next t ∧ t.requests.state = .parked ∧
        t.requests.parkReason = some .endOfList ∧ t.requests.address = s.requests.address ∧
        t.registers = s.registers) ∧
    (s.requests.resumePending = true → s.resetting = false →
      ∃ t, exec (.requestNextRereadEnd (some 0#64)) s = .next t ∧ t.requests.resumePending = false ∧
        t.requests.address = s.requests.address ∧ t.out = s.out ++ [.hostRead s.requests.address 8] ∧
        (s.requests.state = .fetching →
          t.requests.state = .fetching ∧ t.requests.waiting = false ∧ t.requests.read = s.requests.read) ∧
        (s.requests.read = .none → t.requests.state = .parked ∧ t.requests.rereads = s.requests.rereads)) ∧
    (∃ t, exec (.requestNextRereadEnd none) s = .next t ∧ t.requests.state = .parked ∧
      t.requests.parkReason = some (if s.requests.read = .nextAtAdvance then .linkError else .endOfList) ∧
      (s.requests.read = .nextAtAdvance → t.requests.takenMark = true) ∧
      t.requests.address = s.requests.address ∧ t.latched .portError = true))

/-- REQUEST_FETCH_FAILED parks the processor with LINK_ERROR at the descriptor, untaken (R166). REQUEST_FETCH_HELD holds an
arrival untaken in WAITING during an engine reset (R166, R174). STATUS_WRITE_FAILED latches PORT_ERROR and changes nothing
else, but for the one message that a latch may send (R182): the tag and REQUEST_DONE moved when the write was made, and the
processor goes on (R171; the model's reading, log 28). -/
def Obligations.RequestReadsAndWritesEnd : Prop :=
  (∀ s : State, s.requests.state = .fetching → s.requests.read = .descriptor → s.requests.waiting = false →
    s.completions = [] →
    (∃ t, exec .requestFetchFailed s = .next t ∧ t.requests.state = .parked ∧
      t.requests.parkReason = some .linkError ∧ t.requests.takenMark = false ∧
      t.requests.address = s.requests.address ∧ t.requests.resumePending = false ∧
      t.requests.takenCount = s.requests.takenCount ∧ t.latched .portError = true) ∧
    (s.resetting = true → ∀ r : Request,
      exec (.requestFetchHeld r) s =
        .next { s with requests := { s.requests with waiting := true, read := .none, held := some r } })) ∧
  (∀ s : State, s.completions = [] → ∃ t, exec .statusWriteFailed s = .next t ∧ t.latched .portError = true ∧
    (∀ f : Flag, f ≠ .portError → t.latched f = s.latched f) ∧ oneMessage s t ∧
    t = { s with registers := { s.registers with status := t.registers.status }, out := t.out })

/-- The commands of the Request List that take no request leave the rest of the part as it is. The commands of the Buffer List
that make no delivery leave the rest of the part as it is. What an event of the dies or of the fill arbiter leaves alone, no
engine reset being in progress: the Pace Timer, the Delivery Engine, the partition, the tunables, the count of STARTs, the
Request Processor but for the last tag, the mask and the inspection port; of the DRAM, FETCH_ENQUEUE writes 0 in the silent places
it gives (R44, R106), and the polls, answers and phases that end no read write nothing; each latches no flag but those its rules
name. A failed status write leaves the last tag alone (the model's reading, log 28). What a delivery and the period expiry leave
alone: the tunables, the partition, the count of STARTs, the dies and the STOREs, the Request Processor but for the last tag, the
engine state, the mask and the inspection port; a delivery leaves the Pace Timer and the counters too; and which flags each may
latch. -/
def Obligations.EventFrames : Prop :=
  (∀ (c : Instr) (s t : State),
    (c = .requestFetchFailed ∨ (∃ r, c = .requestNextRereadEnd r) ∨ c = .statusWriteFailed ∨
      (∃ w, c = .requestListPointer w) ∨ c = .requestResume) →
    s.completions = [] → exec c s = .next t →
    SameStreams s t ∧ SameModel s t ∧ t.pace = s.pace ∧ t.delivery = s.delivery ∧ t.takes = s.takes ∧
      t.requests.takenCount = s.requests.takenCount ∧ t.requests.lastTag = s.requests.lastTag ∧
      (∀ f : Flag, f ≠ .portError → t.latched f = s.latched f) ∧
      t.registers.engine = s.registers.engine ∧ t.registers.mask = s.registers.mask ∧
      t.registers.counters = s.registers.counters ∧ t.registers.snapshot = s.registers.snapshot) ∧
  (∀ (c : Instr) (s t : State),
    ((∃ w, c = .bufferListPointer w) ∨ c = .bufferResume ∨ (∃ n b d, c = .bufferFetchArrival n b d) ∨
      c = .bufferFetchFailed ∨ (∃ r, c = .bufferNextRereadEnd r) ∨ c = .deliveryWriteFailed) →
    s.completions = [] → exec c s = .next t →
    SameStreams s t ∧ SameModel s t ∧ t.pace = s.pace ∧ t.requests = s.requests ∧ t.takes = s.takes ∧
      t.delivery.count = s.delivery.count ∧ t.delivery.noticeCount = s.delivery.noticeCount ∧
      t.delivery.noticeStamp = s.delivery.noticeStamp ∧
      (∀ f : Flag, f ≠ .portError → f ≠ .bufferParked → t.latched f = s.latched f) ∧
      t.registers.engine = s.registers.engine ∧ t.registers.mask = s.registers.mask ∧
      t.registers.counters = s.registers.counters ∧ t.registers.snapshot = s.registers.snapshot) ∧
  (∀ (c : Instr) (d : Fin 16) (s t : State), s.registers.engine = .ready →
    (c = .fetchEnqueue ∨ c = .diePollInterval d ∨ c = .dieAddressAck d ∨ c = .dieAddressRefused d ∨
      (∃ n, c = .dieReadyAnswer d n) ∨ (∃ n, c = .dieBusyAnswer d n) ∨ (∃ x y, c = .dieTransferEnd d x y) ∨
      c = .readTimeout d ∨ c = .pollTimeout d ∨ (∃ x, c = .programDataPhaseEnd d x) ∨ c = .programDmaFailed d ∨
      c = .programTimeout d) →
    exec c s = .next t →
    t.pace = s.pace ∧ t.delivery = s.delivery ∧ t.partition = s.partition ∧ t.tunables = s.tunables ∧
      t.startCount = s.startCount ∧ t.requests = { s.requests with lastTag := t.requests.lastTag } ∧
      t.registers = { s.registers with status := t.registers.status, counters := t.registers.counters } ∧
      (∀ f : Flag, s.latched f = true → t.latched f = true) ∧ t.takes = s.takes ∧ t.pending = s.pending ∧
      (∀ f : Flag, f ≠ .blockFault → f ≠ .dieFault → f ≠ .portError → f ≠ .requestDone → t.latched f = s.latched f) ∧
      (c ≠ .dieAddressRefused d → (∀ x y, c ≠ .dieTransferEnd d x y) → t.latched .blockFault = s.latched .blockFault) ∧
      (c ≠ .readTimeout d → c ≠ .programTimeout d → t.latched .dieFault = s.latched .dieFault) ∧
      (c ≠ .programDmaFailed d → t.latched .portError = s.latched .portError) ∧
      (c = .fetchEnqueue → s.Canonical → s.WindowsHeldOnce → SilenceWritten s t) ∧
      (c = .diePollInterval d ∨ c = .dieAddressAck d ∨ (∃ n, c = .dieReadyAnswer d n) ∨ (∃ n, c = .dieBusyAnswer d n) ∨
        c = .pollTimeout d ∨ (∃ x, c = .programDataPhaseEnd d x) ∨ c = .programDmaFailed d → SameDram s t)) ∧
  (∀ (c : Instr) (s t : State), c = .dataDelivery ∨ c = .endDelivery ∨ c = .periodExpiry → exec c s = .next t →
    t.tunables = s.tunables ∧ t.partition = s.partition ∧ t.startCount = s.startCount ∧ SameDies s t ∧
      t.enqueueCount = s.enqueueCount ∧ t.requests = { s.requests with lastTag := t.requests.lastTag } ∧
      t.registers = { s.registers with status := t.registers.status, counters := t.registers.counters } ∧
      (∀ f : Flag, s.latched f = true → t.latched f = true) ∧ t.takes = s.takes ∧ t.pending = s.pending ∧
      t.freeCount = s.freeCount ∧
      (c ≠ .periodExpiry → t.pace = s.pace ∧ t.registers.counters = s.registers.counters ∧
        ∀ f : Flag, f ≠ .delivery → f ≠ .priorityDelivery → f ≠ .bufferParked → f ≠ .portError → f ≠ .requestDone →
          t.latched f = s.latched f) ∧
      (c = .periodExpiry →
        (∀ n : CounterName, n ≠ .starve → n ≠ .underrun → t.registers.counters.value n = s.registers.counters.value n) ∧
        ∀ f : Flag, f ≠ .leadLow → f ≠ .underrun → f ≠ .delivery → f ≠ .requestDone → t.latched f = s.latched f))

/-! ### The takes: the catalog and the Head Store -/

/-- DEFINE accepted (R8 to R10): the VACANT record is filled and enters DEFINED with its next generation; the words are the
generation and the head frames. DEFINE refused, in the order of its checks (R9): BAD_PARAM, RECORD_BUSY, CLAIMED; no record
changes. -/
def Obligations.DefineTaken : Prop :=
  (∀ (h : Header) (p : DefineParams) (s : State) (l : Layout), s.Taking → layoutOf p s.partition.slotBlocks = some l →
    (s.record p.id.toNat).state = .vacant → s.storeClaims l.extents = false →
    ∃ t, exec (.define h p) s = .next t ∧
      TakenDone s t h .ok ((nextGeneration (s.record p.id.toNat).generation).setWidth 32) (BitVec.ofNat 32 l.headFrames) ∧
      t.record p.id.toNat =
        { state := .defined, generation := nextGeneration (s.record p.id.toNat).generation, layout := some l
          pin := pinOf p, refs := 0, headSlot := none, staleReason := .none, loadReads := 0, load := none
          retire := none } ∧
      ∀ id, id ≠ p.id.toNat → t.record id = s.record id) ∧
  (∀ (h : Header) (p : DefineParams) (s : State), s.Taking →
    (layoutOf p s.partition.slotBlocks = none →
      ∃ t, exec (.define h p) s = .next t ∧ TakenDone s t h .badParam 0#32 0#32 ∧ SameStreams s t) ∧
    (∀ l, layoutOf p s.partition.slotBlocks = some l → (s.record p.id.toNat).state ≠ .vacant →
      ∃ t, exec (.define h p) s = .next t ∧ TakenDone s t h .recordBusy 0#32 0#32 ∧ SameStreams s t) ∧
    (∀ l, layoutOf p s.partition.slotBlocks = some l → (s.record p.id.toNat).state = .vacant →
      s.storeClaims l.extents = true →
      ∃ t, exec (.define h p) s = .next t ∧ TakenDone s t h .claimed 0#32 0#32 ∧ SameStreams s t))

/-- SET_PIN (R11): the record named takes the pin and word 0 holds the pin before; a record not named gives NO_RECORD and
nothing changes. The other words are the model's free values (log 6). -/
def Obligations.SetPinTaken : Prop :=
  ∀ (h : Header) (n : RecordName) (pin : Byte) (s : State), s.Taking →
    (s.names n = true →
      ∃ t word1, exec (.setPin h n pin) s = .next t ∧
        TakenDone s t h .ok (if (s.record n.id.toNat).pin = true then 1#32 else 0#32) word1 ∧
        t.record n.id.toNat = { s.record n.id.toNat with pin := byteSet pin } ∧
        ∀ id, id ≠ n.id.toNat → t.record id = s.record id) ∧
    (s.names n = false →
      ∃ t, exec (.setPin h n pin) s = .next t ∧ TakenDoneAnyWords s t h .noRecord ∧ SameStreams s t)

/-- RETIRE (R14 to R18): refused NO_RECORD or BUSY; an idle record becomes VACANT, keeping its generation alone; a record with
voices that is not LOADING, without force, enters RETIRING as a long request. With force every voice that names the record
ends RETIRED (R16); of a LOADING record the waiting head-mode voices do, its load is abandoned, and its LOAD_HEAD is written
ABANDONED (R15); the record then becomes VACANT at once where no voice and no load read is left, and RETIRING otherwise
(R15, R17). -/
def Obligations.RetireTaken : Prop :=
  (∀ (h : Header) (n : RecordName) (force : Byte) (s : State), s.Taking →
    (s.names n = false →
      ∃ t, exec (.retire h n force) s = .next t ∧ TakenDoneAnyWords s t h .noRecord ∧ SameStreams s t) ∧
    (s.names n = true → (s.record n.id.toNat).state = .retiring →
      ∃ t, exec (.retire h n force) s = .next t ∧ TakenDoneAnyWords s t h .busy ∧ SameStreams s t) ∧
    (s.names n = true → (s.record n.id.toNat).state ≠ .retiring → (s.record n.id.toNat).state ≠ .loading →
      (s.record n.id.toNat).refs = 0 →
      ∃ t, exec (.retire h n force) s = .next t ∧ TakenDoneAnyWords s t h .ok ∧
        t.record n.id.toNat =
          { state := .vacant, generation := n.generation, layout := none, pin := false, refs := 0, headSlot := none
            staleReason := .none, loadReads := 0, load := none, retire := none } ∧
        (∀ id, id ≠ n.id.toNat → t.record id = s.record id) ∧ n.id.toNat ∉ t.recency) ∧
    (s.names n = true → (s.record n.id.toNat).state ≠ .retiring → (s.record n.id.toNat).state ≠ .loading →
      0 < (s.record n.id.toNat).refs → byteSet force = false →
      ∃ t, exec (.retire h n force) s = .next t ∧ TakenLong s t ∧ (t.record n.id.toNat).state = .retiring ∧
        (t.record n.id.toNat).refs = (s.record n.id.toNat).refs ∧
        (t.record n.id.toNat).headSlot = (s.record n.id.toNat).headSlot ∧
        (∀ id, id ≠ n.id.toNat → t.record id = s.record id) ∧ n.id.toNat ∉ t.recency)) ∧
  (∀ (h : Header) (n : RecordName) (force : Byte) (s : State), s.Taking → s.Canonical → s.names n = true →
    (s.record n.id.toNat).state ≠ .retiring →
    (s.record n.id.toNat).state = .loading ∨ 0 < (s.record n.id.toNat).refs →
    ((s.record n.id.toNat).state = .loading →
      ∃ l, (s.record n.id.toNat).load = some l ∧ l.token.order < s.takes) →
    let r := s.record n.id.toNat
    let ends (m : Nat) : Prop := (s.voice m).plays n.id.toNat n.generation = true ∧
      (byteSet force = true ∨ (r.state = .loading ∧ (s.voice m).headMode = true))
    let ended := if byteSet force = true then s.slotsPlaying n.id.toNat n.generation
      else if r.state = .loading then s.headSlotsPlaying n.id.toNat n.generation else []
    let left := r.refs - ended.length
    ∃ t, exec (.retire h n force) s = .next t ∧
      (∀ m, ends m → t.voice m = (s.voice m).endedWith .retired) ∧ (∀ m, ¬ ends m → t.voice m = s.voice m) ∧
      (left = 0 ∧ r.loadReads = 0 →
        t.record n.id.toNat =
          { state := .vacant, generation := n.generation, layout := none, pin := false, refs := 0, headSlot := none
            staleReason := .none, loadReads := 0, load := none, retire := none } ∧
        ∃ word0 word1, wroteStatus s t (doneBytes .ok word0 word1)) ∧
      (¬ (left = 0 ∧ r.loadReads = 0) →
        (t.record n.id.toNat).state = .retiring ∧ (t.record n.id.toNat).refs = left ∧
        (t.record n.id.toNat).loadReads = r.loadReads ∧
        (t.record n.id.toNat).headSlot = (if r.state = .loading then none else r.headSlot) ∧
        wroteStatus s t takenBytes) ∧
      (∀ id, id ≠ n.id.toNat → t.record id = s.record id) ∧ n.id.toNat ∉ t.recency ∧
      ∀ l, r.state = .loading → r.load = some l →
        wroteAt s t l.token.address (doneBytes .abandoned (BitVec.ofNat 32 l.arrived.length) 0#32) ∧
        (∀ e ∈ t.queue, e.owner ≠ .load n.id.toNat n.generation) ∧
        t.reclaiming = s.reclaiming ++
          (if 0 < r.loadReads then
            [{ slot := l.slot, outstanding := r.loadReads, id := n.id.toNat, generation := n.generation }]
          else []))

/-- LOAD_HEAD refused, in the order of its checks (R34): NO_RECORD, SAMPLE_RETIRING, BUSY while LOADING, BUSY while reads of an
earlier load run, CLAIMED, NO_HEAD_SLOT; a RESIDENT record answers OK with its slot and moves to the front (R33). LOAD_HEAD
accepted (R19, R34 to R36): the record enters LOADING in the lowest FREE slot, or in the slot of the eviction victim, which
returns to DEFINED and leaves the recency list (R22). There the first head block's die is in service; where it is OFFLINE the
load fails within the take (R34, R39, R106): the record is STALE with reason DIE_OFFLINE and no slot, its voices end STALE, and
the LOAD_HEAD is written once, DONE with DIE_OFFLINE. The eviction victim is the first record from the back of the recency
list that is unpinned and without voices (R35); the lowest FREE slot is one that no record holds and that is not RECLAIMING, every
lower slot being HELD or RECLAIMING (R31, R34). -/
def Obligations.LoadHeadTaken : Prop :=
  (∀ (h : Header) (n : RecordName) (s : State), s.Taking →
    (s.names n = false →
      ∃ t, exec (.loadHead h n) s = .next t ∧ TakenDone s t h .noRecord 0#32 0#32 ∧ SameStreams s t) ∧
    (s.names n = true → (s.record n.id.toNat).state = .retiring →
      ∃ t, exec (.loadHead h n) s = .next t ∧ TakenDone s t h .sampleRetiring 0#32 0#32 ∧ SameStreams s t) ∧
    (s.names n = true → (s.record n.id.toNat).state = .loading →
      ∃ t, exec (.loadHead h n) s = .next t ∧ TakenDone s t h .busy 0#32 0#32 ∧ SameStreams s t) ∧
    (∀ slot, s.names n = true → (s.record n.id.toNat).state = .resident → (s.record n.id.toNat).headSlot = some slot →
      ∃ t, exec (.loadHead h n) s = .next t ∧ TakenDone s t h .ok (BitVec.ofNat 32 slot) 0#32 ∧
        (∀ id, t.record id = s.record id) ∧ t.recency = n.id.toNat :: s.recency.filter (· != n.id.toNat)) ∧
    (s.names n = true → (s.record n.id.toNat).state = .defined ∨ (s.record n.id.toNat).state = .stale →
      (0 < (s.record n.id.toNat).loadReads →
        ∃ t, exec (.loadHead h n) s = .next t ∧ TakenDone s t h .busy 0#32 0#32 ∧ SameStreams s t) ∧
      ((s.record n.id.toNat).loadReads = 0 → s.recordClaimed (s.record n.id.toNat) = true →
        ∃ t, exec (.loadHead h n) s = .next t ∧ TakenDone s t h .claimed 0#32 0#32 ∧ SameStreams s t) ∧
      ((s.record n.id.toNat).loadReads = 0 → s.recordClaimed (s.record n.id.toNat) = false →
        s.lowestFreeHeadSlot = none → s.evictionVictim = none →
        ∃ t, exec (.loadHead h n) s = .next t ∧ TakenDone s t h .noHeadSlot 0#32 0#32 ∧ SameStreams s t))) ∧
  (∀ (h : Header) (n : RecordName) (s : State) (l : Layout) (a : Nat), s.Taking → s.names n = true →
    (s.record n.id.toNat).state = .defined ∨ (s.record n.id.toNat).state = .stale →
    (s.record n.id.toNat).loadReads = 0 → s.recordClaimed (s.record n.id.toNat) = false →
    (s.record n.id.toNat).layout = some l → blockAddress l.extents 0 = some a → s.dieOffline (dieOf a) = false →
    (∀ slot, s.lowestFreeHeadSlot = some slot →
      ∃ t, exec (.loadHead h n) s = .next t ∧ TakenLong s t ∧ (t.record n.id.toNat).state = .loading ∧
        (t.record n.id.toNat).headSlot = some slot ∧ (t.record n.id.toNat).staleReason = .none ∧
        (t.record n.id.toNat).loadReads = 0 ∧ (t.record n.id.toNat).pin = (s.record n.id.toNat).pin ∧
        (t.record n.id.toNat).refs = (s.record n.id.toNat).refs ∧
        (t.record n.id.toNat).load.map Load.nextBlock = some 0 ∧ (t.record n.id.toNat).load.map Load.arrived = some [] ∧
        ∀ id, id ≠ n.id.toNat → t.record id = s.record id) ∧
    (∀ victim slot, s.lowestFreeHeadSlot = none → s.evictionVictim = some victim → victim ≠ n.id.toNat →
      (s.record victim).headSlot = some slot →
      ∃ t, exec (.loadHead h n) s = .next t ∧ TakenLong s t ∧ (t.record n.id.toNat).state = .loading ∧
        (t.record n.id.toNat).headSlot = some slot ∧ (t.record victim).state = .defined ∧
        (t.record victim).headSlot = none ∧ t.recency = s.recency.filter (· != victim) ∧
        ∀ id, id ≠ n.id.toNat → id ≠ victim → t.record id = s.record id)) ∧
  (∀ (h : Header) (n : RecordName) (s : State) (l : Layout) (a slot : Nat), s.Taking → s.Canonical → s.names n = true →
    (s.record n.id.toNat).state = .defined ∨ (s.record n.id.toNat).state = .stale →
    (s.record n.id.toNat).loadReads = 0 → s.recordClaimed (s.record n.id.toNat) = false →
    (s.record n.id.toNat).layout = some l → 0 < l.headBlocks → blockAddress l.extents 0 = some a →
    s.dieOffline (dieOf a) = true → s.lowestFreeHeadSlot = some slot →
    ∃ t, exec (.loadHead h n) s = .next t ∧ TakenDone s t h .dieOffline 0#32 0#32 ∧
      (t.record n.id.toNat).state = .stale ∧ (t.record n.id.toNat).staleReason = .dieOffline ∧
      (t.record n.id.toNat).headSlot = none ∧ (t.record n.id.toNat).load = none ∧ t.reclaiming = s.reclaiming ∧
      (∀ m, (s.voice m).plays n.id.toNat n.generation = true → t.voice m = (s.voice m).endedWith .stale) ∧
      (∀ m, (s.voice m).plays n.id.toNat n.generation = false → t.voice m = s.voice m) ∧
      ∀ id, id ≠ n.id.toNat → t.record id = s.record id) ∧
  (∀ (s : State) (id : Nat), s.evictionVictim = some id →
    ∃ front back, s.recency = front ++ id :: back ∧ (s.record id).pin = false ∧ (s.record id).refs = 0 ∧
      ∀ x ∈ back, (s.record x).pin = true ∨ 0 < (s.record x).refs) ∧
  (∀ s : State, s.evictionVictim = none → ∀ x ∈ s.recency, (s.record x).pin = true ∨ 0 < (s.record x).refs) ∧
  ∀ s : State, s.Canonical →
    let slots := min 65536 (s.partition.headBands * 65536 / s.partition.slotBlocks)
    let taken (n : Nat) : Prop := (∃ id, (s.record id).headSlot = some n) ∨ ∃ r ∈ s.reclaiming, r.slot = n
    (∀ n, s.lowestFreeHeadSlot = some n → n < slots ∧ ¬ taken n ∧ ∀ m, m < n → taken m) ∧
      (s.lowestFreeHeadSlot = none → ∀ m, m < slots → taken m)

/-- UNLOAD_HEAD (R41, R22): refused NO_RECORD, SAMPLE_RETIRING, or BUSY while voices play the RESIDENT record; a RESIDENT record
without voices returns to DEFINED and gives its slot's number; a record with no head is left as it is. A load abandoned by
UNLOAD_HEAD (R21, R41): no queued entry of the load is left, the waiting head-mode voices end STALE and no other voice changes,
the LOAD_HEAD is written ABANDONED with the blocks arrived ahead of the request's own status (R38, R170), the slot is RECLAIMING
while reads of the load run, and the record returns to DEFINED without its slot. -/
def Obligations.UnloadHeadTaken : Prop :=
  (∀ (h : Header) (n : RecordName) (s : State), s.Taking →
    (s.names n = false →
      ∃ t, exec (.unloadHead h n) s = .next t ∧ TakenDone s t h .noRecord 0#32 0#32 ∧ SameStreams s t) ∧
    (s.names n = true → (s.record n.id.toNat).state = .retiring →
      ∃ t, exec (.unloadHead h n) s = .next t ∧ TakenDone s t h .sampleRetiring 0#32 0#32 ∧ SameStreams s t) ∧
    (s.names n = true → (s.record n.id.toNat).state = .resident → 0 < (s.record n.id.toNat).refs →
      ∃ t, exec (.unloadHead h n) s = .next t ∧ TakenDone s t h .busy 0#32 0#32 ∧ SameStreams s t) ∧
    (s.names n = true → (s.record n.id.toNat).state = .defined ∨ (s.record n.id.toNat).state = .stale →
      ∃ t, exec (.unloadHead h n) s = .next t ∧ TakenDone s t h .ok 0#32 0#32 ∧ SameStreams s t) ∧
    (∀ slot, s.names n = true → (s.record n.id.toNat).state = .resident → (s.record n.id.toNat).refs = 0 →
      (s.record n.id.toNat).headSlot = some slot →
      ∃ t, exec (.unloadHead h n) s = .next t ∧ TakenDone s t h .ok (BitVec.ofNat 32 slot) 1#32 ∧
        t.record n.id.toNat = { s.record n.id.toNat with state := .defined, headSlot := none } ∧
        (∀ id, id ≠ n.id.toNat → t.record id = s.record id) ∧ t.recency = s.recency.filter (· != n.id.toNat))) ∧
  (∀ (h : Header) (n : RecordName) (s : State) (l : Load), s.Taking → s.Canonical → s.names n = true →
    (s.record n.id.toNat).state = .loading → (s.record n.id.toNat).load = some l →
    (s.record n.id.toNat).headSlot = some l.slot →
    ∃ t, exec (.unloadHead h n) s = .next t ∧ wroteStatus s t (doneBytes .ok (BitVec.ofNat 32 l.slot) 1#32) ∧
      (t.record n.id.toNat).state = .defined ∧ (t.record n.id.toNat).headSlot = none ∧
      (t.record n.id.toNat).load = none ∧
      (t.record n.id.toNat).loadReads = (s.record n.id.toNat).loadReads ∧
      (∀ e ∈ t.queue, e.owner ≠ .load n.id.toNat n.generation) ∧
      t.reclaiming = s.reclaiming ++
        (if 0 < (s.record n.id.toNat).loadReads then
          [{ slot := l.slot, outstanding := (s.record n.id.toNat).loadReads, id := n.id.toNat, generation := n.generation }]
        else []) ∧
      (∀ m, (s.voice m).plays n.id.toNat n.generation = true → (s.voice m).headMode = true →
        t.voice m = (s.voice m).endedWith .stale) ∧
      (∀ m, (s.voice m).plays n.id.toNat n.generation = false ∨ (s.voice m).headMode = false → t.voice m = s.voice m) ∧
      (t.record n.id.toNat).refs = (s.record n.id.toNat).refs - (s.headSlotsPlaying n.id.toNat n.generation).length ∧
      (∀ id, id ≠ n.id.toNat → t.record id = s.record id) ∧
      (l.token.order < s.takes → ∃ after, t.out = s.out ++
        [.hostWrite (requestStatusAddress l.token.address) (doneBytes .abandoned (BitVec.ofNat 32 l.arrived.length) 0#32),
          .hostWrite (requestStatusAddress s.requests.address) (doneBytes .ok (BitVec.ofNat 32 l.slot) 1#32)] ++ after))

/-- CONFIGURE_MEMORY (R30): BAD_PARAM, NOT_EMPTY and BUSY in this order, changing nothing; otherwise the partition is set, every
window is free with its places EMPTY, no slot is RECLAIMING, the recency list is empty, every head slot is FREE (R31: VACANT
records hold none), no record, voice, queue entry, die or byte of the DRAM changes, and the words are the head slot count and
the window count. -/
def Obligations.ConfigureMemoryTaken : Prop :=
  ∀ (h : Header) (p : ConfigureParams) (s : State), s.Taking →
    (partitionOf p = none →
      ∃ t, exec (.configureMemory h p) s = .next t ∧ TakenDoneAnyWords s t h .badParam ∧ SameStreams s t) ∧
    (∀ x, partitionOf p = some x → s.isEmpty = false →
      ∃ t, exec (.configureMemory h p) s = .next t ∧ TakenDoneAnyWords s t h .notEmpty ∧ SameStreams s t) ∧
    (∀ x, partitionOf p = some x → s.isEmpty = true → s.reclaiming ≠ [] →
      ∃ t, exec (.configureMemory h p) s = .next t ∧ TakenDoneAnyWords s t h .busy ∧ SameStreams s t) ∧
    (∀ x, partitionOf p = some x → s.isEmpty = true → s.reclaiming = [] →
      ∃ t, exec (.configureMemory h p) s = .next t ∧
        TakenDone s t h .ok (BitVec.ofNat 32 (min 65536 (p.headBands.toNat * 65536 / p.slotBlocks.toNat)))
          (BitVec.ofNat 32 (min 1024 ((64 - p.headBands.toNat) * 65536 / p.windowBlocks.toNat))) ∧
        t.partition = { headBands := p.headBands.toNat, slotBlocks := p.slotBlocks.toNat
                        windowBlocks := p.windowBlocks.toNat } ∧
        (∀ id, t.record id = s.record id) ∧ (∀ w i, (t.window w).place i = .empty) ∧ (∀ w, t.windowFree w = true) ∧
        t.recency = [] ∧ t.reclaiming = [] ∧ (∀ n, t.voice n = s.voice n) ∧ t.startCount = s.startCount ∧ SameQueue s t ∧
        SameDies s t ∧ SameDram s t ∧ t.tunables = s.tunables ∧
        (s.Canonical → s.VacantHoldsNoSlot → ∀ n, t.slotFree n = true))

/-! ### The takes: voices -/

/-- START refused, in the order of its checks (R49 to R53): BAD_PARAM, NO_RECORD, SAMPLE_STALE, SAMPLE_RETIRING, BAD_PARAM of
the offset, NO_VOICE, NO_WINDOW, OUTRANKED; nothing changes. -/
def Obligations.StartRefused : Prop :=
  ∀ (h : Header) (p : StartParams) (s : State), s.Taking →
    let refused (r : Result) : Prop := ∃ t, exec (.start h p) s = .next t ∧ TakenDone s t h r 0#32 0#32 ∧ SameStreams s t
    let r := s.record p.sample.id.toNat
    (startValid p = false → refused .badParam) ∧
    (startValid p = true → s.names p.sample = false → refused .noRecord) ∧
    (startValid p = true → s.names p.sample = true → r.state = .stale → refused .sampleStale) ∧
    (startValid p = true → s.names p.sample = true → r.state = .retiring → refused .sampleRetiring) ∧
    (∀ l, startValid p = true → s.names p.sample = true → r.state ≠ .stale → r.state ≠ .retiring → r.layout = some l →
      (l.length ≤ p.offset.toNat → refused .badParam) ∧
      (p.offset.toNat < l.length → s.lowestFreeSlot = none → refused .noVoice) ∧
      (∀ slot, p.offset.toNat < l.length → s.lowestFreeSlot = some slot → s.lowestFreeWindow = none → refused .noWindow) ∧
      (∀ slot w, p.offset.toNat < l.length → s.lowestFreeSlot = some slot → s.lowestFreeWindow = some w →
        s.tunables.voiceLimit ≤ s.soundingCount →
        (∀ n, s.victim = some n → p.priority.toNat < (s.voice n).priority) → refused .outranked))

/-- START accepted below the voice limit (R54 to R56): the voice stands in PRIMING in the lowest FREE slot with the lowest free
window and the slot's next generation; `at` below the position of a RUNNING transport is replaced by it, with OK_LATE; the
record's count rises; no other voice or record changes. The voice stands as set up, the cursor at the start offset and the total
known where it can never wrap (R61), its window empty with the fill and delivery points at 0, but for the runs due at once: the
head-sourced ones (R100, R102), and those whose blocks lie on OFFLINE dies, each of which takes a FILLED damaged place (R106). A
RESIDENT record moves to the front of the recency list (R33, R54). What the lowest FREE slot and the lowest free window are
(R42, R51). -/
def Obligations.StartAccepted : Prop :=
  (∀ (h : Header) (p : StartParams) (s : State) (l : Layout) (slot w : Nat), s.Taking → startValid p = true →
    s.names p.sample = true → (s.record p.sample.id.toNat).state ≠ .stale →
    (s.record p.sample.id.toNat).state ≠ .retiring → (s.record p.sample.id.toNat).layout = some l →
    p.offset.toNat < l.length → s.lowestFreeSlot = some slot → s.lowestFreeWindow = some w →
    s.soundingCount < s.tunables.voiceLimit →
    ∃ t, exec (.start h p) s = .next t ∧
      TakenDone s t h (if s.pace.running = true ∧ p.position.toNat % 2 ^ 48 < s.pace.position then .okLate else .ok)
        (BitVec.ofNat 32 slot) ((nextGeneration (s.voice slot).generation).setWidth 32) ∧
      (t.voice slot).state = .priming ∧ (t.voice slot).generation = nextGeneration (s.voice slot).generation ∧
      (t.voice slot).sampleId = p.sample.id.toNat ∧ (t.voice slot).sampleGeneration = p.sample.generation ∧
      (t.voice slot).window = w ∧ (t.voice slot).startOffset = p.offset.toNat ∧
      (t.voice slot).position = (if s.pace.running = true ∧ p.position.toNat % 2 ^ 48 < s.pace.position then
        s.pace.position else p.position.toNat % 2 ^ 48) ∧
      (t.voice slot).rate = p.rate.toNat ∧ (t.voice slot).priority = p.priority.toNat ∧
      (t.voice slot).leadClass = p.leadClass.toNat ∧ (t.voice slot).loopFollow = byteSet p.loopFollow ∧
      (t.voice slot).cookie = p.cookie ∧ (t.voice slot).startSequence = s.startCount ∧
      (t.voice slot).headMode = ((s.record p.sample.id.toNat).state == .resident ||
        ((s.record p.sample.id.toNat).state == .loading && p.offset.toNat < l.headFrames)) ∧
      (t.voice slot).delivered = 0 ∧ (t.voice slot).consumed = 0 ∧ (t.voice slot).released = false ∧
      (t.voice slot).endPosted = false ∧ (t.voice slot).reads = 0 ∧ (t.voice slot).delivery.source = p.offset.toNat ∧
      t.startCount = s.startCount + 1 ∧
      t.recency = (if (s.record p.sample.id.toNat).state = .resident then
        p.sample.id.toNat :: s.recency.filter (· != p.sample.id.toNat) else s.recency) ∧
      t.record p.sample.id.toNat =
        { s.record p.sample.id.toNat with refs := (s.record p.sample.id.toNat).refs + 1 } ∧
      (∀ n, n ≠ slot → t.voice n = s.voice n) ∧ (∀ id, id ≠ p.sample.id.toNat → t.record id = s.record id) ∧
      (∀ x, x ≠ w → t.window x = s.window x) ∧ SameQueue s t ∧
      s.GivenRuns t slot
        { state := .priming, generation := nextGeneration (s.voice slot).generation, sampleId := p.sample.id.toNat
          sampleGeneration := p.sample.generation, window := w, startOffset := p.offset.toNat
          headMode := (s.record p.sample.id.toNat).state == .resident ||
            ((s.record p.sample.id.toNat).state == .loading && p.offset.toNat < l.headFrames)
          position := if s.pace.running = true ∧ p.position.toNat % 2 ^ 48 < s.pace.position then s.pace.position
            else p.position.toNat % 2 ^ 48
          rate := p.rate.toNat, pendingRate := none, priority := p.priority.toNat, leadClass := p.leadClass.toNat
          loopFollow := byteSet p.loopFollow, released := false, cookie := p.cookie, startSequence := s.startCount
          cursor := { source := p.offset.toNat, stream := 0, atEnd := false }, scheduled := 0, delivered := 0, consumed := 0
          total := match l.loop with
            | some lp => if byteSet p.loopFollow = true ∧ p.offset.toNat < lp.stop then none
              else some (l.length - p.offset.toNat)
            | none => some (l.length - p.offset.toNat)
          starved := false, underruns := 0, reads := 0, endReason := none, endPosted := false, firstDelivery := false
          delivery := { source := p.offset.toNat, latestWrap := none, loopedPending := false } }
        { places := [], fill := 0, delivery := 0 }) ∧
  (∀ (s : State) (n : Nat), s.lowestFreeSlot = some n →
    n < 1024 ∧ (s.voice n).state = .free ∧ ∀ m, m < n → (s.voice m).state ≠ .free) ∧
  ∀ (s : State) (w : Nat), s.Canonical → s.lowestFreeWindow = some w →
    w < min 1024 ((64 - s.partition.headBands) * 65536 / s.partition.windowBlocks) ∧
      (∀ n, (s.voice n).state ≠ .free → (s.voice n).window ≠ w) ∧
      ∀ x, x < w → ∃ n, (s.voice n).state ≠ .free ∧ (s.voice n).window = x

/-- START at the voice limit steals (R53): the victim enters ENDING with reason STOLEN, the steal counter rises, and the new
voice stands in PRIMING. The victim's queued entries leave the Fetch Queue (R110), its window is emptied but for the places whose
reads are in flight (R45), its record's reference count falls and the new voice's record's rises; where both name one record the
count is unchanged (R12). The victim is a sounding voice that no other sounding voice comes before: lowest priority, then
RELEASING or DRAINING, then smallest start sequence; with no sounding voice there is none. -/
def Obligations.StartSteals : Prop :=
  (∀ (h : Header) (p : StartParams) (s : State) (l : Layout) (slot w victim : Nat), s.Taking → s.Canonical →
    startValid p = true → s.names p.sample = true → (s.record p.sample.id.toNat).state ≠ .stale →
    (s.record p.sample.id.toNat).state ≠ .retiring → (s.record p.sample.id.toNat).layout = some l →
    p.offset.toNat < l.length → s.lowestFreeSlot = some slot → s.lowestFreeWindow = some w →
    s.tunables.voiceLimit ≤ s.soundingCount → s.victim = some victim → (s.voice victim).priority ≤ p.priority.toNat →
    ∃ t, exec (.start h p) s = .next t ∧
      wroteStatus s t (doneBytes
        (if s.pace.running = true ∧ p.position.toNat % 2 ^ 48 < s.pace.position then .okLate else .ok)
        (BitVec.ofNat 32 slot) ((nextGeneration (s.voice slot).generation).setWidth 32)) ∧
      (s.voice victim).sounding = true ∧
      t.voice victim = { s.voice victim with state := .ending, endReason := some .stolen, pendingRate := none } ∧
      t.registers.counters.value .steal = min (s.registers.counters.value .steal + 1) 65535 ∧
      (t.voice slot).state = .priming ∧ (t.voice slot).generation = nextGeneration (s.voice slot).generation ∧
      (t.voice slot).window = w ∧ (∀ n, n ≠ slot → n ≠ victim → t.voice n = s.voice n) ∧
      t.queue = s.queueWithout (· == victim) ∧ s.WindowEnded victim (t.window (s.voice victim).window) ∧
      (∀ x, x ≠ w → x ≠ (s.voice victim).window → t.window x = s.window x) ∧ SameDies s t ∧
      let named (id : Nat) : Nat := if (s.voice victim).plays id (s.record id).generation then 1 else 0
      (∀ id, id ≠ p.sample.id.toNat → s.RecordLeft t id (named id)) ∧
        t.record p.sample.id.toNat = { s.record p.sample.id.toNat with
          refs := (s.record p.sample.id.toNat).refs - named p.sample.id.toNat + 1 }) ∧
  ∀ s : State, s.Canonical →
    (∀ n, s.victim = some n → (s.voice n).sounding = true ∧
      ∀ m, (s.voice m).sounding = true → (s.voice n).stolenBefore (s.voice m)) ∧
    (s.victim = none → ∀ m, (s.voice m).sounding = false)

/-- RELEASE (R47, R61 to R63): BAD_PARAM for a slot out of range, STALE_VOICE for a voice not named; a PLAYING voice moves to
RELEASING and a PRIMING one takes the flag alone, its total becoming known; a voice released, draining or ended is left as
it is, whether or not its record still stands. Return word 0 shows the low 32 bits of a total beyond 2^32 − 1, which the voice
keeps whole (the model's reading of R61 and R62, log 22). -/
def Obligations.ReleaseTaken : Prop :=
  ∀ (h : Header) (n : VoiceName) (s : State), s.Taking →
    (1024 ≤ n.slot.toNat →
      ∃ t, exec (.release h n) s = .next t ∧ TakenDoneAnyWords s t h .badParam ∧ SameStreams s t) ∧
    (n.slot.toNat < 1024 → s.namesVoice n = false →
      ∃ t, exec (.release h n) s = .next t ∧ TakenDoneAnyWords s t h .staleVoice ∧ SameStreams s t) ∧
    (s.namesVoice n = true →
      let v := s.voice n.slot.toNat
      (∀ l, s.layoutOf v = some l → v.state = .playing ∨ v.state = .priming → v.released = false →
        let total := v.total.getD (v.cursor.stream + (l.length - v.cursor.source))
        ∃ t, exec (.release h n) s = .next t ∧
          TakenDone s t h .ok (BitVec.ofNat 32 total) (BitVec.ofNat 32 (if v.state = .playing then 3 else 1)) ∧
          t.voice n.slot.toNat = { v with
            released := true, total := some total, state := if v.state = .playing then .releasing else .priming } ∧
          ∀ m, m ≠ n.slot.toNat → t.voice m = s.voice m) ∧
      (v.state = .draining ∨ v.state = .ending ∨ v.released = true →
        ∃ t, exec (.release h n) s = .next t ∧
          TakenDone s t h .ok (BitVec.ofNat 32 (v.total.getD 0)) (BitVec.ofNat 32 v.state.code) ∧ SameStreams s t))

/-- STOP (R45, R47, R62, R64, R71): BAD_PARAM and STALE_VOICE as for RELEASE; a voice in ENDING is left as it is; a sounding
voice enters ENDING with reason STOPPED, its queued entries leave, its window is emptied but for the places whose reads
are in flight, its record's count falls. Here the record is not RETIRING. A voice's last end lets a RETIRING record go (R17,
R170): the STOP of its one voice, with no load read in flight, makes the record VACANT and writes the RETIRE's DONE status to its
own descriptor. -/
def Obligations.StopTaken : Prop :=
  (∀ (h : Header) (n : VoiceName) (s : State), s.Taking → s.Canonical →
    (1024 ≤ n.slot.toNat →
      ∃ t, exec (.stop h n) s = .next t ∧ TakenDoneAnyWords s t h .badParam ∧ SameStreams s t) ∧
    (n.slot.toNat < 1024 → s.namesVoice n = false →
      ∃ t, exec (.stop h n) s = .next t ∧ TakenDoneAnyWords s t h .staleVoice ∧ SameStreams s t) ∧
    (s.namesVoice n = true →
      let v := s.voice n.slot.toNat
      (v.state = .ending →
        ∃ t, exec (.stop h n) s = .next t ∧ TakenDone s t h .ok (BitVec.ofNat 32 v.delivered) 5#32 ∧ SameStreams s t) ∧
      (v.sounding = true → (s.record v.sampleId).state ≠ .retiring → (s.record v.sampleId).state ≠ .vacant →
        (s.record v.sampleId).generation = v.sampleGeneration →
        ∃ t, exec (.stop h n) s = .next t ∧ TakenDone s t h .ok (BitVec.ofNat 32 v.delivered) 5#32 ∧
          t.voice n.slot.toNat = { v with state := .ending, endReason := some .stopped, pendingRate := none } ∧
          (∀ m, m ≠ n.slot.toNat → t.voice m = s.voice m) ∧
          t.record v.sampleId = { s.record v.sampleId with refs := (s.record v.sampleId).refs - 1 } ∧
          (∀ id, id ≠ v.sampleId → t.record id = s.record id) ∧
          t.queue = s.queue.filter (fun e => e.owner != .voice n.slot.toNat v.generation) ∧
          (∀ i r, (t.window v.window).place i ≠ .filled r) ∧ s.WindowEnded n.slot.toNat (t.window v.window) ∧
          SameDram s t))) ∧
  (∀ (h : Header) (n : VoiceName) (s : State) (k : Token), s.Taking → s.Canonical → s.namesVoice n = true →
    (s.voice n.slot.toNat).sounding = true →
    (s.record (s.voice n.slot.toNat).sampleId).state = .retiring →
    (s.record (s.voice n.slot.toNat).sampleId).generation = (s.voice n.slot.toNat).sampleGeneration →
    (s.record (s.voice n.slot.toNat).sampleId).refs = 1 → (s.record (s.voice n.slot.toNat).sampleId).loadReads = 0 →
    (s.record (s.voice n.slot.toNat).sampleId).retire = some k → k.order < s.takes →
    ∃ t before after word0 word1, exec (.stop h n) s = .next t ∧
      t.out = s.out ++ before ++ [.hostWrite (requestStatusAddress k.address) (doneBytes .ok word0 word1),
        .hostWrite (requestStatusAddress s.requests.address)
          (doneBytes .ok (BitVec.ofNat 32 (s.voice n.slot.toNat).delivered) 5#32)] ++ after ∧
      (t.record (s.voice n.slot.toNat).sampleId).state = .vacant ∧
      (t.record (s.voice n.slot.toNat).sampleId).generation = (s.voice n.slot.toNat).sampleGeneration)

/-- RETUNE (R47, R62, R65, R66): BAD_PARAM and STALE_VOICE; a sounding voice takes a present priority and lead class at once, a
present rate at once while STOPPED and as its pending rate while RUNNING, and is given at once the runs that its moved horizon
allows (R98, R100, R102, R106); a voice in ENDING is left as it is. -/
def Obligations.RetuneTaken : Prop :=
  ∀ (h : Header) (p : RetuneParams) (s : State), s.Taking →
    (retuneValid p = false →
      ∃ t, exec (.retune h p) s = .next t ∧ TakenDoneAnyWords s t h .badParam ∧ SameStreams s t) ∧
    (retuneValid p = true → s.namesVoice p.voice = false →
      ∃ t, exec (.retune h p) s = .next t ∧ TakenDoneAnyWords s t h .staleVoice ∧ SameStreams s t) ∧
    (retuneValid p = true → s.namesVoice p.voice = true →
      let v := s.voice p.voice.slot.toNat
      (v.state = .ending →
        ∃ t, exec (.retune h p) s = .next t ∧ TakenDone s t h .ok (BitVec.ofNat 32 v.rate) 5#32 ∧ SameStreams s t) ∧
      (v.sounding = true →
        ∃ t, exec (.retune h p) s = .next t ∧
          TakenDone s t h .ok (BitVec.ofNat 32 (t.voice p.voice.slot.toNat).rate)
            (BitVec.ofNat 32 (t.voice p.voice.slot.toNat).state.code) ∧
          (t.voice p.voice.slot.toNat).priority = (if p.presence.getLsbD 1 then p.priority.toNat else v.priority) ∧
          (t.voice p.voice.slot.toNat).leadClass = (if p.presence.getLsbD 2 then p.leadClass.toNat else v.leadClass) ∧
          (t.voice p.voice.slot.toNat).rate =
            (if p.presence.getLsbD 0 && !s.pace.running then p.rate.toNat else v.rate) ∧
          (t.voice p.voice.slot.toNat).pendingRate =
            (if p.presence.getLsbD 0 then (if s.pace.running then some p.rate.toNat else none) else v.pendingRate) ∧
          (t.voice p.voice.slot.toNat).generation = v.generation ∧
          (∀ m, m ≠ p.voice.slot.toNat → t.voice m = s.voice m) ∧ SameQueue s t ∧ SameCatalog s t ∧ SameDies s t ∧
          (∀ x, x ≠ v.window → t.window x = s.window x) ∧
          s.GivenRuns t p.voice.slot.toNat
            { v with
              priority := if p.presence.getLsbD 1 then p.priority.toNat else v.priority
              leadClass := if p.presence.getLsbD 2 then p.leadClass.toNat else v.leadClass
              rate := if p.presence.getLsbD 0 && !s.pace.running then p.rate.toNat else v.rate
              pendingRate := if p.presence.getLsbD 0 then (if s.pace.running then some p.rate.toNat else none)
                else v.pendingRate }
            (s.window v.window)))

/-! ### The takes: pace and transport -/

/-- RUN (R89): a STOPPED transport becomes RUNNING with the frame counter at 0; a RUNNING one, a pending HALT included, is left
as it is; the words are the position. HALT (R90): OK at once while STOPPED; BUSY with a HALT pending; otherwise TAKEN and
pending, the transport still RUNNING. -/
def Obligations.RunAndHaltTaken : Prop :=
  (∀ (h : Header) (s : State), s.Taking →
    ∃ t, exec (.run h) s = .next t ∧
      TakenDone s t h .ok (BitVec.ofNat 32 s.pace.position) (BitVec.ofNat 32 (s.pace.position / 2 ^ 32 % 2 ^ 16)) ∧
      t.pace = (if s.pace.running then s.pace else { s.pace with running := true, frame := 0 }) ∧ SameStreams s t) ∧
  (∀ (h : Header) (s : State), s.Taking →
    (s.pace.running = false →
      ∃ t, exec (.halt h) s = .next t ∧
        TakenDone s t h .ok (BitVec.ofNat 32 s.pace.position) (BitVec.ofNat 32 (s.pace.position / 2 ^ 32 % 2 ^ 16)) ∧
        t.pace = s.pace ∧ SameStreams s t) ∧
    (s.pace.running = true → s.pace.haltPending.isSome = true →
      ∃ t, exec (.halt h) s = .next t ∧ TakenDone s t h .busy 0#32 0#32 ∧ t.pace = s.pace ∧ SameStreams s t) ∧
    (s.pace.running = true → s.pace.haltPending = none →
      ∃ t order, exec (.halt h) s = .next t ∧ TakenLong s t ∧ SameStreams s t ∧
        t.pace = { s.pace with haltPending := some ⟨s.requests.address, h.tag, notifyOf h, order⟩ }))

/-- LOCATE (R92): BAD_PARAM above 2^47 − 1, BUSY while RUNNING; otherwise the position is set and every sounding voice enters
ENDING with reason LOCATED, word 0 counting them; their queued entries leave the Fetch Queue (R110), their windows are emptied but
for the places whose reads are in flight (R45), and their records' reference counts fall (R12), a RETIRING record left with no voice
and no read becoming VACANT (R17). -/
def Obligations.LocateTaken : Prop :=
  ∀ (h : Header) (position : BitVec 64) (s : State), s.Taking → s.Canonical →
    (2 ^ 47 ≤ position.toNat →
      ∃ t, exec (.locate h position) s = .next t ∧ TakenDone s t h .badParam 0#32 0#32 ∧ t.pace = s.pace ∧
        SameStreams s t) ∧
    (position.toNat < 2 ^ 47 → s.pace.running = true →
      ∃ t, exec (.locate h position) s = .next t ∧ TakenDone s t h .busy 0#32 0#32 ∧ t.pace = s.pace ∧
        SameStreams s t) ∧
    (position.toNat < 2 ^ 47 → s.pace.running = false →
      ∃ t, exec (.locate h position) s = .next t ∧
        wroteStatus s t (doneBytes .ok (BitVec.ofNat 32 s.soundingCount) 0#32) ∧
        t.pace = { s.pace with position := position.toNat } ∧ s.AllEnd t .located)

/-- SET_PACE (R84 to R87): BAD_PARAM for a code of no table, BUSY with settings pending; pending while RUNNING; applied at once
while STOPPED, the pace state judged against clock present, each sounding voice being given at once the runs that its moved horizon
allows (R98, R100, R102, R106). -/
def Obligations.SetPaceTaken : Prop :=
  ∀ (h : Header) (p : PaceParams) (s : State), s.Taking →
    (settingsOf p = none →
      ∃ t, exec (.setPace h p) s = .next t ∧ TakenDone s t h .badParam 0#32 0#32 ∧ t.pace = s.pace ∧ SameStreams s t) ∧
    (∀ x, settingsOf p = some x → s.pace.pending.isSome = true →
      ∃ t, exec (.setPace h p) s = .next t ∧ TakenDone s t h .busy 0#32 0#32 ∧ t.pace = s.pace ∧ SameStreams s t) ∧
    (∀ x, settingsOf p = some x → s.pace.pending = none → s.pace.running = true →
      ∃ t order, exec (.setPace h p) s = .next t ∧ TakenLong s t ∧ SameStreams s t ∧
        t.pace = { s.pace with pending := some (x, ⟨s.requests.address, h.tag, notifyOf h, order⟩) }) ∧
    (∀ x, settingsOf p = some x → s.pace.pending = none → s.pace.running = false →
      let state : PaceState :=
        if x.source = .internal then .internal else if s.pace.clockPresent then .externalLocked else .freewheel
      ∃ t, exec (.setPace h p) s = .next t ∧
        TakenDone s t h (if state = .freewheel then .noClock else .ok) (BitVec.ofNat 32 state.code)
          (BitVec.ofNat 32 s.pace.index) ∧
        t.pace = { s.pace with
          source := x.source, internalRate := x.internalRate, period := x.period, state := state, frame := 0 } ∧
        SameCatalog s t ∧ SameQueue s t ∧ SameDies s t ∧ (∀ n, (s.voice n).sounding = false → t.voice n = s.voice n) ∧
        (s.Canonical → s.WindowsHeldOnce → ∀ n, (s.voice n).sounding = true →
          s.GivenRuns t n (s.voice n) (s.window (s.voice n).window)))

/-! ### The takes: the dies, the tunables, a bad kind -/

/-- STORE refused, in the order of its checks (R131): BAD_PARAM, BUSY, CLAIMED by a record or by another STORE, DIE_OFFLINE.
STORE accepted (R24, R132): every DEFINED or STALE record it overlaps is STALE with reason OVERWRITTEN, the STORE stands in
the table, and each of its blocks is queued at its die or its program begun; a die that holds no block of the range is as it
was (R129), an OFFLINE one with requests in its poll list too. Of the dies that hold a block, none idle has anything waiting
before: an idle die's arbiter has chosen (R129). The STORE's place in the table is the lowest free one (the model's choice, log
49). -/
def Obligations.StoreTaken : Prop :=
  (∀ (h : Header) (p : StoreParams) (s : State), s.Taking →
    let refused (r : Result) : Prop := ∃ t, exec (.store h p) s = .next t ∧ TakenDone s t h r 0#32 0#32 ∧ SameStreams s t
    let first := p.first.toNat
    let count := p.count.toNat
    (storeValid p = false → refused .badParam) ∧
    (storeValid p = true → 4 ≤ s.stores.length → refused .busy) ∧
    (storeValid p = true → s.stores.length < 4 →
      (s.recordForbids first count = true → refused .claimed) ∧
      (s.recordForbids first count = false → s.storeClaims [{ start := first, count := count }] = true →
        refused .claimed) ∧
      (s.recordForbids first count = false → s.storeClaims [{ start := first, count := count }] = false →
        s.rangeOffline first count = true → refused .dieOffline))) ∧
  (∀ (h : Header) (p : StoreParams) (s : State), s.Taking → s.Canonical → storeValid p = true → s.stores.length < 4 →
    s.recordForbids p.first.toNat p.count.toNat = false →
    s.storeClaims [{ start := p.first.toNat, count := p.count.toNat }] = false →
    s.rangeOffline p.first.toNat p.count.toNat = false →
    (∀ a, p.first.toNat ≤ a → a < p.first.toNat + p.count.toNat → (s.die (a % 16)).operation = none →
      s.subQueue (a % 16) = [] ∧ (s.die (a % 16)).polls = []) →
    ∃ t, exec (.store h p) s = .next t ∧ TakenLong s t ∧
      (∀ d, (∀ a, p.first.toNat ≤ a → a < p.first.toNat + p.count.toNat → a % 16 ≠ d) → t.die d = s.die d) ∧
      (∀ id, t.record id =
        if (s.record id).meets p.first.toNat p.count.toNat = true ∧
            ((s.record id).state = .defined ∨ (s.record id).state = .stale) then
          { s.record id with state := .stale, staleReason := .overwritten }
        else s.record id) ∧
      t.stores.length = s.stores.length + 1 ∧
      (∃ x ∈ t.stores, x.place = s.freeStorePlace ∧ x.first = p.first.toNat ∧ x.count = p.count.toNat ∧
        x.host = p.host ∧ x.programmed = 0 ∧ x.failure = none ∧ x.token.address = s.requests.address ∧
        x.token.tag = h.tag) ∧
      ∀ a, p.first.toNat ≤ a → a < p.first.toNat + p.count.toNat →
        ∃ e : ProgramEntry, e.place = s.freeStorePlace ∧ e.address = a ∧
          e.host = p.host + BitVec.ofNat 64 ((a - p.first.toNat) * 4096) ∧
          (e ∈ (t.die (a % 16)).programs ∨ (t.die (a % 16)).operation.map Operation.work = some (.program e)))

/-- PROBE_DIE and REVIVE_DIE (R127, R128): BAD_PARAM above 15; REVIVE_DIE of a die in service is OK at once; BUSY with four
requests listed; otherwise TAKEN: it joins the end of the list, and on a die with no operation the POLL for the head of the
list begins at once: on a READY die, whose list is then empty, and on an OFFLINE die, whose list may hold requests from before
it went OFFLINE (R129). -/
def Obligations.ProbeAndRevive : Prop :=
  ∀ (h : Header) (die : Byte) (revive : Bool) (s : State) (c : Instr), s.Taking →
    c = (if revive then .reviveDie h die else .probeDie h die) →
    (16 ≤ die.toNat → ∃ t, exec c s = .next t ∧ TakenDone s t h .badParam 0#32 0#32 ∧ SameStreams s t) ∧
    (die.toNat < 16 → revive = true → (s.die die.toNat).state ≠ .offline →
      ∃ t, exec c s = .next t ∧ TakenDone s t h .ok (BitVec.ofNat 32 (s.die die.toNat).state.code) 0#32 ∧
        SameStreams s t) ∧
    (die.toNat < 16 → (revive = true → (s.die die.toNat).state = .offline) →
      let x := s.die die.toNat
      (4 ≤ x.polls.length → ∃ t, exec c s = .next t ∧ TakenDone s t h .busy 0#32 0#32 ∧ SameStreams s t) ∧
      (x.polls.length < 4 → x.operation = none → x.state = .offline ∨ (x.state = .ready ∧ x.polls = []) →
        ∃ t order, exec c s = .next t ∧ TakenLong s t ∧ (∀ d, d ≠ die.toNat → t.die d = s.die d) ∧
          t.die die.toNat = { x with
            state := if x.state = .offline then .offline else .polling
            operation := some { work := .poll, attempt := 1, discard := false, pollInterval := s.tunables.pollInterval
                                timeout := s.tunables.readTimeout }
            polls := x.polls ++ [⟨revive, ⟨s.requests.address, h.tag, notifyOf h, order⟩⟩] } ∧
          .diePoll die.toNat ∈ t.out) ∧
      (x.polls.length < 4 → x.operation.isSome = true →
        ∃ t order, exec c s = .next t ∧ TakenLong s t ∧ (∀ d, d ≠ die.toNat → t.die d = s.die d) ∧
          t.die die.toNat = { x with
            polls := x.polls ++ [⟨revive, ⟨s.requests.address, h.tag, notifyOf h, order⟩⟩] }))

/-- TUNE_ENGINE (R173): BAD_PARAM for a named value out of its range, BUSY for a voice limit below the sounding count; otherwise
every named tunable is set and no other, and the words are the mask as applied and the sounding count. A lead class table set gives
each sounding voice at once the runs that its moved horizon allows (R97, R98, R100, R102, R106). -/
def Obligations.TuneTaken : Prop :=
  ∀ (h : Header) (p : TuneParams) (s : State), s.Taking →
    (tuneValid p = false →
      ∃ t, exec (.tuneEngine h p) s = .next t ∧ TakenDone s t h .badParam 0#32 0#32 ∧ SameStreams s t) ∧
    (tuneValid p = true → p.mask.getLsbD 0 = true → p.voiceLimit.toNat < s.soundingCount →
      ∃ t, exec (.tuneEngine h p) s = .next t ∧ TakenDone s t h .busy 0#32 0#32 ∧ SameStreams s t) ∧
    (tuneValid p = true → (p.mask.getLsbD 0 = true → s.soundingCount ≤ p.voiceLimit.toNat) →
      ∃ t, exec (.tuneEngine h p) s = .next t ∧
        TakenDone s t h .ok (p.mask &&& 0x7FF#32) (BitVec.ofNat 32 s.soundingCount) ∧
        SameCatalog s t ∧ SameQueue s t ∧ SameDies s t ∧ (p.mask.getLsbD 1 = false → SameVoices s t ∧ SameDram s t) ∧
        (∀ n, (s.voice n).sounding = false → t.voice n = s.voice n) ∧
        (p.mask.getLsbD 1 = true → s.Canonical → s.WindowsHeldOnce → ∀ n, (s.voice n).sounding = true →
          s.GivenRuns t n (s.voice n) (s.window (s.voice n).window)) ∧
        let named (n value old : Nat) : Nat := if p.mask.getLsbD n then value else old
        t.tunables =
          { voiceLimit := named 0 p.voiceLimit.toNat s.tunables.voiceLimit
            leadClasses := (if p.mask.getLsbD 1 then
              #v[⟨p.lead0.target.toNat, p.lead0.tolerance.toNat⟩, ⟨p.lead1.target.toNat, p.lead1.tolerance.toNat⟩,
                ⟨p.lead2.target.toNat, p.lead2.tolerance.toNat⟩, ⟨p.lead3.target.toNat, p.lead3.tolerance.toNat⟩]
              else s.tunables.leadClasses)
            retryLimit := named 2 p.retryLimit.toNat s.tunables.retryLimit
            pollInterval := named 3 p.pollInterval.toNat s.tunables.pollInterval
            readTimeout := named 4 p.readTimeout.toNat s.tunables.readTimeout
            programTimeout := named 5 p.programTimeout.toNat s.tunables.programTimeout
            programGuard := named 6 p.programGuard.toNat s.tunables.programGuard
            loadAllowance := named 7 p.loadAllowance.toNat s.tunables.loadAllowance
            coalescingCount := named 8 p.coalescingCount.toNat s.tunables.coalescingCount
            ageLimit := named 9 p.ageLimit.toNat s.tunables.ageLimit
            priorityThreshold := named 10 p.priorityThreshold.toNat s.tunables.priorityThreshold })

/-- A kind of no kind of the part is refused BAD_KIND and reaches no block (R169); its words are the model's free values (log
6). The advance after the take of a request of any kind (R167, R187): the next pointer is fetched, or, misaligned, parks the
processor with LINK_ERROR; 0 parks it with END_OF_LIST, or is read again when resume pending is set. -/
def Obligations.BadKindAndAdvance : Prop :=
  (∀ (h : Header) (kind : BitVec 16) (s : State), s.Taking →
    ∃ t, exec (.badKind h kind) s = .next t ∧ TakenDoneAnyWords s t h .badKind ∧ SameStreams s t ∧ t.pace = s.pace ∧
      t.delivery = s.delivery) ∧
  (∀ (h : Header) (body : RequestBody) (s : State), s.Taking →
    ∃ t, exec (Request.arrival ⟨h, body⟩) s = .next t ∧ t.requests.takenCount = s.requests.takenCount + 1#32 ∧
      (h.next ≠ 0#64 → requestAligned h.next = true →
        t.requests.state = .fetching ∧ t.requests.waiting = false ∧ t.requests.address = h.next ∧
          t.requests.read = .descriptor ∧ .hostRead h.next 256 ∈ t.out) ∧
      (h.next ≠ 0#64 → requestAligned h.next = false →
        t.requests.state = .parked ∧ t.requests.parkReason = some .linkError ∧ t.requests.address = h.next ∧
          t.latched .portError = true) ∧
      (h.next = 0#64 → s.requests.resumePending = false →
        t.requests.state = .parked ∧ t.requests.parkReason = some .endOfList ∧
          t.requests.address = s.requests.address) ∧
      (h.next = 0#64 → s.requests.resumePending = true →
        t.requests.state = .fetching ∧ t.requests.read = .nextAtAdvance ∧ t.requests.resumePending = false ∧
          t.requests.address = s.requests.address ∧ .hostRead s.requests.address 8 ∈ t.out))

/-- What no take of a request changes: the Delivery Engine, the engine state, the mask and the message enable, the inspection
port, the Fetch Queue's enqueue count, and the model's own counter of free values; and, kind by kind, the pace, the
tunables, the partition, the start count, the counters and the STOREs. A take of START, RETUNE, TUNE_ENGINE or SET_PACE may give
runs: of the DRAM it writes 0 in the bytes of the silent places it gives for blocks on OFFLINE dies and no others (R44, R106); no
take of another kind writes the DRAM. -/
def Obligations.TakeFrame : Prop :=
  ∀ (h : Header) (body : RequestBody) (s t : State), s.Taking → exec (Request.arrival ⟨h, body⟩) s = .next t →
    t.delivery = s.delivery ∧ t.registers.engine = s.registers.engine ∧ t.registers.mask = s.registers.mask ∧
    t.registers.msiEnable = s.registers.msiEnable ∧ t.registers.msiVector = s.registers.msiVector ∧
    t.registers.snapshot = s.registers.snapshot ∧ t.registers.writeHolds = s.registers.writeHolds ∧
    t.registers.readHolds = s.registers.readHolds ∧ t.enqueueCount = s.enqueueCount ∧ SameModel s t ∧
    (∀ f : Flag, s.latched f = true → t.latched f = true) ∧
    (∀ c : CounterName, c ≠ .steal → t.registers.counters.value c = s.registers.counters.value c) ∧
    (match body with
      | .start _ | .retune _ | .tuneEngine _ | .setPace _ =>
        OnlySilenceWritten s t ∧ (s.Canonical → s.WindowsHeldOnce → SilenceWritten s t)
      | _ => SameDram s t) ∧
    (match body with
      | .run | .halt | .locate _ | .setPace _ => True
      | _ => t.pace = s.pace) ∧
    (match body with
      | .tuneEngine _ => True
      | _ => t.tunables = s.tunables) ∧
    (match body with
      | .configureMemory _ => True
      | _ => t.partition = s.partition) ∧
    (match body with
      | .start _ => True
      | _ => t.startCount = s.startCount ∧ t.registers.counters = s.registers.counters) ∧
    match body with
      | .store _ => True
      | .probeDie _ | .reviveDie _ => True
      | _ => t.stores = s.stores

/-! ### Time -/

/-- PERIOD_EXPIRY at the Pace Timer (R82, R85, R87, R90), its steps in order: the frame counter to 0, the index up, the position
by the old P while RUNNING, pending settings applied, a pending HALT completed with the position in its words. The model
takes the command as the P-th frame whatever the counter held (log 3). -/
def Obligations.ExpiryOfPace : Prop :=
  ∀ s : State,
    let position := if s.pace.running then s.pace.position + s.pace.period else s.pace.position
    let p1 : Pace := { s.pace with frame := 0, index := s.pace.index + 1, position := position }
    let p2 : Pace := match s.pace.pending with
      | none => p1
      | some (x, _) => { p1 with
          source := x.source, internalRate := x.internalRate, period := x.period, pending := none
          state := if x.source = .internal then .internal else if s.pace.clockPresent then .externalLocked else .freewheel }
    let p3 : Pace := if s.pace.haltPending.isSome then { p2 with running := false, haltPending := none } else p2
    ∃ t, exec .periodExpiry s = .next t ∧ t.pace = p3 ∧
      (∀ k, s.pace.haltPending = some k → wroteAt s t k.address
        (doneBytes .ok (BitVec.ofNat 32 position) (BitVec.ofNat 32 (position / 2 ^ 32 % 2 ^ 16)))) ∧
      (∀ x k, s.pace.pending = some (x, k) → wroteAt s t k.address
        (doneBytes (if p2.state = .freewheel then .noClock else .ok) (BitVec.ofNat 32 p2.state.code)
          (BitVec.ofNat 32 (s.pace.index + 1))))

/-- PERIOD_EXPIRY at the voices (R66 to R68): at an advancing expiry each sounding voice takes its pending rate, and its C rises by
the frames consumed times the rate. A PRIMING voice whose `at` lies below the new position moves to DRAINING where its cursor
is at the end, to RELEASING where it is released, to PLAYING otherwise; one whose `at` is the new position or above it stays
PRIMING. An expiry that does not advance moves no voice. NATURAL ends at an advancing expiry (R69): a sounding voice whose
total is known, with D equal to it and C at or above it, enters ENDING with reason NATURAL, and no other does: a total that
becomes known only by the runs of this same expiry counts at a later one (the model's order, log 47). Such a voice's queued entries
leave (R110), its window is emptied (R45) and its record's count falls (R12). Every other sounding voice is then given the runs that
its moved horizon allows (R98, R100, R102, R106); of the DRAM the expiry writes 0 in the silent places given and nothing else. The
model takes the command as the P-th frame whatever the counter held (log 3). -/
def Obligations.ExpiryOfVoices : Prop :=
  (∀ s : State, s.Canonical →
    (s.pace.running = true → ∃ t, exec .periodExpiry s = .next t ∧
      (∀ n, (s.voice n).sounding = true →
        let new := s.pace.position + s.pace.period
        let v := s.voice n
        let rate := v.pendingRate.getD v.rate
        (t.voice n).rate = rate ∧ (t.voice n).pendingRate = none ∧
          (t.voice n).consumed = (if v.position ≤ new then
            min (2 ^ 48 - 1) (v.consumed + (new - max v.position s.pace.position) * rate) else v.consumed) ∧
          (t.voice n).delivered = v.delivered ∧ (t.voice n).generation = v.generation ∧
          (v.position < new → (t.voice n).state ≠ .priming) ∧
          ((t.voice n).state = .ending →
            v.total = some v.delivered ∧ v.delivered * 65536 ≤ (t.voice n).consumed ∧
              (t.voice n).endReason = some .natural) ∧
          (v.state = .priming → (t.voice n).state ≠ .ending →
            (t.voice n).state =
              if v.position < new then
                if (t.voice n).cursor.atEnd then .draining else if v.released then .releasing else .playing
              else .priming)) ∧
      (∀ n, (s.voice n).sounding = false → t.voice n = s.voice n) ∧ SameDies s t ∧
      let ended (n : Nat) : Bool := (s.voice n).sounding && (t.voice n).state == .ending
      t.queue = s.queueWithout ended ∧
      (∀ id, s.RecordLeft t id ((s.slotsPlaying id (s.record id).generation).filter ended).length) ∧
      (s.WindowsHeldOnce → ∀ n, ended n = true → s.WindowEnded n (t.window (s.voice n).window)) ∧
      (s.registers.engine = .ready → s.WindowsHeldOnce → SilenceWritten s t ∧
        ∀ n, (s.voice n).sounding = true → (t.voice n).state ≠ .ending →
          let v := s.voice n
          s.GivenRuns t n
            { v with
              rate := v.pendingRate.getD v.rate, pendingRate := none, consumed := (t.voice n).consumed
              starved := (t.voice n).starved, underruns := (t.voice n).underruns
              state := if v.state = .priming ∧ v.position < s.pace.position + s.pace.period then
                  if v.cursor.atEnd then .draining else if v.released then .releasing else .playing
                else v.state }
            (s.window v.window))) ∧
    (s.pace.running = false → ∃ t, exec .periodExpiry s = .next t ∧ SameStreams s t)) ∧
  (∀ (s : State) (n total : Nat), s.Canonical → s.pace.running = true → (s.voice n).sounding = true →
    (s.voice n).total = some total → (s.voice n).delivered = total →
    ∃ t, exec .periodExpiry s = .next t ∧
      (total * 65536 ≤ (t.voice n).consumed → (t.voice n).state = .ending ∧ (t.voice n).endReason = some .natural))

/-- The lead monitor at an advancing expiry (R113 to R115): of a voice that was in PLAYING or RELEASING, the starved flag
follows D − C against (T − tolerance) × P × rate, with LEAD_LOW latched where it was clear, and the underrun count rises,
saturating at 255, with UNDERRUN latched, where D is below C. Voices in the other states are not tested. The starve counter
rises once for each voice newly starved, the underrun counter once for each voice behind, saturating at 65,535. The model takes
PERIOD_EXPIRY as the P-th frame whatever the counter held (log 3). -/
def Obligations.LeadMonitor : Prop :=
  (∀ (s : State) (n : Nat), s.Canonical → s.pace.running = true →
    (s.voice n).state = .playing ∨ (s.voice n).state = .releasing →
    ∃ t, exec .periodExpiry s = .next t ∧
      let c := s.leadClass (s.voice n)
      let low : Prop := (s.voice n).delivered * 65536 <
        (t.voice n).consumed + (c.target - c.tolerance) * t.pace.period * (t.voice n).rate
      let behind : Prop := (s.voice n).delivered * 65536 < (t.voice n).consumed
      (low → (t.voice n).starved = true ∧ ((s.voice n).starved = false → t.latched .leadLow = true)) ∧
        (¬ low → (t.voice n).starved = false) ∧
        (behind → (t.voice n).underruns = min ((s.voice n).underruns + 1) 255 ∧ t.latched .underrun = true) ∧
        (¬ behind → (t.voice n).underruns = (s.voice n).underruns)) ∧
  ∀ s : State, s.Canonical → s.pace.running = true → (∀ c, s.registers.counters.value c ≤ 65535) →
    let tested (m : Nat) : Prop := (s.voice m).state = .playing ∨ (s.voice m).state = .releasing
    ∃ t, exec .periodExpiry s = .next t ∧
      (∀ m, ¬ tested m → (t.voice m).starved = (s.voice m).starved ∧ (t.voice m).underruns = (s.voice m).underruns) ∧
      (∃ starving : List Nat, starving.Nodup ∧
        (∀ m, m ∈ starving ↔ tested m ∧ (s.voice m).starved = false ∧ (t.voice m).starved = true) ∧
        (starving = [] → t.latched .leadLow = s.latched .leadLow) ∧
        t.registers.counters.value .starve = min 65535 (s.registers.counters.value .starve + starving.length)) ∧
      (∃ behind : List Nat, behind.Nodup ∧
        (∀ m, m ∈ behind ↔ tested m ∧ (s.voice m).delivered * 65536 < (t.voice m).consumed) ∧
        (behind = [] → t.latched .underrun = s.latched .underrun) ∧
        t.registers.counters.value .underrun = min 65535 (s.registers.counters.value .underrun + behind.length)) ∧
      ∀ c, c ≠ .starve → c ≠ .underrun → t.registers.counters.value c = s.registers.counters.value c

/-- Frames (R79 to R82): the step on an empty queue counts one frame of the card oscillator outside EXTERNAL_LOCKED (the model's
choice, log 2); WORD_CLOCK_EDGE makes the clock present and counts one in EXTERNAL_LOCKED; the P-th frame is the expiry (log
4). CLOCK_LOSS makes the clock absent and, in EXTERNAL_LOCKED, gives FREEWHEEL and latches PACE_LOST alone, with the one message
that a latch may send (R182). -/
def Obligations.FramesAndClock : Prop :=
  ∀ s : State, s.completions = [] →
    (s.pending = [] → s.pace.state ≠ .externalLocked → s.pace.frame + 1 < s.pace.period →
      step s = .next { s with pace := { s.pace with frame := s.pace.frame + 1 } }) ∧
    (s.pending = [] → s.pace.state ≠ .externalLocked → s.pace.period ≤ s.pace.frame + 1 →
      step s = exec .periodExpiry s) ∧
    (s.pending = [] → s.pace.state = .externalLocked → step s = .next s) ∧
    (s.pace.state ≠ .externalLocked →
      exec .wordClockEdge s = .next { s with pace := { s.pace with clockPresent := true } }) ∧
    (s.pace.state = .externalLocked → s.pace.frame + 1 < s.pace.period →
      exec .wordClockEdge s =
        .next { s with pace := { s.pace with clockPresent := true, frame := s.pace.frame + 1 } }) ∧
    (s.pace.state = .externalLocked → s.pace.period ≤ s.pace.frame + 1 →
      exec .wordClockEdge s = exec .periodExpiry { s with pace := { s.pace with clockPresent := true } }) ∧
    (s.pace.state ≠ .externalLocked →
      exec .clockLoss s = .next { s with pace := { s.pace with clockPresent := false } }) ∧
    (s.pace.state = .externalLocked → ∃ t, exec .clockLoss s = .next t ∧ t.latched .paceLost = true ∧
      (∀ f : Flag, f ≠ .paceLost → t.latched f = s.latched f) ∧ oneMessage s t ∧
      t.pace = { s.pace with clockPresent := false, state := .freewheel } ∧ SameStreams s t ∧
      t.requests = s.requests ∧ t.delivery = s.delivery)

/-! ### The Buffer List and the deliveries -/

/-- BUFFER_RESUME, by the engine's state and park reason (R144), and the ends of the re-read it begins, or that an advance
begins (BUFFER_NEXT_REREAD_END, R144, R153): 0 with resume pending set is read once more (R144). A re-read begins at once
during an engine reset too (the model's reading, log 17), and with another in flight (log 16). A read whose descriptor the
engine has left ends without effect but for PORT_ERROR at a failure (log 44). A misaligned pointer met at an advance
or a resume parks the engine with LINK_ERROR at that address, with both flags latched and nothing read or written there, and a
resume there fails in the same way (R187); during an engine reset its fetch waits like any other (log 36). -/
def Obligations.BufferResumes : Prop :=
  ∀ s : State, s.completions = [] →
    (s.delivery.state = .idle → exec .bufferResume s = .next s) ∧
    (s.delivery.state = .active →
      exec .bufferResume s = .next { s with delivery := { s.delivery with resumePending := true } }) ∧
    (s.delivery.state = .parked →
      s.delivery.parkReason = some .endOfList ∨ (s.delivery.parkReason = some .linkError ∧ s.delivery.usedMark = true) →
      exec .bufferResume s = .next { s with
        delivery := { s.delivery with rereads := s.delivery.rereads + 1 }, out := s.out ++ [.hostRead s.delivery.address 8] }) ∧
    (s.delivery.state = .parked → bufferAligned s.delivery.address = false → s.resetting = false →
      s.delivery.parkReason = some .notReclaimed ∨
        (s.delivery.parkReason = some .linkError ∧ s.delivery.usedMark = false) →
      ∃ t, exec .bufferResume s = .next t ∧ BufferParkedAt s t s.delivery.address) ∧
    (s.delivery.state = .parked → bufferAligned s.delivery.address = true ∨ s.resetting = true →
      s.delivery.parkReason = some .notReclaimed ∨
        (s.delivery.parkReason = some .linkError ∧ s.delivery.usedMark = false) →
      ∃ t, exec .bufferResume s = .next t ∧ t.delivery.state = .active ∧ t.delivery.holding = false ∧
        t.delivery.address = s.delivery.address ∧ t.delivery.read = .descriptor ∧ t.delivery.waiting = s.resetting ∧
        t.out = s.out ++ (if s.resetting then [] else [.hostRead s.delivery.address 24])) ∧
    (∀ read, 0 < s.delivery.lateRereads →
      ∃ t, exec (.bufferNextRereadEnd read) s = .next t ∧
        t.delivery = { s.delivery with lateRereads := s.delivery.lateRereads - 1 } ∧
        (read = none → t.latched .portError = true) ∧ (read ≠ none → t.registers = s.registers ∧ t.out = s.out)) ∧
    (s.delivery.lateRereads = 0 → s.delivery.read = .next ∨ (s.delivery.state = .parked ∧ 0 < s.delivery.rereads) →
      (∀ a, a ≠ 0#64 → bufferAligned a = true → s.resetting = false →
        ∃ t, exec (.bufferNextRereadEnd (some a)) s = .next t ∧ t.delivery.state = .active ∧
          t.delivery.holding = false ∧ t.delivery.address = a ∧ t.delivery.read = .descriptor ∧
          t.out = s.out ++ [.hostRead a 24]) ∧
      (∀ a, a ≠ 0#64 → bufferAligned a = false → s.resetting = false →
        ∃ t, exec (.bufferNextRereadEnd (some a)) s = .next t ∧ BufferParkedAt s t a) ∧
      (∀ a, a ≠ 0#64 → s.resetting = true →
        ∃ t, exec (.bufferNextRereadEnd (some a)) s = .next t ∧ t.delivery.state = .active ∧ t.delivery.holding = false ∧
          t.delivery.address = a ∧ t.delivery.read = .descriptor ∧ t.delivery.waiting = true ∧
          t.registers = s.registers ∧ t.out = s.out) ∧
      (s.delivery.resumePending = false →
        ∃ t, exec (.bufferNextRereadEnd (some 0#64)) s = .next t ∧ t.delivery.state = .parked ∧
          t.delivery.parkReason = some .endOfList ∧ t.delivery.address = s.delivery.address ∧
          t.latched .bufferParked = true) ∧
      (s.delivery.resumePending = true →
        ∃ t, exec (.bufferNextRereadEnd (some 0#64)) s = .next t ∧ t.delivery.state = s.delivery.state ∧
          t.delivery.read = .next ∧ t.delivery.resumePending = false ∧ t.delivery.address = s.delivery.address ∧
          t.out = s.out ++ [.hostRead s.delivery.address 8] ∧ t.registers = s.registers) ∧
      (∃ t, exec (.bufferNextRereadEnd none) s = .next t ∧ t.delivery.state = .parked ∧
        t.delivery.parkReason = some .linkError ∧ t.delivery.usedMark = true ∧
        t.delivery.address = s.delivery.address ∧ t.delivery.resumePending = false ∧
        t.latched .bufferParked = true ∧ t.latched .portError = true))

/-- The ends of a descriptor fetch (R142, R145, R187): held, parked NOT_RECLAIMED, fetched once more, or parked LINK_ERROR.
DELIVERY_WRITE_FAILED (R156): the chosen delivery is not made, the engine parks with LINK_ERROR at the held descriptor, and
both flags are latched. -/
def Obligations.BufferReadsAndWritesEnd : Prop :=
  (∀ (s : State) (next buffer : HostAddr), s.completions = [] → s.delivery.state = .active →
    s.delivery.read = .descriptor → s.delivery.waiting = false →
    (bufferAligned buffer = true →
      exec (.bufferFetchArrival next buffer false) s = .next { s with
        delivery := { s.delivery with holding := true, heldNext := some next, heldBuffer := some buffer, read := .none } }) ∧
    (bufferAligned buffer = true → s.delivery.resumePending = false →
      ∃ t, exec (.bufferFetchArrival next buffer true) s = .next t ∧ t.delivery.state = .parked ∧
        t.delivery.parkReason = some .notReclaimed ∧ t.delivery.address = s.delivery.address ∧
        t.latched .bufferParked = true) ∧
    (bufferAligned buffer = true → s.delivery.resumePending = true → bufferAligned s.delivery.address = true →
      s.resetting = false →
      ∃ t, exec (.bufferFetchArrival next buffer true) s = .next t ∧ t.delivery.state = .active ∧
        t.delivery.holding = false ∧ t.delivery.resumePending = false ∧ t.delivery.address = s.delivery.address ∧
        t.out = s.out ++ [.hostRead s.delivery.address 24]) ∧
    ∀ c : Instr, (c = .bufferFetchFailed ∨ (∃ done, c = .bufferFetchArrival next buffer done ∧ bufferAligned buffer = false)) →
      ∃ t, exec c s = .next t ∧ t.delivery.state = .parked ∧ t.delivery.parkReason = some .linkError ∧
        t.delivery.usedMark = false ∧ t.delivery.address = s.delivery.address ∧ t.delivery.resumePending = false ∧
        t.latched .bufferParked = true ∧ t.latched .portError = true) ∧
  (∀ s : State, s.completions = [] → s.endChoice ≠ none ∨ s.dataChoice ≠ none →
    ∃ t, exec .deliveryWriteFailed s = .next t ∧ t.delivery.state = .parked ∧
      t.delivery.parkReason = some .linkError ∧ t.delivery.usedMark = false ∧
      t.delivery.address = s.delivery.address ∧ t.delivery.count = s.delivery.count ∧ SameStreams s t ∧
      t.latched .bufferParked = true ∧ t.latched .portError = true)

/-- DATA_DELIVERY of the voice that the arbiter chooses (R148, R151, R153 to R155, R189): its frames go into the buffer at their
offset, then the status, in this order; D rises by the frames and the delivery source moves; Delivery Count rises; the
engine goes on to the next descriptor. The voice chosen is one that no other ready voice comes before: earliest deadline of D,
then higher priority, then lower slot, with no END ready; one is chosen only in ACTIVE, HOLDING, with no engine reset in progress
(R141, R145, R163). With no delivery chosen nothing changes (log 37). When a delivery is
ready (R147): a sounding voice, D below its scheduled frames, the frames at D available. Where it ends, and where the next one
begins (R146, R148): at a wrap at the loop start with looped pending set, else on by its frames with looped pending clear. Its
bytes (R151): zeros for a damaged place, else the memory's, from the record's head slot or the place at the delivery point. A
delivery from a place empties it and the delivery point advances (R44); a voice that ends NATURAL there (R69) loses its queued
entries (R110) and its window's places (R45), and its record's count falls (R12); another is given the runs due (R100, R102, R106),
and of the DRAM the event writes 0 in the silent places given and nothing else. The model's choices: the NATURAL test comes before
those runs, so that a voice whose total only they make known, at the stream limit of R61, sounds on at this event (log 47); bytes
0x2C to 0x2F, bits 7:1 of byte 0x10 and bits 7:5 of byte 0x12 of the status are 0 (log 40); both writes leave ahead of the DONE
write of a RETIRE that the event completes (log 46), and of the event's message (log 42). -/
def Obligations.DataDeliveryMade : Prop :=
  (∀ (s : State) (slot : Nat) (l : Layout) (next buffer : HostAddr), s.dataChoice = some slot →
    s.layoutOf (s.voice slot) = some l → s.delivery.heldNext = some next → s.delivery.heldBuffer = some buffer →
    next ≠ 0#64 → bufferAligned next = true →
    let v := s.voice slot
    let frames := v.deliveryStop l - v.delivery.source
    let offset := v.delivery.source % l.format.framesPerBlock * l.format.frameBytes
    ∃ t after, exec .dataDelivery s = .next t ∧
      t.out = s.out ++ [.hostWrite (buffer + BitVec.ofNat 64 offset) (s.deliveryBytes v l),
        .hostWrite (s.delivery.address + 0x10#64) (deliveryStatusBytes
          { kind := 1
            flags := (v.delivered == 0).toNat + 2 * v.delivery.loopedPending.toNat + 4 * (s.deliveryDamaged v l).toNat +
              8 * (decide (v.delivered * 65536 < v.consumed)).toNat + 16 * (v.total == some (v.delivered + frames)).toNat
            endReason := 0, slot := slot, generation := v.generation, cookie := v.cookie, sampleId := v.sampleId
            sampleGeneration := v.sampleGeneration, stream := v.delivered, source := v.delivery.source, frames := frames
            byteOffset := offset })] ++ after ∧
      (t.voice slot).delivered = v.delivered + frames ∧ (t.voice slot).delivery.source = (v.afterDelivery l).source ∧
      (t.voice slot).delivery.loopedPending = (v.afterDelivery l).loopedPending ∧
      (t.voice slot).consumed = v.consumed ∧ (v.delivered = 0 → (t.voice slot).firstDelivery = true) ∧
      (let natural : Prop :=
          v.sounding = true ∧ v.total = some (v.delivered + frames) ∧ (v.delivered + frames) * 65536 ≤ v.consumed
        let point := (s.window v.window).delivery
        let taken : State := if v.headDelivery l then s else s.setWindow v.window
          { (s.window v.window).setPlace point .empty with delivery := (point + 1) % s.partition.windowBlocks }
        (natural → (t.voice slot).state = .ending ∧ (t.voice slot).endReason = some .natural ∧
          (s.Canonical → t.queue = s.queueWithout (· == slot) ∧ taken.WindowEnded slot (t.window v.window) ∧
            ∀ id, s.RecordLeft t id (if v.plays id (s.record id).generation then 1 else 0))) ∧
        (¬ natural → SameCatalog s t ∧ SameQueue s t ∧
          s.GivenRuns t slot
            { v with
              delivered := v.delivered + frames, delivery := v.afterDelivery l
              firstDelivery := v.firstDelivery || v.delivered == 0 }
            (taken.window v.window)) ∧
        (∀ x, x ≠ v.window → t.window x = s.window x) ∧ SameDies s t ∧
        (s.Canonical → s.WindowsHeldOnce → SilenceWritten taken t)) ∧
      (v.headDelivery l = false → (∀ d, s.dieOffline d = false) → s.Canonical →
        (t.window v.window).place (s.window v.window).delivery = .empty ∧
          (t.window v.window).delivery = ((s.window v.window).delivery + 1) % s.partition.windowBlocks) ∧
      t.delivery.count = s.delivery.count + 1#32 ∧ t.delivery.state = .active ∧ t.delivery.holding = false ∧
      t.delivery.address = next ∧ t.delivery.read = .descriptor ∧ ∀ n, n ≠ slot → t.voice n = s.voice n) ∧
  (∀ s : State, s.dataChoice = none → s.completions = [] → exec .dataDelivery s = .next s) ∧
  (∀ (s : State) (n : Nat), s.dataChoice = some n →
    s.delivery.state = .active ∧ s.delivery.holding = true ∧ s.registers.engine = .ready) ∧
  (∀ s : State, s.Canonical → (∀ m, (s.voice m).priority ≤ 15) →
    let due (m : Nat) : Nat := s.deadline (s.voice m) (s.voice m).delivered
    (∀ n, s.dataChoice = some n → s.dataReady (s.voice n) = true ∧
      (∀ m, (s.voice m).state = .ending → (s.voice m).endPosted = true) ∧
      ∀ m, s.dataReady (s.voice m) = true → m ≠ n →
        due n < due m ∨ (due n = due m ∧ ((s.voice m).priority < (s.voice n).priority ∨
          ((s.voice n).priority = (s.voice m).priority ∧ n < m)))) ∧
    (s.dataChoice = none → s.delivery.state = .active → s.delivery.holding = true → s.registers.engine = .ready →
      (∀ m, (s.voice m).state = .ending → (s.voice m).endPosted = true) → ∀ m, s.dataReady (s.voice m) = false)) ∧
  (∀ (s : State) (v : Voice) (l : Layout), s.layoutOf v = some l →
    (s.dataReady v = true ↔ v.sounding = true ∧ v.delivered < v.scheduled ∧ s.available v l)) ∧
  (∀ (v : Voice) (l : Layout),
    (∀ lp, v.deliveryLoop l = some lp → v.deliveryStop l = lp.stop →
      v.afterDelivery l = { v.delivery with source := lp.start, loopedPending := true }) ∧
    ((∀ lp, v.deliveryLoop l = some lp → v.deliveryStop l ≠ lp.stop) →
      v.afterDelivery l = { v.delivery with source := v.deliveryStop l, loopedPending := false })) ∧
  ∀ (s : State) (v : Voice) (l : Layout),
    (s.deliveryDamaged v l = true ↔ ¬ v.fromHead l ∧ ∃ r, s.filledRun v = some r ∧ r.damaged = true) ∧
    (s.deliveryBytes v l).length = (v.deliveryStop l - v.delivery.source) * l.format.frameBytes ∧
    ∀ i, i < (v.deliveryStop l - v.delivery.source) * l.format.frameBytes →
      (s.deliveryDamaged v l = true → (s.deliveryBytes v l).getD i 0#8 = 0#8) ∧
      (s.deliveryDamaged v l = false → ¬ v.fromHead l →
        (s.deliveryBytes v l).getD i 0#8 = Memory.read s.dram (s.placeFrames v l + i)) ∧
      ∀ slot, v.fromHead l → (s.record v.sampleId).headSlot = some slot →
        (s.deliveryBytes v l).getD i 0#8 = Memory.read s.dram (s.headFrames v l slot + i)

/-- The notices of a delivery (R158, R159): PRIORITY_DELIVERY at a first DATA delivery of a voice at or above the threshold, and
at no other delivery; at every delivery, DATA or END, the notice counter rises, with its stamp at the first, and at the coalescing
count, and not below it, DELIVERY is latched and the counter returns to 0. The age test of the notice counter at an expiry (R158),
which PERIOD_EXPIRY is whatever the frame counter held (the model's reading, log 3). -/
def Obligations.Notices : Prop :=
  (∀ (s : State) (slot : Nat) (l : Layout) (next buffer : HostAddr), s.dataChoice = some slot →
    s.layoutOf (s.voice slot) = some l → s.delivery.heldNext = some next → s.delivery.heldBuffer = some buffer →
    ∃ t, exec .dataDelivery s = .next t ∧
      ((s.voice slot).delivered = 0 → s.tunables.priorityThreshold ≤ (s.voice slot).priority →
        t.latched .priorityDelivery = true) ∧
      ((s.voice slot).delivered ≠ 0 ∨ (s.voice slot).priority < s.tunables.priorityThreshold →
        t.latched .priorityDelivery = s.latched .priorityDelivery) ∧
      (s.tunables.coalescingCount ≤ s.delivery.noticeCount + 1 →
        t.latched .delivery = true ∧ t.delivery.noticeCount = 0 ∧ t.delivery.noticeStamp = none) ∧
      (s.delivery.noticeCount + 1 < s.tunables.coalescingCount →
        t.latched .delivery = s.latched .delivery ∧ t.delivery.noticeCount = s.delivery.noticeCount + 1 ∧
          t.delivery.noticeStamp =
            (if s.delivery.noticeCount = 0 then some s.pace.index else s.delivery.noticeStamp))) ∧
  (∀ (s : State) (next : HostAddr), s.endChoice.isSome = true → s.delivery.heldNext = some next →
    ∃ t, exec .endDelivery s = .next t ∧ t.latched .priorityDelivery = s.latched .priorityDelivery ∧
      (s.tunables.coalescingCount ≤ s.delivery.noticeCount + 1 →
        t.latched .delivery = true ∧ t.delivery.noticeCount = 0 ∧ t.delivery.noticeStamp = none) ∧
      (s.delivery.noticeCount + 1 < s.tunables.coalescingCount →
        t.latched .delivery = s.latched .delivery ∧ t.delivery.noticeCount = s.delivery.noticeCount + 1 ∧
          t.delivery.noticeStamp =
            (if s.delivery.noticeCount = 0 then some s.pace.index else s.delivery.noticeStamp))) ∧
  (∀ s : State, ∃ t, exec .periodExpiry s = .next t ∧
    (∀ stamp, s.delivery.noticeStamp = some stamp → 0 < s.delivery.noticeCount →
      s.tunables.ageLimit < s.pace.index + 1 - stamp →
      t.latched .delivery = true ∧ t.delivery = { s.delivery with noticeCount := 0, noticeStamp := none }) ∧
    ((∀ stamp, s.delivery.noticeStamp = some stamp →
      s.delivery.noticeCount = 0 ∨ s.pace.index + 1 - stamp ≤ s.tunables.ageLimit) →
      t.delivery = s.delivery ∧ t.latched .delivery = s.latched .delivery))

/-- END_DELIVERY (R150, R152, R155, R73, R189): the lowest ENDING slot whose END is not posted is chosen, ahead of any DATA; the
status alone is written; the voice becomes FREE at once when no read is in flight, and its window returns to the pool. The advance
after a delivery of either kind (R153, R187): the held next pointer is fetched, or, misaligned, parks the engine with LINK_ERROR;
0 parks it with END_OF_LIST, or is read again when resume pending is set. With no END chosen nothing changes (log 37): outside
ACTIVE, HOLDING, PARKED among it, and during an engine reset no delivery of either kind is written (R141, R145, R163). The model's
choices: bytes 0x2C to 0x2F and bits 7:1 of byte 0x10 of the status are 0 (log 40); the status leaves ahead of the event's message
(log 42). -/
def Obligations.EndDeliveryMade : Prop :=
  (∀ (s : State) (slot : Nat) (next : HostAddr), s.Canonical → s.delivery.state = .active → s.delivery.holding = true →
    s.registers.engine = .ready → s.delivery.heldNext = some next → next ≠ 0#64 → bufferAligned next = true →
    (s.voice slot).state = .ending → (s.voice slot).endPosted = false →
    (∀ n, n < slot → (s.voice n).state = .ending → (s.voice n).endPosted = true) → s.completions = [] →
    let v := s.voice slot
    s.dataChoice = none ∧
    ∃ t after, exec .endDelivery s = .next t ∧
      t.out = s.out ++ [.hostWrite (s.delivery.address + 0x10#64) (deliveryStatusBytes
        { kind := 2, flags := 0, endReason := endReasonCode v.endReason, slot := slot, generation := v.generation
          cookie := v.cookie, sampleId := v.sampleId, sampleGeneration := v.sampleGeneration, stream := v.delivered
          source := v.delivery.source, frames := 0, byteOffset := 0 })] ++ after ∧
      (v.reads = 0 → t.voice slot = { v with state := .free, endPosted := true } ∧
        ∀ i, (t.window v.window).place i = .empty) ∧
      (0 < v.reads → t.voice slot = { v with endPosted := true }) ∧
      (∀ n, n ≠ slot → t.voice n = s.voice n) ∧ t.delivery.count = s.delivery.count + 1#32 ∧
      t.delivery.state = .active ∧ t.delivery.address = next ∧ t.delivery.read = .descriptor ∧
      SameCatalog s t ∧ SameQueue s t ∧ SameDies s t ∧ SameDram s t) ∧
  (∀ s : State, s.endChoice = none → s.completions = [] → exec .endDelivery s = .next s) ∧
  (∀ (s : State) (slot : Nat), s.endChoice = some slot →
    s.delivery.state = .active ∧ s.delivery.holding = true ∧ s.registers.engine = .ready ∧
      (s.Canonical → (s.voice slot).state = .ending ∧ (s.voice slot).endPosted = false ∧
        ∀ n, n < slot → (s.voice n).state = .ending → (s.voice n).endPosted = true)) ∧
  (∀ (s : State) (c : Instr), c = .dataDelivery ∨ c = .endDelivery → s.completions = [] →
    s.delivery.state ≠ .active ∨ s.delivery.holding = false ∨ s.registers.engine = .resetting → exec c s = .next s) ∧
  ∀ (s : State) (c : Instr) (next : HostAddr), s.delivery.heldNext = some next →
    (c = .dataDelivery ∧ s.delivery.heldBuffer.isSome = true ∧
        ∃ slot l, s.dataChoice = some slot ∧ s.layoutOf (s.voice slot) = some l) ∨
      (c = .endDelivery ∧ s.endChoice.isSome = true) →
    ∃ t, exec c s = .next t ∧ t.delivery.count = s.delivery.count + 1#32 ∧ t.delivery.holding = false ∧
      (next ≠ 0#64 → bufferAligned next = true →
        t.delivery.state = .active ∧ t.delivery.address = next ∧ t.delivery.read = .descriptor ∧
          .hostRead next 24 ∈ t.out) ∧
      (next ≠ 0#64 → bufferAligned next = false →
        t.delivery.state = .parked ∧ t.delivery.parkReason = some .linkError ∧ t.delivery.usedMark = false ∧
          t.delivery.address = next ∧ t.delivery.resumePending = false ∧ t.latched .portError = true ∧
          t.latched .bufferParked = true) ∧
      (next = 0#64 → s.delivery.resumePending = false →
        t.delivery.state = .parked ∧ t.delivery.parkReason = some .endOfList ∧
          t.delivery.address = s.delivery.address ∧ t.latched .bufferParked = true) ∧
      (next = 0#64 → s.delivery.resumePending = true →
        t.delivery.state = .active ∧ t.delivery.read = .next ∧ t.delivery.resumePending = false ∧
          t.delivery.address = s.delivery.address ∧ .hostRead s.delivery.address 8 ∈ t.out)

/-! ### The fill arbiter and the dies -/

/-- FETCH_ENQUEUE (R103 to R105, R121, R129). For a voice, on a die with an operation in flight: the run takes the place at the
fill point, AWAITED, and its entry joins the queue with the deadline reckoned at the choice and the next age stamp. On an
idle die with nothing else waiting the read is issued at once. For a load, its head block is marked queued, and on an idle die
with nothing else waiting its read is issued at once, the record's load reads in flight rising (R7). With no choice, nothing
changes (log 1). The choice is a waiting block that no other comes before: earliest deadline, then loads by record id,
then voices by priority and slot; none while the queue is full or during an engine reset (R104, R108, R117). A voice's deadline
is the period index plus the least n with n × P × rate at or above the frame less C (R99). The run moves the voice's cursor,
scheduled frames, total and state as R58 to R61 give, and the runs then due follow at once: the head-sourced ones (R100, R102), and
those whose blocks lie on OFFLINE dies, each of which takes a FILLED damaged place (R106); where the run would carry the stream
past 2^32 − 1 the voice is brought to its end and nothing is enqueued (R61). -/
def Obligations.EnqueueMade : Prop :=
  (∀ (s : State) (slot a : Nat) (l : Layout), s.fillChoice = some (.voice slot a) →
    s.layoutOf (s.voice slot) = some l → (s.voice slot).runFits l = true →
    let v := s.voice slot
    let d := dieOf a
    let e : FetchEntry :=
      { owner := .voice slot v.generation, address := a, destination := .place v.window (s.window v.window).fill
        deadline := s.deadline v v.cursor.stream, stamp := s.enqueueCount }
    let w := s.takesRun l v (s.window v.window) .awaited false
    ((s.die d).operation.isSome = true →
      ∃ t, exec .fetchEnqueue s = .next t ∧ t.enqueueCount = s.enqueueCount + 1 ∧ e ∈ t.queue ∧
        t.queue.length = s.queue.length + 1 ∧
        (t.window v.window).place (s.window v.window).fill = .awaited
          { block := v.cursor.source / l.format.framesPerBlock, source := v.cursor.source, frames := v.runFrames l
            stream := v.cursor.stream, damaged := false } ∧
        (t.voice slot).reads = v.reads ∧ (∀ x, t.die x = s.die x) ∧
        (∃ u, v.givenRun l u ∧ t.RunsGiven l u w (t.voice slot) (t.window v.window)) ∧
        (∀ x, x ≠ v.window → t.window x = s.window x) ∧
        ∀ n, n ≠ slot → t.voice n = s.voice n) ∧
    ((s.die d).state = .ready → (s.die d).operation = none → nothingWaits s d →
      ∃ t, exec .fetchEnqueue s = .next t ∧ t.enqueueCount = s.enqueueCount + 1 ∧
        t.queue.length = s.queue.length ∧ (t.voice slot).reads = v.reads + 1 ∧
        (∃ u x, v.givenRun l u ∧ t.RunsGiven l u w x (t.window v.window) ∧ t.voice slot = { x with reads := v.reads + 1 }) ∧
        (∀ x, x ≠ v.window → t.window x = s.window x) ∧
        (∀ n, n ≠ slot → t.voice n = s.voice n) ∧
        t.die d = { s.die d with
          state := .addressing, retries := 0
          operation := some { work := .read e, attempt := 1, discard := false, pollInterval := s.tunables.pollInterval
                              timeout := s.tunables.readTimeout } } ∧
        .dieAddress d (a / 16) ∈ t.out)) ∧
  (∀ (s : State) (slot a : Nat) (l : Layout), s.fillChoice = some (.voice slot a) →
    s.layoutOf (s.voice slot) = some l → (s.voice slot).runFits l = false →
    (s.die (dieOf a)).operation.isSome = true ∨ nothingWaits s (dieOf a) →
    ∃ t, exec .fetchEnqueue s = .next t ∧ (s.voice slot).givenRun l (t.voice slot) ∧ SameQueue s t ∧ SameDies s t ∧
      (∀ n, n ≠ slot → t.voice n = s.voice n) ∧ ∀ w, t.window w = s.window w) ∧
  (∀ (s : State) (id a : Nat) (l : Load), s.fillChoice = some (.load id a) → (s.record id).load = some l →
    (s.die (dieOf a)).operation.isSome = true → (∀ d, s.dieOffline d = false) →
    ∃ t, exec .fetchEnqueue s = .next t ∧ t.enqueueCount = s.enqueueCount + 1 ∧
      (t.record id).load = some { l with nextBlock := l.nextBlock + 1 } ∧
      { owner := .load id (s.record id).generation, address := a, destination := .headBlock l.slot l.nextBlock
        deadline := s.pace.index + s.tunables.loadAllowance, stamp := s.enqueueCount } ∈ t.queue ∧
      ∀ x, t.die x = s.die x) ∧
  (∀ (s : State) (id a : Nat) (l : Load), s.fillChoice = some (.load id a) → (s.record id).load = some l →
    (s.die (dieOf a)).state = .ready → (s.die (dieOf a)).operation = none → nothingWaits s (dieOf a) →
    (∀ d, s.dieOffline d = false) →
    ∃ t, exec .fetchEnqueue s = .next t ∧ t.enqueueCount = s.enqueueCount + 1 ∧ t.queue.length = s.queue.length ∧
      t.record id = { s.record id with
        load := some { l with nextBlock := l.nextBlock + 1 }, loadReads := (s.record id).loadReads + 1 } ∧
      (∀ j, j ≠ id → t.record j = s.record j) ∧ SameVoices s t ∧ (∀ x, x ≠ dieOf a → t.die x = s.die x) ∧
      t.die (dieOf a) = { s.die (dieOf a) with
        state := .addressing, retries := 0
        operation := some (s.begun (.read
          { owner := .load id (s.record id).generation, address := a, destination := .headBlock l.slot l.nextBlock
            deadline := s.pace.index + s.tunables.loadAllowance, stamp := s.enqueueCount })) } ∧
      .dieAddress (dieOf a) (a / 16) ∈ t.out) ∧
  (∀ s : State, s.fillChoice = none → s.completions = [] → exec .fetchEnqueue s = .next s) ∧
  (∀ s : State, s.Canonical → (∀ m, (s.voice m).priority ≤ 15) →
    (∀ c, s.fillChoice = some c → s.registers.engine = .ready ∧ s.queue.length < 4096 ∧ s.waitsForFetch c ∧
      ∀ x, s.waitsForFetch x → x ≠ c → s.candidateDeadline c < s.candidateDeadline x ∨
        (s.candidateDeadline c = s.candidateDeadline x ∧ s.servedBefore c x)) ∧
    (s.fillChoice = none → s.registers.engine = .ready → s.queue.length < 4096 → ∀ x, ¬ s.waitsForFetch x)) ∧
  (∀ (s : State) (id a : Nat), s.candidateDeadline (.load id a) = s.pace.index + s.tunables.loadAllowance) ∧
  ∀ (s : State) (slot a : Nat), 0 < s.pace.period * (s.voice slot).rate →
    let v := s.voice slot
    let step := s.pace.period * v.rate
    ∃ n, s.candidateDeadline (.voice slot a) = s.pace.index + n ∧
      v.cursor.stream * 65536 ≤ v.consumed + n * step ∧
      ∀ m, v.cursor.stream * 65536 ≤ v.consumed + m * step → n ≤ m

/-- The phases of a read and a program that do not end it (R122, R123, R133): the address acknowledged, the polls, the answers,
the data phase of a program, whose bytes, the command's (log 34), go to the die with their block CRC after them, least significant
byte first. An answer is taken as that of the operation in flight (the model's choice, log 50). A marked operation goes on through
its phases alike (the model's reading of R138, log 18). -/
def Obligations.DiePhases : Prop :=
  ∀ (s : State) (d : Fin 16) (o : Operation), (s.die d.val).operation = some o → s.completions = [] →
    (∀ e, o.work = .read e →
      ((s.die d.val).state = .addressing →
        exec (.dieAddressAck d) s = .next (s.setDie d.val { s.die d.val with state := .polling })) ∧
      ((s.die d.val).state = .polling →
        (∀ n, exec (.dieReadyAnswer d n) s = .next (s.setDie d.val { s.die d.val with state := .transferring })) ∧
        (∀ n, exec (.dieBusyAnswer d n) s = .next s) ∧
        exec (.diePollInterval d) s = .next { s with out := s.out ++ [.diePoll d.val] })) ∧
    ∀ p, o.work = .program p →
      ((s.die d.val).state = .addressing →
        ∃ t, exec (.dieAddressAck d) s = .next t ∧ t.die d.val = { s.die d.val with state := .transferring } ∧
          t.out = s.out ++ [.hostRead p.host 4096]) ∧
      ((s.die d.val).state = .transferring → ∀ data,
        ∃ t, exec (.programDataPhaseEnd d data) s = .next t ∧ t.die d.val = { s.die d.val with state := .polling } ∧
          t.out = s.out ++ [.dieProgram d.val (data ++ leBytes 4 (crc32 data).toNat)]) ∧
      ((s.die d.val).state = .polling →
        (∀ n, exec (.dieBusyAnswer d n) s = .next s) ∧
        exec (.diePollInterval d) s = .next { s with out := s.out ++ [.diePoll d.val] })

/-- DIE_TRANSFER_END of a voice's read with a good block CRC (R44, R123, R125): the data go into the AWAITED place, which is
FILLED, reads in flight fall by one, and the die, with nothing waiting for it, stands READY; no other byte, place, voice, record
or die changes. A read of a voice in ENDING (R45, R73, R125) writes nothing: its place is EMPTY, reads in flight fall by one, and
the voice becomes FREE and its window returns to the pool where that was its last read and its END is posted. Whatever waits for
the die, the die then begins what its arbiter chooses (R129). The transfer buffer is empty between events (log 33), and a die's
command is taken as that of the operation in flight (the model's choice, log 50). -/
def Obligations.VoiceReadEndsWell : Prop :=
  (∀ (s : State) (d : Fin 16) (o : Operation) (f : FetchEntry) (slot w i : Nat) (l : Layout) (r : Run)
    (data : List Byte),
    s.registers.engine = .ready → (s.die d.val).operation = some o → o.work = .read f → o.discard = false →
    (s.die d.val).state = .transferring → nothingWaits s d.val →
    f.owner = .voice slot (s.voice slot).generation → f.destination = .place w i → (s.voice slot).sounding = true →
    s.layoutOf (s.voice slot) = some l → (s.window w).place i = .awaited r → s.completions = [] →
    ∃ t, exec (.dieTransferEnd d data (leBytes 4 (crc32 data).toNat)) s = .next t ∧
      t.die d.val = { s.die d.val with state := .ready, operation := none, retries := 0, buffer := [] } ∧
      (t.window w).place i = .filled r ∧ (∀ j, j ≠ i → (t.window w).place j = (s.window w).place j) ∧
      (∀ j, j ≠ w → t.window j = s.window j) ∧
      t.voice slot = { s.voice slot with reads := (s.voice slot).reads - 1 } ∧
      (∀ n, n ≠ slot → t.voice n = s.voice n) ∧
      (∀ k, k < data.length → Memory.read t.dram (s.placeBase w i + k) = data.getD k 0#8) ∧
      (∀ a, a < s.placeBase w i ∨ s.placeBase w i + data.length ≤ a → Memory.read t.dram a = Memory.read s.dram a) ∧
      SameCatalog s t ∧ SameQueue s t ∧ t.stores = s.stores ∧ (∀ x, x ≠ d.val → t.die x = s.die x) ∧
      t.registers = s.registers) ∧
  (∀ (s : State) (d : Fin 16) (o : Operation) (f : FetchEntry) (slot w i : Nat) (l : Layout) (r : Run)
    (data : List Byte),
    s.registers.engine = .ready → (s.die d.val).operation = some o → o.work = .read f → o.discard = false →
    (s.die d.val).state = .transferring → f.owner = .voice slot (s.voice slot).generation →
    f.destination = .place w i → (s.voice slot).sounding = true → s.layoutOf (s.voice slot) = some l →
    (s.window w).place i = .awaited r →
    ∃ t, exec (.dieTransferEnd d data (leBytes 4 (crc32 data).toNat)) s = .next t ∧ (t.window w).place i = .filled r ∧
      (t.die d.val).operation = (s.dieChoice d.val).map s.begun ∧
      (t.voice slot).reads = (s.voice slot).reads - 1 + s.readsBegun d.val (Owner.isVoice slot)) ∧
  ∀ (s : State) (d : Fin 16) (o : Operation) (f : FetchEntry) (slot w i : Nat) (data : List Byte),
    s.registers.engine = .ready → (s.die d.val).operation = some o → o.work = .read f → o.discard = false →
    (s.die d.val).state = .transferring → nothingWaits s d.val →
    f.owner = .voice slot (s.voice slot).generation → f.destination = .place w i → (s.voice slot).state = .ending →
    s.completions = [] →
    let v := s.voice slot
    ∃ t, exec (.dieTransferEnd d data (leBytes 4 (crc32 data).toNat)) s = .next t ∧ t.die d.val = (s.die d.val).ended .ready ∧
      (t.window w).place i = .empty ∧ SameDram s t ∧ SameCatalog s t ∧ SameQueue s t ∧
      (∀ n, n ≠ slot → t.voice n = s.voice n) ∧
      (v.endPosted = true ∧ v.reads ≤ 1 →
        t.voice slot = { v with state := .free, reads := 0 } ∧ ∀ j, (t.window v.window).place j = .empty) ∧
      (v.endPosted = false ∨ 1 < v.reads →
        t.voice slot = { v with reads := v.reads - 1 } ∧
        (∀ j, j ≠ i → (t.window w).place j = (s.window w).place j) ∧ ∀ j, j ≠ w → t.window j = s.window j)

/-- A read attempt that ends with CRC_MISMATCH or ADDRESS_REFUSED (R123, R124): below the retry limit the next attempt's address
phase begins; a mismatch raises the block check counter. An operation whose discard mark is set (R125, R138, R139) ends at the end
of its attempt or phase and makes no retry: it hands over no outcome, lowers and raises no count, and writes no status (log 18); a
timeout of one while READY is DieGoesOffline's. Whatever waits for a die that a marked operation leaves READY, its arbiter then
gives the die the next operation (R128, R129); a REVIVE_DIE passed over reports the state before that choice (log 20). During an
engine reset the arbiter chooses nothing, whatever waits, and a timeout latches DIE_FAULT and removes the die's queued entries and
program entries without outcome: no place is filled, no load and no STORE fails (R139). The transfer buffer is empty between
events (log 33), and a die's command is taken as that of the operation in flight (the model's choice, log 50). -/
def Obligations.ReadRetries : Prop :=
  (∀ (s : State) (d : Fin 16) (o : Operation) (f : FetchEntry), s.registers.engine = .ready →
    (s.die d.val).operation = some o → o.work = .read f → o.discard = false →
    (s.die d.val).retries < s.tunables.retryLimit → s.completions = [] →
    let retried : Die := { s.die d.val with
      state := .addressing, retries := (s.die d.val).retries + 1, buffer := []
      operation := some { o with
        attempt := o.attempt + 1, pollInterval := s.tunables.pollInterval, timeout := s.tunables.readTimeout } }
    ((s.die d.val).state = .transferring → ∀ data stored : List Byte,
      leField stored 0 4 ≠ (crc32 data).toNat →
      ∃ t, exec (.dieTransferEnd d data stored) s = .next t ∧ t.die d.val = retried ∧
        t.out = s.out ++ [.dieAddress d.val (f.address / 16)] ∧
        t.registers.counters = s.registers.counters.rise .blockCheck ∧
        t.registers.status = s.registers.status ∧ SameVoices s t ∧ SameCatalog s t ∧ SameDram s t) ∧
    ((s.die d.val).state = .addressing →
      ∃ t, exec (.dieAddressRefused d) s = .next t ∧ t.die d.val = retried ∧
        t.out = s.out ++ [.dieAddress d.val (f.address / 16)] ∧ t.registers = s.registers ∧ SameVoices s t ∧
        SameCatalog s t ∧ SameDram s t)) ∧
  (∀ (s : State) (d : Fin 16) (o : Operation) (c : Instr), s.registers.engine = .ready →
    (s.die d.val).operation = some o → o.discard = true → endsWork s d o .ready c →
    let idle := s.setDie d.val ((s.die d.val).ended .ready)
    ∃ t, exec c s = .next t ∧ idle.Arbitrated t d.val ∧ idle.revivesWritten t d.val) ∧
  ∀ (s : State) (d : Fin 16) (o : Operation) (after : DieState) (c : Instr), s.completions = [] →
    (s.die d.val).operation = some o → o.discard = true → endsWork s d o after c →
    let late : Prop := c = .readTimeout d ∨ c = .programTimeout d
    (s.registers.engine = .ready ∧ nothingWaits s d.val ∧ ¬ late) ∨
      (s.registers.engine = .resetting ∧ ∃ x, x ≠ d.val ∧ (s.die x).operation.isSome = true) →
    ∃ t, exec c s = .next t ∧
      (¬ late → t.die d.val = (s.die d.val).ended after ∧ SameQueue s t) ∧
      (late → t.die d.val = { (s.die d.val).ended after with programs := [] } ∧
        t.queue = s.queue.filter (fun e => dieOf e.address != d.val) ∧ t.enqueueCount = s.enqueueCount ∧
        t.latched .dieFault = true) ∧
      (∀ x, x ≠ d.val → t.die x = s.die x) ∧
      t.stores = s.stores ∧ t.requests = s.requests ∧ t.delivery = s.delivery ∧ t.pace = s.pace ∧
      t.registers = { s.registers with status := t.registers.status } ∧
      (∀ f : Flag, f ≠ .dieFault → f ≠ .portError → t.latched f = s.latched f) ∧
      (¬ late → t.latched .dieFault = s.latched .dieFault) ∧
      (c ≠ .programDmaFailed d → t.latched .portError = s.latched .portError) ∧
      SameVoices s t ∧ SameCatalog s t ∧ SameDram s t

/-- A voice's read that ends UNRECOVERED (R44, R123 to R125), its retry limit reached, by a refused address or a CRC mismatch: the
unrecovered counter rises, and at a mismatch the block check counter too, BLOCK_FAULT is latched, and the place is FILLED with
zero frames and its damaged mark. A voice's read lost with its die (R44, R112, R126): its place is FILLED with zero frames and its
damaged mark and reads in flight fall by one. No load runs here. The transfer buffer is empty between events (log 33), and a die's
command is taken as that of the operation in flight (the model's choice, log 50). -/
def Obligations.VoiceReadsLost : Prop :=
  (∀ (s : State) (d : Fin 16) (o : Operation) (f : FetchEntry) (slot w i : Nat) (l : Layout) (r : Run) (c : Instr)
    (counters : Counters),
    s.registers.engine = .ready → (s.die d.val).operation = some o → o.work = .read f → o.discard = false →
    endsUnrecovered s d c counters → nothingWaits s d.val →
    f.owner = .voice slot (s.voice slot).generation → f.destination = .place w i → (s.voice slot).sounding = true →
    s.layoutOf (s.voice slot) = some l → (s.window w).place i = .awaited r → s.completions = [] →
    ∃ t, exec c s = .next t ∧ t.die d.val = (s.die d.val).ended .ready ∧
      (t.window w).place i = .filled { r with damaged := true } ∧ t.registers.counters = counters ∧
      t.latched .blockFault = true ∧
      t.voice slot = { s.voice slot with reads := (s.voice slot).reads - 1 } ∧
      let base := s.placeBase w i + r.source % l.format.framesPerBlock * l.format.frameBytes
      (∀ k, k < r.frames * l.format.frameBytes → Memory.read t.dram (base + k) = 0#8) ∧
        ∀ a, a < base ∨ base + r.frames * l.format.frameBytes ≤ a → Memory.read t.dram a = Memory.read s.dram a) ∧
  (∀ (s : State) (d : Fin 16) (o : Operation) (f : FetchEntry) (slot w i : Nat) (l : Layout) (r : Run), s.Canonical →
    s.registers.engine = .ready → (s.die d.val).operation = some o → o.work = .read f → o.discard = false →
    f.owner = .voice slot (s.voice slot).generation → f.destination = .place w i → (s.voice slot).sounding = true →
    s.layoutOf (s.voice slot) = some l → (s.window w).place i = .awaited r → (∀ id, (s.record id).load = none) →
    ∃ t, exec (.readTimeout d) s = .next t ∧ (t.window w).place i = .filled { r with damaged := true } ∧
      (∀ a, s.inRun w i r l.format a → Memory.read t.dram a = 0#8) ∧ (t.voice slot).reads = (s.voice slot).reads - 1 ∧
      (t.voice slot).sounding = true)

/-- A load's read that ends well (R37, R40, R125): the block goes into its place in the slot; at the last block, without a
signature or with a matching one, the record is RESIDENT at the front of the recency list and its LOAD_HEAD is written DONE with
the slot and the evicted record. A load whose signature does not match fails at its last block (R37 to R39): the record is STALE
with reason MISMATCH and no slot, and its LOAD_HEAD is written SIGNATURE_MISMATCH with both values; no voice plays the record
there. A load whose read ends UNRECOVERED, by a refused address or a CRC mismatch at the retry limit (R123, R124), fails
BLOCK_ERROR (R39): the unrecovered counter rises, and at a mismatch the block check counter too; its queued entries leave, the
voices naming the record end STALE, the record is STALE with no slot, its LOAD_HEAD is written with the block and the blocks
arrived, and its slot is RECLAIMING while other reads of it run. A read of a load that has failed or been abandoned (R7, R17, R32)
writes nothing: its RECLAIMING slot's count falls, and the slot is FREE at 0; the record's count falls with it, and a RETIRING
record left with no voice and no read becomes VACANT, its RETIRE written DONE. The transfer buffer is empty between events (the
model's reading, log 33), and a die's command is taken as that of the operation in flight (the model's choice, log 50). -/
def Obligations.LoadReadsEnd : Prop :=
  (∀ (s : State) (d : Fin 16) (o : Operation) (f : FetchEntry) (id k : Nat) (l : Load) (y : Layout) (data : List Byte),
    s.registers.engine = .ready → (s.die d.val).operation = some o → o.work = .read f → o.discard = false →
    (s.die d.val).state = .transferring → nothingWaits s d.val →
    f.owner = .load id (s.record id).generation → f.destination = .headBlock l.slot k →
    (s.record id).state = .loading → (s.record id).load = some l → (s.record id).layout = some y → s.completions = [] →
    ∃ t, exec (.dieTransferEnd d data (leBytes 4 (crc32 data).toNat)) s = .next t ∧
      (∀ j, j < data.length → Memory.read t.dram (s.slotBase l.slot + k * 4096 + j) = data.getD j 0#8) ∧
      (∀ a, a < s.slotBase l.slot + k * 4096 ∨ s.slotBase l.slot + k * 4096 + data.length ≤ a →
        Memory.read t.dram a = Memory.read s.dram a) ∧
      (t.record id).loadReads = (s.record id).loadReads - 1 ∧
      (l.arrived.length + 1 ≠ y.headBlocks →
        (t.record id).state = .loading ∧ (t.record id).load = some { l with arrived := k :: l.arrived }) ∧
      (l.arrived.length + 1 = y.headBlocks →
        (∀ g, y.signature = some g → t.signatureCrc l.slot y g = g.expected) →
        (t.record id).state = .resident ∧ (t.record id).load = none ∧
          t.recency = id :: s.recency.filter (· != id) ∧
          wroteAt s t l.token.address (doneBytes .ok (BitVec.ofNat 32 l.slot) (evictedWord l.evicted)))) ∧
  (∀ (s : State) (d : Fin 16) (o : Operation) (f : FetchEntry) (id k : Nat) (l : Load) (y : Layout) (g : Signature)
    (data : List Byte),
    s.registers.engine = .ready → (s.die d.val).operation = some o → o.work = .read f → o.discard = false →
    (s.die d.val).state = .transferring → nothingWaits s d.val →
    f.owner = .load id (s.record id).generation → f.destination = .headBlock l.slot k →
    (s.record id).state = .loading → (s.record id).load = some l → (s.record id).layout = some y →
    y.signature = some g → l.arrived.length + 1 = y.headBlocks →
    s.slotsPlaying id (s.record id).generation = [] → s.completions = [] →
    ∃ t, exec (.dieTransferEnd d data (leBytes 4 (crc32 data).toNat)) s = .next t ∧
      (t.signatureCrc l.slot y g ≠ g.expected →
        (t.record id).state = .stale ∧ (t.record id).staleReason = .mismatch ∧ (t.record id).headSlot = none ∧
          (t.record id).load = none ∧
          wroteAt s t l.token.address (doneBytes .signatureMismatch (t.signatureCrc l.slot y g) g.expected))) ∧
  (∀ (s : State) (d : Fin 16) (o : Operation) (f : FetchEntry) (id k : Nat) (l : Load) (c : Instr) (counters : Counters),
    s.Canonical → s.registers.engine = .ready → (s.die d.val).operation = some o → o.work = .read f → o.discard = false →
    endsUnrecovered s d c counters → nothingWaits s d.val →
    f.owner = .load id (s.record id).generation → f.destination = .headBlock l.slot k →
    (s.record id).state = .loading → (s.record id).load = some l → (∀ r ∈ s.reclaiming, r.slot ≠ l.slot) →
    s.completions = [] →
    ∃ t, exec c s = .next t ∧ t.latched .blockFault = true ∧ t.registers.counters = counters ∧
      t.die d.val = (s.die d.val).ended .ready ∧ SameDram s t ∧
      (t.record id).state = .stale ∧ (t.record id).staleReason = .blockError ∧ (t.record id).headSlot = none ∧
      (t.record id).load = none ∧ (t.record id).loadReads = (s.record id).loadReads - 1 ∧
      (∀ j, j ≠ id → t.record j = s.record j) ∧ (∀ e ∈ t.queue, e.owner ≠ .load id (s.record id).generation) ∧
      (∀ m, (s.voice m).plays id (s.record id).generation = true → t.voice m = (s.voice m).endedWith .stale) ∧
      (∀ m, (s.voice m).plays id (s.record id).generation = false → t.voice m = s.voice m) ∧
      t.reclaiming = s.reclaiming ++
        (if 1 < (s.record id).loadReads then
          [{ slot := l.slot, outstanding := (s.record id).loadReads - 1, id := id
             generation := (s.record id).generation }]
        else []) ∧
      wroteAt s t l.token.address
        (doneBytes .blockError (BitVec.ofNat 32 k) (BitVec.ofNat 32 l.arrived.length))) ∧
  (∀ (s : State) (d : Fin 16) (o : Operation) (f : FetchEntry) (id slot k : Nat) (g : Generation) (before after : List Reclaim)
    (r : Reclaim) (data : List Byte),
    s.registers.engine = .ready → (s.die d.val).operation = some o → o.work = .read f → o.discard = false →
    (s.die d.val).state = .transferring → nothingWaits s d.val →
    f.owner = .load id g → f.destination = .headBlock slot k →
    (s.record id).load = none ∨ (s.record id).generation ≠ g →
    s.reclaiming = before ++ r :: after → r.slot = slot → r.id = id → r.generation = g →
    (∀ q ∈ before ++ after, q.slot ≠ slot) → s.completions = [] →
    ∃ t, exec (.dieTransferEnd d data (leBytes 4 (crc32 data).toNat)) s = .next t ∧ SameDram s t ∧ SameVoices s t ∧ SameQueue s t ∧
      t.reclaiming = before ++ (if r.outstanding ≤ 1 then [] else [{ r with outstanding := r.outstanding - 1 }]) ++ after ∧
      (∀ j, j ≠ id → t.record j = s.record j) ∧
      ((s.record id).state = .vacant ∨ (s.record id).generation ≠ g → (s.record id).state ≠ .retiring →
        t.record id = s.record id) ∧
      ((s.record id).state ≠ .vacant → (s.record id).generation = g →
        (s.record id).state ≠ .retiring ∨ 0 < (s.record id).refs ∨ 1 < (s.record id).loadReads →
        t.record id = { s.record id with loadReads := (s.record id).loadReads - 1 }) ∧
      (∀ token, (s.record id).state = .retiring → (s.record id).generation = g → (s.record id).refs = 0 →
        (s.record id).loadReads ≤ 1 → (s.record id).retire = some token →
        (t.record id).state = .vacant ∧ (t.record id).generation = g ∧
          ∃ word0 word1, wroteAt s t token.address (doneBytes .ok word0 word1)))

/-- A program's success (R133, R135): the STORE counts the block, whether or not it has failed already. A program's failure on a
die that stays in service (R134, R135): by a refused address, or by a failed DMA read, which also latches PORT_ERROR. A first
failure is recorded with its block, and the STORE's queued entries leave every die; a later one lowers the programs in flight and
records nothing more. While something of the STORE is queued or in flight it stays in the table; with nothing left it leaves, and
is written DONE: OK with the blocks programmed, or BLOCK_ERROR with them and the first block that failed. The other STOREs are as
they were. Whatever waits for the die, the die then begins what its arbiter chooses (R129); the REVIVE_DIEs that the arbiter
passes over at the head of the poll list are written DONE OK without a POLL (R128), return word 0 being READY, the state before
its choice (the model's reading, log 20). The transfer buffer is empty between events (log 33), and a die's command is taken as
that of the operation in flight (the model's choice, log 50). -/
def Obligations.ProgramsEnd : Prop :=
  (∀ (s : State) (d : Fin 16) (o : Operation) (p : ProgramEntry) (x : StoreEntry) (n : Word),
    s.registers.engine = .ready → (s.die d.val).operation = some o → o.work = .program p → o.discard = false →
    (s.die d.val).state = .polling → x ∈ s.stores → (∀ z ∈ s.stores, z.place = x.place → z = x) → x.place = p.place →
    let y : StoreEntry := { x with programmed := x.programmed + 1, inFlight := x.inFlight - 1 }
    let idle : State := { s.setDie d.val ((s.die d.val).ended .ready) with stores := s.storesAfter x y }
    ∃ t, exec (.dieReadyAnswer d n) s = .next t ∧ idle.Arbitrated t d.val ∧ idle.revivesWritten t d.val ∧
      (y.queued = 0 → y.inFlight = 0 → wroteAt s t x.token.address y.doneStatus) ∧
      t.registers.counters = s.registers.counters ∧ SameDram s t ∧
      (nothingWaits s d.val → SameCatalog s t ∧ SameVoices s t ∧ SameQueue s t)) ∧
  ∀ (s : State) (d : Fin 16) (o : Operation) (p : ProgramEntry) (x : StoreEntry) (c : Instr), s.Canonical →
    s.registers.engine = .ready → (s.die d.val).operation = some o → o.work = .program p → o.discard = false →
    ((s.die d.val).state = .addressing ∧ c = .dieAddressRefused d) ∨
      ((s.die d.val).state = .transferring ∧ c = .programDmaFailed d) →
    x ∈ s.stores → (∀ z ∈ s.stores, z.place = x.place → z = x) → x.place = p.place →
    let y := x.afterFailure p.address
    let kept (q : ProgramEntry) : Bool := x.failure.isSome || q.place != x.place
    ∃ idle t : State, exec c s = .next t ∧
      idle = { s with dies := idle.dies, stores := s.storesAfter x y } ∧
      idle.die d.val = { (s.die d.val).ended .ready with programs := (s.die d.val).programs.filter kept } ∧
      (∀ j, j ≠ d.val → idle.die j = { s.die j with programs := (s.die j).programs.filter kept }) ∧
      idle.Arbitrated t d.val ∧ idle.revivesWritten t d.val ∧
      (y.queued = 0 → y.inFlight = 0 → wroteAt s t x.token.address y.doneStatus) ∧
      (c = .programDmaFailed d → t.latched .portError = true) ∧ t.registers.counters = s.registers.counters ∧
      SameDram s t ∧ (nothingWaits s d.val → SameCatalog s t ∧ SameVoices s t ∧ SameQueue s t)

/-- A POLL's end (R127, R128, R130): by a ready answer, a busy answer, or the read timeout it started with. PROBE_DIE reports
READY, BUSY or ABSENT and leaves the die as it was; REVIVE_DIE takes an OFFLINE die that is ready into service, and is written
DIE_OFFLINE otherwise. The microseconds of return word 1 are the answer's operand, at least 1, and at a silent POLL the timeout it
started with, 100 microseconds a unit (the model's choice, log 12). A READY die is then given what its arbiter chooses (R129): the
REVIVE_DIEs next in the poll list are written DONE OK without a POLL (R128); then the next POLL, a fetch within the program guard,
a program, a fetch, in this order. A die still OFFLINE is given the POLL of its next request. Return word 0 is the state before
that choice (the model's reading, log 20). The transfer buffer is empty between events (log 33), and a die's command is taken as
that of the operation in flight (the model's choice, log 50). -/
def Obligations.PollEnds : Prop :=
  ∀ (s : State) (d : Fin 16) (o : Operation) (q : PollRequest) (rest : List PollRequest) (c : Instr) (result : Result)
    (ready : Bool) (elapsed : Nat),
    s.registers.engine = .ready → (s.die d.val).operation = some o → o.work = .poll → o.discard = false →
    (s.die d.val).polls = q :: rest → (s.die d.val).state = .polling ∨ (s.die d.val).state = .offline →
    s.completions = [] →
    ((∃ n : Word, c = .dieReadyAnswer d n ∧ elapsed = n.toNat ∧ ready = true ∧
        result = if q.revive then .ok else .ready) ∨
      (∃ n : Word, c = .dieBusyAnswer d n ∧ elapsed = n.toNat ∧ ready = false ∧
        result = if q.revive then .dieOffline else .busy) ∨
      (c = .pollTimeout d ∧ elapsed = o.timeout * 100 ∧ ready = false ∧
        result = if q.revive then .dieOffline else .absent)) →
    let after : DieState :=
      if (s.die d.val).state = .offline ∧ ¬ (q.revive = true ∧ ready = true) then .offline else .ready
    let idle := s.setDie d.val { (s.die d.val).ended after with polls := rest }
    ∃ t, exec c s = .next t ∧
      wroteAt s t q.token.address
        (doneBytes result (BitVec.ofNat 32 after.code) (BitVec.ofNat 32 (max 1 elapsed))) ∧
      (q.token.notify = true → t.latched .requestDone = true) ∧ t.registers.counters = s.registers.counters ∧
      (rest = [] → (s.die d.val).programs = [] → s.subQueue d.val = [] →
        t.die d.val = idle.die d.val ∧ t.requests.lastTag = q.token.tag ∧ SameCatalog s t ∧ SameVoices s t ∧
          SameQueue s t ∧ SameDram s t) ∧
      (after = .ready → idle.Arbitrated t d.val ∧ idle.revivesWritten t d.val) ∧
      (after = .offline → rest ≠ [] →
        t.die d.val = { idle.die d.val with operation := some (s.begun .poll) } ∧ .diePoll d.val ∈ t.out ∧
          SameCatalog s t ∧ SameVoices s t ∧ SameQueue s t ∧ SameDram s t)

/-- A timeout of a read attempt or of a program takes the die OFFLINE (R126, R108, R112): DIE_FAULT is latched, its queue and its
program queue are emptied, and the poll list stays, no POLL beginning at this event (the model's reading of R129, log 19). A
voice's queued entry for the die fails (R112): its place is FILLED with its damaged mark. A load with the timed-out read or queued
entries on the die fails DIE_OFFLINE once, at the lowest head block among them; a load with its next head block unqueued on the
die fails at that block (R39, R106). A STORE with entries in the die's program queue fails at the lowest of them, and one whose
program timed out at that block (R134); with no program in flight it is written BLOCK_ERROR (R135). A STORE that has failed
already keeps its first failure when a program of it times out. Each voice that sounds on is given the runs whose blocks now lie
on an OFFLINE die, as FILLED damaged places (R106). The frames of the damaged places read 0 (R44), and every other byte reads as
before, but for places not yet FILLED, in the windows of voices that were sounding. The transfer buffer is empty between events
(log 33), and a die's command is taken as that of the operation in flight (the model's choice, log 50). -/
def Obligations.DieGoesOffline : Prop :=
  (∀ (s : State) (d : Fin 16) (o : Operation) (c : Instr), timesOut s d o c →
    ∃ t, exec c s = .next t ∧ t.latched .dieFault = true ∧
      t.die d.val = { s.die d.val with state := .offline, operation := none, retries := 0, buffer := [], programs := [] } ∧
      (∀ e ∈ t.queue, e ∈ s.queue ∧ dieOf e.address ≠ d.val) ∧
      ∀ x, x ≠ d.val → (t.die x).state = (s.die x).state ∧ (t.die x).operation = (s.die x).operation ∧
        (t.die x).polls = (s.die x).polls) ∧
  (∀ (s : State) (d : Fin 16) (o : Operation) (c : Instr) (e : FetchEntry) (slot i : Nat) (l : Layout) (r : Run),
    timesOut s d o c → s.WindowsHeldOnce → (∀ id, (s.record id).load = none) → e ∈ s.queue → dieOf e.address = d.val →
    e.owner = .voice slot (s.voice slot).generation → e.destination = .place (s.voice slot).window i →
    (∀ f, o.work = .read f → f.destination ≠ e.destination) → 0 < (s.record (s.voice slot).sampleId).refs →
    (s.voice slot).sounding = true → s.layoutOf (s.voice slot) = some l →
    (s.window (s.voice slot).window).place i = .awaited r →
    ∃ t, exec c s = .next t ∧ (t.window (s.voice slot).window).place i = .filled { r with damaged := true } ∧
      (t.voice slot).sounding = true ∧
      ((∀ f, o.work = .read f → f.owner ≠ e.owner) → (t.voice slot).reads = (s.voice slot).reads) ∧
      ((∀ x ∈ s.queue, x.destination = e.destination → x.owner = e.owner) →
        ∀ a, s.inRun (s.voice slot).window i r l.format a → Memory.read t.dram a = 0#8)) ∧
  (∀ (s : State) (d : Fin 16) (o : Operation) (c : Instr), timesOut s d o c → s.WindowsHeldOnce →
    (∀ f n i, o.work = .read f → (s.voice n).sounding = true → f.destination = .place (s.voice n).window i →
      f.owner = .voice n (s.voice n).generation) →
    ∃ t, exec c s = .next t ∧
      (∀ a, Memory.read t.dram a = Memory.read s.dram a ∨
        (Memory.read t.dram a = 0#8 ∧ (s.lostByte d.val o a ∨ s.unfilledByte a))) ∧
      (∀ a, silentByte s t a → Memory.read t.dram a = 0#8) ∧
      ∀ n, (s.voice n).sounding = true → (t.voice n).sounding = true →
        ∃ x, s.PlacesLost d.val o (s.voice n).window x ∧
          s.GivenRuns t n { s.voice n with reads := (t.voice n).reads } x) ∧
  (∀ (s : State) (d : Fin 16) (o : Operation) (c : Instr) (id k : Nat) (l : Load), timesOut s d o c → o.discard = false →
    (s.record id).state = .loading → (s.record id).load = some l →
    let lost (e : FetchEntry) (j : Nat) : Prop := ((e ∈ s.queue ∧ dieOf e.address = d.val) ∨ o.work = .read e) ∧
      e.owner = .load id (s.record id).generation ∧ ∃ n, e.destination = .headBlock n j
    ((∃ e, lost e k) ∧ ∀ e j, lost e j → k ≤ j) ∨
      ((∀ e j, ¬ lost e j) ∧ k = l.nextBlock ∧ ∃ a, (s.record id).loadAddress = some a ∧ dieOf a = d.val) →
    ∃ t, exec c s = .next t ∧ (t.record id).state = .stale ∧ (t.record id).staleReason = .dieOffline ∧
      (t.record id).headSlot = none ∧ (t.record id).load = none ∧
      (∀ e ∈ t.queue, e.owner ≠ .load id (s.record id).generation) ∧
      (∀ m, (s.voice m).plays id (s.record id).generation = true →
        (t.voice m).state = .ending ∧ (t.voice m).endReason = some .stale) ∧
      wroteAt s t l.token.address
        (doneBytes .dieOffline (BitVec.ofNat 32 k) (BitVec.ofNat 32 l.arrived.length))) ∧
  (∀ (s : State) (d : Fin 16) (o : Operation) (c : Instr) (p : ProgramEntry) (x : StoreEntry), timesOut s d o c →
    o.work = .program p → o.discard = false → x ∈ s.stores → (∀ z ∈ s.stores, z.place = x.place → z = x) →
    x.place = p.place → x.failure.isSome = true →
    let y := x.afterFailure p.address
    ∃ t, exec c s = .next t ∧
      (y.queued = 0 ∧ y.inFlight = 0 →
        (∀ z ∈ t.stores, z.place ≠ x.place) ∧ wroteAt s t x.token.address y.doneStatus) ∧
      (0 < y.queued ∨ 0 < y.inFlight → y ∈ t.stores)) ∧
  ∀ (s : State) (d : Fin 16) (o : Operation) (c : Instr) (x : StoreEntry) (a : Nat), timesOut s d o c → x ∈ s.stores →
    (∀ y ∈ s.stores, y.place = x.place → y = x) → x.failure = none →
    let queued (j : Nat) : Prop := ∃ q ∈ (s.die d.val).programs, q.place = x.place ∧ q.address = j
    let timedOut (j : Nat) : Prop := ∃ q, o.work = .program q ∧ o.discard = false ∧ q.place = x.place ∧ q.address = j
    timedOut a ∨ ((∀ j, ¬ timedOut j) ∧ queued a ∧ ∀ j, queued j → a ≤ j) →
    ∀ left, ((∃ j, timedOut j) → left = x.inFlight - 1) → ((∀ j, ¬ timedOut j) → left = x.inFlight) →
    ∃ t, exec c s = .next t ∧ (∀ j, ∀ q ∈ (t.die j).programs, q.place ≠ x.place) ∧
      (left = 0 → (∀ y ∈ t.stores, y.place ≠ x.place) ∧ wroteAt s t x.token.address
        (doneBytes .blockError (BitVec.ofNat 32 x.programmed) (BitVec.ofNat 32 a))) ∧
      (0 < left → { x with inFlight := left, queued := 0, failure := some a } ∈ t.stores)
end

