-- ==== Sys2Proof/Laws/Tables.lean ====
section
/-! SUPPORT. What reading finds after a write, and that every write keeps the canonical form: of the sparse tables and of the
DRAM. -/

namespace Sys2Proof.Machine

/-! ### Tables -/

theorem Table.get_insert_same {α : Type} (b v : α) (k : Nat) (t : Table α) : Table.get b (Table.insert k v t) k = v := by
  induction t with
  | nil => simp [Table.insert, Table.get]
  | cons e rest ih =>
    obtain ⟨k', v'⟩ := e
    simp only [Table.insert]
    split
    · simp [Table.get]
    · split
      · simp [Table.get]
      · rename_i _ h
        have : ¬ k' = k := fun e => h e.symm
        simp [Table.get, this, ih]

theorem Table.get_insert_other {α : Type} (b v : α) {k j : Nat} (t : Table α) (h : j ≠ k) :
    Table.get b (Table.insert k v t) j = Table.get b t j := by
  induction t with
  | nil => simp [Table.insert, Table.get, Ne.symm h]
  | cons e rest ih =>
    obtain ⟨k', v'⟩ := e
    simp only [Table.insert]
    split
    · simp [Table.get, Ne.symm h]
    · split
      · rename_i e; subst e; simp [Table.get, Ne.symm h]
      · simp [Table.get, ih]

theorem Table.get_erase_same {α : Type} (b : α) (k : Nat) (t : Table α) : Table.get b (Table.erase k t) k = b := by
  induction t with
  | nil => simp [Table.erase, Table.get]
  | cons e rest ih =>
    obtain ⟨k', v'⟩ := e
    simp only [Table.erase, List.filter_cons] at ih ⊢
    split
    · rename_i h
      have : ¬ k' = k := by simpa using h
      simp [Table.get, this, ih]
    · exact ih

theorem Table.get_erase_other {α : Type} (b : α) {k j : Nat} (t : Table α) (h : j ≠ k) :
    Table.get b (Table.erase k t) j = Table.get b t j := by
  induction t with
  | nil => simp [Table.erase, Table.get]
  | cons e rest ih =>
    obtain ⟨k', v'⟩ := e
    simp only [Table.erase, List.filter_cons] at ih ⊢
    split
    · simp [Table.get, ih]
    · rename_i hk
      have : k' = k := by simpa using hk
      have : ¬ k' = j := by omega
      simp [Table.get, this, ih]

@[simp] theorem Table.get_set_same {α : Type} [DecidableEq α] (b v : α) (k : Nat) (t : Table α) :
    Table.get b (Table.set b t k v) k = v := by
  unfold Table.set
  split
  · rename_i h; rw [Table.get_erase_same, h]
  · exact Table.get_insert_same b v k t

@[simp] theorem Table.get_set_other {α : Type} [DecidableEq α] (b v : α) {k j : Nat} (t : Table α) (h : j ≠ k) :
    Table.get b (Table.set b t k v) j = Table.get b t j := by
  unfold Table.set
  split
  · exact Table.get_erase_other b t h
  · exact Table.get_insert_other b v t h

theorem Table.wf_iff {α : Type} [DecidableEq α] (b : α) (t : Table α) :
    Table.wf b t = true ↔ t.Pairwise (fun a c => a.1 < c.1) ∧ ∀ e ∈ t, e.2 ≠ b := by
  simp [Table.wf]

theorem Table.mem_insert {α : Type} {k : Nat} {v : α} {t : Table α} {e : Nat × α} (h : e ∈ Table.insert k v t) :
    e = (k, v) ∨ e ∈ t := by
  induction t with
  | nil => simpa [Table.insert] using h
  | cons x rest ih =>
    obtain ⟨k', v'⟩ := x
    simp only [Table.insert] at h
    split at h
    · simpa using h
    · split at h
      · rcases List.mem_cons.mp h with h | h
        · exact .inl h
        · exact .inr (List.mem_cons_of_mem _ h)
      · rcases List.mem_cons.mp h with h | h
        · exact .inr (by simp [h])
        · rcases ih h with h | h
          · exact .inl h
          · exact .inr (List.mem_cons_of_mem _ h)

theorem Table.pairwise_insert {α : Type} (k : Nat) (v : α) (t : Table α) (h : t.Pairwise fun a c => a.1 < c.1) :
    (Table.insert k v t).Pairwise fun a c => a.1 < c.1 := by
  induction t with
  | nil => simp [Table.insert]
  | cons x rest ih =>
    obtain ⟨k', v'⟩ := x
    rw [List.pairwise_cons] at h
    simp only [Table.insert]
    split
    · rename_i hk
      refine List.pairwise_cons.mpr ⟨?_, List.pairwise_cons.mpr h⟩
      intro e he
      rcases List.mem_cons.mp he with rfl | he
      · exact hk
      · exact Nat.lt_trans hk (h.1 e he)
    · split
      · rename_i _ hk; subst hk; exact List.pairwise_cons.mpr h
      · rename_i h1 h2
        refine List.pairwise_cons.mpr ⟨?_, ih h.2⟩
        intro e he
        rcases Table.mem_insert he with rfl | he
        · show k' < k; omega
        · exact h.1 e he

/-- Setting a value keeps the canonical form. -/
theorem Table.wf_set {α : Type} [DecidableEq α] (b v : α) (k : Nat) (t : Table α) (h : Table.wf b t = true) :
    Table.wf b (Table.set b t k v) = true := by
  rw [Table.wf_iff] at h ⊢
  unfold Table.set
  split
  · exact ⟨h.1.filter _, fun e he => h.2 e (List.mem_filter.mp he).1⟩
  · rename_i hv
    refine ⟨Table.pairwise_insert k v t h.1, fun e he => ?_⟩
    rcases Table.mem_insert he with rfl | he
    · exact hv
    · exact h.2 e he

theorem Table.mem_update {α : Type} [DecidableEq α] {b : α} {f : Nat → α → α} {t : Table α} {e : Nat × α}
    (h : e ∈ Table.update b f t) : ∃ x ∈ t, e = (x.1, f x.1 x.2) ∧ f x.1 x.2 ≠ b := by
  unfold Table.update at h
  rw [List.mem_filterMap] at h
  obtain ⟨x, hx, hf⟩ := h
  split at hf
  · cases hf
  · rename_i hb
    exact ⟨x, hx, (Option.some.inj hf).symm, hb⟩

/-- Changing every listed value keeps the canonical form. -/
theorem Table.wf_update {α : Type} [DecidableEq α] (b : α) (f : Nat → α → α) (t : Table α) (h : Table.wf b t = true) :
    Table.wf b (Table.update b f t) = true := by
  rw [Table.wf_iff] at h ⊢
  refine ⟨?_, fun e he => ?_⟩
  · unfold Table.update
    refine h.1.filterMap _ ?_
    intro a c hac a' ha' c' hc'
    split at ha' <;> split at hc' <;> simp at ha' hc'
    subst ha' hc'
    exact hac
  · obtain ⟨x, _, rfl, hb⟩ := Table.mem_update he
    exact hb

theorem Table.get_of_not_mem {α : Type} (b : α) (t : Table α) (k : Nat) (h : ∀ e ∈ t, e.1 ≠ k) : Table.get b t k = b := by
  induction t with
  | nil => rfl
  | cons x rest ih =>
    have hx := h x (by simp)
    simp [Table.get, hx, ih fun e he => h e (List.mem_cons_of_mem _ he)]

/-- A value read is one listed, or the blank one. -/
theorem Table.get_mem {α : Type} (b : α) (t : Table α) (k : Nat) : (k, Table.get b t k) ∈ t ∨ Table.get b t k = b := by
  induction t with
  | nil => exact .inr rfl
  | cons x rest ih =>
    obtain ⟨k', v'⟩ := x
    by_cases h : k' = k
    · exact .inl (by simp [Table.get, h])
    · rcases ih with ih | ih
      · exact .inl (by simp [Table.get, h, ih])
      · exact .inr (by simp [Table.get, h, ih])

/-- What is read after every listed value is changed, when the change keeps the blank value. -/
theorem Table.get_update {α : Type} [DecidableEq α] (b : α) (f : Nat → α → α) (t : Table α) (k : Nat)
    (hw : t.Pairwise fun a c => a.1 < c.1) (hb : f k b = b) :
    Table.get b (Table.update b f t) k = f k (Table.get b t k) := by
  induction t with
  | nil => simp [Table.update, Table.get, hb]
  | cons x rest ih =>
    obtain ⟨k', v'⟩ := x
    rw [List.pairwise_cons] at hw
    have ih := ih hw.2
    by_cases hk : k' = k
    · subst hk
      simp only [Table.get, ↓reduceIte]
      by_cases hf : f k' v' = b
      · have : Table.update b f ((k', v') :: rest) = Table.update b f rest := by simp [Table.update, hf]
        rw [this, hf]
        refine Table.get_of_not_mem b _ k' fun e he => ?_
        obtain ⟨y, hy, rfl, _⟩ := Table.mem_update he
        exact Nat.ne_of_gt (hw.1 y hy)
      · have : Table.update b f ((k', v') :: rest) = (k', f k' v') :: Table.update b f rest := by simp [Table.update, hf]
        simp [this, Table.get]
    · by_cases hf : f k' v' = b
      · have : Table.update b f ((k', v') :: rest) = Table.update b f rest := by simp [Table.update, hf]
        simp [this, ih, Table.get, hk]
      · have : Table.update b f ((k', v') :: rest) = (k', f k' v') :: Table.update b f rest := by simp [Table.update, hf]
        simp [this, ih, Table.get, hk]

/-! ### The DRAM -/

theorem Memory.read_append (m n : List Host.Cell) (x : Nat) :
    Memory.read (m ++ n) x = if m.any (fun c => c.1 == x) then Memory.read m x else Memory.read n x := by
  induction m with
  | nil => simp
  | cons c rest ih =>
    obtain ⟨a, b⟩ := c
    by_cases h : a = x
    · simp [Memory.read, h]
    · simp [Memory.read, h, ih]

theorem Memory.read_of_absent (m : List Host.Cell) (x : Nat) (h : m.any (fun c => c.1 == x) = false) :
    Memory.read m x = dramBlank := by
  induction m with
  | nil => rfl
  | cons c rest ih =>
    obtain ⟨a, b⟩ := c
    simp only [List.any_cons, Bool.or_eq_false_iff, beq_eq_false_iff_ne] at h
    simp [Memory.read, h.1, ih h.2]

theorem Memory.read_filter (p : Host.Cell → Bool) (m : List Host.Cell) (x : Nat) (h : ∀ b, p (x, b) = true) :
    Memory.read (m.filter p) x = Memory.read m x := by
  induction m with
  | nil => rfl
  | cons c rest ih =>
    obtain ⟨a, b⟩ := c
    by_cases hx : a = x
    · subst hx; simp [h, Memory.read]
    · by_cases hp : p (a, b) = true
      · simp [hp, Memory.read, hx, ih]
      · simp [hp, Memory.read, hx, ih]

theorem Memory.filter_absent (p : Host.Cell → Bool) (m : List Host.Cell) (x : Nat) (h : ∀ b, p (x, b) = false) :
    (m.filter p).any (fun c => c.1 == x) = false := by
  rw [List.any_eq_false]
  intro c hc he
  obtain ⟨a, b⟩ := c
  have hx : a = x := by simpa using he
  subst hx
  have := (List.mem_filter.mp hc).2
  rw [h] at this
  cases this

theorem Memory.cells_range (a : Nat) (bytes : List Byte) :
    ∀ c ∈ Memory.cells a bytes, a ≤ c.1 ∧ c.1 < a + bytes.length ∧ c.2 ≠ dramBlank := by
  induction bytes generalizing a with
  | nil => simp [Memory.cells]
  | cons b bs ih =>
    intro c hc
    simp only [Memory.cells] at hc
    split at hc
    · have := ih (a + 1) c hc
      simp only [List.length_cons]; exact ⟨by omega, by omega, this.2.2⟩
    · rename_i hb
      rcases List.mem_cons.mp hc with rfl | hc
      · simp [hb]
      · have := ih (a + 1) c hc
        simp only [List.length_cons]; exact ⟨by omega, by omega, this.2.2⟩

theorem Memory.cells_pairwise (a : Nat) (bytes : List Byte) : (Memory.cells a bytes).Pairwise fun c d => c.1 < d.1 := by
  induction bytes generalizing a with
  | nil => simp [Memory.cells]
  | cons b bs ih =>
    simp only [Memory.cells]
    split
    · exact ih (a + 1)
    · refine List.pairwise_cons.mpr ⟨fun c hc => ?_, ih (a + 1)⟩
      have := (Memory.cells_range (a + 1) bs c hc).1
      show a < c.1; omega

theorem Memory.cells_absent (a : Nat) (bytes : List Byte) (x : Nat) (h : x < a ∨ a + bytes.length ≤ x) :
    (Memory.cells a bytes).any (fun c => c.1 == x) = false := by
  rw [List.any_eq_false]
  intro c hc he
  have := Memory.cells_range a bytes c hc
  have : c.1 = x := by simpa using he
  omega

theorem Memory.read_cells (a : Nat) (bytes : List Byte) (i : Nat) :
    Memory.read (Memory.cells a bytes) (a + i) = bytes.getD i dramBlank := by
  induction bytes generalizing a i with
  | nil => simp [Memory.cells, Memory.read]
  | cons b bs ih =>
    cases i with
    | zero =>
      simp only [Memory.cells]
      split
      · rename_i hb
        rw [Memory.read_of_absent _ _ (Memory.cells_absent (a + 1) bs (a + 0) (by omega))]
        simp [hb]
      · simp [Memory.read]
    | succ i =>
      have : a + (i + 1) = a + 1 + i := by omega
      simp only [Memory.cells]
      split
      · rw [this, ih]; simp
      · have h : ¬ a = a + 1 + i := by omega
        rw [this]; simp only [Memory.read, if_neg h]; rw [ih]; simp

/-- A byte written reads back. -/
theorem Memory.read_write_in (m : List Host.Cell) (a : Nat) (bytes : List Byte) (i : Nat) (h : i < bytes.length) :
    Memory.read (Memory.write m a bytes) (a + i) = bytes.getD i dramBlank := by
  unfold Memory.write
  rw [List.append_assoc, Memory.read_append, Memory.filter_absent _ _ _ (by intro b; simp), if_neg (by simp),
    Memory.read_append]
  split
  · exact Memory.read_cells a bytes i
  · rename_i hc
    rw [Memory.read_of_absent _ _ (Memory.filter_absent _ _ _ (by intro b; simpa using h)),
      ← Memory.read_cells a bytes i, Memory.read_of_absent _ _ ((Bool.not_eq_true _).mp hc)]

/-- A byte outside the bytes written reads as before. -/
theorem Memory.read_write_out (m : List Host.Cell) (a : Nat) (bytes : List Byte) (x : Nat)
    (h : x < a ∨ a + bytes.length ≤ x) : Memory.read (Memory.write m a bytes) x = Memory.read m x := by
  unfold Memory.write
  rw [List.append_assoc, Memory.read_append, Memory.read_append, Memory.cells_absent a bytes x h]
  rcases h with h | h
  · rw [Memory.read_filter _ m x (by intro b; simpa using h)]
    split
    · rfl
    · rename_i hm
      rw [if_neg (by simp), Memory.read_of_absent _ _ (Memory.filter_absent _ _ _ (by intro b; simp; omega)),
        ← Memory.read_filter (fun c => decide (c.1 < a)) m x (by intro b; simpa using h),
        Memory.read_of_absent _ _ ((Bool.not_eq_true _).mp hm)]
  · rw [Memory.filter_absent _ _ _ (by intro b; simp; omega), if_neg (by simp), if_neg (by simp)]
    exact Memory.read_filter _ m x (by intro b; simpa using h)

/-- A write keeps the canonical form. -/
theorem Memory.wf_write (m : List Host.Cell) (a : Nat) (bytes : List Byte) (h : Memory.wf m = true) :
    Memory.wf (Memory.write m a bytes) = true := by
  simp only [Memory.wf, Bool.and_eq_true, decide_eq_true_eq, List.all_eq_true] at h ⊢
  refine ⟨?_, ?_⟩
  · unfold Memory.write
    refine List.pairwise_append.mpr ⟨List.pairwise_append.mpr ⟨h.1.filter _, Memory.cells_pairwise a bytes, ?_⟩,
      h.1.filter _, ?_⟩
    · intro c hc d hd
      have h1 := (List.mem_filter.mp hc).2
      have h2 := (Memory.cells_range a bytes d hd).1
      simp at h1; omega
    · intro c hc d hd
      have h2 := (List.mem_filter.mp hd).2
      simp at h2
      rcases List.mem_append.mp hc with hc | hc
      · have h1 := (List.mem_filter.mp hc).2
        simp at h1; omega
      · have h1 := (Memory.cells_range a bytes c hc).2.1
        omega
  · intro c hc
    unfold Memory.write at hc
    rcases List.mem_append.mp hc with hc | hc
    · rcases List.mem_append.mp hc with hc | hc
      · exact h.2 c (List.mem_filter.mp hc).1
      · exact (Memory.cells_range a bytes c hc).2.2
    · exact h.2 c (List.mem_filter.mp hc).1

/-- Power-on DRAM is in canonical form. -/
theorem Memory.wf_reset : Memory.wf State.reset.dram = true := rfl

end Sys2Proof.Machine
end

