-- ==== Sys2Proof/Laws/State.lean ====
section
/-! SUPPORT. What each named update of the state leaves and what it sets, one lemma a field, and what is read of a record
after it. -/

namespace Sys2Proof.Machine

variable (s : State)

/-! ### State.setRecord -/

@[simp] theorem State.setRecord_registers (id : Nat) (r : Record) : (s.setRecord id r).registers = s.registers := rfl
@[simp] theorem State.setRecord_requests (id : Nat) (r : Record) : (s.setRecord id r).requests = s.requests := rfl
@[simp] theorem State.setRecord_stores (id : Nat) (r : Record) : (s.setRecord id r).stores = s.stores := rfl
@[simp] theorem State.setRecord_catalog (id : Nat) (r : Record) :
    (s.setRecord id r).catalog = Table.set Record.blank s.catalog id r := rfl
@[simp] theorem State.setRecord_partition (id : Nat) (r : Record) : (s.setRecord id r).partition = s.partition := rfl
@[simp] theorem State.setRecord_dram (id : Nat) (r : Record) : (s.setRecord id r).dram = s.dram := rfl
@[simp] theorem State.setRecord_reclaiming (id : Nat) (r : Record) : (s.setRecord id r).reclaiming = s.reclaiming := rfl
@[simp] theorem State.setRecord_recency (id : Nat) (r : Record) : (s.setRecord id r).recency = s.recency := rfl
@[simp] theorem State.setRecord_windows (id : Nat) (r : Record) : (s.setRecord id r).windows = s.windows := rfl
@[simp] theorem State.setRecord_voices (id : Nat) (r : Record) : (s.setRecord id r).voices = s.voices := rfl
@[simp] theorem State.setRecord_startCount (id : Nat) (r : Record) : (s.setRecord id r).startCount = s.startCount := rfl
@[simp] theorem State.setRecord_pace (id : Nat) (r : Record) : (s.setRecord id r).pace = s.pace := rfl
@[simp] theorem State.setRecord_queue (id : Nat) (r : Record) : (s.setRecord id r).queue = s.queue := rfl
@[simp] theorem State.setRecord_enqueueCount (id : Nat) (r : Record) :
    (s.setRecord id r).enqueueCount = s.enqueueCount := rfl
@[simp] theorem State.setRecord_dies (id : Nat) (r : Record) : (s.setRecord id r).dies = s.dies := rfl
@[simp] theorem State.setRecord_delivery (id : Nat) (r : Record) : (s.setRecord id r).delivery = s.delivery := rfl
@[simp] theorem State.setRecord_tunables (id : Nat) (r : Record) : (s.setRecord id r).tunables = s.tunables := rfl
@[simp] theorem State.setRecord_out (id : Nat) (r : Record) : (s.setRecord id r).out = s.out := rfl
@[simp] theorem State.setRecord_takes (id : Nat) (r : Record) : (s.setRecord id r).takes = s.takes := rfl
@[simp] theorem State.setRecord_completions (id : Nat) (r : Record) :
    (s.setRecord id r).completions = s.completions := rfl
@[simp] theorem State.setRecord_freeCount (id : Nat) (r : Record) : (s.setRecord id r).freeCount = s.freeCount := rfl
@[simp] theorem State.setRecord_pending (id : Nat) (r : Record) : (s.setRecord id r).pending = s.pending := rfl

/-! ### State.setVoice -/

@[simp] theorem State.setVoice_registers (n : Nat) (v : Voice) : (s.setVoice n v).registers = s.registers := rfl
@[simp] theorem State.setVoice_requests (n : Nat) (v : Voice) : (s.setVoice n v).requests = s.requests := rfl
@[simp] theorem State.setVoice_stores (n : Nat) (v : Voice) : (s.setVoice n v).stores = s.stores := rfl
@[simp] theorem State.setVoice_catalog (n : Nat) (v : Voice) : (s.setVoice n v).catalog = s.catalog := rfl
@[simp] theorem State.setVoice_partition (n : Nat) (v : Voice) : (s.setVoice n v).partition = s.partition := rfl
@[simp] theorem State.setVoice_dram (n : Nat) (v : Voice) : (s.setVoice n v).dram = s.dram := rfl
@[simp] theorem State.setVoice_reclaiming (n : Nat) (v : Voice) : (s.setVoice n v).reclaiming = s.reclaiming := rfl
@[simp] theorem State.setVoice_recency (n : Nat) (v : Voice) : (s.setVoice n v).recency = s.recency := rfl
@[simp] theorem State.setVoice_windows (n : Nat) (v : Voice) : (s.setVoice n v).windows = s.windows := rfl
@[simp] theorem State.setVoice_voices (n : Nat) (v : Voice) :
    (s.setVoice n v).voices = Table.set Voice.blank s.voices n v := rfl
@[simp] theorem State.setVoice_startCount (n : Nat) (v : Voice) : (s.setVoice n v).startCount = s.startCount := rfl
@[simp] theorem State.setVoice_pace (n : Nat) (v : Voice) : (s.setVoice n v).pace = s.pace := rfl
@[simp] theorem State.setVoice_queue (n : Nat) (v : Voice) : (s.setVoice n v).queue = s.queue := rfl
@[simp] theorem State.setVoice_enqueueCount (n : Nat) (v : Voice) :
    (s.setVoice n v).enqueueCount = s.enqueueCount := rfl
@[simp] theorem State.setVoice_dies (n : Nat) (v : Voice) : (s.setVoice n v).dies = s.dies := rfl
@[simp] theorem State.setVoice_delivery (n : Nat) (v : Voice) : (s.setVoice n v).delivery = s.delivery := rfl
@[simp] theorem State.setVoice_tunables (n : Nat) (v : Voice) : (s.setVoice n v).tunables = s.tunables := rfl
@[simp] theorem State.setVoice_out (n : Nat) (v : Voice) : (s.setVoice n v).out = s.out := rfl
@[simp] theorem State.setVoice_takes (n : Nat) (v : Voice) : (s.setVoice n v).takes = s.takes := rfl
@[simp] theorem State.setVoice_completions (n : Nat) (v : Voice) : (s.setVoice n v).completions = s.completions := rfl
@[simp] theorem State.setVoice_freeCount (n : Nat) (v : Voice) : (s.setVoice n v).freeCount = s.freeCount := rfl
@[simp] theorem State.setVoice_pending (n : Nat) (v : Voice) : (s.setVoice n v).pending = s.pending := rfl

/-! ### State.setWindow -/

@[simp] theorem State.setWindow_registers (w : Nat) (x : Window) : (s.setWindow w x).registers = s.registers := rfl
@[simp] theorem State.setWindow_requests (w : Nat) (x : Window) : (s.setWindow w x).requests = s.requests := rfl
@[simp] theorem State.setWindow_stores (w : Nat) (x : Window) : (s.setWindow w x).stores = s.stores := rfl
@[simp] theorem State.setWindow_catalog (w : Nat) (x : Window) : (s.setWindow w x).catalog = s.catalog := rfl
@[simp] theorem State.setWindow_partition (w : Nat) (x : Window) : (s.setWindow w x).partition = s.partition := rfl
@[simp] theorem State.setWindow_dram (w : Nat) (x : Window) : (s.setWindow w x).dram = s.dram := rfl
@[simp] theorem State.setWindow_reclaiming (w : Nat) (x : Window) : (s.setWindow w x).reclaiming = s.reclaiming := rfl
@[simp] theorem State.setWindow_recency (w : Nat) (x : Window) : (s.setWindow w x).recency = s.recency := rfl
@[simp] theorem State.setWindow_windows (w : Nat) (x : Window) :
    (s.setWindow w x).windows = Table.set Window.blank s.windows w x := rfl
@[simp] theorem State.setWindow_voices (w : Nat) (x : Window) : (s.setWindow w x).voices = s.voices := rfl
@[simp] theorem State.setWindow_startCount (w : Nat) (x : Window) : (s.setWindow w x).startCount = s.startCount := rfl
@[simp] theorem State.setWindow_pace (w : Nat) (x : Window) : (s.setWindow w x).pace = s.pace := rfl
@[simp] theorem State.setWindow_queue (w : Nat) (x : Window) : (s.setWindow w x).queue = s.queue := rfl
@[simp] theorem State.setWindow_enqueueCount (w : Nat) (x : Window) :
    (s.setWindow w x).enqueueCount = s.enqueueCount := rfl
@[simp] theorem State.setWindow_dies (w : Nat) (x : Window) : (s.setWindow w x).dies = s.dies := rfl
@[simp] theorem State.setWindow_delivery (w : Nat) (x : Window) : (s.setWindow w x).delivery = s.delivery := rfl
@[simp] theorem State.setWindow_tunables (w : Nat) (x : Window) : (s.setWindow w x).tunables = s.tunables := rfl
@[simp] theorem State.setWindow_out (w : Nat) (x : Window) : (s.setWindow w x).out = s.out := rfl
@[simp] theorem State.setWindow_takes (w : Nat) (x : Window) : (s.setWindow w x).takes = s.takes := rfl
@[simp] theorem State.setWindow_completions (w : Nat) (x : Window) :
    (s.setWindow w x).completions = s.completions := rfl
@[simp] theorem State.setWindow_freeCount (w : Nat) (x : Window) : (s.setWindow w x).freeCount = s.freeCount := rfl
@[simp] theorem State.setWindow_pending (w : Nat) (x : Window) : (s.setWindow w x).pending = s.pending := rfl

/-! ### State.setDie -/

@[simp] theorem State.setDie_registers (d : Nat) (x : Die) : (s.setDie d x).registers = s.registers := rfl
@[simp] theorem State.setDie_requests (d : Nat) (x : Die) : (s.setDie d x).requests = s.requests := rfl
@[simp] theorem State.setDie_stores (d : Nat) (x : Die) : (s.setDie d x).stores = s.stores := rfl
@[simp] theorem State.setDie_catalog (d : Nat) (x : Die) : (s.setDie d x).catalog = s.catalog := rfl
@[simp] theorem State.setDie_partition (d : Nat) (x : Die) : (s.setDie d x).partition = s.partition := rfl
@[simp] theorem State.setDie_dram (d : Nat) (x : Die) : (s.setDie d x).dram = s.dram := rfl
@[simp] theorem State.setDie_reclaiming (d : Nat) (x : Die) : (s.setDie d x).reclaiming = s.reclaiming := rfl
@[simp] theorem State.setDie_recency (d : Nat) (x : Die) : (s.setDie d x).recency = s.recency := rfl
@[simp] theorem State.setDie_windows (d : Nat) (x : Die) : (s.setDie d x).windows = s.windows := rfl
@[simp] theorem State.setDie_voices (d : Nat) (x : Die) : (s.setDie d x).voices = s.voices := rfl
@[simp] theorem State.setDie_startCount (d : Nat) (x : Die) : (s.setDie d x).startCount = s.startCount := rfl
@[simp] theorem State.setDie_pace (d : Nat) (x : Die) : (s.setDie d x).pace = s.pace := rfl
@[simp] theorem State.setDie_queue (d : Nat) (x : Die) : (s.setDie d x).queue = s.queue := rfl
@[simp] theorem State.setDie_enqueueCount (d : Nat) (x : Die) : (s.setDie d x).enqueueCount = s.enqueueCount := rfl
@[simp] theorem State.setDie_dies (d : Nat) (x : Die) : (s.setDie d x).dies = Table.set Die.blank s.dies d x := rfl
@[simp] theorem State.setDie_delivery (d : Nat) (x : Die) : (s.setDie d x).delivery = s.delivery := rfl
@[simp] theorem State.setDie_tunables (d : Nat) (x : Die) : (s.setDie d x).tunables = s.tunables := rfl
@[simp] theorem State.setDie_out (d : Nat) (x : Die) : (s.setDie d x).out = s.out := rfl
@[simp] theorem State.setDie_takes (d : Nat) (x : Die) : (s.setDie d x).takes = s.takes := rfl
@[simp] theorem State.setDie_completions (d : Nat) (x : Die) : (s.setDie d x).completions = s.completions := rfl
@[simp] theorem State.setDie_freeCount (d : Nat) (x : Die) : (s.setDie d x).freeCount = s.freeCount := rfl
@[simp] theorem State.setDie_pending (d : Nat) (x : Die) : (s.setDie d x).pending = s.pending := rfl

/-! ### State.emit -/

@[simp] theorem State.emit_registers (o : Output) : (s.emit o).registers = s.registers := rfl
@[simp] theorem State.emit_requests (o : Output) : (s.emit o).requests = s.requests := rfl
@[simp] theorem State.emit_stores (o : Output) : (s.emit o).stores = s.stores := rfl
@[simp] theorem State.emit_catalog (o : Output) : (s.emit o).catalog = s.catalog := rfl
@[simp] theorem State.emit_partition (o : Output) : (s.emit o).partition = s.partition := rfl
@[simp] theorem State.emit_dram (o : Output) : (s.emit o).dram = s.dram := rfl
@[simp] theorem State.emit_reclaiming (o : Output) : (s.emit o).reclaiming = s.reclaiming := rfl
@[simp] theorem State.emit_recency (o : Output) : (s.emit o).recency = s.recency := rfl
@[simp] theorem State.emit_windows (o : Output) : (s.emit o).windows = s.windows := rfl
@[simp] theorem State.emit_voices (o : Output) : (s.emit o).voices = s.voices := rfl
@[simp] theorem State.emit_startCount (o : Output) : (s.emit o).startCount = s.startCount := rfl
@[simp] theorem State.emit_pace (o : Output) : (s.emit o).pace = s.pace := rfl
@[simp] theorem State.emit_queue (o : Output) : (s.emit o).queue = s.queue := rfl
@[simp] theorem State.emit_enqueueCount (o : Output) : (s.emit o).enqueueCount = s.enqueueCount := rfl
@[simp] theorem State.emit_dies (o : Output) : (s.emit o).dies = s.dies := rfl
@[simp] theorem State.emit_delivery (o : Output) : (s.emit o).delivery = s.delivery := rfl
@[simp] theorem State.emit_tunables (o : Output) : (s.emit o).tunables = s.tunables := rfl
@[simp] theorem State.emit_out (o : Output) : (s.emit o).out = s.out ++ [o] := rfl
@[simp] theorem State.emit_takes (o : Output) : (s.emit o).takes = s.takes := rfl
@[simp] theorem State.emit_completions (o : Output) : (s.emit o).completions = s.completions := rfl
@[simp] theorem State.emit_freeCount (o : Output) : (s.emit o).freeCount = s.freeCount := rfl
@[simp] theorem State.emit_pending (o : Output) : (s.emit o).pending = s.pending := rfl

/-! ### State.latch -/

@[simp] theorem State.latch_registers (f : Flag) :
    (s.latch f).registers = { s.registers with status := s.registers.status ||| f.bit } := rfl
@[simp] theorem State.latch_requests (f : Flag) : (s.latch f).requests = s.requests := rfl
@[simp] theorem State.latch_stores (f : Flag) : (s.latch f).stores = s.stores := rfl
@[simp] theorem State.latch_catalog (f : Flag) : (s.latch f).catalog = s.catalog := rfl
@[simp] theorem State.latch_partition (f : Flag) : (s.latch f).partition = s.partition := rfl
@[simp] theorem State.latch_dram (f : Flag) : (s.latch f).dram = s.dram := rfl
@[simp] theorem State.latch_reclaiming (f : Flag) : (s.latch f).reclaiming = s.reclaiming := rfl
@[simp] theorem State.latch_recency (f : Flag) : (s.latch f).recency = s.recency := rfl
@[simp] theorem State.latch_windows (f : Flag) : (s.latch f).windows = s.windows := rfl
@[simp] theorem State.latch_voices (f : Flag) : (s.latch f).voices = s.voices := rfl
@[simp] theorem State.latch_startCount (f : Flag) : (s.latch f).startCount = s.startCount := rfl
@[simp] theorem State.latch_pace (f : Flag) : (s.latch f).pace = s.pace := rfl
@[simp] theorem State.latch_queue (f : Flag) : (s.latch f).queue = s.queue := rfl
@[simp] theorem State.latch_enqueueCount (f : Flag) : (s.latch f).enqueueCount = s.enqueueCount := rfl
@[simp] theorem State.latch_dies (f : Flag) : (s.latch f).dies = s.dies := rfl
@[simp] theorem State.latch_delivery (f : Flag) : (s.latch f).delivery = s.delivery := rfl
@[simp] theorem State.latch_tunables (f : Flag) : (s.latch f).tunables = s.tunables := rfl
@[simp] theorem State.latch_out (f : Flag) : (s.latch f).out = s.out := rfl
@[simp] theorem State.latch_takes (f : Flag) : (s.latch f).takes = s.takes := rfl
@[simp] theorem State.latch_completions (f : Flag) : (s.latch f).completions = s.completions := rfl
@[simp] theorem State.latch_freeCount (f : Flag) : (s.latch f).freeCount = s.freeCount := rfl
@[simp] theorem State.latch_pending (f : Flag) : (s.latch f).pending = s.pending := rfl

/-! ### State.count -/

@[simp] theorem State.count_registers (c : CounterName) :
    (s.count c).registers = { s.registers with counters := s.registers.counters.rise c } := rfl
@[simp] theorem State.count_requests (c : CounterName) : (s.count c).requests = s.requests := rfl
@[simp] theorem State.count_stores (c : CounterName) : (s.count c).stores = s.stores := rfl
@[simp] theorem State.count_catalog (c : CounterName) : (s.count c).catalog = s.catalog := rfl
@[simp] theorem State.count_partition (c : CounterName) : (s.count c).partition = s.partition := rfl
@[simp] theorem State.count_dram (c : CounterName) : (s.count c).dram = s.dram := rfl
@[simp] theorem State.count_reclaiming (c : CounterName) : (s.count c).reclaiming = s.reclaiming := rfl
@[simp] theorem State.count_recency (c : CounterName) : (s.count c).recency = s.recency := rfl
@[simp] theorem State.count_windows (c : CounterName) : (s.count c).windows = s.windows := rfl
@[simp] theorem State.count_voices (c : CounterName) : (s.count c).voices = s.voices := rfl
@[simp] theorem State.count_startCount (c : CounterName) : (s.count c).startCount = s.startCount := rfl
@[simp] theorem State.count_pace (c : CounterName) : (s.count c).pace = s.pace := rfl
@[simp] theorem State.count_queue (c : CounterName) : (s.count c).queue = s.queue := rfl
@[simp] theorem State.count_enqueueCount (c : CounterName) : (s.count c).enqueueCount = s.enqueueCount := rfl
@[simp] theorem State.count_dies (c : CounterName) : (s.count c).dies = s.dies := rfl
@[simp] theorem State.count_delivery (c : CounterName) : (s.count c).delivery = s.delivery := rfl
@[simp] theorem State.count_tunables (c : CounterName) : (s.count c).tunables = s.tunables := rfl
@[simp] theorem State.count_out (c : CounterName) : (s.count c).out = s.out := rfl
@[simp] theorem State.count_takes (c : CounterName) : (s.count c).takes = s.takes := rfl
@[simp] theorem State.count_completions (c : CounterName) : (s.count c).completions = s.completions := rfl
@[simp] theorem State.count_freeCount (c : CounterName) : (s.count c).freeCount = s.freeCount := rfl
@[simp] theorem State.count_pending (c : CounterName) : (s.count c).pending = s.pending := rfl

/-! ### State.complete -/

@[simp] theorem State.complete_registers (t : Token) (r : Result) (x y : Word) :
    (s.complete t r x y).registers = s.registers := rfl
@[simp] theorem State.complete_requests (t : Token) (r : Result) (x y : Word) :
    (s.complete t r x y).requests = s.requests := rfl
@[simp] theorem State.complete_stores (t : Token) (r : Result) (x y : Word) :
    (s.complete t r x y).stores = s.stores := rfl
@[simp] theorem State.complete_catalog (t : Token) (r : Result) (x y : Word) :
    (s.complete t r x y).catalog = s.catalog := rfl
@[simp] theorem State.complete_partition (t : Token) (r : Result) (x y : Word) :
    (s.complete t r x y).partition = s.partition := rfl
@[simp] theorem State.complete_dram (t : Token) (r : Result) (x y : Word) : (s.complete t r x y).dram = s.dram := rfl
@[simp] theorem State.complete_reclaiming (t : Token) (r : Result) (x y : Word) :
    (s.complete t r x y).reclaiming = s.reclaiming := rfl
@[simp] theorem State.complete_recency (t : Token) (r : Result) (x y : Word) :
    (s.complete t r x y).recency = s.recency := rfl
@[simp] theorem State.complete_windows (t : Token) (r : Result) (x y : Word) :
    (s.complete t r x y).windows = s.windows := rfl
@[simp] theorem State.complete_voices (t : Token) (r : Result) (x y : Word) :
    (s.complete t r x y).voices = s.voices := rfl
@[simp] theorem State.complete_startCount (t : Token) (r : Result) (x y : Word) :
    (s.complete t r x y).startCount = s.startCount := rfl
@[simp] theorem State.complete_pace (t : Token) (r : Result) (x y : Word) : (s.complete t r x y).pace = s.pace := rfl
@[simp] theorem State.complete_queue (t : Token) (r : Result) (x y : Word) : (s.complete t r x y).queue = s.queue := rfl
@[simp] theorem State.complete_enqueueCount (t : Token) (r : Result) (x y : Word) :
    (s.complete t r x y).enqueueCount = s.enqueueCount := rfl
@[simp] theorem State.complete_dies (t : Token) (r : Result) (x y : Word) : (s.complete t r x y).dies = s.dies := rfl
@[simp] theorem State.complete_delivery (t : Token) (r : Result) (x y : Word) :
    (s.complete t r x y).delivery = s.delivery := rfl
@[simp] theorem State.complete_tunables (t : Token) (r : Result) (x y : Word) :
    (s.complete t r x y).tunables = s.tunables := rfl
@[simp] theorem State.complete_out (t : Token) (r : Result) (x y : Word) : (s.complete t r x y).out = s.out := rfl
@[simp] theorem State.complete_takes (t : Token) (r : Result) (x y : Word) : (s.complete t r x y).takes = s.takes := rfl
@[simp] theorem State.complete_completions (t : Token) (r : Result) (x y : Word) :
    (s.complete t r x y).completions = { token := t, result := r, word0 := x, word1 := y } :: s.completions := rfl
@[simp] theorem State.complete_freeCount (t : Token) (r : Result) (x y : Word) :
    (s.complete t r x y).freeCount = s.freeCount := rfl
@[simp] theorem State.complete_pending (t : Token) (r : Result) (x y : Word) :
    (s.complete t r x y).pending = s.pending := rfl

/-! ### Records read after an update -/

@[simp] theorem State.record_setRecord_same (id : Nat) (r : Record) : (s.setRecord id r).record id = r :=
  Table.get_set_same _ _ _ _

@[simp] theorem State.record_setRecord_other {id j : Nat} (r : Record) (h : j ≠ id) :
    (s.setRecord id r).record j = s.record j := Table.get_set_other _ _ _ h

@[simp] theorem State.voice_setVoice_same (n : Nat) (v : Voice) : (s.setVoice n v).voice n = v := Table.get_set_same _ _ _ _

@[simp] theorem State.voice_setVoice_other {n j : Nat} (v : Voice) (h : j ≠ n) : (s.setVoice n v).voice j = s.voice j :=
  Table.get_set_other _ _ _ h

@[simp] theorem State.window_setWindow_same (w : Nat) (x : Window) : (s.setWindow w x).window w = x :=
  Table.get_set_same _ _ _ _

@[simp] theorem State.window_setWindow_other {w j : Nat} (x : Window) (h : j ≠ w) :
    (s.setWindow w x).window j = s.window j := Table.get_set_other _ _ _ h

@[simp] theorem State.die_setDie_same (d : Nat) (x : Die) : (s.setDie d x).die d = x := Table.get_set_same _ _ _ _

@[simp] theorem State.die_setDie_other {d j : Nat} (x : Die) (h : j ≠ d) : (s.setDie d x).die j = s.die j :=
  Table.get_set_other _ _ _ h

theorem State.record_congr {s t : State} (h : t.catalog = s.catalog) (n : Nat) : t.record n = s.record n := by
  unfold State.record; rw [h]

theorem State.voice_congr {s t : State} (h : t.voices = s.voices) (n : Nat) : t.voice n = s.voice n := by
  unfold State.voice; rw [h]

theorem State.window_congr {s t : State} (h : t.windows = s.windows) (n : Nat) : t.window n = s.window n := by
  unfold State.window; rw [h]

theorem State.die_congr {s t : State} (h : t.dies = s.dies) (n : Nat) : t.die n = s.die n := by
  unfold State.die; rw [h]

@[simp] theorem State.voice_setRecord (id : Nat) (r : Record) (i : Nat) : (s.setRecord id r).voice i = s.voice i := rfl
@[simp] theorem State.window_setRecord (id : Nat) (r : Record) (i : Nat) :
    (s.setRecord id r).window i = s.window i := rfl
@[simp] theorem State.die_setRecord (id : Nat) (r : Record) (i : Nat) : (s.setRecord id r).die i = s.die i := rfl
@[simp] theorem State.record_setVoice (n : Nat) (v : Voice) (i : Nat) : (s.setVoice n v).record i = s.record i := rfl
@[simp] theorem State.window_setVoice (n : Nat) (v : Voice) (i : Nat) : (s.setVoice n v).window i = s.window i := rfl
@[simp] theorem State.die_setVoice (n : Nat) (v : Voice) (i : Nat) : (s.setVoice n v).die i = s.die i := rfl
@[simp] theorem State.record_setWindow (w : Nat) (x : Window) (i : Nat) : (s.setWindow w x).record i = s.record i := rfl
@[simp] theorem State.voice_setWindow (w : Nat) (x : Window) (i : Nat) : (s.setWindow w x).voice i = s.voice i := rfl
@[simp] theorem State.die_setWindow (w : Nat) (x : Window) (i : Nat) : (s.setWindow w x).die i = s.die i := rfl
@[simp] theorem State.record_setDie (d : Nat) (x : Die) (i : Nat) : (s.setDie d x).record i = s.record i := rfl
@[simp] theorem State.voice_setDie (d : Nat) (x : Die) (i : Nat) : (s.setDie d x).voice i = s.voice i := rfl
@[simp] theorem State.window_setDie (d : Nat) (x : Die) (i : Nat) : (s.setDie d x).window i = s.window i := rfl
@[simp] theorem State.record_emit (o : Output) (i : Nat) : (s.emit o).record i = s.record i := rfl
@[simp] theorem State.voice_emit (o : Output) (i : Nat) : (s.emit o).voice i = s.voice i := rfl
@[simp] theorem State.window_emit (o : Output) (i : Nat) : (s.emit o).window i = s.window i := rfl
@[simp] theorem State.die_emit (o : Output) (i : Nat) : (s.emit o).die i = s.die i := rfl
@[simp] theorem State.record_latch (f : Flag) (i : Nat) : (s.latch f).record i = s.record i := rfl
@[simp] theorem State.voice_latch (f : Flag) (i : Nat) : (s.latch f).voice i = s.voice i := rfl
@[simp] theorem State.window_latch (f : Flag) (i : Nat) : (s.latch f).window i = s.window i := rfl
@[simp] theorem State.die_latch (f : Flag) (i : Nat) : (s.latch f).die i = s.die i := rfl
@[simp] theorem State.record_count (c : CounterName) (i : Nat) : (s.count c).record i = s.record i := rfl
@[simp] theorem State.voice_count (c : CounterName) (i : Nat) : (s.count c).voice i = s.voice i := rfl
@[simp] theorem State.window_count (c : CounterName) (i : Nat) : (s.count c).window i = s.window i := rfl
@[simp] theorem State.die_count (c : CounterName) (i : Nat) : (s.count c).die i = s.die i := rfl
@[simp] theorem State.record_complete (t : Token) (r : Result) (x y : Word) (i : Nat) :
    (s.complete t r x y).record i = s.record i := rfl
@[simp] theorem State.voice_complete (t : Token) (r : Result) (x y : Word) (i : Nat) :
    (s.complete t r x y).voice i = s.voice i := rfl
@[simp] theorem State.window_complete (t : Token) (r : Result) (x y : Word) (i : Nat) :
    (s.complete t r x y).window i = s.window i := rfl
@[simp] theorem State.die_complete (t : Token) (r : Result) (x y : Word) (i : Nat) :
    (s.complete t r x y).die i = s.die i := rfl

end Sys2Proof.Machine
end

