-- ==== Sys2Proof/Laws/Inner.lean ====
section
/-! SUPPORT. What the operations of the library, the voices and the dies can do, said once: the relation `Inner` and one lemma
for each operation. Provers cite these instead of unfolding the operations. -/

namespace Sys2Proof.Machine

/-- What an operation may do to one voice slot: no voice starts to sound, none leaves FREE, and of its fields only the state,
the pending rate, the cursor with its scheduled frames, the total, the reads in flight, the end reason and the delivery
record move. -/
structure VoiceStep (v w : Voice) : Prop where
  sounding : w.sounding = true → v.sounding = true
  inUse : w.state ≠ .free → v.state ≠ .free
  kept : w = { v with
    state := w.state, pendingRate := w.pendingRate, cursor := w.cursor, scheduled := w.scheduled, total := w.total
    reads := w.reads, endReason := w.endReason, delivery := w.delivery }

theorem VoiceStep.refl (v : Voice) : VoiceStep v v := ⟨id, id, rfl⟩

theorem VoiceStep.trans {u v w : Voice} (h : VoiceStep u v) (k : VoiceStep v w) : VoiceStep u w :=
  ⟨h.sounding ∘ k.sounding, h.inUse ∘ k.inUse, k.kept.trans (by rw [h.kept])⟩

/-- A slot whose state is kept. -/
theorem VoiceStep.of_eq {v w : Voice} (h : w.state = v.state) (k : w = { v with
    state := w.state, pendingRate := w.pendingRate, cursor := w.cursor, scheduled := w.scheduled, total := w.total
    reads := w.reads, endReason := w.endReason, delivery := w.delivery }) : VoiceStep v w :=
  ⟨by unfold Voice.sounding; rw [h]; exact id, fun hw => h ▸ hw, k⟩

theorem VoiceStep.window {v w : Voice} (h : VoiceStep v w) : w.window = v.window := by rw [h.kept]

/-- What the operations inside an event can do to the state. -/
structure Inner (s t : State) : Prop where
  requests : t.requests = s.requests
  partition : t.partition = s.partition
  startCount : t.startCount = s.startCount
  enqueueCount : t.enqueueCount = s.enqueueCount
  pace : t.pace = s.pace
  delivery : t.delivery = s.delivery
  tunables : t.tunables = s.tunables
  takes : t.takes = s.takes
  freeCount : t.freeCount = s.freeCount
  pending : t.pending = s.pending
  window : t.registers = { s.registers with status := t.registers.status, counters := t.registers.counters }
  out : s.out <+: t.out
  messages : t.messages = s.messages
  queue : t.queue.length ≤ s.queue.length
  stores : t.stores.length ≤ s.stores.length
  polls : s.Canonical → ∀ d, (t.die d).polls.Sublist (s.die d).polls
  voices : ∀ n, VoiceStep (s.voice n) (t.voice n)
  canonical : s.Canonical → t.Canonical

theorem Inner.refl (s : State) : Inner s s where
  requests := rfl
  partition := rfl
  startCount := rfl
  enqueueCount := rfl
  pace := rfl
  delivery := rfl
  tunables := rfl
  takes := rfl
  freeCount := rfl
  pending := rfl
  window := rfl
  out := List.prefix_rfl
  messages := rfl
  queue := Nat.le_refl _
  stores := Nat.le_refl _
  polls _ _ := List.Sublist.refl _
  voices _ := VoiceStep.refl _
  canonical := id

theorem Inner.trans {s t u : State} (h : Inner s t) (k : Inner t u) : Inner s u where
  requests := k.requests.trans h.requests
  partition := k.partition.trans h.partition
  startCount := k.startCount.trans h.startCount
  enqueueCount := k.enqueueCount.trans h.enqueueCount
  pace := k.pace.trans h.pace
  delivery := k.delivery.trans h.delivery
  tunables := k.tunables.trans h.tunables
  takes := k.takes.trans h.takes
  freeCount := k.freeCount.trans h.freeCount
  pending := k.pending.trans h.pending
  window := by rw [k.window, h.window]
  out := h.out.trans k.out
  messages := k.messages.trans h.messages
  queue := Nat.le_trans k.queue h.queue
  stores := Nat.le_trans k.stores h.stores
  polls hs d := (k.polls (h.canonical hs) d).trans (h.polls hs d)
  voices n := (h.voices n).trans (k.voices n)
  canonical := k.canonical ∘ h.canonical

theorem Inner.engine {s t : State} (h : Inner s t) : t.registers.engine = s.registers.engine := by rw [h.window]

theorem Inner.resetting {s t : State} (h : Inner s t) : t.resetting = s.resetting := by
  unfold State.resetting; rw [h.engine]

theorem Inner.ite {s t u : State} {c : Prop} [Decidable c] (h : Inner s t) (k : Inner s u) :
    Inner s (if c then t else u) := by
  split
  · exact h
  · exact k

/-- Repeating an operation. -/
theorem Inner.foldl {α : Type} (f : State → α → State) (h : ∀ s x, Inner s (f s x)) (l : List α) (s : State) :
    Inner s (l.foldl f s) := by
  induction l generalizing s with
  | nil => exact Inner.refl s
  | cons x l ih => exact (h s x).trans (ih (f s x))

/-! ### Named updates -/

theorem Inner.setRecord (s : State) (id : Nat) (r : Record) : Inner s (s.setRecord id r) :=
  { Inner.refl s with
    canonical := fun h =>
      ⟨h.dram, Table.wf_set _ _ _ _ h.catalog, h.voices, h.windows, h.places, h.dies⟩ }

theorem Inner.setVoice (s : State) (n : Nat) (v : Voice) (hv : VoiceStep (s.voice n) v) : Inner s (s.setVoice n v) :=
  { Inner.refl s with
    voices := fun m => by
      by_cases h : m = n
      · subst h; rw [State.voice_setVoice_same]; exact hv
      · rw [State.voice_setVoice_other s v h]; exact VoiceStep.refl _
    canonical := fun h =>
      ⟨h.dram, h.catalog, Table.wf_set _ _ _ _ h.voices, h.windows, h.places, h.dies⟩ }

theorem Inner.setWindow (s : State) (w : Nat) (x : Window) (hx : (s.window w).canonical → x.canonical) :
    Inner s (s.setWindow w x) :=
  { Inner.refl s with
    canonical := fun h =>
      ⟨h.dram, h.catalog, h.voices, Table.wf_set _ _ _ _ h.windows, fun j => by
        by_cases hj : j = w
        · subst hj; rw [State.window_setWindow_same]; exact hx (h.places j)
        · rw [State.window_setWindow_other s x hj]; exact h.places j, h.dies⟩ }

/-- Equal lists are sublists of one another. -/
theorem sublist_of_eq {α : Type} {a b : List α} (h : a = b) : a.Sublist b := h ▸ List.Sublist.refl a

theorem Inner.setDie (s : State) (d : Nat) (x : Die) (hx : x.polls.Sublist (s.die d).polls) :
    Inner s (s.setDie d x) :=
  { Inner.refl s with
    polls := fun _ j => by
      by_cases h : j = d
      · subst h; rw [State.die_setDie_same]; exact hx
      · exact sublist_of_eq (congrArg Die.polls (State.die_setDie_other s x h))
    canonical := fun h =>
      ⟨h.dram, h.catalog, h.voices, h.windows, h.places, Table.wf_set _ _ _ _ h.dies⟩ }

/-- Something else than a message leaves the part. -/
theorem State.messages_emit (s : State) (o : Output) (h : ∀ v, o ≠ .message v) : (s.emit o).messages = s.messages := by
  cases o <;> simp_all [State.messages]

theorem Inner.emit (s : State) (o : Output) (h : ∀ v, o ≠ .message v) : Inner s (s.emit o) :=
  { Inner.refl s with
    out := List.prefix_append _ _
    messages := State.messages_emit s o h
    canonical := fun h => ⟨h.dram, h.catalog, h.voices, h.windows, h.places, h.dies⟩ }

theorem Inner.latch (s : State) (f : Flag) : Inner s (s.latch f) :=
  { Inner.refl s with
    window := rfl
    canonical := fun h => ⟨h.dram, h.catalog, h.voices, h.windows, h.places, h.dies⟩ }

theorem Inner.count (s : State) (c : CounterName) : Inner s (s.count c) :=
  { Inner.refl s with
    window := rfl
    canonical := fun h => ⟨h.dram, h.catalog, h.voices, h.windows, h.places, h.dies⟩ }

theorem Inner.complete (s : State) (t : Token) (r : Result) (x y : Word) : Inner s (s.complete t r x y) :=
  { Inner.refl s with
    canonical := fun h => ⟨h.dram, h.catalog, h.voices, h.windows, h.places, h.dies⟩ }

theorem Inner.completeUnstated (s : State) (t : Token) (r : Result) : Inner s (s.completeUnstated t r) :=
  Inner.complete s t r _ _

theorem Inner.refuse (s : State) (t : Token) (r : Result) : Inner s (s.refuse t r) := Inner.complete s t r _ _

theorem Inner.setQueue (s : State) (q : List FetchEntry) (h : q.length ≤ s.queue.length) : Inner s { s with queue := q } :=
  { Inner.refl s with
    queue := h
    canonical := fun h => ⟨h.dram, h.catalog, h.voices, h.windows, h.places, h.dies⟩ }

theorem Inner.setRecency (s : State) (l : List Nat) : Inner s { s with recency := l } :=
  { Inner.refl s with
    canonical := fun h => ⟨h.dram, h.catalog, h.voices, h.windows, h.places, h.dies⟩ }

theorem Inner.setReclaiming (s : State) (l : List Reclaim) : Inner s { s with reclaiming := l } :=
  { Inner.refl s with
    canonical := fun h => ⟨h.dram, h.catalog, h.voices, h.windows, h.places, h.dies⟩ }

theorem Inner.setStores (s : State) (l : List StoreEntry) (h : l.length ≤ s.stores.length) :
    Inner s { s with stores := l } :=
  { Inner.refl s with
    stores := h
    canonical := fun h => ⟨h.dram, h.catalog, h.voices, h.windows, h.places, h.dies⟩ }

theorem Inner.writeDram (s : State) (a : Nat) (bytes : List Byte) : Inner s { s with dram := Memory.write s.dram a bytes } :=
  { Inner.refl s with
    canonical := fun h =>
      ⟨Memory.wf_write _ _ _ h.dram, h.catalog, h.voices, h.windows, h.places, h.dies⟩ }

theorem Window.canonical_setPlace (w : Window) (i : Nat) (p : Place) (h : w.canonical) : (w.setPlace i p).canonical :=
  Table.wf_set _ _ _ _ h

theorem Window.canonical_endEmpty (w : Window) (l : List Nat) (h : w.canonical) : (w.endEmpty l).canonical := by
  unfold Window.canonical Window.endEmpty
  dsimp only
  exact Table.wf_update _ _ _ h

theorem Window.canonical_blank : Window.blank.canonical := rfl

/-! ### The catalog, the voices, the head store -/

theorem Inner.toVacant (s : State) (id : Nat) : Inner s (s.toVacant id) :=
  (Inner.setRecord s id _).trans (Inner.setRecency _ _)

theorem Inner.settleRetiring (s : State) (id : Nat) : Inner s (s.settleRetiring id) := by
  simp only [State.settleRetiring]
  refine Inner.ite ?_ (Inner.refl s)
  split
  · exact (Inner.completeUnstated s _ _).trans (Inner.toVacant _ id)
  · exact Inner.toVacant s id

theorem Inner.dropReference (s : State) (id : Nat) (g : Generation) : Inner s (s.dropReference id g) := by
  simp only [State.dropReference]
  exact Inner.ite ((Inner.setRecord s id _).trans (Inner.settleRetiring _ id)) (Inner.refl s)

theorem Inner.touch (s : State) (id : Nat) : Inner s (s.touch id) := Inner.setRecency s _

theorem Inner.leaveRecency (s : State) (id : Nat) : Inner s (s.leaveRecency id) := Inner.setRecency s _

theorem Inner.endVoice (reason : EndReason) (s : State) (slot : Nat) : Inner s (State.endVoice reason s slot) := by
  simp only [State.endVoice]
  split
  · rename_i hv
    refine Inner.trans ?_ (Inner.dropReference _ _ _)
    refine Inner.trans (Inner.trans (Inner.setQueue s _ ?_) (Inner.setWindow _ _ _ ?_)) (Inner.setVoice _ slot _ ?_)
    · exact List.length_filter_le _ _
    · exact fun h => Window.canonical_endEmpty _ _ h
    · refine ⟨fun h => by simp [Voice.sounding] at h, fun _ hf => ?_, rfl⟩
      have hf : (s.voice slot).state = .free := hf
      simp [Voice.sounding, hf] at hv
  · exact Inner.refl s

theorem Inner.endVoices (reason : EndReason) (s : State) (l : List Nat) : Inner s (s.endVoices reason l) :=
  Inner.foldl _ (Inner.endVoice reason) l s

theorem Inner.settleFree (s : State) (slot : Nat) : Inner s (s.settleFree slot) := by
  simp only [State.settleFree]
  refine Inner.ite ?_ (Inner.refl s)
  refine Inner.trans (Inner.setWindow s _ _ fun _ => Window.canonical_blank) (Inner.setVoice _ slot _ ?_)
  exact ⟨fun h => by simp [Voice.sounding] at h, fun h => absurd rfl h, rfl⟩

theorem Inner.dropLoadEntries (s : State) (id : Nat) (g : Generation) : Inner s (s.dropLoadEntries id g) :=
  Inner.setQueue s _ (List.length_filter_le _ _)

theorem Inner.releaseSlot (s : State) (slot reads id : Nat) (g : Generation) : Inner s (s.releaseSlot slot reads id g) := by
  simp only [State.releaseSlot]
  exact Inner.ite (Inner.setReclaiming s _) (Inner.refl s)

theorem Inner.abandonLoad (s : State) (id : Nat) (reason : EndReason) : Inner s (s.abandonLoad id reason) := by
  simp only [State.abandonLoad]
  split
  · exact Inner.refl s
  · exact (Inner.dropLoadEntries s _ _).trans ((Inner.endVoices _ _ _).trans ((Inner.complete _ _ _ _ _).trans
      ((Inner.setRecord _ _ _).trans (Inner.releaseSlot _ _ _ _ _))))

theorem Inner.loadFailureComplete (f : LoadFailure) (s : State) (l : Load) : Inner s (f.complete s l) := by
  cases f <;> exact Inner.complete s _ _ _ _

theorem Inner.failLoad (s : State) (id : Nat) (f : LoadFailure) : Inner s (s.failLoad id f) := by
  simp only [State.failLoad]
  split
  · exact Inner.refl s
  · exact (Inner.dropLoadEntries s _ _).trans ((Inner.endVoices _ _ _).trans ((Inner.loadFailureComplete _ _ _).trans
      ((Inner.setRecord _ _ _).trans (Inner.releaseSlot _ _ _ _ _))))

theorem Inner.finishLoad (s : State) (id : Nat) (l : Load) : Inner s (s.finishLoad id l) :=
  (Inner.setRecord s id _).trans ((Inner.touch _ id).trans (Inner.complete _ _ _ _ _))

theorem Inner.judgeLoad (s : State) (id : Nat) (y : Layout) (l : Load) : Inner s (s.judgeLoad id y l) := by
  simp only [State.judgeLoad]
  split
  · exact Inner.finishLoad s id l
  · exact Inner.ite (Inner.finishLoad s id l) (Inner.failLoad s id _)

/-! ### The giving of runs -/

theorem VoiceStep.reachEnd (v : Voice) : VoiceStep v v.reachEnd := by
  refine ⟨?_, ?_, ?_⟩
  · cases hv : v.state <;> simp [Voice.reachEnd, Voice.sounding, hv]
  · cases hv : v.state <;> simp [Voice.reachEnd, hv]
  · cases hv : v.state <;> simp [Voice.reachEnd, hv]

theorem VoiceStep.afterRun (v : Voice) (l : Layout) (m : Voice) : VoiceStep m (v.afterRun l m) := by
  simp only [Voice.afterRun]
  split
  · split
    · exact VoiceStep.of_eq rfl rfl
    · split
      · exact VoiceStep.reachEnd m
      · exact VoiceStep.refl m
  · split
    · exact VoiceStep.reachEnd m
    · exact VoiceStep.refl m

theorem VoiceStep.giveRun (v : Voice) (l : Layout) : VoiceStep v (v.giveRun l) := by
  simp only [Voice.giveRun]
  split
  · refine VoiceStep.trans ?_ (VoiceStep.afterRun v l _)
    exact VoiceStep.of_eq rfl rfl
  · exact VoiceStep.reachEnd v

theorem Inner.fillPlace (s : State) (w : Nat) (p : Place) : Inner s (s.fillPlace w p) :=
  Inner.setWindow s w _ fun h => Window.canonical_setPlace _ _ _ h

theorem Inner.zeroRun (s : State) (w i : Nat) (r : Run) (f : Format) : Inner s (s.zeroRun w i r f) :=
  Inner.writeDram s _ _

theorem Inner.giveSilent (s : State) (slot : Nat) (l : Layout) : Inner s (s.giveSilent slot (s.voice slot) l) := by
  simp only [State.giveSilent]
  split
  · refine (Inner.zeroRun s _ _ _ _).trans ((Inner.fillPlace _ _ _).trans (Inner.setVoice _ slot _ ?_))
    exact VoiceStep.giveRun _ l
  · exact Inner.setVoice s slot _ (VoiceStep.giveRun _ l)

theorem Inner.giveRuns (fuel : Nat) (s : State) (slot : Nat) : Inner s (State.giveRuns fuel s slot) := by
  induction fuel generalizing s with
  | zero => exact Inner.refl s
  | succ n ih =>
    simp only [State.giveRuns]
    split
    · exact Inner.refl s
    · split
      · exact (Inner.setVoice s slot _ (VoiceStep.giveRun _ _)).trans (ih _)
      · split
        · exact (Inner.giveSilent s slot _).trans (ih _)
        · exact Inner.refl s

theorem Inner.settleVoice (s : State) (slot : Nat) : Inner s (s.settleVoice slot) := by
  simp only [State.settleVoice]
  exact Inner.ite (Inner.refl s) (Inner.giveRuns _ s slot)

theorem Inner.settleVoices (s : State) : Inner s s.settleVoices := Inner.foldl _ Inner.settleVoice _ s

theorem Inner.settleLoad (s : State) (id : Nat) : Inner s (s.settleLoad id) := by
  simp only [State.settleLoad]
  split
  · exact Inner.ite (Inner.failLoad s id _) (Inner.refl s)
  · exact Inner.refl s

theorem Inner.settleLoads (s : State) : Inner s s.settleLoads := Inner.foldl _ Inner.settleLoad _ s

/-! ### The dies -/

theorem Inner.updateStore (s : State) (p : Nat) (f : StoreEntry → StoreEntry) : Inner s (s.updateStore p f) :=
  Inner.setStores s _ (by simp)

theorem Inner.storeComplete (x : StoreEntry) (s : State) : Inner s (x.complete s) := by
  simp only [StoreEntry.complete]
  split <;> exact Inner.complete s _ _ _ _

theorem Inner.judgeStore (s : State) (p : Nat) : Inner s (s.judgeStore p) := by
  simp only [State.judgeStore]
  split
  · exact Inner.refl s
  · exact Inner.ite ((Inner.setStores s _ (List.length_filter_le _ _)).trans (Inner.storeComplete _ _)) (Inner.refl s)

theorem Inner.judgeStores (s : State) : Inner s s.judgeStores := Inner.foldl _ Inner.judgeStore _ s

theorem Inner.dropPrograms (s : State) (p : Nat) : Inner s (s.dropPrograms p) :=
  { Inner.refl s with
    polls := fun h d => by
      have hw := (Table.wf_iff _ _).mp h.dies
      have e := Table.get_update Die.blank
        (fun (_ : Nat) (x : Die) => { x with programs := x.programs.filter fun q => q.place != p }) s.dies d hw.1 rfl
      have polls := congrArg Die.polls e
      exact sublist_of_eq polls
    canonical := fun h =>
      ⟨h.dram, h.catalog, h.voices, h.windows, h.places, by
        simp only [State.dropPrograms]; exact Table.wf_update _ _ _ h.dies⟩ }

theorem Inner.failStore (s : State) (p b : Nat) : Inner s (s.failStore p b) := by
  simp only [State.failStore]
  split
  · exact Inner.refl s
  · exact Inner.ite (Inner.refl s) ((Inner.dropPrograms s p).trans (Inner.updateStore _ _ _))

theorem Inner.raiseReads (s : State) (o : Owner) : Inner s (s.raiseReads o) := by
  cases o
  · exact Inner.setVoice s _ _ (VoiceStep.of_eq rfl rfl)
  · exact Inner.setRecord s _ _

theorem Inner.issueRead (s : State) (d : Nat) (e : FetchEntry) : Inner s (s.issueRead d e) := by
  simp only [State.issueRead]
  refine (Inner.setQueue s (s.queue.erase e) ?_).trans ((Inner.setDie _ d _ ?_).trans ((Inner.raiseReads _ _).trans (Inner.emit _ _ nofun)))
  · rw [List.length_erase]; split <;> omega
  · exact List.Sublist.refl _

theorem Inner.issueProgram (s : State) (d : Nat) (p : ProgramEntry) (rest : List ProgramEntry) :
    Inner s (s.issueProgram d p rest) := by
  simp only [State.issueProgram]
  refine (Inner.setDie s d _ ?_).trans ((Inner.updateStore _ _ _).trans (Inner.emit _ _ nofun))
  exact List.Sublist.refl _

theorem Inner.issuePoll (s : State) (d : Nat) : Inner s (s.issuePoll d) := by
  simp only [State.issuePoll]
  exact (Inner.setDie s d _ (by exact List.Sublist.refl _)).trans (Inner.emit _ _ nofun)

theorem Inner.chooseTransfer (s : State) (d : Nat) : Inner s (s.chooseTransfer d) := by
  simp only [State.chooseTransfer]
  split
  · exact Inner.ite (Inner.issueRead s d _) (Inner.issueProgram s d _ _)
  · exact Inner.issueRead s d _
  · exact Inner.issueProgram s d _ _
  · exact Inner.refl s

theorem Inner.chooseReady (d : Nat) (l : List PollRequest) (s : State) (h : l.Sublist (s.die d).polls) :
    Inner s (State.chooseReady d l s) := by
  induction l generalizing s with
  | nil => exact Inner.chooseTransfer s d
  | cons q rest ih =>
    simp only [State.chooseReady]
    split
    · refine ((Inner.setDie s d _ ?_).trans (Inner.complete _ _ _ _ _)).trans (ih _ ?_)
      · exact (List.sublist_cons_self _ _).trans h
      · simp
    · exact Inner.issuePoll s d

theorem Inner.arbitrate (s : State) (d : Nat) : Inner s (s.arbitrate d) := by
  simp only [State.arbitrate]
  refine Inner.ite (Inner.refl s) ?_
  split
  · exact Inner.chooseReady d _ s (List.Sublist.refl _)
  · exact Inner.ite (Inner.refl s) (Inner.issuePoll s d)
  all_goals exact Inner.refl s

theorem Inner.fillAwaited (s : State) (w i : Nat) (l : Layout) (e : ReadEnd) : Inner s (s.fillAwaited w i l e) := by
  simp only [State.fillAwaited]
  split
  · split
    · exact (Inner.writeDram s _ _).trans (Inner.setWindow _ _ _ fun h => Window.canonical_setPlace _ _ _ h)
    all_goals exact (Inner.zeroRun s _ _ _ _).trans (Inner.setWindow _ _ _ fun h => Window.canonical_setPlace _ _ _ h)
  all_goals exact Inner.refl s

theorem Inner.endVoiceRead (s : State) (slot : Nat) (g : Generation) (w i : Nat) (e : ReadEnd) :
    Inner s (s.endVoiceRead slot g w i e) := by
  simp only [State.endVoiceRead]
  have h1 : Inner s (s.setVoice slot { s.voice slot with reads := (s.voice slot).reads - 1 }) :=
    Inner.setVoice s slot _ (VoiceStep.of_eq rfl rfl)
  split
  · split
    · split
      · exact h1.trans (Inner.fillAwaited _ _ _ _ _)
      · exact h1
    · exact h1.trans ((Inner.setWindow _ _ _ fun h => Window.canonical_setPlace _ _ _ h).trans (Inner.settleFree _ _))
  · exact Inner.refl s

theorem Inner.arriveHead (s : State) (id k : Nat) (data : List Byte) : Inner s (s.arriveHead id k data) := by
  simp only [State.arriveHead]
  split
  · refine Inner.ite ?_ ?_
    · exact (Inner.writeDram s _ _).trans ((Inner.setRecord _ _ _).trans (Inner.judgeLoad _ _ _ _))
    · exact (Inner.writeDram s _ _).trans (Inner.setRecord _ _ _)
  · exact Inner.refl s

theorem Inner.lowerLoadReads (s : State) (id : Nat) (g : Generation) (slot : Nat) :
    Inner s (s.lowerLoadReads id g slot) := by
  simp only [State.lowerLoadReads]
  exact Inner.ite ((Inner.setReclaiming s _).trans (Inner.setRecord _ _ _)) (Inner.setReclaiming s _)

theorem Inner.endLoadRead (s : State) (id : Nat) (g : Generation) (slot k : Nat) (e : ReadEnd) :
    Inner s (s.endLoadRead id g slot k e) := by
  simp only [State.endLoadRead]
  have h1 := Inner.lowerLoadReads s id g slot
  split
  · split
    · exact h1.trans (Inner.arriveHead _ _ _ _)
    · exact h1.trans (Inner.failLoad _ _ _)
    · exact h1.trans (Inner.failLoad _ _ _)
  · exact h1.trans (Inner.settleRetiring _ _)

theorem Inner.handOver (s : State) (f : FetchEntry) (e : ReadEnd) : Inner s (s.handOver f e) := by
  simp only [State.handOver]
  split
  · exact Inner.endVoiceRead s _ _ _ _ _
  · exact Inner.endLoadRead s _ _ _ _ _
  all_goals exact Inner.refl s

theorem Inner.dieIdle (s : State) (d : Nat) : Inner s (s.dieIdle d) := Inner.setDie s d _ (by exact List.Sublist.refl _)

theorem Inner.endRead (s : State) (d : Nat) (f : FetchEntry) (discard : Bool) (e : ReadEnd) :
    Inner s (s.endRead d f discard e) := by
  simp only [State.endRead]
  exact ((Inner.dieIdle s d).trans (Inner.ite (Inner.refl _) (Inner.handOver _ _ _))).trans (Inner.arbitrate _ d)

theorem Inner.endAttempt (s : State) (d : Nat) (f : FetchEntry) (o : Operation) : Inner s (s.endAttempt d f o) := by
  simp only [State.endAttempt]
  refine Inner.ite (Inner.endRead s d f _ _) (Inner.ite ?_ ?_)
  · exact (Inner.setDie s d _ (by exact List.Sublist.refl _)).trans (Inner.emit _ _ nofun)
  · exact ((Inner.count s _).trans (Inner.latch _ _)).trans (Inner.endRead _ d f _ _)

theorem Inner.endProgram (s : State) (d : Nat) (p : ProgramEntry) (discard : Bool) : Inner s (s.endProgram d p discard) := by
  simp only [State.endProgram]
  exact ((Inner.dieIdle s d).trans (Inner.ite (Inner.refl _) ((Inner.updateStore _ _ _).trans (Inner.judgeStore _ _)))).trans
    (Inner.arbitrate _ d)

theorem Inner.programFails (s : State) (p : ProgramEntry) : Inner s (s.programFails p) :=
  (Inner.updateStore s _ _).trans (Inner.failStore _ _ _)

theorem Inner.failProgram (s : State) (d : Nat) (p : ProgramEntry) (discard : Bool) :
    Inner s (s.failProgram d p discard) := by
  simp only [State.failProgram]
  exact ((Inner.dieIdle s d).trans (Inner.ite (Inner.refl _) ((Inner.programFails _ _).trans (Inner.judgeStore _ _)))).trans
    (Inner.arbitrate _ d)

theorem Inner.endPoll (s : State) (d : Nat) (o : Operation) (a : PollAnswer) (n : Nat) : Inner s (s.endPoll d o a n) := by
  simp only [State.endPoll]
  split
  · exact (Inner.setDie s d _ (by exact List.Sublist.refl _)).trans (Inner.arbitrate _ d)
  · exact (Inner.setDie s d _ (by exact List.Sublist.refl _)).trans (Inner.arbitrate _ d)
  · rename_i h
    refine ((Inner.setDie s d _ ?_).trans (Inner.complete _ _ _ _ _)).trans (Inner.arbitrate _ d)
    rw [h]; exact List.sublist_cons_self _ _

theorem Inner.failLoadOffline (l : List FetchEntry) (s : State) (o : Nat × Generation) :
    Inner s (State.failLoadOffline l s o) := by
  simp only [State.failLoadOffline]
  split
  · split
    · exact Inner.failLoad s _ _
    · exact Inner.refl s
  · exact Inner.refl s

theorem Inner.failVoiceEntry (s : State) (e : FetchEntry) : Inner s (s.failVoiceEntry e) := by
  simp only [State.failVoiceEntry]
  split
  · split
    · split
      · exact Inner.fillAwaited s _ _ _ _
      · exact Inner.refl s
    · exact Inner.refl s
  all_goals exact Inner.refl s

theorem Inner.failQueuedStore (l : List ProgramEntry) (s : State) (p : Nat) : Inner s (State.failQueuedStore l s p) := by
  simp only [State.failQueuedStore]
  split
  · exact Inner.failStore s _ _
  · exact Inner.refl s

theorem Inner.timedOutRead (s : State) (f : FetchEntry) : Inner s (s.timedOutRead f) := by
  simp only [State.timedOutRead]
  split
  · exact Inner.endVoiceRead s _ _ _ _ _
  · exact Inner.ite (Inner.lowerLoadReads s _ _ _) ((Inner.lowerLoadReads s _ _ _).trans (Inner.settleRetiring _ _))
  all_goals exact Inner.refl s

theorem Inner.timedOutWork (s : State) (o : Operation) : Inner s (s.timedOutWork o) := by
  simp only [State.timedOutWork]
  refine Inner.ite (Inner.refl s) ?_
  split
  · exact Inner.timedOutRead s _
  · exact Inner.programFails s _
  · exact Inner.refl s

theorem Inner.goOffline (s : State) (d : Nat) (o : Operation) : Inner s (s.goOffline d o) := by
  simp only [State.goOffline]
  have h2 := ((Inner.setDie s d { s.die d with
    state := .offline, operation := none, retries := 0, buffer := [], programs := [] } (by exact List.Sublist.refl _)).trans
    (Inner.latch _ .dieFault)).trans (Inner.setQueue _ (List.filter (fun e => dieOf e.address != d) s.queue)
      (List.length_filter_le _ _))
  refine Inner.ite h2 ?_
  exact h2.trans ((Inner.timedOutWork _ _).trans ((Inner.foldl _ Inner.failVoiceEntry _ _).trans
    ((Inner.foldl _ (Inner.failLoadOffline _) _ _).trans ((Inner.foldl _ (Inner.failQueuedStore _) _ _).trans
      ((Inner.judgeStores _).trans ((Inner.settleVoices _).trans (Inner.settleLoads _)))))))

/-! ### The dies' answers -/

theorem Inner.pollInterval (s : State) (d : Nat) : Inner s (s.pollInterval d) := by
  simp only [State.pollInterval]
  split
  · split
    · exact Inner.emit s _ nofun
    · exact Inner.emit s _ nofun
    · exact Inner.refl s
  · exact Inner.refl s

theorem Inner.addressAck (s : State) (d : Nat) : Inner s (s.addressAck d) := by
  simp only [State.addressAck]
  split
  · split
    · exact Inner.setDie s d _ (by exact List.Sublist.refl _)
    · exact (Inner.setDie s d _ (by exact List.Sublist.refl _)).trans (Inner.emit _ _ nofun)
    · exact Inner.refl s
  · exact Inner.refl s

theorem Inner.addressRefused (s : State) (d : Nat) : Inner s (s.addressRefused d) := by
  simp only [State.addressRefused]
  split
  · split
    · exact Inner.endAttempt s d _ _
    · exact Inner.failProgram s d _ _
    · exact Inner.refl s
  · exact Inner.refl s

theorem Inner.readyAnswer (s : State) (d n : Nat) : Inner s (s.readyAnswer d n) := by
  simp only [State.readyAnswer]
  split
  · exact Inner.refl s
  · split
    · exact Inner.endPoll s d _ _ _
    · exact Inner.ite (Inner.setDie s d _ (by exact List.Sublist.refl _)) (Inner.refl s)
    · exact Inner.ite (Inner.endProgram s d _ _) (Inner.refl s)

theorem Inner.busyAnswer (s : State) (d n : Nat) : Inner s (s.busyAnswer d n) := by
  simp only [State.busyAnswer]
  split
  · exact Inner.refl s
  · split
    · exact Inner.endPoll s d _ _ _
    all_goals exact Inner.refl s

theorem Inner.transferEnd (s : State) (d : Nat) (data stored : List Byte) : Inner s (s.transferEnd d data stored) := by
  simp only [State.transferEnd, State.crcMismatch]
  have h1 : Inner s (s.holdTransfer d (data ++ stored)) := Inner.setDie s d _ (by exact List.Sublist.refl _)
  split
  · split
    · refine Inner.ite (h1.trans (Inner.endRead _ d _ _ _)) (h1.trans ?_)
      exact (Inner.ite (Inner.refl _) (Inner.count _ _)).trans (Inner.endAttempt _ d _ _)
    all_goals exact Inner.refl s
  · exact Inner.refl s

theorem Inner.readTimesOut (s : State) (d : Nat) : Inner s (s.readTimesOut d) := by
  simp only [State.readTimesOut]
  split
  · exact Inner.refl s
  · split
    · exact Inner.goOffline s d _
    all_goals exact Inner.refl s

theorem Inner.pollTimesOut (s : State) (d : Nat) : Inner s (s.pollTimesOut d) := by
  simp only [State.pollTimesOut]
  split
  · exact Inner.refl s
  · split
    · exact Inner.endPoll s d _ _ _
    all_goals exact Inner.refl s

theorem Inner.dataPhaseEnds (s : State) (d : Nat) (data : List Byte) : Inner s (s.dataPhaseEnds d data) := by
  simp only [State.dataPhaseEnds]
  split
  · split
    · exact (Inner.setDie s d _ (by exact List.Sublist.refl _)).trans (Inner.emit _ _ nofun)
    all_goals exact Inner.refl s
  · exact Inner.refl s

theorem Inner.dmaFails (s : State) (d : Nat) : Inner s (s.dmaFails d) := by
  simp only [State.dmaFails]
  split
  · split
    · exact (Inner.latch s _).trans (Inner.failProgram _ d _ _)
    all_goals exact Inner.refl s
  · exact Inner.refl s

theorem Inner.programTimesOut (s : State) (d : Nat) : Inner s (s.programTimesOut d) := by
  simp only [State.programTimesOut]
  split
  · exact Inner.refl s
  · split
    · exact Inner.goOffline s d _
    all_goals exact Inner.refl s

end Sys2Proof.Machine
end

