-- ==== Sys2Proof/Laws/Event.lean ====
section
/-! SUPPORT. What every event ends with, said once: the DONE writes, the message and the advance of the Request Processor leave
every field alone but the few they name; and the shape of a take. Provers cite these instead of unfolding `State.flush`,
`sendMessage` and `State.takeRequest`. -/

namespace Sys2Proof.Machine

/-! ### The ends of an event -/

/-- What the DONE writes, the message and the advance of the Request Processor can do: `out`, the Request Processor's record,
the interrupt flags and the completions move, and nothing else. -/
def Posted (s t : State) : Prop :=
  s.out <+: t.out ∧ t = { s with
    out := t.out, completions := t.completions, requests := t.requests
    registers := { s.registers with status := t.registers.status } }

theorem Posted.refl (s : State) : Posted s s := ⟨List.prefix_rfl, rfl⟩

theorem Posted.trans {s t u : State} (h : Posted s t) (k : Posted t u) : Posted s u :=
  ⟨h.1.trans k.1, k.2.trans (by rw [h.2])⟩

theorem Posted.emit (s : State) (o : Output) : Posted s (s.emit o) := ⟨List.prefix_append _ _, rfl⟩

theorem Posted.latch (s : State) (f : Flag) : Posted s (s.latch f) := ⟨List.prefix_rfl, rfl⟩

theorem Posted.setRequests (s : State) (q : RequestProcessor) : Posted s { s with requests := q } :=
  ⟨List.prefix_rfl, rfl⟩

theorem Posted.setCompletions (s : State) (l : List Completion) : Posted s { s with completions := l } :=
  ⟨List.prefix_rfl, rfl⟩

theorem Posted.ite {s t u : State} {c : Prop} [Decidable c] (h : Posted s t) (k : Posted s u) :
    Posted s (if c then t else u) := by
  split
  · exact h
  · exact k

theorem Posted.foldl {α : Type} (f : State → α → State) (h : ∀ s x, Posted s (f s x)) (l : List α) (s : State) :
    Posted s (l.foldl f s) := by
  induction l generalizing s with
  | nil => exact Posted.refl s
  | cons x l ih => exact (h s x).trans (ih (f s x))

theorem Posted.writeDone (s : State) (c : Completion) : Posted s (s.writeDone c) := by
  have h := (Posted.emit s (.hostWrite (requestStatusAddress c.token.address) (doneBytes c.result c.word0 c.word1))).trans
    (Posted.setRequests _ { s.requests with lastTag := c.token.tag })
  exact Posted.ite (h.trans (Posted.latch _ _)) h

theorem Posted.flush (s : State) : Posted s s.flush :=
  (Posted.setCompletions s []).trans (Posted.foldl _ Posted.writeDone _ _)

theorem Posted.sendMessage (b s : State) : Posted s (Machine.sendMessage b s) :=
  Posted.ite (Posted.emit s _) (Posted.refl s)

theorem Posted.writeTaken (s : State) (t : Token) : Posted s (s.writeTaken t) := Posted.emit s _

theorem Posted.writeStatuses (s : State) (t : Token) : Posted s (s.writeStatuses t) :=
  Posted.ite (Posted.flush s) ((Posted.flush s).trans (Posted.writeTaken _ t))

theorem Posted.parkRequestsLinkError (s : State) (a : HostAddr) (b : Bool) : Posted s (s.parkRequestsLinkError a b) :=
  (Posted.setRequests s _).trans (Posted.latch _ _)

theorem Posted.parkRequestsEnd (s : State) : Posted s s.parkRequestsEnd := Posted.setRequests s _

theorem Posted.fetchRequest (s : State) (a : HostAddr) : Posted s (s.fetchRequest a) := by
  simp only [State.fetchRequest]
  exact Posted.ite (Posted.setRequests s _) (Posted.ite ((Posted.setRequests s _).trans (Posted.emit _ _))
    (Posted.parkRequestsLinkError s a _))

theorem Posted.rereadFetching (s : State) (kind : RequestRead) : Posted s (s.rereadFetching kind) := by
  simp only [State.rereadFetching]
  exact Posted.ite (Posted.setRequests s _) ((Posted.setRequests s _).trans (Posted.emit _ _))

theorem Posted.rereadAtAdvance (s : State) : Posted s s.rereadAtAdvance := Posted.rereadFetching s _

theorem Posted.rereadAtResume (s : State) : Posted s s.rereadAtResume := by
  simp only [State.rereadAtResume]
  exact Posted.ite (Posted.setRequests s _) ((Posted.setRequests s _).trans (Posted.emit _ _))

theorem Posted.rereadAgain (s : State) : Posted s s.rereadAgain := by
  simp only [State.rereadAgain]
  exact Posted.ite (Posted.rereadFetching s _) ((Posted.setRequests s _).trans (Posted.rereadAtResume _))

theorem Posted.advanceRequests (s : State) (a : HostAddr) : Posted s (s.advanceRequests a) := by
  simp only [State.advanceRequests]
  exact Posted.ite (Posted.fetchRequest s a) (Posted.ite (Posted.rereadAtAdvance s) (Posted.parkRequestsEnd s))

theorem Posted.writeRequestPointer (s : State) (a : HostAddr) : Posted s (s.writeRequestPointer a) := by
  simp only [State.writeRequestPointer]
  exact Posted.ite (Posted.latch s _) (Posted.ite (Posted.setRequests s _)
    (Posted.ite ((Posted.setRequests s _).trans (Posted.fetchRequest _ a)) (Posted.latch s _)))

theorem Posted.resumeRequests (s : State) : Posted s s.resumeRequests := by
  simp only [State.resumeRequests]
  split
  · exact Posted.refl s
  · exact Posted.setRequests s _
  · split
    · exact Posted.rereadAtResume s
    · exact Posted.rereadAtResume s
    · exact Posted.fetchRequest s _
    · exact Posted.refl s

theorem Posted.requestFetchFails (s : State) : Posted s s.requestFetchFails :=
  Posted.ite (Posted.parkRequestsLinkError s _ _) (Posted.refl s)

theorem Posted.rereadAtResumeEnds (s : State) (read : Option HostAddr) : Posted s (s.rereadAtResumeEnds read) := by
  cases read
  · exact (Posted.parkRequestsEnd s).trans (Posted.latch _ _)
  · exact Posted.ite (Posted.fetchRequest s _) (Posted.ite (Posted.rereadAgain s) (Posted.parkRequestsEnd s))

theorem Posted.rereadAtAdvanceEnds (s : State) (read : Option HostAddr) : Posted s (s.rereadAtAdvanceEnds read) := by
  cases read
  · exact Posted.parkRequestsLinkError s _ _
  · exact Posted.advanceRequests s _

theorem Posted.rereadUnused (s : State) (read : Option HostAddr) : Posted s (s.rereadUnused read) :=
  Posted.ite (Posted.latch s _) (Posted.refl s)

theorem Posted.olderRereadEnds (s : State) (read : Option HostAddr) : Posted s (s.olderRereadEnds read) := by
  cases read
  · exact Posted.rereadUnused s none
  · exact Posted.ite (Posted.fetchRequest s _) (Posted.refl s)

theorem Posted.parkedRereadEnds (s : State) (read : Option HostAddr) : Posted s (s.parkedRereadEnds read) := by
  simp only [State.parkedRereadEnds]
  exact Posted.ite ((Posted.setRequests s _).trans (Posted.rereadAtResumeEnds _ read))
    ((Posted.setRequests s _).trans (Posted.olderRereadEnds _ read))

theorem Posted.fetchingRereadEnds (s : State) (read : Option HostAddr) : Posted s (s.fetchingRereadEnds read) := by
  simp only [State.fetchingRereadEnds]
  refine Posted.ite (Posted.refl s) ?_
  split
  · exact (Posted.setRequests s _).trans (Posted.rereadAtAdvanceEnds _ read)
  · exact (Posted.setRequests s _).trans (Posted.rereadAtResumeEnds _ read)
  · exact Posted.refl s
  · exact Posted.refl s

theorem Posted.requestReread (s : State) (read : Option HostAddr) : Posted s (s.requestReread read) := by
  simp only [State.requestReread]
  exact Posted.ite ((Posted.setRequests s _).trans (Posted.rereadUnused _ read))
    (Posted.ite (Posted.parkedRereadEnds s read) (Posted.fetchingRereadEnds s read))

namespace Posted
variable {s t : State} (h : Posted s t)
include h

theorem stores : t.stores = s.stores := by rw [h.2]
theorem catalog : t.catalog = s.catalog := by rw [h.2]
theorem partition : t.partition = s.partition := by rw [h.2]
theorem dram : t.dram = s.dram := by rw [h.2]
theorem reclaiming : t.reclaiming = s.reclaiming := by rw [h.2]
theorem recency : t.recency = s.recency := by rw [h.2]
theorem windows : t.windows = s.windows := by rw [h.2]
theorem voices : t.voices = s.voices := by rw [h.2]
theorem startCount : t.startCount = s.startCount := by rw [h.2]
theorem pace : t.pace = s.pace := by rw [h.2]
theorem queue : t.queue = s.queue := by rw [h.2]
theorem enqueueCount : t.enqueueCount = s.enqueueCount := by rw [h.2]
theorem dies : t.dies = s.dies := by rw [h.2]
theorem delivery : t.delivery = s.delivery := by rw [h.2]
theorem tunables : t.tunables = s.tunables := by rw [h.2]
theorem takes : t.takes = s.takes := by rw [h.2]
theorem freeCount : t.freeCount = s.freeCount := by rw [h.2]
theorem pending : t.pending = s.pending := by rw [h.2]
theorem registers : t.registers = { s.registers with status := t.registers.status } :=
  (congrArg State.registers h.2).trans rfl
theorem record (n : Nat) : t.record n = s.record n := by rw [State.record, h.catalog]; rfl
theorem voice (n : Nat) : t.voice n = s.voice n := by rw [State.voice, h.voices]; rfl
theorem window (n : Nat) : t.window n = s.window n := by rw [State.window, h.windows]; rfl
theorem die (n : Nat) : t.die n = s.die n := by rw [State.die, h.dies]; rfl
theorem streams : SameStreams s t :=
  ⟨fun _ => by rw [h.dram], ⟨h.record, h.partition, h.reclaiming, h.recency⟩, ⟨h.voice, h.window, h.startCount⟩,
    ⟨h.queue, h.enqueueCount⟩, ⟨h.die, h.stores⟩, h.tunables⟩
theorem canonical (k : s.Canonical) : t.Canonical :=
  ⟨by rw [h.dram]; exact k.dram, by rw [h.catalog]; exact k.catalog, by rw [h.voices]; exact k.voices,
    by rw [h.windows]; exact k.windows, fun w => by rw [h.window]; exact k.places w, by rw [h.dies]; exact k.dies⟩

end Posted

/-- The DONE writes leave no completion waiting. -/
theorem State.flush_completions (s : State) : s.flush.completions = [] := by
  have h : ∀ (l : List Completion) (x : State), (l.foldl State.writeDone x).completions = x.completions := by
    intro l
    induction l with
    | nil => intro x; rfl
    | cons c l ih =>
      intro x
      refine (ih _).trans ?_
      simp only [State.writeDone]
      split <;> rfl
  exact h _ _

theorem sendMessage_completions (b s : State) : (sendMessage b s).completions = s.completions := by
  unfold sendMessage; split <;> rfl

theorem sendMessage_requests (b s : State) : (sendMessage b s).requests = s.requests := by
  unfold sendMessage; split <;> rfl

theorem sendMessage_registers (b s : State) : (sendMessage b s).registers = s.registers := by
  unfold sendMessage; split <;> rfl

/-- With no completion waiting, an event ends with its message alone. -/
theorem State.flush_settled (s : State) (h : s.completions = []) : s.flush = s := by
  simp only [State.flush, h, sortCompletions, List.foldl_nil]
  rw [← h]

/-- WHAT AN EVENT ANSWERS: a next state that differs from what its owners leave in the posted fields alone. -/
theorem event_next (f : State → State) (s : State) : ∃ t, event f s = .next t ∧ Posted (f s) t ∧ t.completions = [] :=
  ⟨_, rfl, (Posted.flush _).trans (Posted.sendMessage _ _), by rw [sendMessage_completions, State.flush_completions]⟩

/-- An event whose owners leave no completion. -/
theorem event_settled (f : State → State) (s : State) (h : (f s).completions = []) :
    event f s = .next (sendMessage s (f s)) := by
  unfold event; rw [State.flush_settled _ h]

/-! ### The beginning of a take, field by field -/

section
variable (s : State) (h : Header)

@[simp] theorem State.beginTake_registers : (s.beginTake h).registers = s.registers := rfl
@[simp] theorem State.beginTake_stores : (s.beginTake h).stores = s.stores := rfl
@[simp] theorem State.beginTake_catalog : (s.beginTake h).catalog = s.catalog := rfl
@[simp] theorem State.beginTake_partition : (s.beginTake h).partition = s.partition := rfl
@[simp] theorem State.beginTake_dram : (s.beginTake h).dram = s.dram := rfl
@[simp] theorem State.beginTake_reclaiming : (s.beginTake h).reclaiming = s.reclaiming := rfl
@[simp] theorem State.beginTake_recency : (s.beginTake h).recency = s.recency := rfl
@[simp] theorem State.beginTake_windows : (s.beginTake h).windows = s.windows := rfl
@[simp] theorem State.beginTake_voices : (s.beginTake h).voices = s.voices := rfl
@[simp] theorem State.beginTake_startCount : (s.beginTake h).startCount = s.startCount := rfl
@[simp] theorem State.beginTake_pace : (s.beginTake h).pace = s.pace := rfl
@[simp] theorem State.beginTake_queue : (s.beginTake h).queue = s.queue := rfl
@[simp] theorem State.beginTake_enqueueCount : (s.beginTake h).enqueueCount = s.enqueueCount := rfl
@[simp] theorem State.beginTake_dies : (s.beginTake h).dies = s.dies := rfl
@[simp] theorem State.beginTake_delivery : (s.beginTake h).delivery = s.delivery := rfl
@[simp] theorem State.beginTake_tunables : (s.beginTake h).tunables = s.tunables := rfl
@[simp] theorem State.beginTake_out : (s.beginTake h).out = s.out := rfl
@[simp] theorem State.beginTake_completions : (s.beginTake h).completions = s.completions := rfl
@[simp] theorem State.beginTake_freeCount : (s.beginTake h).freeCount = s.freeCount := rfl
@[simp] theorem State.beginTake_pending : (s.beginTake h).pending = s.pending := rfl
@[simp] theorem State.beginTake_record (id : Nat) : (s.beginTake h).record id = s.record id := rfl
@[simp] theorem State.beginTake_voice (n : Nat) : (s.beginTake h).voice n = s.voice n := rfl
@[simp] theorem State.beginTake_window (w : Nat) : (s.beginTake h).window w = s.window w := rfl
@[simp] theorem State.beginTake_die (d : Nat) : (s.beginTake h).die d = s.die d := rfl
@[simp] theorem State.beginTake_storeClaims (x : List Extent) : (s.beginTake h).storeClaims x = s.storeClaims x := rfl
@[simp] theorem State.beginTake_names (x : RecordName) : (s.beginTake h).names x = s.names x := rfl
@[simp] theorem State.beginTake_namesVoice (x : VoiceName) : (s.beginTake h).namesVoice x = s.namesVoice x := rfl
@[simp] theorem State.beginTake_slotFree (x : Nat) : (s.beginTake h).slotFree x = s.slotFree x := rfl
@[simp] theorem State.beginTake_windowFree (x : Nat) : (s.beginTake h).windowFree x = s.windowFree x := rfl
@[simp] theorem State.beginTake_layoutOf (x : Voice) : (s.beginTake h).layoutOf x = s.layoutOf x := rfl
@[simp] theorem State.beginTake_leadClass (x : Voice) : (s.beginTake h).leadClass x = s.leadClass x := rfl
@[simp] theorem State.beginTake_horizon (x : Voice) : (s.beginTake h).horizon x = s.horizon x := rfl
@[simp] theorem State.beginTake_runDue (x : Voice) : (s.beginTake h).runDue x = s.runDue x := rfl
@[simp] theorem State.beginTake_soundingSlots : (s.beginTake h).soundingSlots = s.soundingSlots := rfl
@[simp] theorem State.beginTake_soundingCount : (s.beginTake h).soundingCount = s.soundingCount := rfl
@[simp] theorem State.beginTake_lowestFreeSlot : (s.beginTake h).lowestFreeSlot = s.lowestFreeSlot := rfl
@[simp] theorem State.beginTake_lowestFreeWindow : (s.beginTake h).lowestFreeWindow = s.lowestFreeWindow := rfl
@[simp] theorem State.beginTake_lowestFreeHeadSlot : (s.beginTake h).lowestFreeHeadSlot = s.lowestFreeHeadSlot := rfl
@[simp] theorem State.beginTake_evictionVictim : (s.beginTake h).evictionVictim = s.evictionVictim := rfl
@[simp] theorem State.beginTake_slotForLoad : (s.beginTake h).slotForLoad = s.slotForLoad := rfl
@[simp] theorem State.beginTake_victim : (s.beginTake h).victim = s.victim := rfl
@[simp] theorem State.beginTake_isEmpty : (s.beginTake h).isEmpty = s.isEmpty := rfl
@[simp] theorem State.beginTake_resetting : (s.beginTake h).resetting = s.resetting := rfl
@[simp] theorem State.beginTake_freeStorePlace : (s.beginTake h).freeStorePlace = s.freeStorePlace := rfl
@[simp] theorem State.beginTake_recordForbids (a b : Nat) : (s.beginTake h).recordForbids a b = s.recordForbids a b := rfl
@[simp] theorem State.beginTake_rangeOffline (a b : Nat) : (s.beginTake h).rangeOffline a b = s.rangeOffline a b := rfl
@[simp] theorem State.beginTake_admit (x : Nat) : (s.beginTake h).admission x = s.admission x := rfl
@[simp] theorem State.beginTake_recordClaimed (x : Record) : (s.beginTake h).recordClaimed x = s.recordClaimed x := rfl
@[simp] theorem State.beginTake_startLate (x : StartParams) : (s.beginTake h).startLate x = s.startLate x := rfl
@[simp] theorem State.beginTake_pollsFull (x : Nat) : (s.beginTake h).pollsFull x = s.pollsFull x := rfl
@[simp] theorem State.beginTake_dieOffline (x : Nat) : (s.beginTake h).dieOffline x = s.dieOffline x := rfl

end

/-! ### The take -/

/-- The DONE write of one completion keeps the tag of the last one written, and what was written before. -/
theorem State.writeDone_lastTag (s : State) (c : Completion) : (s.writeDone c).requests = { s.requests with lastTag := c.token.tag } := by
  simp only [State.writeDone]; split <;> rfl

/-- A take with one completion of its own: what it writes. -/
theorem State.flush_one (s : State) (c : Completion) (h : s.completions = [c]) :
    s.flush = { s with completions := [] }.writeDone c := by
  simp only [State.flush, h, sortCompletions, insertCompletion, List.foldl]

/-- The advance after a take moves neither the taken count nor the tag. -/
theorem State.advanceRequests_counts (s : State) (a : HostAddr) :
    (s.advanceRequests a).requests.takenCount = s.requests.takenCount ∧
      (s.advanceRequests a).requests.lastTag = s.requests.lastTag := by
  simp only [State.advanceRequests, State.fetchRequest, State.rereadAtAdvance, State.rereadFetching, State.parkRequestsEnd,
    State.parkRequestsLinkError]
  repeat' split
  all_goals exact ⟨rfl, rfl⟩

/-- The advance leaves the completions. -/
theorem State.advanceRequests_completions (s : State) (a : HostAddr) :
    (s.advanceRequests a).completions = s.completions := by
  simp only [State.advanceRequests, State.fetchRequest, State.rereadAtAdvance, State.rereadFetching, State.parkRequestsEnd,
    State.parkRequestsLinkError]
  repeat' split
  all_goals rfl

theorem State.writeDone_completions (s : State) (c : Completion) : (s.writeDone c).completions = s.completions := by
  simp only [State.writeDone]; split <;> rfl

/-- A latched flag stays latched when others are latched. -/
theorem State.latched_latch (s : State) (f g : Flag) (h : s.latched f = true) : (s.latch g).latched f = true := by
  simp only [State.latched, State.latch, BitVec.getLsbD_or] at *
  simp [h]

/-- A latch latches. -/
theorem State.latched_same (s : State) (f : Flag) : (s.latch f).latched f = true := by
  cases f <;> simp [State.latched, State.latch, Flag.bit, Flag.position]

/-- A latch leaves the other flags. -/
theorem State.latched_other (s : State) {f g : Flag} (h : f ≠ g) : (s.latch g).latched f = s.latched f := by
  cases f <;> cases g <;> first | exact absurd rfl h | simp [State.latched, State.latch, Flag.bit, Flag.position]

/-- The advance after a take latches PORT_ERROR or nothing. -/
theorem State.advanceRequests_otherFlags (s : State) (a : HostAddr) {f : Flag} (h : f ≠ .portError) :
    (s.advanceRequests a).latched f = s.latched f := by
  simp only [State.advanceRequests, State.fetchRequest, State.rereadAtAdvance, State.rereadFetching, State.parkRequestsEnd,
    State.parkRequestsLinkError]
  repeat' split
  all_goals first | rfl | exact State.latched_other _ h

/-- The advance after a take clears no flag. -/
theorem State.advanceRequests_latched (s : State) (a : HostAddr) (f : Flag) (h : s.latched f = true) :
    (s.advanceRequests a).latched f = true := by
  simp only [State.advanceRequests, State.fetchRequest, State.rereadAtAdvance, State.rereadFetching, State.parkRequestsEnd,
    State.parkRequestsLinkError]
  repeat' split
  all_goals first | exact h | exact State.latched_latch _ f .portError h

/-- THE TAKE of a command whose position stands. -/
theorem exec_arrival {s : State} (k : s.Taking) (h : Header) (body : RequestBody) :
    event (arrival h body) s = .next (sendMessage s (s.takeRequest ⟨h, body⟩).flush) := by
  have hr : s.requestReading = true := by
    simp [State.requestReading, k.reading, k.read, k.begun]
  have hn : s.resetting = false := by simp [State.resetting, k.ready]
  simp [event, arrival, State.requestArrives, hr, hn]

/-- What a take leaves: what the owner decided, but for the posted fields. -/
theorem Posted.takeRequest (s : State) (r : Request) :
    Posted (takeBody (s.tokenFor r.header) r.body (s.beginTake r.header)) (s.takeRequest r) :=
  (Posted.writeStatuses _ _).trans (Posted.advanceRequests _ _)

/-- A take whose owner completes the request alone, in the position a take needs. -/
theorem takenDone_of {s b : State} {h : Header} {body : RequestBody} {r : Result} {x y : Word} (k : s.Taking)
    (hb : takeBody (s.tokenFor h) body (s.beginTake h) = b) (hc : b.completions = [⟨s.tokenFor h, r, x, y⟩])
    (ho : s.out <+: b.out) (hq : b.requests = (s.beginTake h).requests)
    (hl : b.latched .requestDone = s.latched .requestDone) :
    ∃ t, event (arrival h body) s = .next t ∧ TakenDone s t h r x y ∧ Posted b t ∧ t.completions = [] := by
  refine ⟨_, exec_arrival k h body, ?_, ?_, ?_⟩
  · have hf : b.writeStatuses (s.tokenFor h) = { b with completions := [] }.writeDone ⟨s.tokenFor h, r, x, y⟩ := by
      simp [State.writeStatuses, State.completesNow, hc, State.flush_one b _ hc]
    have ht : s.takeRequest ⟨h, body⟩ =
        ({ b with completions := [] }.writeDone ⟨s.tokenFor h, r, x, y⟩).advanceRequests h.next := by
      simp only [State.takeRequest]; rw [hb, hf]
    have hs : (s.takeRequest ⟨h, body⟩).completions = [] := by
      rw [ht, State.advanceRequests_completions, State.writeDone_completions]
    rw [State.flush_settled _ hs]
    obtain ⟨o1, h1⟩ := ho
    have hw : ({ b with completions := [] }.writeDone ⟨s.tokenFor h, r, x, y⟩).out =
        b.out ++ [.hostWrite (requestStatusAddress s.requests.address) (doneBytes r x y)] := by
      simp only [State.writeDone]; split <;> rfl
    obtain ⟨o2, h2⟩ := ((Posted.advanceRequests ({ b with completions := [] }.writeDone ⟨s.tokenFor h, r, x, y⟩)
      h.next).trans (Posted.sendMessage s _)).1
    have hn := State.advanceRequests_counts ({ b with completions := [] }.writeDone ⟨s.tokenFor h, r, x, y⟩) h.next
    refine ⟨⟨o1, o2, ?_⟩, ?_, ?_, ?_, ?_⟩
    · rw [ht, ← h2, hw, ← h1]; simp
    · rw [sendMessage_requests, ht, hn.1, State.writeDone_lastTag]; simp [hq, State.beginTake]
    · rw [sendMessage_requests, ht, hn.2, State.writeDone_lastTag]; rfl
    · intro hn
      have hd : ({ b with completions := [] }.writeDone ⟨s.tokenFor h, r, x, y⟩).latched .requestDone = true := by
        have : (s.tokenFor h).notify = true := hn
        simp only [State.writeDone, this, if_true]
        exact State.latched_same _ _
      have := State.advanceRequests_latched _ h.next _ hd
      unfold State.latched at this ⊢
      rw [sendMessage_registers, ht]
      exact this
    · intro hn
      have hd : ({ b with completions := [] }.writeDone ⟨s.tokenFor h, r, x, y⟩).latched .requestDone =
          s.latched .requestDone := by
        have : (s.tokenFor h).notify = false := hn
        simp only [State.writeDone, this, Bool.false_eq_true, if_false]
        exact hl
      have := State.advanceRequests_otherFlags ({ b with completions := [] }.writeDone ⟨s.tokenFor h, r, x, y⟩) h.next
        (by simp : Flag.requestDone ≠ .portError)
      rw [← hd]
      unfold State.latched at this ⊢
      rw [sendMessage_registers, ht]
      exact this
  · rw [← hb]
    exact (Posted.takeRequest s ⟨h, body⟩).trans ((Posted.flush _).trans (Posted.sendMessage _ _))
  · rw [sendMessage_completions, State.flush_completions]

/-- A take whose owner leaves the request pending, in the position a take needs. -/
theorem takenLong_of {s b : State} {h : Header} {body : RequestBody} (k : s.Taking)
    (hb : takeBody (s.tokenFor h) body (s.beginTake h) = b) (hc : b.completions = [])
    (ho : s.out <+: b.out) (hq : b.requests = (s.beginTake h).requests)
    (hf : b.latched .requestDone = s.latched .requestDone) :
    ∃ t, event (arrival h body) s = .next t ∧ TakenLong s t ∧ Posted b t ∧ t.completions = [] := by
  refine ⟨_, exec_arrival k h body, ?_, ?_, ?_⟩
  · have hw1 : b.writeStatuses (s.tokenFor h) = b.writeTaken (s.tokenFor h) := by
      simp [State.writeStatuses, State.completesNow, hc, State.flush_settled b hc]
    have ht : s.takeRequest ⟨h, body⟩ = (b.writeTaken (s.tokenFor h)).advanceRequests h.next := by
      simp only [State.takeRequest]; rw [hb, hw1]
    have hs : (s.takeRequest ⟨h, body⟩).completions = [] := by
      rw [ht, State.advanceRequests_completions]
      exact hc
    rw [State.flush_settled _ hs]
    obtain ⟨o1, h1⟩ := ho
    have hw : (b.writeTaken (s.tokenFor h)).out =
        b.out ++ [.hostWrite (requestStatusAddress s.requests.address) takenBytes] := rfl
    obtain ⟨o2, h2⟩ := ((Posted.advanceRequests (b.writeTaken (s.tokenFor h)) h.next).trans (Posted.sendMessage s _)).1
    have hl := State.advanceRequests_counts (b.writeTaken (s.tokenFor h)) h.next
    have hr : (b.writeTaken (s.tokenFor h)).requests = (s.beginTake h).requests := hq
    refine ⟨⟨o1, o2, ?_⟩, ?_, ?_, ?_⟩
    · rw [ht, ← h2, hw, ← h1]; simp
    · rw [sendMessage_requests, ht, hl.1, hr]; rfl
    · rw [sendMessage_requests, ht, hl.2, hr]; rfl
    · have := State.advanceRequests_otherFlags (b.writeTaken (s.tokenFor h)) h.next (by simp : Flag.requestDone ≠ .portError)
      rw [← hf]
      unfold State.latched at this ⊢
      rw [sendMessage_registers, ht]
      exact this
  · rw [← hb]
    exact (Posted.takeRequest s ⟨h, body⟩).trans ((Posted.flush _).trans (Posted.sendMessage _ _))
  · rw [sendMessage_completions, State.flush_completions]

end Sys2Proof.Machine
end

