-- ==== Sys2Proof/Laws/Arbiter.lean ====
section
/-! SUPPORT. What a die's arbiter does with a READY die that has no operation, said once: `State.arbitrate` gives the die the
choice of R129 and completes the REVIVE_DIEs before it (R128). Provers cite these instead of unfolding the arbiter. -/

namespace Sys2Proof.Machine

/-! ### The written completions -/

/-- A status write once made stays on the link. -/
theorem wroteAt.mono {s t u : State} {a : HostAddr} {bytes : List Byte} (h : wroteAt s t a bytes) (k : t.out <+: u.out) :
    wroteAt s u a bytes := by
  obtain ⟨before, after, e⟩ := h
  obtain ⟨more, k⟩ := k
  exact ⟨before, after ++ more, by rw [← k, e]; simp⟩

theorem mem_insertCompletion (c x : Completion) (l : List Completion) : c ∈ insertCompletion x l ↔ c = x ∨ c ∈ l := by
  induction l with
  | nil => simp [insertCompletion]
  | cons y l ih =>
    rw [insertCompletion]
    split
    · simp only [List.mem_cons, ih]
      exact or_left_comm
    · simp only [List.mem_cons]

theorem mem_sortCompletions (c : Completion) (l : List Completion) : c ∈ sortCompletions l ↔ c ∈ l := by
  induction l with
  | nil => simp [sortCompletions]
  | cons x l ih => rw [sortCompletions, mem_insertCompletion, ih, List.mem_cons]

/-- Every completion gathered is written at the end of the event. -/
theorem State.flush_wrote (s : State) (c : Completion) (h : c ∈ s.completions) :
    wroteAt s s.flush c.token.address (doneBytes c.result c.word0 c.word1) := by
  have key : ∀ (l : List Completion) (x : State), c ∈ l →
      wroteAt x (l.foldl State.writeDone x) c.token.address (doneBytes c.result c.word0 c.word1) := by
    intro l
    induction l with
    | nil => intro x h; cases h
    | cons y l ih =>
      intro x h
      rcases List.mem_cons.mp h with h | h
      · subst h
        have w : wroteAt x (x.writeDone c) c.token.address (doneBytes c.result c.word0 c.word1) :=
          ⟨[], [], by unfold State.writeDone; dsimp only; split <;> simp [State.emit, State.latch]⟩
        exact w.mono (Posted.foldl _ Posted.writeDone l _).1
      · obtain ⟨before, after, e⟩ := ih (x.writeDone y) h
        obtain ⟨first, k⟩ := (Posted.writeDone x y).1
        exact ⟨first ++ before, after, by rw [List.foldl_cons, e, ← k]; simp⟩
  obtain ⟨before, after, e⟩ := key _ { s with completions := [] } ((mem_sortCompletions c _).mpr h)
  exact ⟨before, after, e⟩

/-! ### The choice -/

/-- The steps of `State.chooseTransfer` are those of the rule. -/
theorem State.chooseTransfer_eq (s : State) (d : Nat) :
    s.chooseTransfer d =
      match (((s.subQueue d).head?.filter fun e => e.deadline ≤ s.pace.index + s.tunables.programGuard).map Work.read).or
          (((s.die d).programs.head?.map Work.program).or ((s.subQueue d).head?.map Work.read)) with
      | some (.read e) => s.issueRead d e
      | some (.program p) => s.issueProgram d p (s.die d).programs.tail
      | some .poll | none => s := by
  unfold State.chooseTransfer
  cases hq : s.subQueue d with
  | nil => cases hp : (s.die d).programs <;> simp
  | cons e es =>
    cases hp : (s.die d).programs with
    | nil => by_cases h : e.deadline ≤ s.pace.index + s.tunables.programGuard <;> simp [Option.filter, h]
    | cons p ps => by_cases h : e.deadline ≤ s.pace.index + s.tunables.programGuard <;> simp [Option.filter, h]

theorem State.raiseReads_voice (s : State) (o : Owner) (n : Nat) :
    (s.raiseReads o).voice n = { s.voice n with reads := (s.voice n).reads + (o.isVoice n).toNat } := by
  cases o with
  | load id g => rfl
  | voice m g =>
    by_cases h : n = m
    · subst h; simp [State.raiseReads, Owner.isVoice]
    · have : (m == n) = false := by simpa using fun e => h e.symm
      simp [State.raiseReads, Owner.isVoice, this, State.voice_setVoice_other s _ h]

theorem State.raiseReads_record (s : State) (o : Owner) (n : Nat) :
    (s.raiseReads o).record n = { s.record n with loadReads := (s.record n).loadReads + (o.isLoad n).toNat } := by
  cases o with
  | voice m g => rfl
  | load id g =>
    by_cases h : n = id
    · subst h; simp [State.raiseReads, Owner.isLoad]
    · have : (id == n) = false := by simpa using fun e => h e.symm
      simp [State.raiseReads, Owner.isLoad, this, State.record_setRecord_other s _ h]

/-- What an issue leaves of the rest of the state. -/
theorem State.raiseReads_kept (s : State) (o : Owner) :
    (s.raiseReads o).dies = s.dies ∧ (s.raiseReads o).queue = s.queue ∧ (s.raiseReads o).stores = s.stores ∧
      (s.raiseReads o).out = s.out ∧ (s.raiseReads o).completions = s.completions := by
  cases o <;> exact ⟨rfl, rfl, rfl, rfl, rfl⟩

/-- The choice among the entries and the programs, on a die with no PROBE_DIE waiting and its REVIVE_DIEs done with. -/
theorem State.chooseTransfer_arbitrated (s : State) (d : Nat) (hp : (s.die d).polls = []) (ho : (s.die d).operation = none) :
    s.Arbitrated (s.chooseTransfer d) d := by
  have hc : s.dieChoice d =
      (((s.subQueue d).head?.filter fun e => e.deadline ≤ s.pace.index + s.tunables.programGuard).map Work.read).or
        (((s.die d).programs.head?.map Work.program).or ((s.subQueue d).head?.map Work.read)) := by
    simp [State.dieChoice, hp]
  rw [State.chooseTransfer_eq, ← hc]
  cases h : s.dieChoice d with
  | none =>
    constructor <;> simp only [h, State.readsBegun, Nat.add_zero, implies_true]
    simp only [hp, List.dropWhile_nil, Option.map_none]
    exact (by rw [← hp, ← ho] : s.die d = { s.die d with polls := [], operation := none })
  | some w =>
    cases w with
    | poll =>
      exfalso
      rw [hc] at h
      revert h
      cases (s.subQueue d).head? <;> cases (s.die d).programs.head? <;> simp [Option.filter] <;> split <;> simp
    | read e =>
      have k := State.raiseReads_kept
        ({ s with queue := s.queue.erase e }.setDie d { s.die d with
          state := .addressing, retries := 0
          operation := some { work := .read e, attempt := 1, discard := false, pollInterval := s.tunables.pollInterval
                              timeout := s.tunables.readTimeout } }) e.owner
      have hd : ∀ x, (s.issueRead d e).die x = ({ s with queue := s.queue.erase e }.setDie d { s.die d with
          state := .addressing, retries := 0
          operation := some { work := .read e, attempt := 1, discard := false, pollInterval := s.tunables.pollInterval
                              timeout := s.tunables.readTimeout } }).die x := fun x => congrArg (Table.get Die.blank · x) k.1
      constructor <;> simp only [h, State.readsBegun]
      · rw [hd, State.die_setDie_same]; simp [hp, State.begun]
      · exact List.mem_append_right _ List.mem_cons_self
      · exact k.2.1
      · exact k.2.2.1
      · exact fun n => State.raiseReads_voice _ e.owner n
      · exact fun n => State.raiseReads_record _ e.owner n
      · exact fun x hx => (hd x).trans (State.die_setDie_other _ _ hx)
    | program p =>
      have hd : ∀ x, (s.issueProgram d p (s.die d).programs.tail).die x = (s.setDie d { s.die d with
          state := .addressing, programs := (s.die d).programs.tail
          operation := some { work := .program p, attempt := 1, discard := false, pollInterval := s.tunables.pollInterval
                              timeout := s.tunables.programTimeout } }).die x := fun _ => rfl
      constructor <;> simp only [h, State.readsBegun, Nat.add_zero]
      · rw [hd, State.die_setDie_same]; simp [hp, State.begun]
      · exact List.mem_append_right _ List.mem_cons_self
      · rfl
      · rfl
      · exact fun n => rfl
      · exact fun n => rfl
      · exact fun x hx => (hd x).trans (State.die_setDie_other s _ hx)

/-- A REVIVE_DIE at the head of a READY die's poll list is passed over. -/
theorem State.Arbitrated.revive {s t : State} {d : Nat} {q : PollRequest} {rest : List PollRequest} {c : List Completion}
    (hq : q.revive = true) (hp : (s.die d).polls = q :: rest)
    (h : ({ s.setDie d { s.die d with polls := rest } with completions := c } : State).Arbitrated t d) : s.Arbitrated t d := by
  have hdie : ({ s.setDie d { s.die d with polls := rest } with completions := c } : State).die d =
      { s.die d with polls := rest } := State.die_setDie_same s d _
  have hdrop : (s.die d).polls.dropWhile PollRequest.revive = rest.dropWhile PollRequest.revive := by
    rw [hp, List.dropWhile_cons, if_pos hq]
  have hchoice : ({ s.setDie d { s.die d with polls := rest } with completions := c } : State).dieChoice d = s.dieChoice d := by
    unfold State.dieChoice
    rw [hdie, hdrop]; rfl
  have hreads : ∀ o, ({ s.setDie d { s.die d with polls := rest } with completions := c } : State).readsBegun d o =
      s.readsBegun d o := fun o => by unfold State.readsBegun; rw [hchoice]
  constructor
  · rw [h.die, hchoice, hdie, hdrop]; cases s.dieChoice d with
    | none => rfl
    | some w => cases w <;> rfl
  · have := h.asked; rwa [hchoice] at this
  · rw [h.queue, hchoice]; rfl
  · rw [h.stores, hchoice]; rfl
  · intro n; rw [h.voice, hreads]; rfl
  · intro n; rw [h.record, hreads]; rfl
  · exact fun x hx => (h.others x hx).trans (State.die_setDie_other s _ hx)

/-- The choice on a READY die with no operation: R129's, with a completion for each REVIVE_DIE before it (R128). -/
theorem State.chooseReady_arbitrated (d : Nat) (l : List PollRequest) : ∀ s : State, (s.die d).polls = l →
    (s.die d).operation = none → (s.die d).state = .ready →
    s.Arbitrated (State.chooseReady d l s) d ∧ s.out <+: (State.chooseReady d l s).out ∧
      (∀ c ∈ s.completions, c ∈ (State.chooseReady d l s).completions) ∧
      ∀ q ∈ l.takeWhile PollRequest.revive, ⟨q.token, .ok, 0#32, 0#32⟩ ∈ (State.chooseReady d l s).completions := by
  induction l with
  | nil =>
    intro s hp ho _
    refine ⟨s.chooseTransfer_arbitrated d hp ho, (Inner.chooseTransfer s d).out, ?_, by simp⟩
    intro c hc
    rw [State.chooseReady, State.chooseTransfer_eq]
    split
    · exact (congrArg (c ∈ ·) (State.raiseReads_kept _ _).2.2.2.2).mpr hc
    · exact hc
    · exact hc
    · exact hc
  | cons q rest ih =>
    intro s hp ho hs
    rw [State.chooseReady]
    by_cases hq : q.revive = true
    · rw [if_pos hq]
      have hdie : ((s.setDie d { s.die d with polls := rest }).complete q.token .ok
          (BitVec.ofNat 32 DieState.ready.code) 0#32).die d = { s.die d with polls := rest } := State.die_setDie_same s d _
      obtain ⟨h1, h2, h3, h4⟩ := ih _ (by rw [hdie]) (by rw [hdie]; exact ho) (by rw [hdie]; exact hs)
      refine ⟨h1.revive hq hp, h2, fun c hc => h3 c (List.mem_cons_of_mem _ hc), fun x hx => ?_⟩
      rw [List.takeWhile_cons, if_pos hq] at hx
      rcases List.mem_cons.mp hx with hx | hx
      · subst hx
        exact h3 _ List.mem_cons_self
      · exact h4 x hx
    · rw [if_neg hq]
      have hd : (s.die d).polls.dropWhile PollRequest.revive = q :: rest := by rw [hp, List.dropWhile_cons, if_neg hq]
      have hc : s.dieChoice d = some .poll := by unfold State.dieChoice; rw [hd]; rfl
      refine ⟨?_, List.prefix_append _ _, fun c hc => hc, by rw [List.takeWhile_cons, if_neg hq]; simp⟩
      constructor <;> try simp only [hc, State.readsBegun, Nat.add_zero]
      · change (s.setDie d _).die d = _
        rw [State.die_setDie_same, hd, hs, ← hp]; rfl
      · exact List.mem_append_right _ List.mem_cons_self
      · rfl
      · rfl
      · exact fun n => rfl
      · exact fun n => rfl
      · exact fun x hx => State.die_setDie_other s _ hx

/-- THE ARBITER on a READY die with no operation, the part not in an engine reset (R128, R129). -/
theorem State.arbitrate_arbitrated (s : State) (d : Nat) (hr : s.resetting = false) (ho : (s.die d).operation = none)
    (hs : (s.die d).state = .ready) :
    s.Arbitrated (s.arbitrate d) d ∧ s.out <+: (s.arbitrate d).out ∧
      (∀ c ∈ s.completions, c ∈ (s.arbitrate d).completions) ∧
      ∀ q ∈ (s.die d).polls.takeWhile PollRequest.revive, ⟨q.token, .ok, 0#32, 0#32⟩ ∈ (s.arbitrate d).completions := by
  have h : s.arbitrate d = State.chooseReady d (s.die d).polls s := by simp [State.arbitrate, hr, ho, hs]
  rw [h]
  exact State.chooseReady_arbitrated d _ s rfl ho hs

/-- What the arbiter did for a state it did for every state with the same dies, queue, STOREs, owners and tunables. -/
theorem State.Arbitrated.congr {s u t : State} {d : Nat} (h : u.Arbitrated t d) (die : ∀ x, u.die x = s.die x)
    (queue : u.queue = s.queue) (stores : u.stores = s.stores) (pace : u.pace = s.pace) (tunables : u.tunables = s.tunables)
    (voice : ∀ n, u.voice n = s.voice n) (record : ∀ id, u.record id = s.record id) : s.Arbitrated t d := by
  have hc : u.dieChoice d = s.dieChoice d := by unfold State.dieChoice State.subQueue; rw [die, queue, pace, tunables]
  have hb : u.begun = s.begun := by unfold State.begun; rw [tunables]
  have hr : ∀ o, u.readsBegun d o = s.readsBegun d o := fun o => by unfold State.readsBegun; rw [hc]
  constructor
  · rw [h.die, hc, hb, die]
  · have := h.asked; rwa [hc] at this
  · rw [h.queue, hc, queue]
  · rw [h.stores, hc, stores]
  · intro n; rw [h.voice, hr, voice]
  · intro n; rw [h.record, hr, record]
  · exact fun x hx => (h.others x hx).trans (die x)

/-- The end of the event keeps what the arbiter did. -/
theorem State.Arbitrated.posted {s b t : State} {d : Nat} (h : s.Arbitrated b d) (k : Posted b t) : s.Arbitrated t d := by
  constructor
  · rw [k.die, h.die]
  · have := h.asked
    split
    · trivial
    all_goals rename_i hc; rw [hc] at this; exact k.1.subset this
  · rw [k.queue, h.queue]
  · rw [k.stores, h.stores]
  · intro n; rw [k.voice, h.voice]
  · intro n; rw [k.record, h.record]
  · intro x hx; rw [k.die, h.others x hx]

/-- An event that ends with the arbiter's choice on a READY die with no operation. -/
theorem State.arbitrate_event (b s : State) (d : Nat) (hr : s.resetting = false) (ho : (s.die d).operation = none)
    (hs : (s.die d).state = .ready) :
    let t := sendMessage b (s.arbitrate d).flush
    s.Arbitrated t d ∧ s.revivesWritten t d ∧
      ∀ c ∈ s.completions, wroteAt s t c.token.address (doneBytes c.result c.word0 c.word1) := by
  obtain ⟨h1, ⟨first, h2⟩, h3, h4⟩ := s.arbitrate_arbitrated d hr ho hs
  have k : Posted (s.arbitrate d) (sendMessage b (s.arbitrate d).flush) := (Posted.flush _).trans (Posted.sendMessage _ _)
  have wrote : ∀ c ∈ (s.arbitrate d).completions,
      wroteAt s (sendMessage b (s.arbitrate d).flush) c.token.address (doneBytes c.result c.word0 c.word1) := by
    intro c hc
    obtain ⟨before, after, e⟩ := ((s.arbitrate d).flush_wrote c hc).mono (Posted.sendMessage b _).1
    exact ⟨first ++ before, after, by rw [e, ← h2]; simp⟩
  exact ⟨h1.posted k, fun q hq => wrote _ (h4 q hq), fun c hc => wrote c (h3 c hc)⟩

end Sys2Proof.Machine
end

