-- ==== Sys2Proof/Laws/Blocks.lean ====
section
/-! SUPPORT. The bytes of a CRC written and read back (R123, R133). -/

namespace Sys2Proof.Machine

theorem leBytes_length (n v : Nat) : (leBytes n v).length = n := by
  induction n generalizing v with
  | zero => rfl
  | succ n ih => simp [leBytes, ih]

/-- A little-endian number read from bytes that stand after others. -/
theorem leField_append (before bytes : List Byte) (n : Nat) :
    ∀ offset, leField (before ++ bytes) (before.length + offset) n = leField bytes offset n := by
  induction n with
  | zero => exact fun _ => rfl
  | succ n ih =>
    intro offset
    have h : (before ++ bytes).getD (before.length + offset) 0#8 = bytes.getD offset 0#8 := by
      simp [List.getD_eq_getElem?_getD, List.getElem?_append_right]
    simp only [leField, h, Nat.add_assoc, ih (offset + 1)]

/-- A number written little-endian reads back as it was. -/
theorem leField_leBytes (n v : Nat) (h : v < 256 ^ n) : leField (leBytes n v) 0 n = v := by
  induction n generalizing v with
  | zero => simp only [leField]; omega
  | succ n ih =>
    have e := leField_append [BitVec.ofNat 8 v] (leBytes n (v / 256)) n 0
    have hv : v / 256 < 256 ^ n := Nat.div_lt_of_lt_mul (by rw [Nat.mul_comm]; exact h)
    simp only [List.length_singleton, List.singleton_append, Nat.add_zero] at e
    simp only [leBytes, leField, Nat.zero_add, e, ih _ hv, List.getD_cons_zero, BitVec.toNat_ofNat]
    omega

/-- A little-endian number of 4 bytes is below 2^32. -/
theorem leField_lt (bytes : List Byte) (n : Nat) : ∀ offset, leField bytes offset n < 256 ^ n := by
  induction n with
  | zero => exact fun _ => Nat.one_pos
  | succ n ih =>
    intro offset
    have a := ih (offset + 1)
    have b := (bytes.getD offset 0#8).isLt
    simp only [leField, Nat.pow_succ]
    omega

/-- The comparison of a CRC with a stored one, as one of two numbers. -/
theorem transferCrc_eq (stored : List Byte) (c : Word) : c = transferCrc stored ↔ leField stored 0 4 = c.toNat := by
  have l := leField_lt stored 4 0
  rw [transferCrc, fieldAt, ← BitVec.toNat_inj, BitVec.toNat_ofNat, Nat.mod_eq_of_lt (by simpa using l)]
  exact eq_comm

/-- The CRC bytes that a program put after a block read back as that CRC (R123, R133). -/
theorem transferCrc_leBytes (c : Word) : transferCrc (leBytes 4 c.toNat) = c :=
  ((transferCrc_eq _ c).mpr (leField_leBytes 4 _ (by simpa using c.isLt))).symm

end Sys2Proof.Machine
end

