-- ==== Sys2Proof/Laws/Choices.lean ====
section
/-! SUPPORT. What the part's searches and choices find, said once: the lowest number, the choice with the least key; and what
the fields of an inspection register read as. -/

namespace Sys2Proof.Machine

/-! ### The lowest number -/

theorem findFrom_some (p : Nat → Bool) (fuel k n : Nat) (h : findFrom p fuel k = some n) :
    k ≤ n ∧ n < k + fuel ∧ p n = true ∧ ∀ m, k ≤ m → m < n → p m = false := by
  induction fuel generalizing k with
  | zero => simp [findFrom] at h
  | succ f ih =>
    rw [findFrom] at h
    split at h
    · rename_i hp
      cases h
      exact ⟨Nat.le_refl _, by omega, hp, fun m h1 h2 => absurd h1 (by omega)⟩
    · rename_i hp
      obtain ⟨h1, h2, h3, h4⟩ := ih (k + 1) h
      refine ⟨by omega, by omega, h3, fun m hm hn => ?_⟩
      rcases Nat.lt_or_ge k m with h5 | h5
      · exact h4 m h5 hn
      · have : m = k := by omega
        subst this
        simpa using hp

theorem findFrom_none (p : Nat → Bool) (fuel k : Nat) (h : findFrom p fuel k = none) :
    ∀ m, k ≤ m → m < k + fuel → p m = false := by
  induction fuel generalizing k with
  | zero => intro m h1 h2; omega
  | succ f ih =>
    rw [findFrom] at h
    split at h
    · cases h
    · rename_i hp
      intro m h1 h2
      rcases Nat.lt_or_ge k m with h5 | h5
      · exact ih (k + 1) h m h5 (by omega)
      · have : m = k := by omega
        subst this
        simpa using hp

/-- The lowest number found has the property, and no lower one has it. -/
theorem lowest_some {p : Nat → Bool} {bound n : Nat} (h : lowest p bound = some n) :
    n < bound ∧ p n = true ∧ ∀ m, m < n → p m = false := by
  obtain ⟨_, h2, h3, h4⟩ := findFrom_some p bound 0 n h
  exact ⟨by omega, h3, fun m => h4 m (Nat.zero_le m)⟩

/-- When none is found, no number below the bound has the property. -/
theorem lowest_none {p : Nat → Bool} {bound : Nat} (h : lowest p bound = none) : ∀ m, m < bound → p m = false :=
  fun m hm => findFrom_none p bound 0 h m (Nat.zero_le m) (by omega)

/-! ### The least key -/

theorem keyBefore_irrefl (a : List Nat) : keyBefore a a = false := by
  induction a with
  | nil => rfl
  | cons x a ih => simp [keyBefore, ih]

theorem keyBefore_asymm (a b : List Nat) (h : keyBefore a b = true) : keyBefore b a = false := by
  induction a generalizing b with
  | nil => simp [keyBefore] at h
  | cons x a ih =>
    cases b with
    | nil => simp [keyBefore] at h
    | cons y b =>
      simp only [keyBefore, Bool.or_eq_true, decide_eq_true_eq, Bool.and_eq_true, beq_iff_eq, Bool.or_eq_false_iff,
        decide_eq_false_iff_not, Bool.and_eq_false_iff] at h ⊢
      rcases h with h | ⟨h1, h2⟩
      · exact ⟨by omega, Or.inl (by simp; omega)⟩
      · exact ⟨by omega, Or.inr (ih b h2)⟩

/-- Among keys of one length, what does not come before the middle, with the middle not before the last, does not come before
the last. -/
theorem keyBefore_negTrans (a b c : List Nat) (h1 : a.length = b.length) (h2 : b.length = c.length)
    (h : keyBefore a b = false) (k : keyBefore b c = false) : keyBefore a c = false := by
  induction a generalizing b c with
  | nil => simp [keyBefore]
  | cons x a ih =>
    cases b with
    | nil => simp at h1
    | cons y b =>
      cases c with
      | nil => simp at h2
      | cons z c =>
        simp only [keyBefore, Bool.or_eq_false_iff, decide_eq_false_iff_not, Bool.and_eq_false_iff, beq_eq_false_iff_ne] at h k ⊢
        simp only [List.length_cons, Nat.add_right_cancel_iff] at h1 h2
        refine ⟨by omega, ?_⟩
        by_cases hx : x = z
        · refine Or.inr ?_
          have hy : x = y := by omega
          exact ih b c h1 h2 (h.2.resolve_left (by omega)) (k.2.resolve_left (by omega))
        · exact Or.inl hx

/-- The choice with the least key is one of the list, and no key of the list comes before its own. -/
theorem leastBy_some {α : Type} (key : α → List Nat) (n : Nat) (l : List α) (hk : ∀ x ∈ l, (key x).length = n) (x : α)
    (h : leastBy key l = some x) : x ∈ l ∧ ∀ y ∈ l, keyBefore (key y) (key x) = false := by
  induction l generalizing x with
  | nil => simp [leastBy] at h
  | cons a l ih =>
    have hl : ∀ y ∈ l, (key y).length = n := fun y hy => hk y (List.mem_cons_of_mem _ hy)
    have ha := hk a List.mem_cons_self
    rw [leastBy] at h
    split at h
    · rename_i hn
      cases h
      have : l = [] := by
        cases l with
        | nil => rfl
        | cons b l =>
          rw [leastBy] at hn
          split at hn
          · cases hn
          · split at hn <;> cases hn
      subst this
      exact ⟨List.mem_cons_self, fun y hy => by simp at hy; subst hy; exact keyBefore_irrefl _⟩
    · rename_i y hy
      obtain ⟨h1, h2⟩ := ih hl y hy
      split at h
      · rename_i hb
        cases h
        refine ⟨List.mem_cons_of_mem _ h1, fun z hz => ?_⟩
        rcases List.mem_cons.mp hz with e | hz
        · subst e; exact keyBefore_asymm _ _ hb
        · exact h2 z hz
      · rename_i hb
        cases h
        refine ⟨List.mem_cons_self, fun z hz => ?_⟩
        rcases List.mem_cons.mp hz with e | hz
        · subst e; exact keyBefore_irrefl _
        · exact keyBefore_negTrans _ (key y) _ ((hl z hz).trans (hl y h1).symm) ((hl y h1).trans ha.symm) (h2 z hz)
            (by simpa using hb)

/-- When there is no choice, the list is empty. -/
theorem leastBy_none {α : Type} (key : α → List Nat) (l : List α) (h : leastBy key l = none) : l = [] := by
  cases l with
  | nil => rfl
  | cons a l =>
    rw [leastBy] at h
    split at h
    · cases h
    · split at h <;> cases h

/-! ### The fields of an inspection register -/

/-- The fields stand in rising places, none over another, within 64 bits. -/
def fieldsApart : Nat → List Field → Bool
  | low, [] => low ≤ 64
  | low, f :: rest => low ≤ f.low && fieldsApart (f.low + f.width) rest

/-- What the fields add up to from a place on. -/
def fieldSum (fields : List Field) : Nat := (fields.map fun f => f.value % 2 ^ f.width * 2 ^ f.low).sum

theorem fieldSum_multiple (low : Nat) (fields : List Field) (h : fieldsApart low fields = true) :
    ∃ k, fieldSum fields = 2 ^ low * k := by
  induction fields generalizing low with
  | nil => exact ⟨0, rfl⟩
  | cons f rest ih =>
    simp only [fieldsApart, Bool.and_eq_true, decide_eq_true_eq] at h
    obtain ⟨k, hk⟩ := ih _ h.2
    refine ⟨2 ^ (f.low - low) * (f.value % 2 ^ f.width + 2 ^ f.width * k), ?_⟩
    have e : 2 ^ low * 2 ^ (f.low - low) = 2 ^ f.low := by rw [← Nat.pow_add]; congr 1; omega
    have : fieldSum (f :: rest) = f.value % 2 ^ f.width * 2 ^ f.low + fieldSum rest := by simp [fieldSum]
    rw [this, hk, ← Nat.mul_assoc, e, Nat.pow_add, Nat.mul_add, Nat.mul_comm (2 ^ f.low) (f.value % 2 ^ f.width), Nat.mul_assoc]

theorem fieldsApart_le (low : Nat) (fields : List Field) (h : fieldsApart low fields = true) : low ≤ 64 := by
  induction fields generalizing low with
  | nil => simpa [fieldsApart] using h
  | cons f rest ih =>
    simp only [fieldsApart, Bool.and_eq_true, decide_eq_true_eq] at h
    have := ih _ h.2
    omega

theorem fieldSum_lt (low : Nat) (fields : List Field) (h : fieldsApart low fields = true) : fieldSum fields + 2 ^ low ≤ 2 ^ 64 := by
  induction fields generalizing low with
  | nil =>
    have := fieldsApart_le low [] h
    simpa [fieldSum] using Nat.pow_le_pow_right (by omega : 0 < 2) this
  | cons f rest ih =>
    simp only [fieldsApart, Bool.and_eq_true, decide_eq_true_eq] at h
    have e : fieldSum (f :: rest) = f.value % 2 ^ f.width * 2 ^ f.low + fieldSum rest := by simp [fieldSum]
    have h1 := ih _ h.2
    have h2 : 2 ^ low ≤ 2 ^ f.low := Nat.pow_le_pow_right (by omega) h.1
    have h3 : (f.value % 2 ^ f.width + 1) * 2 ^ f.low ≤ 2 ^ f.width * 2 ^ f.low :=
      Nat.mul_le_mul_right _ (Nat.mod_lt _ (Nat.two_pow_pos _))
    rw [Nat.pow_add, Nat.mul_comm (2 ^ f.low)] at h1
    rw [Nat.add_mul, Nat.one_mul] at h3
    omega

theorem fieldSum_slice (low : Nat) (fields : List Field) (h : fieldsApart low fields = true) (g : Field) (hg : g ∈ fields) :
    fieldSum fields / 2 ^ g.low % 2 ^ g.width = g.value % 2 ^ g.width := by
  suffices key : ∀ (fields : List Field) (low below : Nat), fieldsApart low fields = true → below < 2 ^ low → g ∈ fields →
      (below + fieldSum fields) / 2 ^ g.low % 2 ^ g.width = g.value % 2 ^ g.width by
    have := key fields low 0 h (Nat.two_pow_pos _) hg
    rwa [Nat.zero_add] at this
  intro fields
  induction fields with
  | nil => intro _ _ _ _ hg; cases hg
  | cons f rest ih =>
    intro low below h hb hg
    simp only [fieldsApart, Bool.and_eq_true, decide_eq_true_eq] at h
    have e : fieldSum (f :: rest) = f.value % 2 ^ f.width * 2 ^ f.low + fieldSum rest := by simp [fieldSum]
    have hlow : below < 2 ^ f.low := Nat.lt_of_lt_of_le hb (Nat.pow_le_pow_right (by omega) h.1)
    rcases List.mem_cons.mp hg with hg | hg
    · subst hg
      obtain ⟨k, hk⟩ := fieldSum_multiple _ rest h.2
      rw [e, hk, Nat.pow_add, Nat.mul_assoc, Nat.mul_comm _ (2 ^ g.low), ← Nat.mul_add,
        Nat.add_mul_div_left _ _ (Nat.two_pow_pos _), Nat.div_eq_of_lt hlow, Nat.zero_add, Nat.add_mul_mod_self_left, Nat.mod_mod]
    · rw [e, ← Nat.add_assoc]
      refine ih (f.low + f.width) _ h.2 ?_ hg
      have h3 : (f.value % 2 ^ f.width + 1) * 2 ^ f.low ≤ 2 ^ f.width * 2 ^ f.low :=
        Nat.mul_le_mul_right _ (Nat.mod_lt _ (Nat.two_pow_pos _))
      rw [Nat.add_mul, Nat.one_mul] at h3
      rw [Nat.pow_add, Nat.mul_comm (2 ^ f.low)]
      omega

/-- A field of a register reads as its value, cut to its width. -/
theorem packFields_slice (fields : List Field) (h : fieldsApart 0 fields = true) (g : Field) (hg : g ∈ fields) :
    (packFields fields).toNat / 2 ^ g.low % 2 ^ g.width = g.value % 2 ^ g.width := by
  have hlt := fieldSum_lt 0 fields h
  have : (packFields fields).toNat = fieldSum fields := by
    show (BitVec.ofNat 64 (fieldSum fields)).toNat = _
    rw [BitVec.toNat_ofNat]
    exact Nat.mod_eq_of_lt (by have := Nat.two_pow_pos 0; omega)
  rw [this]
  exact fieldSum_slice 0 fields h g hg

end Sys2Proof.Machine
end

