-- ==== Sys2Proof/Laws/Delivery.lean ====
section
/-! SUPPORT. What a DATA delivery is made of, said once in the words of its rules: when its frames are available (R147), where it
ends and where the next one begins (R146, R148). -/

namespace Sys2Proof.Machine

theorem Voice.headDelivery_iff (v : Voice) (l : Layout) : v.headDelivery l = true ↔ v.fromHead l := by
  simp [Voice.headDelivery, Voice.fromHead]

/-- The frames at D are available. -/
theorem State.framesAvailable_iff (s : State) (v : Voice) (l : Layout) : s.framesAvailable v l = true ↔ s.available v l := by
  unfold State.framesAvailable State.available State.filledRun State.deliveryPlace
  by_cases h : v.headDelivery l = true
  · have hf := (v.headDelivery_iff l).mp h
    simp [h, hf, Record.headReady, Option.isSome_iff_ne_none]
  · have hf : ¬ v.fromHead l := fun x => h ((v.headDelivery_iff l).mpr x)
    simp only [h, hf, if_false, false_and, false_or, not_false_eq_true, true_and, Bool.false_eq_true]
    cases (s.window v.window).place (s.window v.window).delivery <;> simp

/-- The loop end falls at a wrap in this pass. -/
theorem Voice.deliveryLoop_eq (v : Voice) (l : Layout) : v.deliveryLoop l = l.loop.filter v.wrapAhead := by
  unfold Voice.deliveryLoop
  congr 1
  funext lp
  unfold Voice.wrapAhead
  cases v.delivery.latestWrap <;> simp

theorem Voice.deliveryEnd_eq (v : Voice) (l : Layout) : v.deliveryEnd l = v.deliveryStop l := by
  unfold Voice.deliveryEnd Voice.deliveryStop
  rw [v.deliveryLoop_eq l]
  cases l.loop with
  | none => rfl
  | some lp => by_cases h : v.wrapAhead lp = true <;> simp [Option.filter, h]

/-- A delivery that ends at a wrap leaves the delivery source at the loop start, with looped pending set. -/
theorem Voice.afterDelivery_wrap {v : Voice} {l : Layout} {lp : Loop} (h : v.deliveryLoop l = some lp)
    (k : v.deliveryStop l = lp.stop) : v.afterDelivery l = { v.delivery with source := lp.start, loopedPending := true } := by
  rw [v.deliveryLoop_eq l, Option.filter_eq_some_iff] at h
  simp [Voice.afterDelivery, h.1, h.2, v.deliveryEnd_eq l, k]

/-- Any other delivery moves the delivery source on by its frames and clears looped pending. -/
theorem Voice.afterDelivery_on {v : Voice} {l : Layout} (h : ∀ lp, v.deliveryLoop l = some lp → v.deliveryStop l ≠ lp.stop) :
    v.afterDelivery l = { v.delivery with source := v.deliveryStop l, loopedPending := false } := by
  unfold Voice.afterDelivery
  rw [v.deliveryEnd_eq l]
  cases hl : l.loop with
  | none => rfl
  | some lp =>
    by_cases hw : v.wrapAhead lp = true
    · have := h lp (by rw [v.deliveryLoop_eq l, hl]; simp [Option.filter, hw])
      simp [hw, this]
    · simp [hw]

end Sys2Proof.Machine
end

