-- ==== Sys2Proof/Laws/Runs.lean ====
section
/-! SUPPORT. What the giving of a run does, said once: when a run is due, and that a run given is the run of R58 to R61. -/

namespace Sys2Proof.Machine

/-- The model's wrapping voice is wrapping in the record's loop. -/
theorem Voice.wrapping_iff (v : Voice) (l : Layout) : v.wrapping l = (v.wrappingLoop l).isSome := by
  unfold Voice.wrapping Voice.loopAhead Voice.wrappingLoop
  cases l.loop with
  | none => simp
  | some lp => cases v.loopFollow <;> cases v.released <;> by_cases h : v.cursor.source < lp.stop <;> simp [Option.filter, h]

theorem Voice.wrappingLoop_loop {v : Voice} {l : Layout} {lp : Loop} (h : v.wrappingLoop l = some lp) : l.loop = some lp :=
  (Option.filter_eq_some_iff.mp h).1

theorem Voice.runEnd_eq (v : Voice) (l : Layout) : v.runEnd l = v.nextStop l := by
  unfold Voice.runEnd Voice.nextStop
  cases h : l.loop with
  | none =>
    have : v.wrappingLoop l = none := by simp [Voice.wrappingLoop, h]
    simp [this]
  | some lp =>
    simp only [Voice.wrapping_iff]
    cases h' : v.wrappingLoop l with
    | none => simp
    | some lq =>
      have := Voice.wrappingLoop_loop h'
      rw [h] at this
      cases this
      simp

/-- The run a voice is given is the run of R58 to R61. -/
theorem Voice.giveRun_given (v : Voice) (l : Layout) : v.givenRun l (v.giveRun l) := by
  have e := v.runEnd_eq l
  unfold Voice.givenRun Voice.giveRun Voice.runFits Voice.runFrames Config.streamLimit
  rw [e]
  generalize 2 ^ 32 - 1 = limit
  by_cases fits : v.cursor.stream + (v.nextStop l - v.cursor.source) ≤ limit
  · simp only [fits, decide_true, if_true, true_implies, show ¬ limit < v.cursor.stream + (v.nextStop l - v.cursor.source)
      from Nat.not_lt.mpr fits, false_implies, and_true]
    unfold Voice.afterRun
    cases h : l.loop with
    | none =>
      have hw : v.wrappingLoop l = none := by simp [Voice.wrappingLoop, h]
      by_cases hl : v.nextStop l = l.length
      · cases hs : v.state <;> simp [hl, hw, Voice.reachEnd]
      · simp [hl, hw]
    | some lp =>
      simp only [Voice.wrapping_iff]
      cases hw : v.wrappingLoop l with
      | none =>
        by_cases hl : v.nextStop l = l.length
        · cases hs : v.state <;> simp [hl, Voice.reachEnd]
        · simp [hl]
      | some lq =>
        have := Voice.wrappingLoop_loop hw
        rw [h] at this
        cases this
        by_cases hp : v.nextStop l = lp.stop
        · simp [hp]
        · by_cases hl : v.nextStop l = l.length
          · have hp' : ¬ l.length = lp.stop := fun x => hp (hl.trans x)
            cases hs : v.state <;> simp [hl, hp', Voice.reachEnd]
          · simp [hp, hl]
  · have lim : limit < v.cursor.stream + (v.nextStop l - v.cursor.source) := Nat.not_le.mp fits
    cases hs : v.state <;> simp [fits, lim, Voice.reachEnd, hs]

theorem State.runDue_iff (s : State) (v : Voice) : s.runDue v = true ↔ s.wantsRun v := by
  unfold State.runDue State.wantsRun frameUnits State.horizon
  cases v.state <;> simp

theorem State.headRunDue_iff (s : State) (v : Voice) (l : Layout) : s.headRunDue v l = true ↔ s.waitsForHeadRun l v := by
  unfold State.headRunDue State.waitsForHeadRun Voice.headNext
  simp [State.runDue_iff]

/-- A voice's candidate block on an OFFLINE die is a silent place due (R106). -/
theorem State.silenceDue_iff (s : State) (v : Voice) (l : Layout) :
    (s.candidate v l && s.candidateOffline v l) = true ↔ s.waitsForSilence l v (s.window v.window) := by
  unfold State.candidate State.candidateOffline State.waitsForSilence Voice.storeNext Voice.headNext State.fillPointEmpty
    Voice.candidateAddress State.dieOffline dieOf
  cases h : blockAddress l.extents (v.cursor.source / l.format.framesPerBlock) with
  | none => simp
  | some a =>
    simp only [Bool.and_eq_true, State.runDue_iff, beq_iff_eq, Option.some.injEq, Bool.not_eq_true', Bool.and_eq_false_iff,
      decide_eq_false_iff_not, Nat.not_lt]
    constructor
    · rintro ⟨⟨⟨h1, h2⟩, h3⟩, h4⟩
      exact ⟨h1, a, ⟨h2, h3, rfl⟩, h4⟩
    · rintro ⟨h1, _, ⟨h2, h3, rfl⟩, h4⟩
      exact ⟨⟨⟨h1, h2⟩, h3⟩, h4⟩

theorem Format.framesPerBlock_pos (f : Format) : 0 < f.framesPerBlock := by cases f <;> decide

theorem Voice.below_block (v : Voice) (l : Layout) :
    v.cursor.source < (v.cursor.source / l.format.framesPerBlock + 1) * l.format.framesPerBlock := by
  rw [Nat.add_mul, Nat.one_mul]
  have := Nat.mod_lt v.cursor.source l.format.framesPerBlock_pos
  have := Nat.div_add_mod' v.cursor.source l.format.framesPerBlock
  omega

/-- A run that ends neither at a wrap nor at the sample end carries a frame. -/
theorem Voice.nextStop_after (v : Voice) (l : Layout) (w : ∀ lp, v.wrappingLoop l = some lp → v.nextStop l ≠ lp.stop)
    (h : v.nextStop l ≠ l.length) : v.cursor.source < v.nextStop l := by
  have block := v.below_block l
  unfold Voice.nextStop at w h ⊢
  generalize (v.cursor.source / l.format.framesPerBlock + 1) * l.format.framesPerBlock = b at *
  cases hq : v.wrappingLoop l with
  | none => simp only [hq, Option.elim_none] at h ⊢; omega
  | some lp =>
    have := w lp hq
    simp only [hq, Option.elim_some] at h this ⊢
    omega

/-- A run either brings the cursor to its end or carries at least one frame. -/
theorem Voice.giveRun_moves (v : Voice) (l : Layout) :
    (v.giveRun l).cursor.atEnd = true ∨ v.cursor.stream + 1 ≤ (v.giveRun l).cursor.stream := by
  obtain ⟨_, fits, limit⟩ := v.giveRun_given l
  rcases Nat.lt_or_ge (2 ^ 32 - 1) (v.cursor.stream + (v.nextStop l - v.cursor.source)) with h | h
  · exact .inl (limit h).2.2.2.2.1
  · obtain ⟨h1, _, _, n⟩ := fits h
    by_cases hw : ∃ lp, v.wrappingLoop l = some lp ∧ v.nextStop l = lp.stop
    · obtain ⟨lp, hl, hs⟩ := hw
      have := (Option.filter_eq_some_iff.mp hl).2
      simp only [Bool.and_eq_true, decide_eq_true_eq] at this
      have := this.2
      clear n fits limit
      exact .inr (by omega)
    · by_cases hl : v.nextStop l = l.length
      · exact .inl ((n hw).2.2.1 hl).1
      · have := v.nextStop_after l (fun lp a b => hw ⟨lp, a, b⟩) hl
        clear n hw fits limit
        exact .inr (by omega)

/-- What a run leaves of a voice. -/
theorem Voice.giveRun_keeps (v : Voice) (l : Layout) :
    (v.giveRun l).sampleId = v.sampleId ∧ (v.giveRun l).sampleGeneration = v.sampleGeneration ∧
      (v.giveRun l).consumed = v.consumed ∧ (v.giveRun l).leadClass = v.leadClass ∧ (v.giveRun l).rate = v.rate := by
  have h := (v.giveRun_given l).1
  rw [h]
  exact ⟨rfl, rfl, rfl, rfl, rfl⟩

theorem State.horizon_giveRun (s : State) (slot : Nat) (u v : Voice) (l : Layout) :
    (s.setVoice slot u).horizon (v.giveRun l) = s.horizon v := by
  obtain ⟨_, _, h3, h4, h5⟩ := v.giveRun_keeps l
  unfold State.horizon State.leadClass
  rw [h3, h4, h5]
  rfl

end Sys2Proof.Machine
end

