-- ==== Sys2Proof/Laws/Settle.lean ====
section
/-! SUPPORT. What the judging of the voices for their next runs does (R100, R102, R106), said once: the runs due are given to each
sounding voice and its window, the bytes of the silent places given read 0, and nothing else of the part changes. Provers cite
`State.settleVoice_runs`, `State.settleVoices_runs`, and `Judged.silence` of `State.settleVoice_judged` or
`State.settleVoices_judged`. -/

namespace Sys2Proof.Machine

/-! ### Where the runs due do not depend on the state -/

theorem State.wantsRun_congr {s t : State} (h : t.tunables = s.tunables) (p : t.pace.period = s.pace.period) (v : Voice) :
    t.wantsRun v ↔ s.wantsRun v := by
  unfold State.wantsRun State.leadClass
  rw [h, p]

theorem State.waitsForHeadRun_congr {s t : State} (h : t.tunables = s.tunables) (p : t.pace.period = s.pace.period)
    (l : Layout) (v : Voice) : t.waitsForHeadRun l v ↔ s.waitsForHeadRun l v := by
  unfold State.waitsForHeadRun
  rw [State.wantsRun_congr h p]

theorem State.waitsForSilence_congr {s t : State} (h : t.tunables = s.tunables) (p : t.pace.period = s.pace.period)
    (o : ∀ d, (t.die d).state = .offline ↔ (s.die d).state = .offline) (l : Layout) (v : Voice) (w : Window) :
    t.waitsForSilence l v w ↔ s.waitsForSilence l v w := by
  unfold State.waitsForSilence
  simp only [State.wantsRun_congr h p, o]

/-- The runs due depend on the state only through the tunables, the period, the dies OFFLINE and the partition. -/
theorem State.RunsGiven.congr {s t : State} {l : Layout} (h : t.tunables = s.tunables)
    (p : t.pace.period = s.pace.period) (o : ∀ d, (t.die d).state = .offline ↔ (s.die d).state = .offline)
    (q : t.partition = s.partition) {u v : Voice} {w x : Window} (r : s.RunsGiven l u w v x) : t.RunsGiven l u w v x := by
  induction r with
  | none v w a b =>
    exact .none v w (fun c => a ((State.waitsForHeadRun_congr h p l v).mp c)) fun c => b ((State.waitsForSilence_congr h p o l v w).mp c)
  | head u v v' w w' a b _ ih => exact .head u v v' w w' ((State.waitsForHeadRun_congr h p l u).mpr a) b ih
  | silent u v v' w w' a b _ ih =>
    refine .silent u v v' w w' ((State.waitsForSilence_congr h p o l u w).mpr a) b ?_
    unfold State.takesRun at ih ⊢
    rw [q]
    exact ih

/-! ### One run -/

/-- What is given at one stroke: a silent place. -/
theorem State.giveSilent_eq (s : State) (slot : Nat) (v : Voice) (l : Layout) :
    s.giveSilent slot v l =
      (((if v.runFits l then s.zeroRun v.window (s.window v.window).fill (v.nextRun l true) l.format else s).setWindow v.window
        (s.takesRun l v (s.window v.window) .filled true)).setVoice slot (v.giveRun l)) ∨
      (v.runFits l = false ∧ s.giveSilent slot v l = s.setVoice slot (v.giveRun l)) := by
  by_cases h : v.runFits l = true
  · left
    have h' : v.cursor.stream + (v.nextStop l - v.cursor.source) ≤ 2 ^ 32 - 1 := by
      have := of_decide_eq_true h
      rwa [Voice.runFrames, Voice.runEnd_eq] at this
    unfold State.giveSilent State.takesRun
    simp only [h, if_true, h']
    unfold State.fillPlace Voice.nextRun Voice.runFrames
    rw [Voice.runEnd_eq]
    rfl
  · right
    refine ⟨(Bool.not_eq_true _).mp h, ?_⟩
    unfold State.giveSilent
    rw [if_neg h]

theorem State.takesRun_unfit {s : State} {l : Layout} {v : Voice} {w : Window} {f : Run → Place} {b : Bool}
    (h : v.runFits l = false) : s.takesRun l v w f b = w := by
  unfold State.takesRun
  have := of_decide_eq_false h
  rw [Voice.runFrames, Voice.runEnd_eq] at this
  exact if_neg this

/-- Everything of the part but the voices, the windows and the memory is as it was. -/
def State.KeptButRuns (s t : State) : Prop := t = { s with voices := t.voices, windows := t.windows, dram := t.dram }

theorem State.KeptButRuns.trans {s t u : State} (h : s.KeptButRuns t) (k : t.KeptButRuns u) : s.KeptButRuns u := by
  unfold State.KeptButRuns at h k ⊢
  rw [k, h]

/-- What a silent place given leaves: one voice and its window take the run, and the run's bytes are written 0. -/
structure State.SilentPlace (s t : State) (slot : Nat) (l : Layout) : Prop where
  kept : s.KeptButRuns t
  voice : t.voice slot = (s.voice slot).giveRun l
  others : ∀ m, m ≠ slot → t.voice m = s.voice m
  window : t.window (s.voice slot).window = s.takesRun l (s.voice slot) (s.window (s.voice slot).window) .filled true
  windows : ∀ w, w ≠ (s.voice slot).window → t.window w = s.window w
  dram : t.dram = if (s.voice slot).runFits l then
    (s.zeroRun (s.voice slot).window (s.window (s.voice slot).window).fill ((s.voice slot).nextRun l true) l.format).dram else s.dram

theorem State.giveSilent_place (s : State) (slot : Nat) (l : Layout) :
    s.SilentPlace (s.giveSilent slot (s.voice slot) l) slot l := by
  rcases s.giveSilent_eq slot (s.voice slot) l with h | ⟨f, h⟩
  · rw [h]
    refine ⟨?_, by simp, fun m hm => ?_, ?_, fun w hw => ?_, ?_⟩
    · unfold State.KeptButRuns
      split <;> rfl
    · rw [State.voice_setVoice_other _ _ hm]
      split <;> rfl
    · rw [State.window_setVoice, State.window_setWindow_same]
    · rw [State.window_setVoice, State.window_setWindow_other _ _ hw]
      split <;> rfl
    · simp only [State.setVoice_dram]
      split <;> rfl
  · rw [h]
    refine ⟨rfl, by simp, fun m hm => State.voice_setVoice_other s _ hm, ?_, fun w _ => rfl, ?_⟩
    · rw [State.takesRun_unfit f]
      rfl
    · rw [f]
      rfl

theorem Voice.giveRun_window (v : Voice) (l : Layout) : (v.giveRun l).window = v.window := (VoiceStep.giveRun v l).window

/-! ### The runs of one voice -/

/-- With fuel for every run below the horizon, exactly the runs due are given. -/
theorem State.giveRuns_runs (fuel : Nat) : ∀ (s : State) (slot : Nat) (l : Layout),
    s.layoutOf (s.voice slot) = some l →
    (s.voice slot).cursor.atEnd = true ∨ s.horizon (s.voice slot) / 65536 + 2 ≤ fuel + (s.voice slot).cursor.stream →
    s.RunsGiven l (s.voice slot) (s.window (s.voice slot).window) ((s.giveRuns fuel slot).voice slot)
      ((s.giveRuns fuel slot).window (s.voice slot).window) := by
  induction fuel with
  | zero =>
    intro s slot l _ h
    have no : ¬ s.wantsRun (s.voice slot) := fun due => by
      obtain ⟨_, h1, h2⟩ := due
      rcases h with h | h
      · rw [h1] at h; cases h
      · change (s.voice slot).cursor.stream * 65536 < s.horizon (s.voice slot) at h2
        omega
    exact .none _ _ (fun d => no d.1) fun d => no d.1
  | succ fuel ih =>
    intro s slot l hl h
    have next : ∀ t : State, s.KeptButRuns t → t.voice slot = (s.voice slot).giveRun l → s.wantsRun (s.voice slot) →
        t.RunsGiven l (t.voice slot) (t.window (s.voice slot).window) ((t.giveRuns fuel slot).voice slot)
          ((t.giveRuns fuel slot).window (s.voice slot).window) := by
      intro t kept voice due
      obtain ⟨k1, _, _, _, _⟩ := (s.voice slot).giveRun_keeps l
      have horizon : t.horizon (t.voice slot) = s.horizon (s.voice slot) := by
        rw [voice, ← s.horizon_giveRun slot (s.voice slot) (s.voice slot) l]
        rw [kept]
        rfl
      have := ih t slot l (by rw [voice]; unfold State.layoutOf at hl ⊢; rw [k1, kept]; exact hl) (by
        rw [horizon, voice]
        rcases (s.voice slot).giveRun_moves l with m | m
        · exact .inl m
        · rcases h with h | h
          · rw [due.2.1] at h; cases h
          · exact .inr (by omega))
      rwa [voice, Voice.giveRun_window, ← voice] at this
    rw [State.giveRuns]
    simp only [hl]
    by_cases head : s.headRunDue (s.voice slot) l = true
    · rw [if_pos head]
      have due := (s.headRunDue_iff _ l).mp head
      have r := next (s.setVoice slot ((s.voice slot).giveRun l)) rfl (State.voice_setVoice_same _ _ _) due.1
      rw [State.voice_setVoice_same, State.window_setVoice] at r
      exact .head _ _ _ _ _ due ((s.voice slot).giveRun_given l)
        (State.RunsGiven.congr (s := s.setVoice slot ((s.voice slot).giveRun l)) (t := s) rfl rfl (fun _ => Iff.rfl) rfl r)
    · rw [if_neg head]
      by_cases silent : (s.candidate (s.voice slot) l && s.candidateOffline (s.voice slot) l) = true
      · rw [if_pos silent]
        have due := (s.silenceDue_iff _ l).mp silent
        have p := s.giveSilent_place slot l
        have r := next _ p.kept p.voice due.1
        rw [p.voice, p.window] at r
        refine .silent _ _ _ _ _ due ((s.voice slot).giveRun_given l) (State.RunsGiven.congr ?_ ?_ (fun d => ?_) ?_ r)
        · rw [p.kept]
        · rw [p.kept]
        · rw [p.kept]
          rfl
        · rw [p.kept]
      · rw [if_neg silent]
        exact .none _ _ (fun d => head ((s.headRunDue_iff _ l).mpr d)) fun d => silent ((s.silenceDue_iff _ l).mpr d)

/-- A voice judged, no engine reset in progress, is given exactly the runs due (R100, R102, R106). -/
theorem State.settleVoice_runs (s : State) (slot : Nat) (l : Layout) (hl : s.layoutOf (s.voice slot) = some l)
    (hr : s.resetting = false) :
    s.RunsGiven l (s.voice slot) (s.window (s.voice slot).window) ((s.settleVoice slot).voice slot)
      ((s.settleVoice slot).window (s.voice slot).window) := by
  unfold State.settleVoice
  rw [if_neg (by rw [hr]; exact Bool.false_ne_true)]
  refine State.giveRuns_runs _ s slot l hl (.inr ?_)
  unfold State.runFuel
  omega

/-! ### The windows and the memory -/

theorem Voice.giveRun_sounding (v : Voice) (l : Layout) : (v.giveRun l).sounding = v.sounding := by
  have reach : ∀ u : Voice, u.reachEnd.sounding = u.sounding := fun u => by
    cases h : u.state <;> simp [Voice.reachEnd, Voice.sounding, h]
  unfold Voice.giveRun Voice.afterRun
  split
  · split <;> split
    · rfl
    · split
      · exact reach _
      · rfl
    · exact reach _
    · rfl
  · exact reach v

/-- A byte lies in a silent place given between two states to the voice of one of some slots. -/
def State.givenSilence (s t : State) (slots : Nat → Prop) (a : Nat) : Prop :=
  ∃ n i r l, slots n ∧ (s.voice n).sounding = true ∧ s.layoutOf (s.voice n) = some l ∧
    (t.window (s.voice n).window).place i = .filled r ∧ r.damaged = true ∧
    (s.window (s.voice n).window).place i = .empty ∧ s.inRun (s.voice n).window i r l.format a

/-- What the judging of the voices of some slots for their next runs does. -/
structure Judged (slots : Nat → Prop) (s t : State) : Prop where
  kept : s.KeptButRuns t
  voices : ∀ n, (t.voice n).sounding = (s.voice n).sounding ∧ (t.voice n).window = (s.voice n).window ∧
    (t.voice n).sampleId = (s.voice n).sampleId
  others : ∀ n, ¬ slots n → t.voice n = s.voice n
  windows : ∀ w, (∀ n, slots n → (s.voice n).sounding = true → (s.voice n).window ≠ w) → t.window w = s.window w
  places : ∀ w i, (t.window w).place i = (s.window w).place i ∨
    ((s.window w).place i = .empty ∧ ∃ n r l b, slots n ∧ (s.voice n).sounding = true ∧ (s.voice n).window = w ∧
      s.layoutOf (s.voice n) = some l ∧ (t.window w).place i = .filled r ∧ r.damaged = true ∧
      blockAddress l.extents r.block = some b ∧ (s.die (b % 16)).state = .offline)
  dram : ∀ a, (s.givenSilence t slots a → Memory.read t.dram a = 0#8) ∧
    (¬ s.givenSilence t slots a → Memory.read t.dram a = Memory.read s.dram a)

theorem Judged.same {slots : Nat → Prop} {s t : State} (kept : s.KeptButRuns t)
    (voices : ∀ n, (t.voice n).sounding = (s.voice n).sounding ∧ (t.voice n).window = (s.voice n).window ∧
      (t.voice n).sampleId = (s.voice n).sampleId)
    (others : ∀ n, ¬ slots n → t.voice n = s.voice n) (windows : t.windows = s.windows) (dram : t.dram = s.dram) :
    Judged slots s t where
  kept := kept
  voices := voices
  others := others
  windows w _ := State.window_congr windows w
  places w i := .inl (by rw [State.window_congr windows w])
  dram a := by
    rw [dram]
    refine ⟨fun ⟨n, i, r, l, _, _, _, f, _, e, _⟩ => ?_, fun _ => rfl⟩
    rw [State.window_congr windows, e] at f
    cases f

theorem Judged.refl (slots : Nat → Prop) (s : State) : Judged slots s s :=
  Judged.same rfl (fun _ => ⟨rfl, rfl, rfl⟩) (fun _ _ => rfl) rfl rfl

theorem State.KeptButRuns.layoutOf {s t : State} (h : s.KeptButRuns t) {u v : Voice} (e : u.sampleId = v.sampleId) :
    t.layoutOf u = s.layoutOf v := by
  unfold State.layoutOf
  rw [h, e]
  rfl

theorem State.KeptButRuns.die {s t : State} (h : s.KeptButRuns t) (d : Nat) : t.die d = s.die d := by
  rw [h]
  rfl

theorem State.KeptButRuns.inRun {s t : State} (h : s.KeptButRuns t) (w i : Nat) (r : Run) (f : Format) (a : Nat) :
    t.inRun w i r f a ↔ s.inRun w i r f a := by
  unfold State.inRun
  rw [h]
  exact Iff.rfl

/-- A silent place given lies in the first part or in the second. -/
theorem State.givenSilence_trans {slots : Nat → Prop} {s t u : State} (h : Judged slots s t) (k : Judged slots t u) (a : Nat) :
    s.givenSilence u slots a ↔ s.givenSilence t slots a ∨ t.givenSilence u slots a := by
  have sound := fun n => (h.voices n).1
  have win := fun n => (h.voices n).2.1
  have lay := fun n => h.kept.layoutOf (h.voices n).2.2
  constructor
  · rintro ⟨n, i, r, l, hn, hs, hl, hf, hd, he, ha⟩
    rcases h.places (s.voice n).window i with e | ⟨_, n', r', l', b, hn', hs', hw', hl', hf', hd', hb'⟩
    · exact .inr ⟨n, i, r, l, hn, (sound n).trans hs, (lay n).trans hl, by rw [win]; exact hf, hd,
        by rw [win]; exact e.trans he, by rw [win]; exact (h.kept.inRun _ _ _ _ _).mpr ha⟩
    · rcases k.places (s.voice n).window i with e | ⟨e, _⟩
      · exact .inl ⟨n, i, r, l, hn, hs, hl, e.symm.trans hf, hd, he, ha⟩
      · rw [hf'] at e; cases e
  · rintro (⟨n, i, r, l, hn, hs, hl, hf, hd, he, ha⟩ | ⟨n, i, r, l, hn, hs, hl, hf, hd, he, ha⟩)
    · rcases k.places (s.voice n).window i with e | ⟨e, _⟩
      · exact ⟨n, i, r, l, hn, hs, hl, e.trans hf, hd, he, ha⟩
      · rw [hf] at e; cases e
    · rw [win] at hf he ha
      refine ⟨n, i, r, l, hn, (sound n).symm.trans hs, (lay n).symm.trans hl, hf, hd, ?_, (h.kept.inRun _ _ _ _ _).mp ha⟩
      rcases h.places (s.voice n).window i with e | ⟨e, _⟩
      · exact e.symm.trans he
      · exact e

theorem Judged.trans {slots : Nat → Prop} {s t u : State} (h : Judged slots s t) (k : Judged slots t u) : Judged slots s u where
  kept := h.kept.trans k.kept
  voices n := ⟨(k.voices n).1.trans (h.voices n).1, (k.voices n).2.1.trans (h.voices n).2.1,
    (k.voices n).2.2.trans (h.voices n).2.2⟩
  others n hn := (k.others n hn).trans (h.others n hn)
  windows w hw := (k.windows w fun n hn hs => by
    rw [(h.voices n).2.1]; exact hw n hn ((h.voices n).1.symm.trans hs)).trans (h.windows w hw)
  places w i := by
    rcases k.places w i with e | ⟨e, n, r, l, b, hn, hs, hw, hl, hf, hd, hb, ho⟩
    · rcases h.places w i with e' | ⟨e', n, r, l, b, hn, hs, hw, hl, hf, hd, hb, ho⟩
      · exact .inl (e.trans e')
      · exact .inr ⟨e', n, r, l, b, hn, hs, hw, hl, e.trans hf, hd, hb, ho⟩
    · refine .inr ⟨?_, n, r, l, b, hn, (h.voices n).1.symm.trans hs, (h.voices n).2.1.symm.trans hw,
        (h.kept.layoutOf (h.voices n).2.2).symm.trans hl, hf, hd, hb, by rw [← h.kept.die]; exact ho⟩
      rcases h.places w i with e' | ⟨e', _⟩
      · exact e'.symm.trans e
      · exact e'
  dram a := by
    rw [State.givenSilence_trans h k]
    have h1 := h.dram a
    have k1 := k.dram a
    refine ⟨?_, fun no => (k1.2 fun x => no (.inr x)).trans (h1.2 fun x => no (.inl x))⟩
    by_cases g : t.givenSilence u slots a
    · exact fun _ => k1.1 g
    · exact fun x => (k1.2 g).trans (h1.1 (x.resolve_right g))

/-- The bytes of a run read 0 after `State.zeroRun`, the others as before. -/
theorem State.zeroRun_read (s : State) (w i : Nat) (r : Run) (f : Format) (a : Nat) :
    (s.inRun w i r f a → Memory.read (s.zeroRun w i r f).dram a = 0#8) ∧
      (¬ s.inRun w i r f a → Memory.read (s.zeroRun w i r f).dram a = Memory.read s.dram a) := by
  unfold State.zeroRun State.inRun
  dsimp only
  generalize s.placeBase w i + r.source % f.framesPerBlock * f.frameBytes = start
  constructor
  · rintro ⟨h, k⟩
    have := Memory.read_write_in s.dram start (List.replicate (r.frames * f.frameBytes) 0#8) (a - start)
      (by rw [List.length_replicate]; omega)
    rw [Nat.add_sub_cancel' h] at this
    rw [this, List.getD_eq_getElem?_getD]
    cases e : (List.replicate (r.frames * f.frameBytes) 0#8)[a - start]? with
    | none => rfl
    | some b => exact (List.eq_of_mem_replicate (List.mem_of_getElem? e))
  · intro h
    refine Memory.read_write_out s.dram start _ a ?_
    rw [List.length_replicate]
    omega

theorem Window.place_setPlace_same (w : Window) (i : Nat) (p : Place) : (w.setPlace i p).place i = p :=
  Table.get_set_same _ _ _ _

theorem Window.place_setPlace_other (w : Window) {i j : Nat} (p : Place) (h : j ≠ i) : (w.setPlace i p).place j = w.place j :=
  Table.get_set_other _ _ _ h

theorem State.headRun_judged (s : State) (slot : Nat) (l : Layout) :
    Judged (· = slot) s (s.setVoice slot ((s.voice slot).giveRun l)) := by
  refine Judged.same rfl (fun n => ?_) (fun n hn => State.voice_setVoice_other s _ hn) rfl rfl
  by_cases h : n = slot
  · subst h
    rw [State.voice_setVoice_same]
    exact ⟨Voice.giveRun_sounding _ l, Voice.giveRun_window _ l, (Voice.giveRun_keeps _ l).1⟩
  · rw [State.voice_setVoice_other s _ h]
    exact ⟨rfl, rfl, rfl⟩

theorem State.silentPlace_judged {s t : State} {slot : Nat} {l : Layout} (p : s.SilentPlace t slot l)
    (hl : s.layoutOf (s.voice slot) = some l) (due : s.waitsForSilence l (s.voice slot) (s.window (s.voice slot).window)) :
    Judged (· = slot) s t := by
  have sounds : (s.voice slot).sounding = true := by
    obtain ⟨⟨h | h | h, _⟩, _⟩ := due <;> simp [Voice.sounding, h]
  have voices : ∀ n, (t.voice n).sounding = (s.voice n).sounding ∧ (t.voice n).window = (s.voice n).window ∧
      (t.voice n).sampleId = (s.voice n).sampleId := fun n => by
    by_cases h : n = slot
    · subst h
      rw [p.voice]
      exact ⟨Voice.giveRun_sounding _ l, Voice.giveRun_window _ l, (Voice.giveRun_keeps _ l).1⟩
    · rw [p.others n h]
      exact ⟨rfl, rfl, rfl⟩
  obtain ⟨_, b, ⟨_, empty, address⟩, off⟩ := due
  by_cases fit : (s.voice slot).runFits l = true
  · have window : t.window (s.voice slot).window =
        { (s.window (s.voice slot).window).setPlace (s.window (s.voice slot).window).fill
            (.filled ((s.voice slot).nextRun l true)) with
          fill := ((s.window (s.voice slot).window).fill + 1) % s.partition.windowBlocks } := by
      have h' : (s.voice slot).cursor.stream + ((s.voice slot).nextStop l - (s.voice slot).cursor.source) ≤ 2 ^ 32 - 1 := by
        have := of_decide_eq_true fit
        rwa [Voice.runFrames, Voice.runEnd_eq] at this
      rw [p.window]
      unfold State.takesRun Voice.nextRun Voice.runFrames
      rw [Voice.runEnd_eq]
      exact if_pos h'
    have same : ∀ i, i ≠ (s.window (s.voice slot).window).fill →
        (t.window (s.voice slot).window).place i = (s.window (s.voice slot).window).place i := fun i h => by
      rw [window]
      exact Window.place_setPlace_other (s.window (s.voice slot).window) (.filled ((s.voice slot).nextRun l true)) h
    have filled : (t.window (s.voice slot).window).place (s.window (s.voice slot).window).fill =
        .filled ((s.voice slot).nextRun l true) := by
      rw [window]
      exact Window.place_setPlace_same (s.window (s.voice slot).window) _ (.filled ((s.voice slot).nextRun l true))
    have area : ∀ a, s.givenSilence t (· = slot) a ↔
        s.inRun (s.voice slot).window (s.window (s.voice slot).window).fill ((s.voice slot).nextRun l true) l.format a := by
      intro a
      constructor
      · rintro ⟨n, i, r, l', rfl, _, hl', hf, _, he, ha⟩
        rw [hl] at hl'
        cases hl'
        by_cases h : i = (s.window (s.voice n).window).fill
        · subst h
          rw [filled] at hf
          cases hf
          exact ha
        · rw [same i h, he] at hf
          cases hf
      · exact fun ha => ⟨slot, _, _, l, rfl, sounds, hl, filled, rfl, empty, ha⟩
    refine ⟨p.kept, voices, p.others, fun w hw => p.windows w fun h => hw slot rfl sounds h.symm, fun w i => ?_, fun a => ?_⟩
    · by_cases h : w = (s.voice slot).window
      · subst h
        by_cases k : i = (s.window (s.voice slot).window).fill
        · subst k
          exact .inr ⟨empty, slot, _, l, b, rfl, sounds, rfl, hl, filled, rfl, address, off⟩
        · exact .inl (same i k)
      · exact .inl (by rw [p.windows w h])
    · rw [area, p.dram, if_pos fit]
      exact s.zeroRun_read _ _ _ _ a
  · have unfit := (Bool.not_eq_true _).mp fit
    refine ⟨p.kept, voices, p.others, fun w hw => p.windows w fun h => hw slot rfl sounds h.symm, fun w i => ?_, fun a => ?_⟩
    · by_cases h : w = (s.voice slot).window
      · subst h
        rw [p.window, State.takesRun_unfit unfit]
        exact .inl rfl
      · exact .inl (by rw [p.windows w h])
    · rw [p.dram, if_neg fit]
      refine ⟨fun ⟨n, i, r, l', hn, _, _, hf, _, he, _⟩ => ?_, fun _ => rfl⟩
      cases hn
      rw [p.window, State.takesRun_unfit unfit, he] at hf
      cases hf

theorem State.giveRuns_judged (fuel : Nat) : ∀ (s : State) (slot : Nat), Judged (· = slot) s (s.giveRuns fuel slot) := by
  induction fuel with
  | zero => exact fun s slot => Judged.refl _ s
  | succ fuel ih =>
    intro s slot
    rw [State.giveRuns]
    cases hl : s.layoutOf (s.voice slot) with
    | none => exact Judged.refl _ s
    | some l =>
      dsimp only
      by_cases head : s.headRunDue (s.voice slot) l = true
      · rw [if_pos head]
        exact (s.headRun_judged slot l).trans (ih _ slot)
      · rw [if_neg head]
        by_cases silent : (s.candidate (s.voice slot) l && s.candidateOffline (s.voice slot) l) = true
        · rw [if_pos silent]
          exact (State.silentPlace_judged (s.giveSilent_place slot l) hl ((s.silenceDue_iff _ l).mp silent)).trans (ih _ slot)
        · rw [if_neg silent]
          exact Judged.refl _ s

/-- The judging of one voice moves that voice and its window alone. -/
theorem State.settleVoice_judged (s : State) (slot : Nat) : Judged (· = slot) s (s.settleVoice slot) := by
  unfold State.settleVoice
  split
  · exact Judged.refl _ s
  · exact s.giveRuns_judged _ slot

/-! ### Every voice judged -/

/-- A sounding voice is not FREE. -/
theorem Voice.sounding_held {v : Voice} (h : v.sounding = true) : v.state ≠ .free := by
  intro e
  simp [Voice.sounding, e] at h

/-- No window is held by two sounding voices. -/
def State.SoundedOnce (s : State) : Prop :=
  ∀ m n, (s.voice m).sounding = true → (s.voice n).sounding = true → (s.voice m).window = (s.voice n).window → m = n

theorem State.WindowsHeldOnce.sounded {s : State} (h : s.WindowsHeldOnce) : s.SoundedOnce := fun m n hm hn e =>
  Classical.byContradiction fun ne => h m n ne (Voice.sounding_held hm) (Voice.sounding_held hn) e

theorem Judged.sounded {slots : Nat → Prop} {s t : State} (h : Judged slots s t) (o : s.SoundedOnce) : t.SoundedOnce := by
  intro m n hm hn e
  rw [(h.voices m).1] at hm
  rw [(h.voices n).1] at hn
  rw [(h.voices m).2.1, (h.voices n).2.1] at e
  exact o m n hm hn e

/-- Where no window is held twice, what was done to one voice was done to some. -/
theorem Judged.more {some more : Nat → Prop} {s t : State} (h : Judged some s t) (o : s.SoundedOnce)
    (le : ∀ n, some n → more n) : Judged more s t where
  kept := h.kept
  voices := h.voices
  others n hn := h.others n fun k => hn (le n k)
  windows w hw := h.windows w fun n k => hw n (le n k)
  places w i := by
    rcases h.places w i with e | ⟨e, n, r, l, b, hn, k⟩
    · exact .inl e
    · exact .inr ⟨e, n, r, l, b, le n hn, k⟩
  dram a := by
    have area : s.givenSilence t more a ↔ s.givenSilence t some a := by
      constructor
      · rintro ⟨n, i, r, l, _, hs, hl, hf, hd, he, ha⟩
        rcases h.places (s.voice n).window i with e | ⟨_, m, r', l', b, hm, hs', hw', _⟩
        · rw [e, he] at hf; cases hf
        · exact ⟨n, i, r, l, o m n hs' hs hw' ▸ hm, hs, hl, hf, hd, he, ha⟩
      · exact fun ⟨n, i, r, l, hn, k⟩ => ⟨n, i, r, l, le n hn, k⟩
    rw [area]
    exact h.dram a

theorem State.settleSlots_judged (slots : List Nat) : ∀ s : State, s.SoundedOnce →
    Judged (· ∈ slots) s (slots.foldl State.settleVoice s) := by
  induction slots with
  | nil => exact fun s _ => Judged.refl _ s
  | cons x slots ih =>
    intro s o
    have h := s.settleVoice_judged x
    exact (h.more o fun n e => by rw [e]; exact List.mem_cons_self).trans
      ((ih _ (h.sounded o)).more (h.sounded o) fun n e => List.mem_cons_of_mem _ e)

/-- Every voice judged for its next runs. -/
theorem State.settleVoices_judged (s : State) (o : s.SoundedOnce) : Judged (fun _ => True) s s.settleVoices :=
  (State.settleSlots_judged _ s o).more o fun _ _ => trivial

/-- A voice that is not sounding is given no run. -/
theorem State.settleVoice_silent {s : State} {slot : Nat} (h : (s.voice slot).sounding = false) : s.settleVoice slot = s := by
  have no : ∀ v : Voice, v.sounding = false → s.runDue v = false := by
    intro v hv
    cases e : v.state <;> simp_all [State.runDue, Voice.sounding]
  unfold State.settleVoice
  split
  · rfl
  · unfold State.runFuel
    cases s.horizon (s.voice slot) / 65536 + 2 - (s.voice slot).cursor.stream with
    | zero => rfl
    | succ fuel =>
      rw [State.giveRuns]
      cases s.layoutOf (s.voice slot) with
      | none => rfl
      | some l => simp [State.headRunDue, State.candidate, no _ h]

/-- What a judged part looks like to the runs due. -/
theorem Judged.runs {slots : Nat → Prop} {s t : State} (h : Judged slots s t) {l : Layout} {u v : Voice} {w x : Window}
    (r : t.RunsGiven l u w v x) : s.RunsGiven l u w v x := by
  refine State.RunsGiven.congr (s := t) (t := s) ?_ ?_ (fun d => ?_) ?_ r
  · rw [h.kept]
  · rw [h.kept]
  · rw [h.kept.die]
  · rw [h.kept]

theorem Judged.resetting {slots : Nat → Prop} {s t : State} (h : Judged slots s t) : t.resetting = s.resetting := by
  unfold State.resetting
  rw [h.kept]

/-- A sounding voice that is not judged keeps its window, where no window is held twice. -/
theorem Judged.window_kept {slots : Nat → Prop} {s t : State} (h : Judged slots s t) (o : s.SoundedOnce) {n : Nat}
    (hn : ¬ slots n) (hs : (s.voice n).sounding = true) : t.window (s.voice n).window = s.window (s.voice n).window :=
  h.windows _ fun m hm hms e => hn (o m n hms hs e ▸ hm)

theorem State.settleSlots_runs (slots : List Nat) : ∀ s : State, s.SoundedOnce → s.resetting = false → slots.Nodup →
    ∀ n ∈ slots, (s.voice n).sounding = true → ∀ l, s.layoutOf (s.voice n) = some l →
    s.RunsGiven l (s.voice n) (s.window (s.voice n).window) ((slots.foldl State.settleVoice s).voice n)
      ((slots.foldl State.settleVoice s).window (s.voice n).window) := by
  induction slots with
  | nil => exact fun _ _ _ _ n h => absurd h List.not_mem_nil
  | cons x slots ih =>
    intro s o hr nd n hn hs l hl
    rw [List.nodup_cons] at nd
    have h := s.settleVoice_judged x
    have o' := h.sounded o
    rw [List.foldl_cons]
    by_cases e : n = x
    · subst e
      have k := State.settleSlots_judged slots (s.settleVoice n) o'
      have sound := (h.voices n).1.trans hs
      have win := (h.voices n).2.1
      rw [k.others n nd.1, ← win, k.window_kept o' nd.1 sound, win]
      exact s.settleVoice_runs n l hl hr
    · have r := ih _ o' (h.resetting.trans hr) nd.2 n (by rcases List.mem_cons.mp hn with c | c; exact absurd c e; exact c)
        ((h.voices n).1.trans hs) l ((h.kept.layoutOf (h.voices n).2.2).trans hl)
      rw [(h.voices n).2.1, h.others n e, h.window_kept o e hs] at r
      exact h.runs r

/-- Every sounding voice is given exactly the runs due (R100, R102, R106). -/
theorem State.settleVoices_runs (s : State) (w : Table.wf Voice.blank s.voices = true) (o : s.SoundedOnce)
    (hr : s.resetting = false) (n : Nat) (hs : (s.voice n).sounding = true) (l : Layout) (hl : s.layoutOf (s.voice n) = some l) :
    s.RunsGiven l (s.voice n) (s.window (s.voice n).window) (s.settleVoices.voice n)
      (s.settleVoices.window (s.voice n).window) := by
  refine State.settleSlots_runs _ s o hr ?_ n ?_ hs l hl
  · exact (List.pairwise_map.mpr ((Table.wf_iff Voice.blank s.voices).mp w).1).imp Nat.ne_of_lt
  · rcases Table.get_mem Voice.blank s.voices n with h | h
    · exact List.mem_map.mpr ⟨_, h, rfl⟩
    · unfold State.voice at hs
      rw [h] at hs
      cases hs

/-- The bytes of the silent places given read 0, the others as before (R44, R106), where only the judging moved the voices. -/
theorem Judged.silence {slots : Nat → Prop} {s t : State} (h : Judged slots s t) (o : s.SoundedOnce) :
    SilenceWritten s t := by
  have all := h.more o (more := fun _ => True) fun _ _ => trivial
  have held : ∀ n, (s.voice n).sounding = true → s.windowFree (s.voice n).window = false := by
    intro n hn
    rcases Table.get_mem Voice.blank s.voices n with m | m
    · unfold State.windowFree
      rw [List.all_eq_false]
      refine ⟨_, m, ?_⟩
      have := Voice.sounding_held hn
      change ¬ (((s.voice n).state == .free || (s.voice n).window != (s.voice n).window) = true)
      simp [this]
    · unfold State.voice at hn
      rw [m] at hn
      cases hn
  have area : ∀ a, silentByte s t a ↔ s.givenSilence t (fun _ => True) a := by
    intro a
    have lay := fun n => h.kept.layoutOf (h.voices n).2.2
    constructor
    · rintro ⟨n, i, r, l, b, hs, hl, hf, hd, he, _, _, ha⟩
      rw [(h.voices n).1] at hs
      rw [(h.voices n).2.1] at hf he ha
      rw [held n hs] at he
      exact ⟨n, i, r, l, trivial, hs, (lay n).symm.trans hl, hf, hd, he.resolve_right Bool.false_ne_true, ha⟩
    · rintro ⟨n, i, r, l, _, hs, hl, hf, hd, he, ha⟩
      rcases h.places (s.voice n).window i with e | ⟨_, m, r', l', b, _, hs', hw', hl', hf', _, hb, ho⟩
      · rw [e, he] at hf; cases hf
      · cases o m n hs' hs hw'
        rw [hf] at hf'
        cases hf'
        rw [hl] at hl'
        cases hl'
        refine ⟨n, i, r, l, b, (h.voices n).1.trans hs, (lay n).trans hl, ?_, hd, ?_, hb, ?_, ?_⟩
        · rw [(h.voices n).2.1]; exact hf
        · rw [(h.voices n).2.1]; exact .inl he
        · rw [h.kept.die]; exact ho
        · rw [(h.voices n).2.1]; exact ha
  intro a
  rw [area]
  exact all.dram a

end Sys2Proof.Machine
end

