-- ==== Sys2Proof/Laws/Endings.lean ====
section
/-! SUPPORT. What the entry of voices to ENDING does, said once for any list of slots (R12, R17, R45, R70, R71, R110). Provers cite
`State.endVoices_left` and, for every sounding voice, `State.endVoices_allEnd`. -/

namespace Sys2Proof.Machine

/-! ### A record that a voice leaves -/

/-- A record that one voice naming it leaves (R12, R17). -/
def Record.left (r : Record) : Record :=
  if r.state = .vacant then r
  else if r.state = .retiring ∧ r.refs - 1 = 0 ∧ r.loadReads = 0 then Record.vacant r.generation
  else { r with refs := r.refs - 1 }

/-- A record that so many voices naming it leave, one after another. -/
def Record.leftBy : Nat → Record → Record
  | 0, r => r
  | n + 1, r => Record.leftBy n r.left

theorem Record.left_generation (r : Record) : r.left.generation = r.generation := by
  unfold Record.left
  split
  · rfl
  · split <;> rfl

theorem Record.leftBy_generation (n : Nat) : ∀ r : Record, (Record.leftBy n r).generation = r.generation := by
  induction n with
  | zero => exact fun _ => rfl
  | succ n ih => exact fun r => (ih r.left).trans r.left_generation

theorem Record.leftBy_vacant (n : Nat) {r : Record} (h : r.state = .vacant) : Record.leftBy n r = r := by
  induction n with
  | zero => rfl
  | succ n ih =>
    unfold Record.leftBy Record.left
    rw [if_pos h]
    exact ih

/-- The count falls by as many, while the record stands. -/
theorem Record.leftBy_counted (n : Nat) : ∀ r : Record, r.state ≠ .vacant →
    r.state ≠ .retiring ∨ n < r.refs ∨ 0 < r.loadReads → Record.leftBy n r = { r with refs := r.refs - n } := by
  induction n with
  | zero => exact fun _ _ _ => rfl
  | succ n ih =>
    intro r v h
    have step : r.left = { r with refs := r.refs - 1 } := by
      unfold Record.left
      rw [if_neg v, if_neg]
      rintro ⟨a, b, c⟩
      rcases h with h | h | h
      · exact h a
      · omega
      · omega
    rw [Record.leftBy, step, ih { r with refs := r.refs - 1 } v (by
      rcases h with h | h | h
      · exact .inl h
      · exact .inr (.inl (show n < r.refs - 1 by omega))
      · exact .inr (.inr h))]
    simp [Nat.sub_sub, Nat.add_comm]

/-- A RETIRING record left with no voice and no load read is VACANT. -/
theorem Record.leftBy_retired (n : Nat) : ∀ r : Record, 0 < n → r.state = .retiring → r.refs ≤ n → r.loadReads = 0 →
    (Record.leftBy n r).state = .vacant := by
  induction n with
  | zero => exact fun _ h => absurd h (Nat.lt_irrefl 0)
  | succ n ih =>
    intro r _ hr hn hl
    have live : r.state ≠ .vacant := by rw [hr]; exact fun h => by cases h
    rw [Record.leftBy]
    by_cases e : r.refs - 1 = 0
    · have gone : r.left = Record.vacant r.generation := by
        unfold Record.left
        rw [if_neg live, if_pos ⟨hr, e, hl⟩]
      rw [gone, Record.leftBy_vacant n rfl]
      rfl
    · have stay : r.left = { r with refs := r.refs - 1 } := by
        unfold Record.left
        rw [if_neg live, if_neg (fun h => e h.2.1)]
      rw [stay]
      exact ih _ (by omega) hr (show r.refs - 1 ≤ n by omega) hl

/-! ### One voice -/

/-- What the fall of a record's reference count does to the part. -/
structure State.Dropped (s t : State) (id : Nat) : Prop where
  kept : t = { s with catalog := t.catalog, recency := t.recency, completions := t.completions }
  record : t.record id = (s.record id).left
  others : ∀ j, j ≠ id → t.record j = s.record j
  grows : ∀ c ∈ s.completions, c ∈ t.completions
  written : ∀ k, (s.record id).retire = some k → (s.record id).state = .retiring → (t.record id).state = .vacant →
    ∃ word0 word1, ⟨k, .ok, word0, word1⟩ ∈ t.completions

theorem State.dropReference_dropped (s : State) (id : Nat) :
    s.Dropped (s.dropReference id (s.record id).generation) id := by
  unfold State.dropReference
  by_cases v : (s.record id).state = .vacant
  · have left : (s.record id).left = s.record id := if_pos v
    rw [if_neg (fun h => h.1 v)]
    exact ⟨rfl, left.symm, fun _ _ => rfl, fun _ h => h, fun k _ h => by rw [v] at h; cases h⟩
  · rw [if_pos ⟨v, rfl⟩]
    unfold State.settleRetiring
    dsimp only
    rw [State.record_setRecord_same]
    by_cases gone : (s.record id).state = .retiring ∧ (s.record id).refs - 1 = 0 ∧ (s.record id).loadReads = 0
    · have left : (s.record id).left = Record.vacant (s.record id).generation := by
        unfold Record.left
        rw [if_neg v, if_pos gone]
      rw [if_pos gone]
      cases e : (s.record id).retire with
      | none =>
        refine ⟨rfl, ?_, fun j h => ?_, fun _ h => h, fun k h => by rw [e] at h; cases h⟩
        · unfold State.toVacant
          rw [left]
          exact (State.record_setRecord_same _ _ _).trans (by rw [State.record_setRecord_same])
        · exact (State.record_setRecord_other _ _ h).trans (State.record_setRecord_other _ _ h)
      | some t =>
        refine ⟨rfl, ?_, fun j h => ?_, fun _ h => List.mem_cons_of_mem _ h, fun k h _ _ => ?_⟩
        · unfold State.toVacant
          rw [left]
          refine (State.record_setRecord_same _ _ _).trans ?_
          show Record.vacant ((s.setRecord id _).record id).generation = _
          rw [State.record_setRecord_same]
        · exact (State.record_setRecord_other _ _ h).trans (State.record_setRecord_other _ _ h)
        · rw [e] at h
          cases h
          exact ⟨_, _, List.mem_cons_self⟩
    · have left : (s.record id).left = { s.record id with refs := (s.record id).refs - 1 } := by
        unfold Record.left
        rw [if_neg v, if_neg gone]
      rw [if_neg gone]
      refine ⟨rfl, ?_, fun j h => State.record_setRecord_other _ _ h, fun _ h => h, fun k _ h e => ?_⟩
      · rw [State.record_setRecord_same, left]
      · rw [State.record_setRecord_same] at e
        exact absurd (h.symm.trans e) (fun h => by cases h)

/-- How many of some slots' voices name a record. -/
def State.naming (s : State) (slots : List Nat) (id : Nat) : Nat :=
  (slots.filter fun n => (s.voice n).plays id (s.record id).generation).length

/-- What the entry of some slots' sounding voices to ENDING does. -/
structure State.LeftBy (s t : State) (reason : EndReason) (slots : List Nat) : Prop where
  kept : t = { s with
    queue := t.queue, windows := t.windows, voices := t.voices, catalog := t.catalog, recency := t.recency
    completions := t.completions }
  voices : ∀ n, n ∈ slots → t.voice n = (s.voice n).endedWith reason
  others : ∀ n, n ∉ slots → t.voice n = s.voice n
  queue : t.queue = s.queueWithout fun n => slots.contains n
  windows : s.SoundedOnce → ∀ n, n ∈ slots → s.WindowEnded n (t.window (s.voice n).window)
  otherWindows : ∀ w, (∀ n, n ∈ slots → (s.voice n).window ≠ w) → t.window w = s.window w
  records : ∀ id, t.record id = Record.leftBy (s.naming slots id) (s.record id)
  grows : ∀ c ∈ s.completions, c ∈ t.completions
  written : ∀ id k, (s.record id).retire = some k → (s.record id).state = .retiring → (t.record id).state = .vacant →
    ∃ word0 word1, ⟨k, .ok, word0, word1⟩ ∈ t.completions

theorem Window.endEmpty_ended (s : State) (n : Nat) (c : (s.window (s.voice n).window).canonical) :
    s.WindowEnded n ((s.window (s.voice n).window).endEmpty
      (placesOf (s.queue.filter fun e => e.ofVoice n (s.voice n).generation))) := by
  have at_place : ∀ i, ((s.window (s.voice n).window).endEmpty
      (placesOf (s.queue.filter fun e => e.ofVoice n (s.voice n).generation))).place i =
      match (s.window (s.voice n).window).place i with
      | .awaited r => if (placesOf (s.queue.filter fun e => e.ofVoice n (s.voice n).generation)).contains i then .empty
        else .awaited r
      | .empty | .filled _ => .empty := fun i => by
    unfold Window.endEmpty Window.place
    exact Table.get_update Place.empty (fun i p => match p with
      | .awaited r => if (placesOf (s.queue.filter fun e => e.ofVoice n (s.voice n).generation)).contains i then .empty
        else .awaited r
      | .empty | .filled _ => .empty) _ i ((Table.wf_iff _ _).mp c).1 rfl
  refine ⟨⟨rfl, rfl⟩, fun i h => ?_, fun i e he ho hd => ?_, fun i r h free => ?_⟩
  · rw [at_place]
    cases e : (s.window (s.voice n).window).place i with
    | awaited r => exact absurd e (h r)
    | empty => rfl
    | filled r => rfl
  · rw [at_place]
    cases (s.window (s.voice n).window).place i with
    | awaited r =>
      refine if_pos (List.contains_iff_mem.mpr (List.mem_filterMap.mpr ⟨e, ?_, ?_⟩))
      · exact List.mem_filter.mpr ⟨he, by simp [FetchEntry.ofVoice, ho]⟩
      · rw [hd]
    | empty => rfl
    | filled r => rfl
  · rw [at_place, h]
    refine if_neg fun m => ?_
    obtain ⟨e, he, hi⟩ := List.mem_filterMap.mp (List.contains_iff_mem.mp m)
    obtain ⟨hq, ho⟩ := List.mem_filter.mp he
    have ho : e.owner = .voice n (s.voice n).generation := by simpa [FetchEntry.ofVoice] using ho
    cases hd : e.destination with
    | place x j =>
      rw [hd] at hi
      cases hi
      exact free e hq ho x hd
    | headBlock x j =>
      rw [hd] at hi
      cases hi

theorem State.queueWithout_one (s : State) (x : Nat) :
    (s.queue.filter fun e => !e.ofVoice x (s.voice x).generation) = s.queueWithout fun n => [x].contains n := by
  unfold State.queueWithout FetchEntry.ofVoice
  refine List.filter_congr fun e _ => ?_
  cases e.owner with
  | load id g => simp
  | voice n g =>
    refine congrArg (! ·) (Bool.eq_iff_iff.mpr ?_)
    simp only [beq_iff_eq, Owner.voice.injEq, Bool.and_eq_true, List.contains_iff_mem, List.mem_singleton]
    constructor
    · rintro ⟨rfl, rfl⟩
      exact ⟨rfl, rfl⟩
    · rintro ⟨rfl, rfl⟩
      exact ⟨rfl, rfl⟩

/-- One sounding voice enters ENDING. -/
theorem State.endVoice_left (reason : EndReason) (s : State) (x : Nat) (hs : (s.voice x).sounding = true)
    (c : (s.window (s.voice x).window).canonical) : s.LeftBy (State.endVoice reason s x) reason [x] := by
  unfold State.endVoice
  rw [if_pos hs]
  dsimp only
  generalize hb : (State.setVoice _ x _) = b
  have bv : b.voice x = (s.voice x).endedWith reason := by rw [← hb, State.voice_setVoice_same]; rfl
  have bo : ∀ n, n ≠ x → b.voice n = s.voice n := fun n h => by rw [← hb, State.voice_setVoice_other _ _ h]; rfl
  have bw : b.window (s.voice x).window = (s.window (s.voice x).window).endEmpty
      (placesOf (s.queue.filter fun e => e.ofVoice x (s.voice x).generation)) := by
    rw [← hb, State.window_setVoice, State.window_setWindow_same]
  have bx : ∀ w, w ≠ (s.voice x).window → b.window w = s.window w := fun w h => by
    rw [← hb, State.window_setVoice, State.window_setWindow_other _ _ h]; rfl
  have bq : b.queue = s.queue.filter fun e => !e.ofVoice x (s.voice x).generation := by rw [← hb]; rfl
  have br : ∀ id, b.record id = s.record id := fun id => by rw [← hb]; rfl
  have bc : b.completions = s.completions := by rw [← hb]; rfl
  have bk : b = { s with queue := b.queue, windows := b.windows, voices := b.voices } := by rw [← hb]; rfl
  clear hb
  have naming : ∀ id, s.naming [x] id =
      if (s.voice x).plays id (s.record id).generation = true then 1 else 0 := fun id => by
    unfold State.naming
    cases h : (s.voice x).plays id (s.record id).generation <;> simp [h]
  by_cases g : (s.record (s.voice x).sampleId).generation = (s.voice x).sampleGeneration
  · have d := b.dropReference_dropped (s.voice x).sampleId
    rw [br, g] at d
    generalize b.dropReference (s.voice x).sampleId (s.voice x).sampleGeneration = t at d ⊢
    have same : ∀ {α : Type} (f : State → α), (∀ a r l, f { b with catalog := a, recency := r, completions := l } = f b) →
        f t = f b := fun f h => (congrArg f d.kept).trans (h _ _ _)
    have tv : ∀ n, t.voice n = b.voice n := fun n => same (·.voice n) fun _ _ _ => rfl
    have tw : ∀ n, t.window n = b.window n := fun n => same (·.window n) fun _ _ _ => rfl
    have tq : t.queue = b.queue := same State.queue fun _ _ _ => rfl
    refine ⟨?_, fun n h => ?_, fun n h => ?_, ?_, fun _ n h => ?_, fun w h => ?_, fun id => ?_, fun e h => ?_, fun id k hk hr e => ?_⟩
    · rw [d.kept]
      exact (congrArg (fun u : State => { u with catalog := t.catalog, recency := t.recency, completions := t.completions }) bk).trans rfl
    · rw [List.mem_singleton.mp h, tv, bv]
    · rw [tv, bo n fun e => h (List.mem_singleton.mpr e)]
    · rw [tq, bq, s.queueWithout_one]
    · rw [List.mem_singleton.mp h, tw, bw]
      exact Window.endEmpty_ended s x c
    · rw [tw, bx w fun e => h x List.mem_cons_self e.symm]
    · rw [naming]
      by_cases h : id = (s.voice x).sampleId
      · subst h
        rw [d.record, br, if_pos (by simp [Voice.plays, hs, g])]
        rfl
      · rw [d.others id h, br, if_neg (by simp [Voice.plays, Ne.symm h])]
        rfl
    · exact d.grows e (by rw [bc]; exact h)
    · by_cases h : id = (s.voice x).sampleId
      · subst h
        exact d.written k (by rw [br]; exact hk) (by rw [br]; exact hr) e
      · rw [d.others id h, br, hr] at e
        cases e
  · have no : b.dropReference (s.voice x).sampleId (s.voice x).sampleGeneration = b := by
      unfold State.dropReference
      rw [if_neg]
      rw [br]
      exact fun h => g h.2
    rw [no]
    refine ⟨?_, fun n h => ?_, fun n h => ?_, ?_, fun _ n h => ?_, fun w h => ?_, fun id => ?_, fun e h => ?_, fun id k hk hr e => ?_⟩
    · rw [bk]
    · rw [List.mem_singleton.mp h, bv]
    · exact bo n fun e => h (List.mem_singleton.mpr e)
    · rw [bq, s.queueWithout_one]
    · rw [List.mem_singleton.mp h, bw]
      exact Window.endEmpty_ended s x c
    · exact bx w fun e => h x List.mem_cons_self e.symm
    · rw [naming, br, if_neg]
      · rfl
      · intro h
        simp only [Voice.plays, Bool.and_eq_true, beq_iff_eq] at h
        obtain ⟨⟨_, e⟩, k⟩ := h
        subst e
        exact g k.symm
    · rw [bc]; exact h
    · rw [br, hr] at e
      cases e

/-! ### Several voices -/

theorem Record.leftBy_add (m n : Nat) : ∀ r : Record, Record.leftBy (m + n) r = Record.leftBy n (Record.leftBy m r) := by
  induction m with
  | zero => intro r; rw [Nat.zero_add]; rfl
  | succ m ih => intro r; rw [Nat.succ_add]; exact ih r.left

theorem State.LeftBy.record_generation {s t : State} {reason : EndReason} {slots : List Nat} (h : s.LeftBy t reason slots)
    (id : Nat) : (t.record id).generation = (s.record id).generation := by
  rw [h.records, Record.leftBy_generation]

theorem State.LeftBy.sounding {s t : State} {reason : EndReason} {slots : List Nat} (h : s.LeftBy t reason slots) {n : Nat}
    (hn : (t.voice n).sounding = true) : (s.voice n).sounding = true ∧ t.voice n = s.voice n := by
  by_cases m : n ∈ slots
  · rw [h.voices n m] at hn
    cases hn
  · rw [h.others n m] at hn
    exact ⟨hn, h.others n m⟩

theorem State.LeftBy.sounded {s t : State} {reason : EndReason} {slots : List Nat} (h : s.LeftBy t reason slots)
    (o : s.SoundedOnce) : t.SoundedOnce := by
  intro m n hm hn e
  obtain ⟨hm, em⟩ := h.sounding hm
  obtain ⟨hn, en⟩ := h.sounding hn
  rw [em, en] at e
  exact o m n hm hn e

/-- One voice ends, then others: what all of them leave. -/
theorem State.LeftBy.cons {s t u : State} {reason : EndReason} {x : Nat} {slots : List Nat} (nd : x ∉ slots)
    (hs : ∀ n, n ∈ x :: slots → (s.voice n).sounding = true) (h : s.LeftBy t reason [x]) (k : t.LeftBy u reason slots) :
    s.LeftBy u reason (x :: slots) := by
  have same : ∀ n, n ∈ slots → t.voice n = s.voice n := fun n hn =>
    h.others n fun e => nd (List.mem_singleton.mp e ▸ hn)
  refine ⟨?_, fun n hn => ?_, fun n hn => ?_, ?_, fun once n hn => ?_, fun w hw => ?_, fun id => ?_, fun c hc => k.grows c (h.grows c hc),
    fun id tok ht hr hv => ?_⟩
  · rw [k.kept]
    exact (congrArg (fun y : State => { y with
      queue := u.queue, windows := u.windows, voices := u.voices, catalog := u.catalog, recency := u.recency
      completions := u.completions }) h.kept).trans rfl
  · rcases List.mem_cons.mp hn with e | e
    · rw [e, k.others x nd, h.voices x List.mem_cons_self]
    · rw [k.voices n e, same n e]
  · rw [k.others n fun e => hn (List.mem_cons_of_mem _ e),
      h.others n fun e => hn (List.mem_singleton.mp e ▸ List.mem_cons_self)]
  · rw [k.queue]
    unfold State.queueWithout
    rw [h.queue]
    unfold State.queueWithout
    rw [List.filter_filter]
    refine List.filter_congr fun e _ => ?_
    cases e.owner with
    | load id g => rfl
    | voice n g =>
      by_cases m : n ∈ slots
      · have e1 : n ≠ x := fun e => nd (e ▸ m)
        simp [m, e1, same n m]
      · simp [m]
  · have o : ∀ n, n ∈ slots → (s.voice n).window ≠ (s.voice x).window := fun n hn e =>
      nd (once n x (hs n (List.mem_cons_of_mem _ hn)) (hs x List.mem_cons_self) e ▸ hn)
    rcases List.mem_cons.mp hn with e | e
    · subst e
      have := h.windows once n List.mem_cons_self
      rwa [← k.otherWindows (s.voice n).window fun m hm => by rw [same m hm]; exact o m hm] at this
    · have w := k.windows (h.sounded once) n e
      rw [same n e] at w
      have win : t.window (s.voice n).window = s.window (s.voice n).window :=
        h.otherWindows _ fun m hm => by rw [List.mem_singleton.mp hm]; exact (o n e).symm
      have ne : n ≠ x := fun c => nd (c ▸ e)
      have mem : ∀ e ∈ s.queue, e.owner = .voice n (s.voice n).generation → e ∈ t.queue := fun e he ho => by
        rw [h.queue]
        refine List.mem_filter.mpr ⟨he, ?_⟩
        rw [ho]
        simp [ne]
      have sub : ∀ e ∈ t.queue, e ∈ s.queue := fun e he => by
        rw [h.queue] at he
        exact (List.mem_filter.mp he).1
      obtain ⟨p, q, r, z⟩ := w
      rw [same n e] at p q r z
      rw [win] at p q z
      exact ⟨p, q, fun i e he ho hd => r i e (mem e he ho) ho hd, fun i y hy free => z i y hy fun e he ho => free e (sub e he) ho⟩
  · rw [k.otherWindows w fun n hn => by rw [same n hn]; exact hw n (List.mem_cons_of_mem _ hn),
      h.otherWindows w fun n hn => hw n (List.mem_singleton.mp hn ▸ List.mem_cons_self)]
  · have count : s.naming (x :: slots) id = s.naming [x] id + t.naming slots id := by
      unfold State.naming
      rw [h.record_generation]
      have : slots.filter (fun n => (t.voice n).plays id (s.record id).generation) =
          slots.filter fun n => (s.voice n).plays id (s.record id).generation :=
        List.filter_congr fun n hn => by rw [same n hn]
      rw [this, ← List.length_append, ← List.filter_append]
      rfl
    rw [k.records, h.records, count, Record.leftBy_add]
  · by_cases v : (t.record id).state = .vacant
    · obtain ⟨a, b, m⟩ := h.written id tok ht hr v
      exact ⟨a, b, k.grows _ m⟩
    · have stay : (t.record id).state = (s.record id).state ∧ (t.record id).retire = (s.record id).retire := by
        rw [h.records] at v ⊢
        unfold State.naming at v ⊢
        cases e : (s.voice x).plays id (s.record id).generation with
        | false => simp [e, Record.leftBy]
        | true =>
          simp only [List.filter_cons, e, if_true, List.filter_nil, List.length_cons, List.length_nil, Record.leftBy] at v ⊢
          unfold Record.left at v ⊢
          split
          · exact ⟨rfl, rfl⟩
          · split
            · rename_i c d
              rw [if_neg c, if_pos d] at v
              exact absurd rfl v
            · exact ⟨rfl, rfl⟩
      exact k.written id tok (stay.2.trans ht) (stay.1.trans hr) hv

/-- Several sounding voices enter ENDING at one event. -/
theorem State.endVoices_left (reason : EndReason) (slots : List Nat) : ∀ s : State, slots.Nodup → s.Canonical → (∀ n, n ∈ slots → (s.voice n).sounding = true) →
    s.LeftBy (s.endVoices reason slots) reason slots := by
  induction slots with
  | nil =>
    intro s _ _ _
    refine ⟨rfl, fun n h => absurd h List.not_mem_nil, fun _ _ => rfl, ?_, fun _ n h => absurd h List.not_mem_nil, fun _ _ => rfl,
      fun _ => rfl, fun _ h => h, fun id k _ h e => ?_⟩
    · refine (List.filter_eq_self.mpr fun e _ => ?_).symm
      cases e.owner <;> simp
    · have e : (s.record id).state = .vacant := e
      rw [h] at e
      cases e
  | cons x slots ih =>
    intro s nd c hs
    rw [List.nodup_cons] at nd
    have h := s.endVoice_left reason x (hs x List.mem_cons_self) (c.places _)
    have ne : ∀ n, n ∈ slots → n ≠ x := fun n hn e => nd.1 (e ▸ hn)
    refine State.LeftBy.cons nd.1 hs h (ih (State.endVoice reason s x) nd.2 ((Inner.endVoice reason s x).canonical c) fun n hn => ?_)
    · rw [h.others n fun e => ne n hn (List.mem_singleton.mp e)]
      exact hs n (List.mem_cons_of_mem _ hn)

/-! ### What the statements say of it -/

/-- A record that a count of voices has left, at the end of the event. -/
theorem State.recordLeft_of {s t : State} {id n : Nat} (h : t.record id = Record.leftBy n (s.record id))
    (w : ∀ k, (s.record id).retire = some k → (s.record id).state = .retiring → (t.record id).state = .vacant →
      ∃ word0 word1, wroteAt s t k.address (doneBytes .ok word0 word1)) : s.RecordLeft t id n where
  untouched c := by
    rw [h]
    rcases c with c | c
    · rw [c]
      rfl
    · exact Record.leftBy_vacant n c
  counted v c := by
    rw [h]
    exact Record.leftBy_counted n _ v c
  retired p r q l := by
    have v : (t.record id).state = .vacant := by
      rw [h]
      exact Record.leftBy_retired n _ p r q l
    exact ⟨v, by rw [h, Record.leftBy_generation], fun k hk => w k hk r v⟩

/-- A value listed in a canonical table is the one read. -/
theorem Table.get_of_mem {α : Type} (b : α) (t : Table α) (hw : t.Pairwise fun a c => a.1 < c.1) {e : Nat × α} (h : e ∈ t) :
    Table.get b t e.1 = e.2 := by
  induction t with
  | nil => cases h
  | cons x rest ih =>
    rw [List.pairwise_cons] at hw
    rcases List.mem_cons.mp h with c | c
    · subst c
      simp [Table.get]
    · have : x.1 ≠ e.1 := Nat.ne_of_lt (hw.1 e c)
      rw [Table.get, if_neg this]
      exact ih hw.2 c

theorem State.voice_of_mem {s : State} (c : Table.wf Voice.blank s.voices = true) {e : Nat × Voice} (h : e ∈ s.voices) :
    s.voice e.1 = e.2 := Table.get_of_mem _ _ ((Table.wf_iff _ _).mp c).1 h

theorem State.soundingSlots_nodup {s : State} (c : Table.wf Voice.blank s.voices = true) : s.soundingSlots.Nodup :=
  List.pairwise_map.mpr ((((Table.wf_iff _ _).mp c).1.filter _).imp Nat.ne_of_lt)

theorem State.mem_soundingSlots {s : State} (c : Table.wf Voice.blank s.voices = true) (n : Nat) :
    n ∈ s.soundingSlots ↔ (s.voice n).sounding = true := by
  constructor
  · intro h
    obtain ⟨e, he, rfl⟩ := List.mem_map.mp h
    obtain ⟨m, hs⟩ := List.mem_filter.mp he
    rw [State.voice_of_mem c m]
    exact hs
  · intro h
    rcases Table.get_mem Voice.blank s.voices n with m | m
    · exact List.mem_map.mpr ⟨_, List.mem_filter.mpr ⟨m, h⟩, rfl⟩
    · unfold State.voice at h
      rw [m] at h
      cases h

theorem Voice.plays_sounding {v : Voice} {id : Nat} {g : Generation} (h : v.plays id g = true) : v.sounding = true := by
  simp only [Voice.plays, Bool.and_eq_true] at h
  exact h.1.1

theorem State.naming_sounding {s : State} (c : Table.wf Voice.blank s.voices = true) (id : Nat) :
    s.naming s.soundingSlots id = (s.slotsPlaying id (s.record id).generation).length := by
  unfold State.naming State.soundingSlots State.slotsPlaying
  rw [List.filter_map, List.length_map, List.length_map, List.filter_filter]
  refine congrArg List.length (List.filter_congr fun e he => ?_)
  show ((s.voice e.1).plays id (s.record id).generation && e.2.sounding) = _
  rw [State.voice_of_mem c he]
  cases h : e.2.plays id (s.record id).generation with
  | false => rfl
  | true => rw [Voice.plays_sounding h]; rfl

/-- Every sounding voice enters ENDING, and the event ends. -/
theorem State.endVoices_allEnd (reason : EndReason) {s t : State} (c : s.Canonical)
    (p : Posted (s.endVoices reason s.soundingSlots) t)
    (w : ∀ x ∈ (s.endVoices reason s.soundingSlots).completions,
      wroteAt s t x.token.address (doneBytes x.result x.word0 x.word1)) : s.AllEnd t reason := by
  have h := s.endVoices_left reason s.soundingSlots (State.soundingSlots_nodup c.voices) c fun n hn =>
    (State.mem_soundingSlots c.voices n).mp hn
  generalize s.endVoices reason s.soundingSlots = u at h p w
  have mem := State.mem_soundingSlots c.voices
  have same : ∀ {α : Type} (f : State → α), (∀ o l q r, f { u with out := o, completions := l, requests := q, registers := r } = f u) →
      f t = f u := fun f h => (congrArg f p.2).trans (h _ _ _ _)
  have kept : ∀ {α : Type} (f : State → α), (∀ q w v a r l, f { s with
      queue := q, windows := w, voices := v, catalog := a, recency := r, completions := l } = f s) → f u = f s :=
    fun f k => (congrArg f h.kept).trans (k _ _ _ _ _ _)
  have tv : ∀ n, t.voice n = u.voice n := fun n => same (·.voice n) fun _ _ _ _ => rfl
  have tw : ∀ n, t.window n = u.window n := fun n => same (·.window n) fun _ _ _ _ => rfl
  have tr : ∀ n, t.record n = u.record n := fun n => same (·.record n) fun _ _ _ _ => rfl
  refine ⟨fun n hn => ?_, fun n hn => ?_, ?_, fun o n hn => ?_, fun x hx => ?_, fun id => ?_, ⟨fun d => ?_, ?_⟩, fun a => ?_⟩
  · rw [tv, h.voices n ((mem n).mpr hn)]
  · rw [tv, h.others n fun m => by rw [(mem n).mp m] at hn; cases hn]
  · rw [show t.queue = u.queue from same State.queue fun _ _ _ _ => rfl, h.queue]
    unfold State.queueWithout
    refine List.filter_congr fun e _ => ?_
    cases e.owner with
    | load id g => rfl
    | voice n g =>
      have : s.soundingSlots.contains n = (s.voice n).sounding :=
        Bool.eq_iff_iff.mpr (by rw [List.contains_iff_mem]; exact mem n)
      simp only [this]
  · rw [tw]
    exact h.windows o.sounded n ((mem n).mpr hn)
  · rw [tw]
    exact h.otherWindows x fun n hn => hx n ((mem n).mp hn)
  · refine State.recordLeft_of (by rw [tr, h.records, State.naming_sounding c.voices]) fun k hk hr hv => ?_
    rw [tr] at hv
    obtain ⟨a, b, m⟩ := h.written id k hk hr hv
    exact ⟨a, b, w _ m⟩
  · exact (same (·.die d) fun _ _ _ _ => rfl).trans (kept (·.die d) fun _ _ _ _ _ _ => rfl)
  · exact (same State.stores fun _ _ _ _ => rfl).trans (kept State.stores fun _ _ _ _ _ _ => rfl)
  · rw [show t.dram = s.dram from (same State.dram fun _ _ _ _ => rfl).trans (kept State.dram fun _ _ _ _ _ _ => rfl)]

end Sys2Proof.Machine
end

