-- ==== Sys2Proof/Laws/Messages.lean ====
section
/-! SUPPORT. Which operations send a message (R182), said once: none but the end of an event does. `Quiet` says it of an
operation, one lemma for each that the events are made of, and `event_messageMade` of an event whose owners are quiet. -/

namespace Sys2Proof.Machine

/-- No message leaves the part. -/
def Quiet (s t : State) : Prop := t.messages = s.messages

theorem Quiet.refl (s : State) : Quiet s s := rfl

theorem Quiet.trans {s t u : State} (h : Quiet s t) (k : Quiet t u) : Quiet s u := Eq.trans k h

theorem Quiet.ite {s t u : State} {c : Prop} [Decidable c] (h : Quiet s t) (k : Quiet s u) : Quiet s (if c then t else u) := by
  split
  · exact h
  · exact k

theorem Quiet.foldl {α : Type} (f : State → α → State) (h : ∀ s x, Quiet s (f s x)) (l : List α) (s : State) :
    Quiet s (l.foldl f s) := by
  induction l generalizing s with
  | nil => rfl
  | cons x l ih => exact (h s x).trans (ih (f s x))

/-- What changes nothing that has left the part is quiet. -/
theorem Quiet.of_out {s t : State} (h : t.out = s.out) : Quiet s t := by unfold Quiet State.messages; rw [h]

theorem Inner.isQuiet {s t : State} (h : Inner s t) : Quiet s t := h.messages

theorem Quiet.emit (s : State) (o : Output) (h : ∀ v, o ≠ .message v) : Quiet s (s.emit o) := State.messages_emit s o h

/-! ### The ends of an event -/

theorem Quiet.writeDone (s : State) (c : Completion) : Quiet s (s.writeDone c) := by
  simp only [State.writeDone]
  split
  all_goals exact Quiet.emit s (.hostWrite (requestStatusAddress c.token.address) (doneBytes c.result c.word0 c.word1)) nofun

theorem Quiet.flush (s : State) : Quiet s s.flush :=
  (Quiet.of_out (s := s) (t := { s with completions := [] }) rfl).trans (Quiet.foldl _ Quiet.writeDone _ _)

/-- Messages are wanted as R182 says. -/
theorem State.messageWanted_iff (s : State) : s.messageWanted = true ↔ s.wantsMessage := by
  simp [State.messageWanted, State.maskedStatus, State.wantsMessage]

/-- WHAT AN EVENT WHOSE OWNERS ARE QUIET SENDS (R182). -/
theorem event_messageMade {f : State → State} {s t : State} (q : Quiet s (f s)) (h : event f s = .next t) :
    messageMade s t := by
  have e : sendMessage s (f s).flush = t := by simpa [event] using h
  have k : Quiet s (f s).flush := q.trans (Quiet.flush _)
  have r : t.registers = (f s).flush.registers := by rw [← e, sendMessage_registers]
  have w : t.messageWanted = (f s).flush.messageWanted := by unfold State.messageWanted State.maskedStatus; rw [r]
  constructor
  · intro a b
    rw [← State.messageWanted_iff] at a b
    rw [w] at b
    have : t = (f s).flush.emit (.message (f s).flush.registers.msiVector) := by rw [← e]; simp [sendMessage, a, b]
    rw [r, this, ← k]
    simp [State.messages]
  · intro a
    rw [← State.messageWanted_iff, ← State.messageWanted_iff, w] at a
    have : t = (f s).flush := by
      rw [← e]; unfold sendMessage
      rcases a with a | a <;> simp [a]
    rw [this]
    exact k

/-! ### The Request Processor -/

theorem Quiet.fetchRequest (s : State) (a : HostAddr) : Quiet s (s.fetchRequest a) := by
  simp only [State.fetchRequest]
  split
  · rfl
  · split
    · exact (Quiet.of_out rfl).trans (Quiet.emit _ _ nofun)
    · rfl

theorem Quiet.rereadFetching (s : State) (kind : RequestRead) : Quiet s (s.rereadFetching kind) := by
  simp only [State.rereadFetching]
  exact Quiet.ite rfl ((Quiet.of_out rfl).trans (Quiet.emit _ _ nofun))

theorem Quiet.rereadAtResume (s : State) : Quiet s s.rereadAtResume := by
  simp only [State.rereadAtResume]
  exact Quiet.ite rfl ((Quiet.of_out rfl).trans (Quiet.emit _ _ nofun))

theorem Quiet.rereadAgain (s : State) : Quiet s s.rereadAgain := by
  simp only [State.rereadAgain]
  exact Quiet.ite (Quiet.rereadFetching s _) ((Quiet.of_out rfl).trans (Quiet.rereadAtResume _))

theorem Quiet.advanceRequests (s : State) (a : HostAddr) : Quiet s (s.advanceRequests a) := by
  simp only [State.advanceRequests]
  exact Quiet.ite (Quiet.fetchRequest s a) (Quiet.ite (Quiet.rereadFetching s _) rfl)

theorem Quiet.writeRequestPointer (s : State) (a : HostAddr) : Quiet s (s.writeRequestPointer a) := by
  simp only [State.writeRequestPointer]
  exact Quiet.ite rfl (Quiet.ite rfl (Quiet.ite ((Quiet.of_out rfl).trans (Quiet.fetchRequest _ a)) rfl))

theorem Quiet.resumeRequests (s : State) : Quiet s s.resumeRequests := by
  simp only [State.resumeRequests]
  split
  · rfl
  · rfl
  · split
    · exact Quiet.rereadAtResume s
    · exact Quiet.rereadAtResume s
    · exact Quiet.fetchRequest s _
    · rfl

theorem Quiet.requestFetchFails (s : State) : Quiet s s.requestFetchFails := Quiet.ite rfl rfl

theorem Quiet.rereadAtResumeEnds (s : State) (read : Option HostAddr) : Quiet s (s.rereadAtResumeEnds read) := by
  cases read
  · rfl
  · exact Quiet.ite (Quiet.fetchRequest s _) (Quiet.ite (Quiet.rereadAgain s) rfl)

theorem Quiet.rereadAtAdvanceEnds (s : State) (read : Option HostAddr) : Quiet s (s.rereadAtAdvanceEnds read) := by
  cases read
  · rfl
  · exact Quiet.advanceRequests s _

theorem Quiet.rereadUnused (s : State) (read : Option HostAddr) : Quiet s (s.rereadUnused read) := Quiet.ite rfl rfl

theorem Quiet.olderRereadEnds (s : State) (read : Option HostAddr) : Quiet s (s.olderRereadEnds read) := by
  cases read
  · exact Quiet.rereadUnused s none
  · exact Quiet.ite (Quiet.fetchRequest s _) rfl

theorem Quiet.requestReread (s : State) (read : Option HostAddr) : Quiet s (s.requestReread read) := by
  simp only [State.requestReread, State.parkedRereadEnds, State.fetchingRereadEnds]
  refine Quiet.ite ((Quiet.of_out rfl).trans (Quiet.rereadUnused _ read)) (Quiet.ite (Quiet.ite ?_ ?_) (Quiet.ite rfl ?_))
  · exact (Quiet.of_out rfl).trans (Quiet.rereadAtResumeEnds _ read)
  · exact (Quiet.of_out rfl).trans (Quiet.olderRereadEnds _ read)
  · split
    · exact (Quiet.of_out rfl).trans (Quiet.rereadAtAdvanceEnds _ read)
    · exact (Quiet.of_out rfl).trans (Quiet.rereadAtResumeEnds _ read)
    · rfl
    · rfl

/-! ### The Delivery Engine and the voices at an expiry -/

theorem Quiet.parkBuffer (s : State) (reason : BufferPark) (a : HostAddr) (used : Bool) : Quiet s (s.parkBuffer reason a used) :=
  Quiet.ite rfl rfl

theorem Quiet.fetchBuffer (s : State) (a : HostAddr) : Quiet s (s.fetchBuffer a) := by
  simp only [State.fetchBuffer]
  exact Quiet.ite rfl (Quiet.ite ((Quiet.of_out rfl).trans (Quiet.emit _ _ nofun))
    ((Quiet.of_out rfl).trans (Quiet.parkBuffer _ _ _ _)))

theorem Quiet.rereadBuffer (s : State) : Quiet s s.rereadBuffer := (Quiet.of_out rfl).trans (Quiet.emit _ _ nofun)

theorem Quiet.rereadAtBufferResume (s : State) : Quiet s s.rereadAtBufferResume :=
  (Quiet.of_out rfl).trans (Quiet.emit _ _ nofun)

theorem Quiet.endOfBuffers (s : State) : Quiet s s.endOfBuffers := by
  simp only [State.endOfBuffers]
  exact Quiet.ite ((Quiet.of_out rfl).trans (Quiet.rereadBuffer _)) (Quiet.parkBuffer s _ _ _)

theorem Quiet.advanceBuffer (s : State) (a : HostAddr) : Quiet s (s.advanceBuffer a) := by
  simp only [State.advanceBuffer]
  exact Quiet.ite ((Quiet.of_out rfl).trans (Quiet.endOfBuffers _)) ((Quiet.of_out rfl).trans (Quiet.fetchBuffer _ a))

theorem Quiet.writeBufferPointer (s : State) (a : HostAddr) : Quiet s (s.writeBufferPointer a) := by
  simp only [State.writeBufferPointer]
  exact Quiet.ite rfl (Quiet.ite rfl (Quiet.ite ((Quiet.of_out rfl).trans (Quiet.fetchBuffer _ a)) rfl))

theorem Quiet.resumeBuffer (s : State) : Quiet s s.resumeBuffer := by
  simp only [State.resumeBuffer]
  split
  · rfl
  · rfl
  · split
    · exact Quiet.rereadAtBufferResume s
    · exact Quiet.rereadAtBufferResume s
    · exact Quiet.fetchBuffer s _
    · exact Quiet.fetchBuffer s _
    · rfl

theorem Quiet.bufferArrives (s : State) (next buffer : HostAddr) (done : Bool) : Quiet s (s.bufferArrives next buffer done) := by
  simp only [State.bufferArrives]
  exact Quiet.ite rfl (Quiet.ite (Quiet.parkBuffer s _ _ _) (Quiet.ite rfl
    (Quiet.ite ((Quiet.of_out rfl).trans (Quiet.fetchBuffer _ _)) (Quiet.parkBuffer s _ _ _))))

theorem Quiet.bufferFetchFails (s : State) : Quiet s s.bufferFetchFails := Quiet.ite (Quiet.parkBuffer s _ _ _) rfl

theorem Quiet.rereadBufferEnds (s : State) (read : Option HostAddr) : Quiet s (s.rereadBufferEnds read) := by
  cases read
  · exact Quiet.parkBuffer s _ _ _
  · exact Quiet.ite (Quiet.endOfBuffers s) (Quiet.fetchBuffer s _)

theorem Quiet.bufferReread (s : State) (read : Option HostAddr) : Quiet s (s.bufferReread read) := by
  simp only [State.bufferReread]
  exact Quiet.ite (Quiet.ite rfl rfl) (Quiet.ite ((Quiet.of_out rfl).trans (Quiet.rereadBufferEnds _ read))
    (Quiet.ite ((Quiet.of_out rfl).trans (Quiet.rereadBufferEnds _ read)) rfl))

theorem Quiet.naturalEnd (s : State) (slot : Nat) : Quiet s (s.naturalEnd slot) :=
  Quiet.ite (Inner.endVoice _ s slot).isQuiet rfl

theorem Quiet.countDelivery (s : State) : Quiet s s.countDelivery := by
  simp only [State.countDelivery]
  exact Quiet.ite rfl rfl

theorem Quiet.writeDelivery (s : State) (x : DeliveryStatus) : Quiet s (s.writeDelivery x) := Quiet.emit s _ nofun

theorem Quiet.makeData (s : State) (slot : Nat) (l : Layout) (next buffer : HostAddr) :
    Quiet s (s.makeData slot l next buffer) := by
  simp only [State.makeData]
  refine Quiet.trans ?_ (Quiet.advanceBuffer _ _)
  refine Quiet.trans ?_ (Inner.settleVoice _ slot).isQuiet
  refine Quiet.trans ?_ (Quiet.naturalEnd _ slot)
  refine Quiet.trans (Quiet.trans (Quiet.trans ?_ (Quiet.of_out (State.setVoice_out _ _ _))) (Quiet.countDelivery _))
    (Quiet.ite rfl rfl)
  refine Quiet.trans (Quiet.trans (Quiet.emit s (.hostWrite _ _) nofun) (Quiet.writeDelivery _ (s.dataStatus slot _ l)))
    (Quiet.ite rfl rfl)

theorem Quiet.makeEnd (s : State) (slot : Nat) (next : HostAddr) : Quiet s (s.makeEnd slot next) := by
  simp only [State.makeEnd]
  refine Quiet.trans ?_ (Quiet.advanceBuffer _ _)
  refine Quiet.trans ?_ (Inner.settleFree _ slot).isQuiet
  refine Quiet.trans (Quiet.trans ?_ (Quiet.of_out (State.setVoice_out _ _ _))) (Quiet.countDelivery _)
  exact Quiet.writeDelivery s _

theorem Quiet.deliverData (s : State) : Quiet s s.deliverData := by
  simp only [State.deliverData]
  split
  · rfl
  · split
    · exact Quiet.makeData s _ _ _ _
    · rfl

theorem Quiet.deliverEnd (s : State) : Quiet s s.deliverEnd := by
  simp only [State.deliverEnd]
  split
  · exact Quiet.makeEnd s _ _
  · rfl

theorem Quiet.deliveryFails (s : State) : Quiet s s.deliveryFails := Quiet.ite (Quiet.parkBuffer s _ _ _) rfl

theorem Quiet.leadTest (s : State) (slot : Nat) : Quiet s (s.leadTest slot) := by
  simp only [State.leadTest]
  have a : Quiet s (s.starvedTest slot) := Quiet.ite rfl rfl
  exact a.trans (Quiet.ite rfl rfl)

theorem Quiet.advanceVoices (s : State) (tested : List Nat) (old new : Nat) : Quiet s (s.advanceVoices tested old new) := by
  simp only [State.advanceVoices]
  refine Quiet.trans ?_ (Inner.settleVoices _).isQuiet
  refine Quiet.trans ?_ (Quiet.foldl _ Quiet.naturalEnd _ _)
  exact Quiet.trans (Quiet.of_out rfl) (Quiet.foldl _ Quiet.leadTest _ _)

theorem Quiet.expiry (s : State) : Quiet s s.expiry := by
  simp only [State.expiry]
  have a : Quiet s ({ s with pace := s.pace.expire }.applyPending).completeHalt := by
    simp only [State.completeHalt, State.applyPending]
    split <;> split <;> rfl
  have b (t : State) : Quiet t t.noticeAge := by
    simp only [State.noticeAge]
    split
    · exact Quiet.ite rfl rfl
    · rfl
  exact (Quiet.ite (a.trans (Quiet.advanceVoices _ _ _ _)) a).trans (b _)

theorem Quiet.clockEdge (s : State) : Quiet s s.clockEdge := by
  simp only [State.clockEdge, State.countFrame]
  exact Quiet.ite (Quiet.ite ((Quiet.of_out rfl).trans (Quiet.expiry _)) rfl) rfl

theorem Quiet.clockLost (s : State) : Quiet s s.clockLost := Quiet.ite rfl rfl

/-! ### The fill arbiter -/

theorem Quiet.fetchEnqueue (s : State) : Quiet s s.fetchEnqueue := by
  simp only [State.fetchEnqueue]
  split
  · rfl
  · rename_i id a _
    have e : Quiet s (s.enqueueLoad id a) := by
      simp only [State.enqueueLoad]
      split <;> rfl
    simp only [State.enqueueForLoad]
    refine Quiet.ite (Quiet.ite ?_ ?_) (e.trans (Inner.arbitrate _ _).isQuiet)
    · exact e.trans ((Quiet.of_out rfl).trans ((Inner.arbitrate _ _).trans (Inner.settleLoad _ id)).isQuiet)
    · exact e.trans ((Quiet.of_out rfl).trans ((Inner.settleLoad _ id).trans (Inner.arbitrate _ _)).isQuiet)
  · rename_i slot a _
    have e : Quiet s (s.enqueueVoice slot a) := by
      simp only [State.enqueueVoice]
      split
      · rfl
      · exact Quiet.ite rfl rfl
    exact e.trans ((Inner.settleVoice _ slot).trans (Inner.arbitrate _ _)).isQuiet

/-! ### The takes -/

theorem Quiet.takeRetire (t : Token) (n : RecordName) (force : Byte) (s : State) : Quiet s (takeRetire t n force s) := by
  simp only [Machine.takeRetire]
  refine Quiet.ite rfl (Quiet.ite rfl (Quiet.ite rfl ?_))
  have a : Inner s (if byteSet force = true then s.endVoices .retired (s.slotsPlaying n.id.toNat n.generation) else s) :=
    Inner.ite (Inner.endVoices _ s _) (Inner.refl s)
  exact (a.trans ((Inner.ite (Inner.abandonLoad _ _ _) (Inner.refl _)).trans ((Inner.leaveRecency _ _).trans
    ((Inner.setRecord _ _ _).trans (Inner.settleRetiring _ _))))).isQuiet

theorem Quiet.acceptLoad (s : State) (t : Token) (id slot : Nat) (evicted : Option (Generation × Nat)) :
    Quiet s (s.acceptLoad t id slot evicted) := by
  simp only [State.acceptLoad]
  refine Quiet.trans (Quiet.trans (t := match evicted with | none => s | some (_, v) => s.unload v) ?_ (Quiet.of_out rfl))
    (Inner.settleLoad _ id).isQuiet
  split <;> rfl

theorem Quiet.takeLoadHead (t : Token) (n : RecordName) (s : State) : Quiet s (takeLoadHead t n s) := by
  simp only [Machine.takeLoadHead]
  refine Quiet.ite rfl (Quiet.ite rfl (Quiet.ite rfl (Quiet.ite rfl (Quiet.ite rfl (Quiet.ite rfl ?_)))))
  split
  · rfl
  · exact Quiet.acceptLoad s t _ _ _

theorem Quiet.takeUnloadHead (t : Token) (n : RecordName) (s : State) : Quiet s (takeUnloadHead t n s) := by
  simp only [Machine.takeUnloadHead]
  refine Quiet.ite rfl ?_
  split
  · rfl
  · exact Quiet.ite rfl rfl
  · exact ((Inner.abandonLoad s _ _).trans ((Inner.setRecord _ _ _).trans (Inner.complete _ _ _ _ _))).isQuiet
  all_goals rfl

theorem Quiet.acceptStart (s : State) (t : Token) (p : StartParams) (l : Layout) (slot w : Nat) :
    Quiet s (s.acceptStart t p l slot w) := by
  simp only [State.acceptStart]
  refine Quiet.trans ?_ ((Inner.settleVoice _ slot).trans (Inner.complete _ _ _ _ _)).isQuiet
  simp only [State.addReference]
  exact Quiet.ite rfl rfl

theorem Quiet.takeStart (t : Token) (p : StartParams) (s : State) : Quiet s (takeStart t p s) := by
  simp only [Machine.takeStart]
  refine Quiet.ite rfl (Quiet.ite rfl (Quiet.ite rfl (Quiet.ite rfl ?_)))
  split
  · rfl
  · refine Quiet.ite rfl ?_
    split
    · rfl
    · rfl
    · rfl
    · exact Quiet.acceptStart s t p _ _ _
    · exact ((Inner.endVoice .stolen s _).trans (Inner.count _ _)).isQuiet.trans (Quiet.acceptStart _ t p _ _ _)

theorem Quiet.takeRelease (t : Token) (n : VoiceName) (s : State) : Quiet s (takeRelease t n s) := by
  simp only [Machine.takeRelease]
  refine Quiet.ite rfl (Quiet.ite rfl ?_)
  split <;> rfl

theorem Quiet.takeStop (t : Token) (n : VoiceName) (s : State) : Quiet s (takeStop t n s) := by
  simp only [Machine.takeStop]
  exact Quiet.ite rfl (Quiet.ite rfl ((Inner.endVoice _ s _).trans (Inner.complete _ _ _ _ _)).isQuiet)

theorem Quiet.takeRetune (t : Token) (p : RetuneParams) (s : State) : Quiet s (takeRetune t p s) := by
  simp only [Machine.takeRetune]
  refine Quiet.ite rfl (Quiet.ite rfl (Quiet.trans ?_ (Inner.complete _ _ _ _ _).isQuiet))
  exact Quiet.ite ((Quiet.of_out rfl).trans (Inner.settleVoice _ _).isQuiet) rfl

theorem Quiet.takeSetPace (t : Token) (p : PaceParams) (s : State) : Quiet s (takeSetPace t p s) := by
  simp only [Machine.takeSetPace]
  split
  · rfl
  · exact Quiet.ite rfl (Quiet.ite rfl ((Quiet.of_out rfl).trans (Inner.settleVoices _).isQuiet))

theorem Quiet.takeStore (t : Token) (p : StoreParams) (s : State) : Quiet s (takeStore t p s) := by
  simp only [Machine.takeStore, State.acceptStore, State.arbitrateRange]
  refine Quiet.ite rfl (Quiet.ite rfl (Quiet.ite rfl (Quiet.ite rfl (Quiet.ite rfl ?_))))
  refine Quiet.trans ?_ (Quiet.foldl _ (fun u d => (Inner.arbitrate u d).isQuiet) _ _)
  exact Quiet.trans (Quiet.of_out rfl) (Quiet.foldl State.queueProgram (fun _ _ => rfl) _ _)

theorem Quiet.joinPolls (s : State) (d : Nat) (q : PollRequest) : Quiet s (s.joinPolls d q) :=
  (Quiet.of_out rfl).trans (Inner.arbitrate _ d).isQuiet

theorem Quiet.takeTuneEngine (t : Token) (p : TuneParams) (s : State) : Quiet s (takeTuneEngine t p s) := by
  simp only [Machine.takeTuneEngine]
  refine Quiet.ite rfl (Quiet.ite rfl (Quiet.trans ?_ (Inner.complete _ _ _ _ _).isQuiet))
  exact Quiet.ite ((Quiet.of_out rfl).trans (Inner.settleVoices _).isQuiet) (Quiet.of_out rfl)

/-- THE OWNER'S DECISION on a request of any kind. -/
theorem Quiet.takeBody (t : Token) (b : RequestBody) (s : State) : Quiet s (takeBody t b s) := by
  cases b
  · simp only [Machine.takeBody, takeDefine]
    split
    · rfl
    · exact Quiet.ite rfl (Quiet.ite rfl rfl)
  · exact Quiet.ite rfl rfl
  · exact Quiet.takeRetire t _ _ s
  · exact Quiet.takeLoadHead t _ s
  · exact Quiet.takeUnloadHead t _ s
  · simp only [Machine.takeBody, takeConfigureMemory]
    split
    · rfl
    · exact Quiet.ite rfl (Quiet.ite rfl rfl)
  · exact Quiet.takeStart t _ s
  · exact Quiet.takeRelease t _ s
  · exact Quiet.takeStop t _ s
  · exact Quiet.takeRetune t _ s
  · exact Quiet.ite rfl rfl
  · exact Quiet.ite rfl (Quiet.ite rfl rfl)
  · simp only [Machine.takeBody, takeLocate]
    exact Quiet.ite rfl (Quiet.ite rfl
      ((Quiet.of_out rfl).trans ((Inner.endVoices _ _ _).trans (Inner.complete _ _ _ _ _)).isQuiet))
  · exact Quiet.takeSetPace t _ s
  · exact Quiet.takeStore t _ s
  · exact Quiet.ite rfl (Quiet.ite rfl (Quiet.joinPolls s _ _))
  · exact Quiet.ite rfl (Quiet.ite rfl (Quiet.ite rfl (Quiet.joinPolls s _ _)))
  · exact Quiet.takeTuneEngine t _ s
  · rfl

theorem Quiet.takeRequest (s : State) (r : Request) : Quiet s (s.takeRequest r) := by
  simp only [State.takeRequest, State.writeStatuses]
  refine Quiet.trans
    (Quiet.trans (Quiet.of_out (t := s.beginTake r.header) rfl) (Quiet.takeBody (s.tokenFor r.header) r.body _)) ?_
  refine Quiet.trans (Quiet.ite (Quiet.flush _) ((Quiet.flush _).trans (Quiet.emit _ (.hostWrite _ _) nofun))) (Quiet.advanceRequests _ _)

theorem Quiet.requestArrives (s : State) (r : Request) : Quiet s (s.requestArrives r) :=
  Quiet.ite rfl (Quiet.ite rfl (Quiet.takeRequest s r))

/-! ### The resets -/

theorem Quiet.finishEngineReset (s : State) : Quiet s s.finishEngineReset := by
  simp only [State.finishEngineReset]
  refine Quiet.ite ?_ rfl
  have a : Quiet s s.clearPart.releaseBuffers := by
    simp only [State.releaseBuffers]
    exact Quiet.ite ((Quiet.of_out (t := s.clearPart) rfl).trans (Quiet.fetchBuffer _ _)) rfl
  refine a.trans ?_
  simp only [State.releaseRequests]
  refine Quiet.ite ?_ rfl
  split
  · exact Quiet.takeRequest _ _
  · exact Quiet.fetchRequest _ _
  · exact (Quiet.of_out rfl).trans (Quiet.emit _ _ nofun)
  · exact (Quiet.of_out rfl).trans (Quiet.emit _ _ nofun)
  · rfl

theorem Quiet.engineReset (s : State) : Quiet s s.engineReset :=
  Quiet.ite rfl ((Quiet.of_out rfl).trans (Quiet.finishEngineReset _))

/-- An event of the dies whose operation is inside an event. -/
theorem Quiet.dieEvent {s t : State} (h : Inner s t) : Quiet s t.finishEngineReset :=
  h.isQuiet.trans (Quiet.finishEngineReset t)

/-! ### The Register Window -/

theorem Quiet.panic (s : State) : Quiet s s.panic := Quiet.ite rfl (Inner.endVoices _ s _).isQuiet

theorem Quiet.readLower (s : State) (r : WideRegister) : Quiet s (s.readLower r) :=
  (Quiet.of_out rfl).trans (Quiet.emit _ _ nofun)

theorem Quiet.writeUpper (s : State) (r : WideRegister) (v : Word) : Quiet s (s.writeUpper r v) := Quiet.ite rfl rfl

end Sys2Proof.Machine
end

