-- ==== Sys2Proof/Laws/Stores.lean ====
section
/-! SUPPORT. What the end of a program does to its STORE, said once: the entry of the table changes, and leaves with nothing of
it queued or in flight (R135); a failure removes queued programs (R134). -/

namespace Sys2Proof.Machine

/-- The entry found at a place is the one entry there. -/
theorem State.storeAt_of {s : State} {x : StoreEntry} (h : x ∈ s.stores) (u : ∀ z ∈ s.stores, z.place = x.place → z = x) :
    s.storeAt x.place = some x := by
  unfold State.storeAt
  cases f : s.stores.find? fun z => z.place == x.place with
  | none => exact absurd (List.find?_eq_none.mp f x h) (by simp)
  | some z => rw [u z (List.mem_of_find?_eq_some f) (by simpa using List.find?_some f)]

/-- An entry changed in place is the one entry there. -/
theorem State.storeAt_updateStore {s : State} {x : StoreEntry} {f : StoreEntry → StoreEntry} (h : x ∈ s.stores)
    (u : ∀ z ∈ s.stores, z.place = x.place → z = x) (hf : (f x).place = x.place) :
    (s.updateStore x.place f).storeAt x.place = some (f x) := by
  have key := State.storeAt_of (s := s.updateStore x.place f) (x := f x)
    (List.mem_map.mpr ⟨x, h, if_pos rfl⟩) (fun z hz hp => by
      obtain ⟨w, hw, e⟩ := List.mem_map.mp hz
      by_cases k : w.place = x.place
      · rw [if_pos k, u w hw k] at e
        exact e.symm
      · rw [if_neg k] at e
        exact absurd (e ▸ hp.trans hf) k)
  rwa [hf] at key

/-- A STORE's completion is written as its DONE status. -/
theorem StoreEntry.complete_completions (y : StoreEntry) (s : State) :
    ∃ c : Completion, (y.complete s).completions = c :: s.completions ∧ c.token = y.token ∧
      doneBytes c.result c.word0 c.word1 = y.doneStatus ∧ y.complete s = { s with completions := c :: s.completions } := by
  unfold StoreEntry.complete StoreEntry.doneStatus
  cases y.failure <;> exact ⟨_, rfl, rfl, rfl, rfl⟩

/-- A STORE whose entry has changed is judged (R135): the table afterwards, and the completion of one that leaves it. -/
theorem State.judgeStore_updateStore {s : State} {x : StoreEntry} {f : StoreEntry → StoreEntry} (h : x ∈ s.stores)
    (u : ∀ z ∈ s.stores, z.place = x.place → z = x) (hf : (f x).place = x.place) :
    let t := (s.updateStore x.place f).judgeStore x.place
    t = { s with stores := s.storesAfter x (f x), completions := t.completions } ∧
      (∀ c ∈ s.completions, c ∈ t.completions) ∧
      ((f x).queued = 0 → (f x).inFlight = 0 → ∃ c ∈ t.completions, c.token = (f x).token ∧
        doneBytes c.result c.word0 c.word1 = (f x).doneStatus) := by
  have changed : (s.updateStore x.place f).stores = s.stores.map fun z => if z.place = x.place then f x else z := by
    refine List.map_congr_left fun z hz => ?_
    by_cases k : z.place = x.place
    · rw [if_pos k, if_pos k, u z hz k]
    · rw [if_neg k, if_neg k]
  have left : ((s.updateStore x.place f).stores.filter fun z => z.place != x.place) =
      s.stores.filter fun z => z.place != x.place := by
    rw [changed]
    generalize s.stores = l
    induction l with
    | nil => rfl
    | cons z l ih =>
      by_cases k : z.place = x.place
      · simp [k, hf, ih]
      · simp [k, ih]
  unfold State.judgeStore
  rw [State.storeAt_updateStore h u hf]
  dsimp only
  by_cases done : (f x).queued = 0 ∧ (f x).inFlight = 0
  · rw [if_pos done, left]
    obtain ⟨c, e, k1, k2, k3⟩ := (f x).complete_completions
      { s.updateStore x.place f with stores := s.stores.filter fun z => z.place != x.place }
    refine ⟨?_, fun a ha => ?_, fun _ _ => ⟨c, by rw [e]; exact List.mem_cons_self, k1, k2⟩⟩
    · rw [k3]
      unfold State.storesAfter
      rw [if_pos done]
      rfl
    · rw [e]
      exact List.mem_cons_of_mem _ ha
  · rw [if_neg done]
    refine ⟨?_, fun a ha => ha, fun a b => absurd ⟨a, b⟩ done⟩
    unfold State.storesAfter
    rw [if_neg done, ← changed]
    rfl

/-- The queued programs of a STORE leave every die. -/
theorem State.die_dropPrograms {s : State} (h : Table.wf Die.blank s.dies = true) (place d : Nat) :
    (s.dropPrograms place).die d = { s.die d with programs := (s.die d).programs.filter fun p => p.place != place } := by
  unfold State.dropPrograms State.die
  exact Table.get_update Die.blank (fun _ x => { x with programs := x.programs.filter fun p => p.place != place }) s.dies d
    ((Table.wf_iff _ _).mp h).1 rfl

/-- A program's failure reaches its STORE (R134): the entry is as `StoreEntry.afterFailure` says, and at a first failure nothing of
the STORE stays queued. -/
theorem State.programFails_eq {s : State} {x : StoreEntry} {p : ProgramEntry} (h : x ∈ s.stores)
    (u : ∀ z ∈ s.stores, z.place = x.place → z = x) (hp : x.place = p.place) :
    s.programFails p = (if x.failure.isSome then s else s.dropPrograms x.place).updateStore x.place
      fun _ => x.afterFailure p.address := by
  have found := State.storeAt_updateStore (f := fun y => { y with inFlight := y.inFlight - 1 }) h u rfl
  have twice : ∀ g : StoreEntry → StoreEntry, (∀ z, (g z).place = z.place) → ∀ k : StoreEntry → StoreEntry, ∀ z ∈ s.stores,
      (if (if z.place = x.place then g z else z).place = x.place then k (if z.place = x.place then g z else z)
        else (if z.place = x.place then g z else z)) = if z.place = x.place then k (g x) else z := by
    intro g hg k z hz
    by_cases e : z.place = x.place
    · rw [if_pos e, if_pos ((hg z).trans e), if_pos e, u z hz e]
    · rw [if_neg e, if_neg e, if_neg e]
  unfold State.programFails State.failStore StoreEntry.afterFailure
  rw [← hp, found]
  dsimp only
  cases hf : x.failure with
  | some b =>
    simp only [Option.isSome_some, if_true]
    unfold State.updateStore
    congr 1
    refine List.map_congr_left fun z hz => ?_
    by_cases e : z.place = x.place
    · rw [if_pos e, if_pos e, u z hz e]
      simp only [hf]
    · rw [if_neg e, if_neg e]
  | none =>
    simp only [Option.isSome_none, Bool.false_eq_true, if_false]
    unfold State.updateStore State.dropPrograms
    dsimp only
    congr 1
    rw [List.map_map]
    exact List.map_congr_left fun z hz => twice (fun y => { y with inFlight := y.inFlight - 1 }) (fun _ => rfl)
      (fun y => { y with failure := some p.address, queued := 0 }) z hz

end Sys2Proof.Machine
end

