-- ==== Sys2Proof/Tests/Slice0.lean ====
section
/-! SUPPORT. The model's own tests: the check refuses ill-formed commands, the layouts of 11_formats.md read as they stand, single
steps do what their rules say, and for every obligation with hypotheses a state and operands that meet them. -/

namespace Sys2Proof.Tests

open Sys2Proof Sys2Proof.Machine

set_option Elab.async false

/-! ### The check on commands -/

/-- A request's header with nothing behind it. -/
def last : Header := { next := 0#64, tag := 77#32, flags := 1#16 }

/-- A header with an aligned next pointer. -/
def going : Header := { next := 0x2000#64, tag := 77#32, flags := 0#16 }

/-- DEFINE of record 7: one extent of two blocks, M16, 4,096 frames, one head block. -/
def defineP : DefineParams :=
  { id := 7#16, format := 0#8, extentCount := 1#8, spanCount := 0#8, options := 0#8, headBlocks := 1#16
    length := 4096#32, loopStart := 0#32, loopEnd := 0#32, expectedCrc := 0#32
    extents := ⟨0#32, 2#16⟩ :: List.replicate 14 ⟨0#32, 0#16⟩, spans := List.replicate 8 ⟨0#16, 0#16⟩ }

theorem test_wellFormed_define : (Instr.define last defineP).wellFormed = true := by decide

theorem test_illFormed_extents : (Instr.define last { defineP with extents := [] }).wellFormed = false := by decide

theorem test_illFormed_spans : (Instr.define last { defineP with spans := [] }).wellFormed = false := by decide

theorem test_illFormed_badKind : (Instr.badKind last 0x10#16).wellFormed = false := by decide

theorem test_wellFormed_badKind : (Instr.badKind last 0x07#16).wellFormed = true := by decide

theorem test_illFormed_held : (Instr.requestFetchHeld ⟨last, .badKind 0x40#16⟩).wellFormed = false := by decide

theorem test_illFormed_registerWrite_misaligned : (Instr.registerWrite 0x009#12 0#32).wellFormed = false := by decide

theorem test_illFormed_registerWrite_ownRow : (Instr.registerWrite 0x004#12 1#32).wellFormed = false := by decide

theorem test_wellFormed_registerWrite : (Instr.registerWrite 0x004#12 3#32).wellFormed = true := by decide

theorem test_illFormed_transferEnd :
    (Instr.dieTransferEnd 0 [] [0#8, 0#8, 0#8, 0#8]).wellFormed = false ∧
      (Instr.dieTransferEnd 0 (.replicate 4096 0#8) []).wellFormed = false := by decide +kernel

theorem test_illFormed_programData : (Instr.programDataPhaseEnd 0 [0#8]).wellFormed = false := by decide

/-! ### The layouts of 11_formats.md -/

/-- A descriptor that holds the given bytes at the given offsets, 0 elsewhere. -/
def descriptor (bytes : List (Nat × Byte)) : List Byte := (List.range 256).map fun n => Table.get 0#8 bytes n

/-- 11.3: kind at 0x0C, tag at 0x08, flags at 0x0E; RUN is 0x20. -/
theorem test_decode_run : decodeDescriptor (descriptor [(0x09, 0x12#8), (0x0C, 0x20#8), (0x0E, 0x01#8)]) =
    some ⟨{ next := 0#64, tag := 0x1200#32, flags := 1#16 }, .run⟩ := by decide +kernel

/-- 11.3: LOAD_HEAD is 0x04, its record id at 0x10 and generation at 0x12, little-endian. -/
theorem test_decode_loadHead :
    decodeDescriptor (descriptor [(0x01, 0x40#8), (0x0C, 0x04#8), (0x10, 0x34#8), (0x11, 0x12#8), (0x12, 0x05#8)]) =
      some ⟨{ next := 0x4000#64, tag := 0#32, flags := 0#16 }, .loadHead ⟨0x1234#16, 5#16⟩⟩ := by decide +kernel

/-- 11.4: the done flag is bit 0 of byte 0x10. -/
theorem test_decode_buffer :
    decodeBufferDescriptor ([0x40#8] ++ List.replicate 8 0#8 ++ [0x10#8] ++ List.replicate 6 0#8 ++ [1#8] ++ List.replicate 7 0#8) =
      some (.bufferFetchArrival 0x40#64 0x1000#64 true) := by decide +kernel

/-- 11.1: offsets of the register map. -/
theorem test_decode_registers :
    decodeRegisterWrite 0x004#12 2#32 = .engineReset ∧ decodeRegisterWrite 0x004#12 1#32 = .panic ∧
      decodeRegisterWrite 0x040#12 9#32 = .interruptStatusWrite 9#32 ∧
      decodeRegisterWrite 0x080#12 0x0000059A#32 = .inspectCapture 2#3 5#24 true ∧
      decodeRegisterWrite 0x000#12 5#32 = .registerWrite 0x000#12 5#32 := by decide +kernel

/-- The CRC of the nine digits (R40's worked value of the algorithm). -/
theorem test_crc32 :
    crc32 [0x31#8, 0x32#8, 0x33#8, 0x34#8, 0x35#8, 0x36#8, 0x37#8, 0x38#8, 0x39#8] = 0xCBF43926#32 := by decide +kernel

/-- R123, R133: the CRC follows the data, least significant byte first, out to a die and back from it. -/
theorem test_crcBytes :
    withBlockCrc [0x31#8, 0x32#8] = [0x31#8, 0x32#8, 0xCD#8, 0x44#8, 0x53#8, 0x4F#8] ∧
      transferCrc [0xCD#8, 0x44#8, 0x53#8, 0x4F#8] = 0x4F5344CD#32 := by decide +kernel

/-- An offset that holds no register, and one that is no word's, beside a read hold that is not 0 (log 48). -/
theorem test_no_register :
    let s := State.reset.setReadHold (.inspectData 0) 5#32
    s.readRegister 0x00C#12 = 0#32 ∧ s.readRegister 0x104#12 = 5#32 ∧ s.readRegister 0x101#12 = 0#32 ∧
      s.readRegister 0x105#12 = 0#32 ∧ decodeRegisterWrite 0x024#12 5#32 = .registerWrite 0x024#12 5#32 := by
  decide +kernel

/-! ### States -/

/-- A state whose Request Processor reads a descriptor at 0x1000. -/
def taking (s : State) : State :=
  { s with requests := { RequestProcessor.blank with state := .fetching, address := 0x1000#64, read := .descriptor } }

theorem taking_reads {s : State} (h : s.registers.engine = .ready) (c : s.completions = []) : (taking s).Taking :=
  ⟨rfl, rfl, rfl, h, c⟩

/-- The part at power-on, reading a descriptor. -/
def fresh : State := taking State.reset

/-- Record 7's layout as `defineP` gives it. -/
def layout7 : Layout :=
  { format := .m16, length := 4096, extents := [⟨0, 2⟩], headBlocks := 1, loop := none, signature := none }

/-- Record 7 as `defineP` leaves it. -/
def record7 : Record := Record.defined 1#16 layout7 false

/-- The name of record 7. -/
def name7 : RecordName := ⟨7#16, 1#16⟩

/-- The token of a request taken before. -/
def token : Token := { address := 0x5000#64, tag := 5#32, notify := true, order := 0 }

/-- A load of record 7 into slot 0. -/
def load7 : Load := { slot := 0, nextBlock := 1, arrived := [], evicted := none, token := token }

/-- The part with one record. -/
def withRecord (r : Record) : State := taking { State.reset with catalog := [(7, r)], takes := 1 }

/-- A voice that plays record 7 in slot 0 with window 0. -/
def voice0 : Voice :=
  { Voice.blank with state := .playing, generation := 1#16, sampleId := 7, sampleGeneration := 1#16, rate := 65536 }

/-- The part with one record and one voice. -/
def withVoice (r : Record) (v : Voice) : State := { withRecord r with voices := [(0, v)] }

/-- The name of the voice in slot 0. -/
def nameVoice0 : VoiceName := ⟨0#16, 1#16⟩

/-- START of record 7. -/
def startP : StartParams :=
  { sample := name7, offset := 0#32, position := 0#64, rate := 65536#32, priority := 3#8, leadClass := 0#8, loopFollow := 0#8
    cookie := 9#32 }

/-- A state with no listed window is canonical when its tables are. -/
theorem canonical_of {s : State} (d : Memory.wf s.dram = true) (c : Table.wf Record.blank s.catalog = true)
    (v : Table.wf Voice.blank s.voices = true) (w : Table.wf Window.blank s.windows = true)
    (p : (s.windows.all fun e => Table.wf Place.empty e.2.places) = true) (x : Table.wf Die.blank s.dies = true) :
    s.Canonical := by
  refine ⟨d, c, v, w, fun n => ?_, x⟩
  rcases Table.get_mem Window.blank s.windows n with h | h
  · exact List.all_eq_true.mp p _ h
  · unfold State.window
    rw [h]
    exact Window.canonical_blank

/-! ### Single steps -/

/-- The next state of an outcome, the state itself where it stops. -/
def after (s : State) : Host.Outcome State Fault Refusal → State
  | .next t => t
  | .fault _ => s
  | .refused _ => s

theorem test_define : (after fresh (exec (.define last defineP) fresh)).record 7 = record7 := by decide +kernel

theorem test_run : (after fresh (exec (.run last) fresh)).pace.running = true := by decide +kernel

theorem test_run_parks : (after fresh (exec (.run last) fresh)).requests.state = .parked := by decide +kernel

theorem test_run_tag : (after fresh (exec (.run last) fresh)).requests.lastTag = 77#32 := by decide +kernel

theorem test_start : ((after (withRecord record7) (exec (.start last startP) (withRecord record7))).voice 0).state = .priming := by
  decide +kernel

theorem test_start_reference :
    ((after (withRecord record7) (exec (.start last startP) (withRecord record7))).record 7).refs = 1 := by decide +kernel

theorem test_stop : ((after (withVoice record7 voice0) (exec (.stop last nameVoice0) (withVoice record7 voice0))).voice 0).endReason =
    some .stopped := by decide +kernel

theorem test_loadHead :
    ((after (withRecord record7) (exec (.loadHead last name7) (withRecord record7))).record 7).headSlot = some 0 := by
  decide +kernel

theorem test_mask_sends : (after State.reset (exec (.interruptMaskWrite 1#32)
    { State.reset with registers := { RegisterWindow.blank with msiEnable := true, msiVector := 3#32, status := 1#10 } })).out =
      [.message 3#32] := by decide +kernel

theorem test_step_takes_front : step { fresh with pending := [.run last, .panic] } = exec (.run last) { fresh with pending := [.panic] } :=
  rfl

theorem test_idle_counts : (after State.reset (step State.reset)).pace.frame = 1 := by decide +kernel

/-! ### Every hypothesis is met: one witness for each clause of each obligation -/

theorem withRecord_taking (r : Record) : (withRecord r).Taking := taking_reads rfl rfl

theorem withVoice_taking (r : Record) (v : Voice) : (withVoice r v).Taking := ⟨rfl, rfl, rfl, rfl, rfl⟩

theorem withVoice_canonical : (withVoice { record7 with refs := 1 } voice0).Canonical :=
  canonical_of rfl (by decide +kernel) (by decide +kernel) rfl rfl rfl

/-- What holds of the blank voice and of every listed voice holds of every voice. -/
theorem every_voice {s : State} {p : Voice → Bool} (b : p Voice.blank = true) (a : (s.voices.all fun e => p e.2) = true)
    (m : Nat) : p (s.voice m) = true := by
  rcases Table.get_mem Voice.blank s.voices m with h | h
  · exact List.all_eq_true.mp a _ h
  · unfold State.voice
    rw [h]
    exact b

/-- Where slot 0 alone is listed, no window is held twice. -/
theorem alone {s : State} {v : Voice} (h : s.voices = [(0, v)]) : s.WindowsHeldOnce := by
  have first : ∀ k, (s.voice k).state ≠ .free → k = 0 := by
    intro k hk
    by_cases e : 0 = k
    · exact e.symm
    · exact absurd (by simp [State.voice, h, Table.get, e, Voice.blank]) hk
  intro m n hmn hm hn
  exact absurd ((first m hm).trans (first n hn).symm) hmn

/-- What holds of the blank record and of every listed record holds of every record. -/
theorem every_record {s : State} {p : Record → Bool} (b : p Record.blank = true) (a : (s.catalog.all fun e => p e.2) = true)
    (id : Nat) : p (s.record id) = true := by
  rcases Table.get_mem Record.blank s.catalog id with h | h
  · exact List.all_eq_true.mp a _ h
  · unfold State.record
    rw [h]
    exact b

/-- No listed record is VACANT with a head slot. -/
theorem bareVacants {s : State} (a : (s.catalog.all fun e => e.2.state != .vacant || e.2.headSlot == none) = true) :
    s.VacantHoldsNoSlot := by
  intro id h
  have := every_record (p := fun r => r.state != .vacant || r.headSlot == none) rfl a id
  simpa [h] using this

theorem reset_polls (d : Nat) : (State.reset.die d).polls.length ≤ Config.pollLimit := by
  show 0 ≤ 4
  decide

theorem witness_FrontCommandRuns : { fresh with pending := [.panic] }.pending = [Instr.panic] := rfl

/-- For CanonicalKept, LimitsKept, PaceSoundKept, VoicesAdmittedKept and WindowsHeldOnceKept. -/
theorem witness_invariants :
    let s := withVoice { record7 with refs := 1 } voice0
    s.Canonical ∧ s.WithinLimits ∧ s.PaceSound ∧ s.VoicesAdmitted ∧ s.WindowsHeldOnce ∧ s.VacantHoldsNoSlot ∧
      ∃ t, step s = .next t := by
  refine ⟨withVoice_canonical, ⟨by decide +kernel, by decide +kernel, fun d => reset_polls d⟩,
    ⟨fun h => by (cases h), fun _ => ⟨rfl, rfl⟩⟩, ?_, alone rfl, bareVacants (by decide +kernel), ⟨_, rfl⟩⟩
  show (withVoice { record7 with refs := 1 } voice0).soundingCount ≤ 960
  decide +kernel

theorem witness_PowerOnCatalog :
    fresh.Taking ∧ fresh.record 7 = (after fresh (exec .powerOn fresh)).record 7 ∧
      layoutOf defineP fresh.partition.slotBlocks = some layout7 ∧ fresh.storeClaims layout7.extents = false :=
  ⟨taking_reads rfl rfl, by decide +kernel⟩

theorem witness_PowerOnVoices :
    fresh.startCount = (after fresh (exec .powerOn fresh)).startCount ∧
      (fresh.voice 0).generation = ((after fresh (exec .powerOn fresh)).voice 0).generation := by decide +kernel

theorem witness_LinkResetBlocks : (withVoice { record7 with refs := 1 } voice0).Canonical := withVoice_canonical

/-- The fetch entry of voice 0 for block 0, into place 0 of window 0. -/
def entry0 : FetchEntry :=
  { owner := .voice 0 1#16, address := 0, destination := .place 0 0, deadline := 4, stamp := 0 }

/-- The fetch entry of record 7's load for head block 0. -/
def entryLoad : FetchEntry :=
  { owner := .load 7 1#16, address := 0, destination := .headBlock 0 0, deadline := 64, stamp := 0 }

/-- An operation of a die. -/
def operation (w : Work) : Operation := { work := w, attempt := 1, discard := false, pollInterval := 4, timeout := 20 }

/-- Die 0 with an operation in a phase. -/
def dieWith (w : Work) (x : DieState) : Die := { Die.blank with state := x, operation := some (operation w) }

/-- The part with a die 0. -/
def withDie (s : State) (x : Die) : State := { s with dies := [(0, x)] }

/-- The run of place 0. -/
def run0 : Run := { block := 0, source := 0, frames := 2048, stream := 0, damaged := false }

/-- The part with record 7, voice 0 and its window, place 0 awaiting block 0. -/
def awaiting : State :=
  { withVoice { record7 with refs := 1 } { voice0 with reads := 1 } with
    windows := [(0, { Window.blank with places := [(0, .awaited run0)], fill := 1 })] }

/-- An engine reset in progress. -/
def inReset (s : State) : State := { s with registers := { s.registers with engine := .resetting } }

theorem reset_canonical : State.reset.Canonical := canonical_of rfl rfl rfl rfl rfl rfl

theorem witness_EngineResetBegins :
    (withDie State.reset (dieWith (.read entry0) .addressing)).Canonical ∧
      (withDie State.reset (dieWith (.read entry0) .addressing)).registers.engine = .ready ∧
      (withDie State.reset (dieWith (.read entry0) .addressing)).noOperation = false ∧
      (withDie State.reset (dieWith (.read entry0) .addressing)).completions = [] ∧
      (inReset State.reset).registers.engine = .resetting ∧ (inReset State.reset).completions = [] :=
  ⟨canonical_of rfl rfl rfl rfl rfl (by decide +kernel), rfl, by decide +kernel, rfl, rfl, rfl⟩

/-- A Request Processor that holds a descriptor in an engine reset. -/
def holding : RequestProcessor :=
  { RequestProcessor.blank with state := .fetching, waiting := true, address := 0x1000#64, held := some ⟨last, .run⟩ }

/-- A Request Processor whose descriptor read waits in an engine reset. -/
def waitingRead : RequestProcessor :=
  { RequestProcessor.blank with state := .fetching, waiting := true, address := 0x1000#64, read := .descriptor }

/-- A Delivery Engine whose fetch waits in an engine reset. -/
def waitingFetch : DeliveryEngine :=
  { DeliveryEngine.blank with state := .active, address := 0x40#64, read := .descriptor, waiting := true }

theorem witness_EngineResetClears :
    (State.reset.Canonical ∧ State.reset.noOperation = true ∧ State.reset.requests.waiting = false ∧
      State.reset.delivery.waiting = false ∧ State.reset.registers.engine = .ready) ∧
    ((inReset State.reset).Canonical ∧ (inReset State.reset).noOperation = true ∧
      (inReset State.reset).registers.engine = .resetting) ∧
    { inReset State.reset with requests := holding }.Canonical ∧
    { inReset State.reset with requests := waitingRead }.Canonical ∧ requestAligned waitingRead.address = true ∧
    { inReset State.reset with delivery := waitingFetch }.Canonical ∧ bufferAligned waitingFetch.address = true :=
  ⟨⟨reset_canonical, rfl, rfl, rfl, rfl⟩, ⟨canonical_of rfl rfl rfl rfl rfl rfl, rfl, rfl⟩,
    canonical_of rfl rfl rfl rfl rfl rfl, canonical_of rfl rfl rfl rfl rfl rfl, by decide +kernel,
    canonical_of rfl rfl rfl rfl rfl rfl, by decide +kernel⟩

/-- An operation whose discard mark is set. -/
def marked (w : Work) : Operation := { operation w with discard := true }

/-- An engine reset whose last marked operation runs on die 0. -/
def lastMarked (x : DieState) : State :=
  inReset (withDie State.reset { Die.blank with state := x, operation := some (marked (.read entry0)) })

/-- The last two clauses on held and waiting requests, and the die event that ends the last marked operation. -/
theorem witness_EngineResetClears_dieEvent :
    ({ inReset State.reset with requests := { holding with held := some ⟨last, .halt⟩ } }.Canonical ∧
      { inReset State.reset with requests := { waitingRead with read := .nextAtResume } }.Canonical) ∧
    (lastMarked .transferring).Canonical ∧ (lastMarked .transferring).requests.waiting = false ∧
    ((lastMarked .transferring).die 0).operation = some (marked (.read entry0)) ∧
    (∀ x, x ≠ 0 → ((lastMarked .transferring).die x).operation = none) ∧
    endsWork (lastMarked .transferring) 0 (marked (.read entry0)) .ready (.dieTransferEnd 0 [] []) ∧
    endsWork (lastMarked .addressing) 0 (marked (.read entry0)) .offline (.readTimeout 0) := by
  refine ⟨⟨canonical_of rfl rfl rfl rfl rfl rfl, canonical_of rfl rfl rfl rfl rfl rfl⟩,
    canonical_of rfl rfl rfl rfl rfl (by decide +kernel), rfl, by decide +kernel, fun x h => ?_,
    .inr (.inl ⟨rfl, ⟨_, _, rfl⟩, rfl⟩), .inr (.inr ⟨rfl, rfl⟩)⟩
  simp [State.die, lastMarked, inReset, withDie, Table.get, Ne.symm h, Die.blank]

/-- For FlagsCountersMessages, RegisterAccesses, FramesAndClock's and the lists' first premise. -/
theorem witness_settled : State.reset.completions = [] := rfl

theorem witness_InspectPort :
    State.reset.completions = [] ∧ (65535#24).toNat < inspectRange 0#3 ∧ inspectRange 1#3 ≤ (1024#24).toNat ∧
      inspectRange 4#3 ≤ (0#24).toNat ∧ (65535#24).toNat < 65536 ∧ (1023#24).toNat < 1024 ∧ (15#24).toNat < 16 ∧
      (3#24).toNat = (3 : Fin 4).val ∧ layout7.extents[0]? = some ⟨0, 2⟩ ∧ layout7.extents.length ≤ 14 ∧
      Die.blank.operation = none ∧ entryLoad.owner = .load 7 1#16 ∧ entry0.owner = .voice 0 1#16 := by
  decide +kernel

theorem witness_PanicEndsVoices :
    (withVoice { record7 with refs := 1 } voice0).Canonical ∧
      (withVoice { record7 with refs := 1 } voice0).registers.engine = .ready ∧
      ((withVoice { record7 with refs := 1 } voice0).voice 0).sounding = true ∧
      ((withVoice { record7 with refs := 1 } voice0).voice 1).sounding = false ∧
      (inReset State.reset).registers.engine = .resetting :=
  ⟨withVoice_canonical, rfl, by decide +kernel, by decide +kernel, rfl⟩

theorem witness_ListPointerWrites :
    fresh.requests.state = .fetching ∧ State.reset.requests.state ≠ .fetching ∧
      State.reset.writeHold .requestListPointer ++ 0#32 = 0#64 ∧
      requestAligned (State.reset.writeHold .requestListPointer ++ 0x80#32) = false ∧
      requestAligned (State.reset.writeHold .requestListPointer ++ 0x100#32) = true ∧
      waitingFetch.state = .active ∧ State.reset.delivery.state ≠ .active ∧
      bufferAligned (State.reset.writeHold .bufferListPointer ++ 0x20#32) = false ∧
      bufferAligned (State.reset.writeHold .bufferListPointer ++ 0x40#32) = true := by decide +kernel

/-- A parked Request Processor. -/
def parked (r : RequestPark) (taken : Bool) : State :=
  { State.reset with requests := { RequestProcessor.blank with
      state := .parked, address := 0x1000#64, parkReason := some r, takenMark := taken } }

/-- A Request Processor that reads a next pointer again. -/
def rereading (x : RequestRead) : State :=
  { State.reset with requests := { RequestProcessor.blank with state := .fetching, address := 0x1000#64, read := x } }

theorem witness_RequestResumes :
    State.reset.requests.state = .idle ∧ fresh.requests.state = .fetching ∧
      (parked .endOfList false).requests.parkReason = some .endOfList ∧ (parked .endOfList false).resetting = false ∧
      (parked .linkError true).requests.takenMark = true ∧ (parked .linkError false).requests.takenMark = false ∧
      requestAligned (parked .linkError false).requests.address = true ∧
      (rereading .nextAtAdvance).requests.read = .nextAtAdvance ∧ (rereading .nextAtResume).requests.read = .nextAtResume ∧
      { (parked .endOfList false).requests with rereads := 1 }.state = .parked ∧
      (rereading .nextAtAdvance).requests.resumePending = false ∧ (rereading .nextAtAdvance).requests.waiting = false ∧
      (rereading .nextAtResume).resetting = false ∧ (inReset (parked .endOfList false)).resetting = true ∧
      { (rereading .descriptor).requests with lateRereads := 1 }.lateRereads = 1 ∧
      { (rereading .nextAtResume).requests with rereads := 1 }.state = .fetching ∧
      { (parked .endOfList false).requests with rereads := 1, resumePending := true }.read = .none ∧
      requestAligned 0x100#64 = true := by decide +kernel

/-- A pointer write over an idle list leaves no read behind; one over a re-read in flight leaves it to end late. -/
theorem witness_ListPointerWrites_leaves :
    State.reset.requests.read = .none ∧ requestAligned 0x100#64 = true ∧
      (after State.reset (exec (.requestListPointer 0x100#32)
        { parked .endOfList false with requests := { (parked .endOfList false).requests with rereads := 1 } })).requests.lateRereads =
          1 := by decide +kernel

/-- A resume's read begun before an engine reset ends 0 while a further resume waits: the wait goes on. -/
theorem test_older_reread_zero :
    let q := { (rereading .nextAtResume).requests with waiting := true, rereads := 1 }
    (after State.reset (exec (.requestNextRereadEnd (some 0#64)) { inReset State.reset with requests := q })).requests =
      { q with rereads := 0 } := by decide +kernel

theorem witness_RequestReadsAndWritesEnd :
    fresh.requests.state = .fetching ∧ fresh.requests.read = .descriptor ∧ fresh.requests.waiting = false ∧
      fresh.completions = [] ∧ (inReset fresh).resetting = true := by decide +kernel

theorem witness_EventFrames :
    State.reset.completions = [] ∧ State.reset.registers.engine = .ready ∧
      ∃ t u v, exec .requestResume State.reset = .next t ∧ exec .bufferResume State.reset = .next u ∧
        exec .fetchEnqueue State.reset = .next v :=
  ⟨rfl, rfl, _, _, _, rfl, rfl, rfl⟩

/-- A STORE in flight over blocks 0 to 15. -/
def store0 : StoreEntry :=
  { place := 0, token := token, first := 0, count := 16, host := 0x10000#64, programmed := 0, queued := 0, inFlight := 1
    failure := none }

theorem witness_DefineTaken :
    fresh.Taking ∧ layoutOf defineP fresh.partition.slotBlocks = some layout7 ∧ (fresh.record 7).state = .vacant ∧
      fresh.storeClaims layout7.extents = false ∧ layoutOf { defineP with headBlocks := 3#16 } 32 = none ∧
      ((withRecord record7).record 7).state ≠ .vacant ∧
      { fresh with stores := [{ store0 with first := 1 }] }.storeClaims layout7.extents = true :=
  ⟨taking_reads rfl rfl, by decide +kernel⟩

theorem witness_SetPinTaken :
    (withRecord record7).Taking ∧ (withRecord record7).names name7 = true ∧ fresh.names name7 = false :=
  ⟨withRecord_taking _, by decide +kernel⟩

theorem witness_RetireTaken :
    (withRecord record7).names name7 = true ∧ (withRecord { record7 with state := .retiring }).names name7 = true ∧
      fresh.names name7 = false ∧ ((withRecord record7).record 7).refs = 0 ∧
      0 < ((withVoice { record7 with refs := 1 } voice0).record 7).refs ∧
      (withVoice { record7 with refs := 1 } voice0).names name7 = true ∧ byteSet 0#8 = false := by decide +kernel

/-- Record 7 LOADING, with a waiting head-mode voice and one that streams. -/
def loadingVoices : State :=
  { withRecord { record7 with state := .loading, headSlot := some 0, load := some load7, loadReads := 1, refs := 2 } with
    voices := [(0, { voice0 with state := .priming, headMode := true }), (1, { voice0 with window := 1 })] }

theorem loadingVoices_canonical : loadingVoices.Canonical :=
  canonical_of rfl (by decide +kernel) (by decide +kernel) rfl rfl rfl

/-- RETIRE with force, no voice left; RETIRE of a LOADING record, a voice and a read left. -/
theorem witness_RetireTaken_ends :
    loadingVoices.Taking ∧
      (byteSet 1#8 = true ∧
        (withVoice { record7 with refs := 1 } voice0).slotsPlaying name7.id.toNat name7.generation = [0]) ∧
      (loadingVoices.names name7 = true ∧ (loadingVoices.record 7).state = .loading ∧
        (loadingVoices.record 7).load = some load7 ∧ load7.token.order < loadingVoices.takes ∧
        loadingVoices.headSlotsPlaying name7.id.toNat name7.generation = [0] ∧
        loadingVoices.slotsPlaying name7.id.toNat name7.generation = [0, 1] ∧ (loadingVoices.record 7).loadReads = 1) :=
  ⟨⟨rfl, rfl, rfl, rfl, rfl⟩, by decide +kernel⟩

/-- Record 7 RESIDENT in slot 0. -/
def resident7 : Record := { record7 with state := .resident, headSlot := some 0 }

/-- Record 7 LOADING in slot 0. -/
def loading7 : Record := { record7 with state := .loading, headSlot := some 0, load := some load7, loadReads := 1 }

/-- One head slot in all, held by record 8. -/
def oneSlot (pin : Bool) : State :=
  { withRecord record7 with
    catalog := [(7, record7), (8, { resident7 with pin := pin })], recency := [8]
    partition := { headBands := 1, slotBlocks := 65536, windowBlocks := 64 } }

theorem witness_LoadHeadTaken :
    fresh.names name7 = false ∧ (withRecord { record7 with state := .retiring }).names name7 = true ∧
      ((withRecord loading7).record 7).state = .loading ∧ ((withRecord resident7).record 7).headSlot = some 0 ∧
      0 < ((withRecord { record7 with loadReads := 1 }).record 7).loadReads ∧
      { withRecord record7 with stores := [store0] }.recordClaimed record7 = true ∧
      (withRecord record7).recordClaimed record7 = false ∧ (oneSlot true).lowestFreeHeadSlot = none ∧
      (oneSlot true).evictionVictim = none ∧ (withRecord record7).lowestFreeHeadSlot = some 0 ∧
      blockAddress layout7.extents 0 = some 0 ∧ (withRecord record7).dieOffline (dieOf 0) = false ∧
      (oneSlot false).lowestFreeHeadSlot = none ∧ (oneSlot false).evictionVictim = some 8 ∧
      ((oneSlot false).record 8).headSlot = some 0 ∧ (oneSlot false).names name7 = true := by decide +kernel

/-- LOAD_HEAD where the first head block's die is OFFLINE. -/
theorem witness_LoadHeadTaken_offline :
    let s := withDie (withRecord record7) { Die.blank with state := .offline }
    s.Taking ∧ s.Canonical ∧ s.names name7 = true ∧ (s.record 7).layout = some layout7 ∧ 0 < layout7.headBlocks ∧
      blockAddress layout7.extents 0 = some 0 ∧ s.dieOffline (dieOf 0) = true ∧ s.lowestFreeHeadSlot = some 0 ∧
      s.recordClaimed (s.record 7) = false :=
  ⟨⟨rfl, rfl, rfl, rfl, rfl⟩, canonical_of rfl (by decide +kernel) rfl rfl rfl (by decide +kernel), by decide +kernel⟩

/-- The load that UNLOAD_HEAD abandons, with a waiting head-mode voice. -/
theorem witness_UnloadHeadTaken_voices :
    loadingVoices.Taking ∧ loadingVoices.Canonical ∧ (loadingVoices.record 7).headSlot = some load7.slot ∧
      (loadingVoices.voice 0).plays 7 1#16 = true ∧ (loadingVoices.voice 0).headMode = true ∧
      (loadingVoices.voice 1).headMode = false ∧ load7.token.order < loadingVoices.takes :=
  ⟨⟨rfl, rfl, rfl, rfl, rfl⟩, loadingVoices_canonical, by decide +kernel⟩

theorem witness_UnloadHeadTaken :
    (withRecord loading7).Canonical ∧ fresh.names name7 = false ∧
      (withRecord { record7 with state := .retiring }).names name7 = true ∧
      0 < ((withRecord { resident7 with refs := 1 }).record 7).refs ∧ (withRecord record7).names name7 = true ∧
      (withRecord resident7).names name7 = true ∧ ((withRecord resident7).record 7).headSlot = some 0 ∧
      (withRecord loading7).names name7 = true ∧ ((withRecord loading7).record 7).load = some load7 ∧
      ((withRecord loading7).record 7).headSlot = some load7.slot :=
  ⟨canonical_of rfl (by decide +kernel) rfl rfl rfl rfl, by decide +kernel⟩

theorem witness_ConfigureMemoryTaken :
    partitionOf ⟨0#8, 32#16, 64#16⟩ = none ∧ partitionOf ⟨64#8, 32#16, 64#16⟩ = none ∧
      partitionOf ⟨63#8, 64#16, 256#16⟩ = some ⟨63, 64, 256⟩ ∧ partitionOf ⟨1#8, 8#16, 16#16⟩ = some ⟨1, 8, 16⟩ ∧
      (withRecord record7).isEmpty = false ∧ fresh.isEmpty = true ∧ fresh.reclaiming = [] ∧
      { fresh with reclaiming := [⟨0, 1, 7, 1#16⟩] }.isEmpty = true := by decide +kernel

/-- The state in which an accepted CONFIGURE_MEMORY finds every head slot FREE. -/
theorem witness_ConfigureMemoryTaken_slots : fresh.Taking ∧ fresh.Canonical ∧ fresh.VacantHoldsNoSlot :=
  ⟨taking_reads rfl rfl, canonical_of rfl rfl rfl rfl rfl rfl, bareVacants rfl⟩

/-- Every slot below `n` with a voice that has ended. -/
def endedVoices (n : Nat) : Table Voice := (List.range n).map fun k => (k, { voice0 with state := .ending, window := k })

theorem witness_StartRefused :
    startValid { startP with priority := 16#8 } = false ∧ startValid startP = true ∧ fresh.names name7 = false ∧
      ((withRecord { record7 with state := .stale }).record 7).state = .stale ∧
      ((withRecord { record7 with state := .retiring }).record 7).state = .retiring ∧
      layout7.length ≤ (4096#32).toNat ∧ (4095#32).toNat < layout7.length ∧
      { withRecord record7 with voices := endedVoices 1, partition := ⟨63, 32, 65536⟩ }.lowestFreeSlot = some 1 ∧
      { withRecord record7 with voices := endedVoices 1, partition := ⟨63, 32, 65536⟩ }.lowestFreeWindow = none ∧
      { withVoice record7 { voice0 with priority := 4 } with
        tunables := { Tunables.powerOn with voiceLimit := 1 } }.victim = some 0 ∧
      startP.priority.toNat < { voice0 with priority := 4 }.priority := by decide +kernel

/-- `n` ended voices in the slots from `k` on. -/
def house : (n k : Nat) → Table Voice
  | 0, _ => []
  | n + 1, k => (k, { voice0 with state := .ending, window := k }) :: house n (k + 1)

theorem house_get (n : Nat) : ∀ k j, k ≤ j → j < k + n →
    Table.get Voice.blank (house n k) j = { voice0 with state := .ending, window := j } := by
  induction n with
  | zero => intro k j h h'; omega
  | succ n ih =>
    intro k j h h'
    by_cases e : k = j
    · subst e; simp [house, Table.get]
    · simp only [house, Table.get, if_neg e]
      exact ih (k + 1) j (by omega) (by omega)

theorem findFrom_none {p : Nat → Bool} (n : Nat) : ∀ k, (∀ j, k ≤ j → j < k + n → p j = false) → findFrom p n k = none := by
  induction n with
  | zero => intro k _; rfl
  | succ n ih =>
    intro k h
    simp only [findFrom, h k (Nat.le_refl k) (by omega)]
    exact ih (k + 1) fun j hj hj' => h j (by omega) (by omega)

/-- The part with record 7 and a table of voices. -/
def housing (t : Table Voice) : State := { withRecord record7 with voices := t }

theorem housing_named (t : Table Voice) : (housing t).Taking ∧ (housing t).names name7 = true :=
  ⟨⟨rfl, rfl, rfl, rfl, rfl⟩, show (withRecord record7).names name7 = true by decide +kernel⟩

theorem housing_full (n : Nat) : ∀ j, j < n → ((housing (house n 0)).voice j).state ≠ .free := by
  intro j hj
  show (Table.get Voice.blank (house n 0) j).state ≠ .free
  rw [house_get n 0 j (Nat.zero_le j) (by omega)]
  exact fun h => by cases h

theorem no_slot {s : State} (h : ∀ j, j < Config.voiceSlots → (s.voice j).state ≠ .free) : s.lowestFreeSlot = none := by
  unfold State.lowestFreeSlot lowest
  exact findFrom_none _ 0 fun j _ hj => beq_eq_false_iff_ne.mpr (h j (by omega))

/-- The NO_VOICE clause of StartRefused: every slot not FREE. -/
theorem witness_StartRefused_noVoice :
    ((housing (house Config.voiceSlots 0)).Taking ∧ (housing (house Config.voiceSlots 0)).names name7 = true) ∧
      (housing (house Config.voiceSlots 0)).lowestFreeSlot = none := ⟨housing_named _, no_slot (housing_full _)⟩

theorem witness_StartAccepted :
    (withRecord record7).Taking ∧ startValid startP = true ∧ (withRecord record7).names name7 = true ∧
      ((withRecord record7).record 7).layout = some layout7 ∧ startP.offset.toNat < layout7.length ∧
      (withRecord record7).lowestFreeSlot = some 0 ∧ (withRecord record7).lowestFreeWindow = some 0 ∧
      (withRecord record7).soundingCount < (withRecord record7).tunables.voiceLimit :=
  ⟨withRecord_taking _, by decide +kernel⟩

/-- A RESIDENT record started moves to the front of the recency list. -/
theorem witness_StartAccepted_resident :
    let s := { withRecord resident7 with recency := [8, 7] }
    s.Taking ∧ s.names name7 = true ∧ (s.record 7).state = .resident ∧ s.lowestFreeSlot = some 0 ∧
      (after s (exec (.start last startP) s)).recency = [7, 8] :=
  ⟨⟨rfl, rfl, rfl, rfl, rfl⟩, by decide +kernel⟩

/-- A full house of one voice. -/
def full : State :=
  { withVoice { record7 with refs := 1 } voice0 with tunables := { Tunables.powerOn with voiceLimit := 1 } }

theorem witness_StartSteals :
    full.Taking ∧ full.Canonical ∧ startValid startP = true ∧ full.names name7 = true ∧ full.lowestFreeSlot = some 1 ∧
      full.lowestFreeWindow = some 1 ∧ full.tunables.voiceLimit ≤ full.soundingCount ∧ full.victim = some 0 ∧
      (full.voice 0).priority ≤ startP.priority.toNat :=
  ⟨⟨rfl, rfl, rfl, rfl, rfl⟩, canonical_of rfl (by decide +kernel) (by decide +kernel) rfl rfl rfl, by decide +kernel⟩

/-- For the choices of StartAccepted and StartSteals: no slot and no window lower; no voice to steal. -/
theorem witness_choices :
    State.reset.Canonical ∧ State.reset.lowestFreeSlot = some 0 ∧ State.reset.lowestFreeWindow = some 0 ∧
      State.reset.victim = none ∧ State.reset.evictionVictim = none :=
  ⟨reset_canonical, by decide +kernel⟩

theorem witness_ReleaseTaken :
    1024 ≤ (⟨1024#16, 1#16⟩ : VoiceName).slot.toNat ∧ (⟨1023#16, 1#16⟩ : VoiceName).slot.toNat < 1024 ∧
      fresh.namesVoice ⟨1023#16, 1#16⟩ = false ∧ (withVoice record7 voice0).namesVoice nameVoice0 = true ∧
      (withVoice record7 voice0).layoutOf voice0 = some layout7 ∧ voice0.released = false ∧
      (withVoice record7 { voice0 with state := .draining }).namesVoice nameVoice0 = true := by decide +kernel

/-- An ENDING voice whose record has gone, and a voice whose release makes its total 2^32 + 4095. -/
theorem witness_ReleaseTaken_gone :
    let s := withVoice Record.blank { voice0 with state := .ending, total := some 4096 }
    let v := { voice0 with cursor := { source := 0, stream := 4294967295, atEnd := false } }
    s.Taking ∧ s.namesVoice nameVoice0 = true ∧ s.layoutOf (s.voice 0) = none ∧ (s.voice 0).state = .ending ∧
      (withVoice record7 v).namesVoice nameVoice0 = true ∧ (withVoice record7 v).layoutOf v = some layout7 ∧
      v.total.getD (v.cursor.stream + (layout7.length - v.cursor.source)) = 4294967296 + 4095 :=
  ⟨⟨rfl, rfl, rfl, rfl, rfl⟩, by decide +kernel⟩

/-- A RETIRING record with one voice. -/
def retiring1 : Record := { record7 with state := .retiring, refs := 1, retire := some token }

theorem witness_StopTaken :
    (withVoice { record7 with refs := 1 } voice0).Canonical ∧
      (withVoice { record7 with refs := 1 } voice0).namesVoice nameVoice0 = true ∧
      (withVoice record7 { voice0 with state := .ending }).namesVoice nameVoice0 = true ∧ voice0.sounding = true ∧
      ((withVoice { record7 with refs := 1 } voice0).record 7).generation = voice0.sampleGeneration ∧
      (withVoice retiring1 voice0).Canonical ∧ (withVoice retiring1 voice0).namesVoice nameVoice0 = true ∧
      ((withVoice retiring1 voice0).record 7).retire = some token ∧ ((withVoice retiring1 voice0).record 7).refs = 1 ∧
      token.order < (withVoice retiring1 voice0).takes :=
  ⟨withVoice_canonical, by decide +kernel, rfl, rfl, rfl, canonical_of rfl (by decide +kernel) (by decide +kernel) rfl rfl rfl,
    by decide +kernel⟩

/-- RETUNE of voice 0 to half rate. -/
def retuneP : RetuneParams :=
  { voice := nameVoice0, presence := 7#8, rate := 0x8000#32, priority := 15#8, leadClass := 3#8 }

theorem witness_RetuneTaken :
    retuneValid { retuneP with rate := 0x40001#32 } = false ∧ retuneValid { retuneP with rate := 0x40000#32 } = true ∧
      retuneValid { retuneP with rate := 0x1000#32 } = true ∧ fresh.namesVoice nameVoice0 = false ∧
      (withVoice record7 { voice0 with state := .ending }).namesVoice nameVoice0 = true ∧ retuneValid retuneP = true ∧
      (withVoice record7 voice0).namesVoice nameVoice0 = true ∧ voice0.sounding = true := by decide +kernel

/-- The transport RUNNING. -/
def running (s : State) : State := { s with pace := { s.pace with running := true } }

theorem witness_RunAndHaltTaken :
    fresh.Taking ∧ fresh.pace.running = false ∧ (running fresh).Taking ∧ (running fresh).pace.running = true ∧
      (running fresh).pace.haltPending = none ∧
      { running fresh with pace := { Pace.powerOn with running := true, haltPending := some token } }.Taking :=
  ⟨taking_reads rfl rfl, rfl, ⟨rfl, rfl, rfl, rfl, rfl⟩, rfl, rfl, ⟨rfl, rfl, rfl, rfl, rfl⟩⟩

theorem witness_LocateTaken :
    (withVoice { record7 with refs := 1 } voice0).Taking ∧ (withVoice { record7 with refs := 1 } voice0).Canonical ∧
      2 ^ 47 ≤ (0x800000000000#64).toNat ∧ (0x7FFFFFFFFFFF#64).toNat < 2 ^ 47 ∧
      (withVoice { record7 with refs := 1 } voice0).pace.running = false ∧ (running fresh).pace.running = true :=
  ⟨withVoice_taking _ _, withVoice_canonical, by decide +kernel, by decide +kernel, rfl, rfl⟩

theorem witness_SetPaceTaken :
    settingsOf ⟨2#8, 0#8, 0#8⟩ = none ∧ settingsOf ⟨0#8, 4#8, 0#8⟩ = none ∧ settingsOf ⟨0#8, 0#8, 5#8⟩ = none ∧
      settingsOf ⟨1#8, 3#8, 4#8⟩ = some ⟨.external, 96000, 1024⟩ ∧ fresh.pace.pending = none ∧
      fresh.pace.running = false ∧ (running fresh).pace.running = true ∧
      (some (⟨.internal, 48000, 64⟩, token) : Option (PaceSettings × Token)).isSome = true := by decide +kernel

/-- STORE of 16 blocks from 0. -/
def storeP : StoreParams := { host := 0x10000#64, first := 0#32, count := 16#16 }

theorem witness_StoreTaken :
    (fresh.Taking ∧ fresh.Canonical ∧ ∀ a, storeP.first.toNat ≤ a → a < storeP.first.toNat + storeP.count.toNat →
      (fresh.die (a % 16)).operation = none → fresh.subQueue (a % 16) = [] ∧ (fresh.die (a % 16)).polls = []) ∧
      storeValid { storeP with count := 257#16 } = false ∧
      storeValid { storeP with count := 256#16 } = true ∧ storeValid storeP = true ∧
      4 ≤ [store0, store0, store0, store0].length ∧ fresh.stores.length < 4 ∧
      (withRecord resident7).recordForbids 0 16 = true ∧ fresh.recordForbids 0 16 = false ∧
      { fresh with stores := [store0] }.storeClaims [⟨15, 1⟩] = true ∧ fresh.storeClaims [⟨0, 16⟩] = false ∧
      (withDie fresh { Die.blank with state := .offline }).rangeOffline 0 16 = true ∧ fresh.rangeOffline 0 16 = false :=
  ⟨⟨taking_reads rfl rfl, canonical_of rfl rfl rfl rfl rfl rfl, fun _ _ _ _ => ⟨rfl, rfl⟩⟩, by decide +kernel⟩

/-- A PROBE_DIE on a poll list. -/
def probe0 : PollRequest := { revive := false, token := token }

/-- Die 3 OFFLINE and idle, a PROBE_DIE on its poll list from before it went OFFLINE. -/
def offlinePolls : State := { fresh with dies := [(3, { Die.blank with state := .offline, polls := [probe0] })] }

/-- A STORE of one block on die 0 leaves the OFFLINE die as it was, and no POLL begins. -/
theorem witness_StoreTaken_offline :
    offlinePolls.Taking ∧ offlinePolls.rangeOffline 0 1 = false ∧ (offlinePolls.die 0).operation = none ∧
      (after offlinePolls (exec (.store last { storeP with count := 1#16 }) offlinePolls)).die 3 = offlinePolls.die 3 :=
  ⟨⟨rfl, rfl, rfl, rfl, rfl⟩, by decide +kernel⟩

theorem witness_ProbeAndRevive_offline :
    (offlinePolls.die 3).state = .offline ∧ (offlinePolls.die 3).operation = none ∧ (offlinePolls.die 3).polls.length = 1 ∧
      ((after offlinePolls (exec (.probeDie last 3#8) offlinePolls)).die 3).polls.length = 2 := by decide +kernel

theorem witness_ProbeAndRevive :
    fresh.Taking ∧ 16 ≤ (16#8).toNat ∧ (15#8).toNat < 16 ∧ (fresh.die 15).state ≠ .offline ∧
      (fresh.die 0).polls = [] ∧ (fresh.die 0).operation = none ∧ (fresh.die 0).state = .ready ∧
      ((withDie fresh { Die.blank with state := .offline }).die 0).state = .offline ∧
      4 ≤ [probe0, probe0, probe0, probe0].length ∧
      ((withDie fresh (dieWith (.read entry0) .addressing)).die 0).operation.isSome = true :=
  ⟨taking_reads rfl rfl, by decide +kernel⟩

/-- TUNE_ENGINE of the voice limit alone. -/
def tuneP : TuneParams :=
  { mask := 1#32, voiceLimit := 1#16, retryLimit := 0#8, pollInterval := 0#8, readTimeout := 0#8, programTimeout := 0#8
    programGuard := 0#8, loadAllowance := 0#8, coalescingCount := 0#8, ageLimit := 0#8, priorityThreshold := 0#8
    lead0 := ⟨0#8, 0#8⟩, lead1 := ⟨0#8, 0#8⟩, lead2 := ⟨0#8, 0#8⟩, lead3 := ⟨0#8, 0#8⟩ }

theorem witness_TuneTaken :
    fresh.Taking ∧ tuneValid { tuneP with voiceLimit := 1025#16 } = false ∧ tuneValid { tuneP with voiceLimit := 1024#16 } = true ∧
      tuneValid tuneP = true ∧ fresh.soundingCount ≤ tuneP.voiceLimit.toNat ∧
      tuneP.voiceLimit.toNat < { withVoice record7 voice0 with voices := [(0, voice0), (1, voice0)] }.soundingCount :=
  ⟨taking_reads rfl rfl, by decide +kernel⟩

theorem witness_BadKindAndAdvance :
    fresh.Taking ∧ requestAligned going.next = true ∧ going.next ≠ 0#64 ∧ requestAligned 0x2001#64 = false ∧
      last.next = 0#64 ∧ fresh.requests.resumePending = false ∧
      { fresh with requests := { fresh.requests with resumePending := true } }.Taking :=
  ⟨taking_reads rfl rfl, rfl, by decide, rfl, rfl, rfl, ⟨rfl, rfl, rfl, rfl, rfl⟩⟩

/-- A take that may give silent places, and one that may not. -/
theorem witness_TakeFrame :
    (withRecord record7).Taking ∧ (∃ t, exec (Request.arrival ⟨last, .start startP⟩) (withRecord record7) = .next t) ∧
      ∃ t, exec (Request.arrival ⟨last, .run⟩) (withRecord record7) = .next t :=
  ⟨withRecord_taking _, ⟨_, rfl⟩, ⟨_, rfl⟩⟩

theorem witness_ExpiryOfPace :
    { Pace.powerOn with haltPending := some token }.haltPending = some token ∧
      { Pace.powerOn with pending := some (⟨.external, 48000, 64⟩, token) }.pending =
        some (⟨.external, 48000, 64⟩, token) := by decide +kernel

theorem witness_ExpiryOfVoices :
    let s := running (withVoice { record7 with refs := 1 } { voice0 with total := some 0 })
    s.Canonical ∧ s.pace.running = true ∧ (s.voice 0).sounding = true ∧ (s.voice 1).sounding = false ∧
      (s.voice 0).total = some 0 ∧ (s.voice 0).delivered = 0 ∧ State.reset.pace.running = false ∧
      0 * 65536 ≤ ((after s (exec .periodExpiry s)).voice 0).consumed :=
  ⟨canonical_of rfl (by decide +kernel) (by decide +kernel) rfl rfl rfl, by decide +kernel⟩

/-- Where a PRIMING voice goes: its `at` just below the new position, and at it. -/
theorem witness_ExpiryOfVoices_priming :
    let s (at_ : Nat) := running (withVoice { record7 with refs := 1 } { voice0 with state := .priming, position := at_ })
    (s 255).Canonical ∧ (s 256).Canonical ∧ (s 255).pace.position + (s 255).pace.period = 256 ∧
      ((after (s 255) (exec .periodExpiry (s 255))).voice 0).state = .playing ∧
      ((after (s 256) (exec .periodExpiry (s 256))).voice 0).state = .priming :=
  ⟨canonical_of rfl (by decide +kernel) (by decide +kernel) rfl rfl rfl,
    canonical_of rfl (by decide +kernel) (by decide +kernel) rfl rfl rfl, by decide +kernel⟩

theorem witness_LeadMonitor :
    let s := running (withVoice { record7 with refs := 1 } voice0)
    s.Canonical ∧ s.pace.running = true ∧ (s.voice 0).state = .playing ∧
      (s.voice 0).delivered * 65536 < ((after s (exec .periodExpiry s)).voice 0).consumed ∧
      ¬ 2000 * 65536 < ((after s (exec .periodExpiry s)).voice 0).consumed + 3 * 256 * 65536 ∧
      (s.voice 1).state = .free ∧ ∀ c, s.registers.counters.value c ≤ 65535 :=
  ⟨canonical_of rfl (by decide +kernel) (by decide +kernel) rfl rfl rfl, rfl, rfl, by decide +kernel, by decide +kernel, rfl,
    fun c => by cases c <;> decide⟩

theorem witness_FramesAndClock :
    State.reset.completions = [] ∧ State.reset.pending = [] ∧ State.reset.pace.state ≠ .externalLocked ∧
      State.reset.pace.frame + 1 < State.reset.pace.period ∧ { Pace.powerOn with frame := 255 }.period ≤ 255 + 1 ∧
      { Pace.powerOn with state := .externalLocked }.state = .externalLocked := by decide +kernel

/-- A parked Delivery Engine. -/
def parkedBuffer (r : BufferPark) (used : Bool) : DeliveryEngine :=
  { DeliveryEngine.blank with state := .parked, address := 0x40#64, parkReason := some r, usedMark := used }

theorem witness_BufferResumes :
    State.reset.delivery.state = .idle ∧ waitingFetch.state = .active ∧
      (parkedBuffer .endOfList false).parkReason = some .endOfList ∧ (parkedBuffer .linkError true).usedMark = true ∧
      (parkedBuffer .notReclaimed false).parkReason = some .notReclaimed ∧
      bufferAligned (parkedBuffer .linkError false).address = true ∧
      { waitingFetch with read := .next }.read = .next ∧
      { parkedBuffer .endOfList false with rereads := 1 }.rereads = 1 ∧
      (parkedBuffer .endOfList false).resumePending = false ∧ bufferAligned 0x40#64 = true ∧
      { waitingFetch with read := .next, resumePending := true }.resumePending = true ∧
      { parkedBuffer .endOfList false with rereads := 1, resumePending := true }.state = .parked ∧
      { waitingFetch with lateRereads := 1 }.lateRereads = 1 := by decide +kernel

/-- The part holding a buffer at 0x40. -/
def heldBuffer (s : State) : State :=
  { s with delivery := { DeliveryEngine.blank with
      state := .active, holding := true, address := 0x40#64, heldNext := some 0x80#64, heldBuffer := some 0x10000#64 } }

/-- Voice 0 with a FILLED place to deliver. -/
def deliverable : State :=
  heldBuffer { withVoice { record7 with refs := 1 } { voice0 with scheduled := 2048, total := some 4096 } with
    windows := [(0, { Window.blank with places := [(0, .filled run0)], fill := 1 })] }

/-- Voice 0 ENDING with its END to post. -/
def ended : State := heldBuffer (withVoice record7 { voice0 with state := .ending, endReason := some .stopped })

theorem witness_BufferReadsAndWritesEnd :
    { waitingFetch with waiting := false }.read = .descriptor ∧ bufferAligned 0x1001#64 = false ∧
      bufferAligned 0x1000#64 = true ∧ bufferAligned waitingFetch.address = true ∧ deliverable.dataChoice ≠ none ∧
      ended.endChoice ≠ none ∧ deliverable.completions = [] := by decide +kernel

/-- For DataDeliveryMade and Notices: a delivery that is first, at the highest coalescing count and below it. -/
theorem witness_DataDeliveryMade :
    deliverable.Canonical ∧ deliverable.dataChoice = some 0 ∧ deliverable.layoutOf (deliverable.voice 0) = some layout7 ∧
      deliverable.delivery.heldNext = some 0x80#64 ∧ bufferAligned 0x80#64 = true ∧
      (deliverable.voice 0).headDelivery layout7 = false ∧ (∀ d, deliverable.dieOffline d = false) ∧
      State.reset.dataChoice = none ∧ deliverable.delivery.noticeCount + 1 < deliverable.tunables.coalescingCount ∧
      { Tunables.powerOn with coalescingCount := 1 }.coalescingCount ≤ deliverable.delivery.noticeCount + 1 :=
  ⟨canonical_of rfl (by decide +kernel) (by decide +kernel) (by decide +kernel) (by decide +kernel) rfl, by decide +kernel,
    by decide +kernel, rfl, by decide +kernel, by decide +kernel, fun _ => rfl, by decide +kernel⟩

/-- The order of the data choice, and an engine that holds a buffer with nothing to deliver. -/
theorem witness_DataDeliveryMade_choice :
    (∀ m, (deliverable.voice m).priority ≤ 15) ∧ deliverable.dataReady (deliverable.voice 0) = true ∧
      (heldBuffer State.reset).dataChoice = none ∧ (heldBuffer State.reset).delivery.holding = true ∧
      (heldBuffer State.reset).delivery.state = .active :=
  ⟨fun m => of_decide_eq_true (every_voice (p := fun v => decide (v.priority ≤ 15)) (by decide) (by decide +kernel) m),
    by decide +kernel⟩

/-- The frames at D in the place, damaged or not, and in a head slot. -/
theorem witness_DataDeliveryMade_source :
    let v := { voice0 with scheduled := 2048, headMode := true }
    let place (r : Run) := { deliverable with windows := [(0, { Window.blank with places := [(0, .filled r)] })] }
    ¬ (deliverable.voice 0).fromHead layout7 ∧ deliverable.filledRun (deliverable.voice 0) = some run0 ∧
      (place { run0 with damaged := true }).deliveryDamaged (deliverable.voice 0) layout7 = true ∧
      deliverable.deliveryDamaged (deliverable.voice 0) layout7 = false ∧ v.fromHead layout7 ∧
      ((withRecord resident7).record v.sampleId).headSlot = some 0 ∧ (withRecord resident7).dataReady v = true ∧
      4095 < (v.deliveryStop layout7 - v.delivery.source) * layout7.format.frameBytes :=
  ⟨fun h => Bool.false_ne_true h.1, by decide +kernel, by decide +kernel, by decide +kernel, ⟨rfl, by decide +kernel⟩,
    by decide +kernel⟩

/-- A delivery that ends at a wrap, and one that the latest wrap point does not reach. -/
theorem witness_DataDeliveryMade_wrap :
    let l := { layout7 with loop := some ⟨10, 1000⟩ }
    let v (wrap : Nat) := { voice0 with delivery := { source := 0, latestWrap := some wrap, loopedPending := false } }
    (v 1000).deliveryLoop l = some ⟨10, 1000⟩ ∧ (v 1000).deliveryStop l = 1000 ∧ (v 999).deliveryLoop l = none ∧
      (v 999).deliveryStop l = 2048 ∧ (v 1000).afterDelivery l = { source := 10, latestWrap := some 1000, loopedPending := true } := by
  decide +kernel

theorem witness_Notices :
    deliverable.dataChoice = some 0 ∧ (deliverable.voice 0).delivered = 0 ∧
      { deliverable.delivery with noticeStamp := some 0, noticeCount := 1 }.noticeStamp = some 0 ∧
      State.reset.tunables.ageLimit < 1 + 1 - 0 ∧ State.reset.delivery.noticeStamp = none := by decide +kernel

/-- An END delivery counted, below the coalescing count. -/
theorem witness_Notices_end :
    ended.endChoice.isSome = true ∧ ended.delivery.heldNext = some 0x80#64 ∧
      ended.delivery.noticeCount + 1 < ended.tunables.coalescingCount ∧
      (after ended (exec .endDelivery ended)).delivery.noticeCount = 1 := by decide +kernel

theorem witness_EndDeliveryMade :
    ended.Canonical ∧ ended.delivery.state = .active ∧ ended.delivery.holding = true ∧ ended.registers.engine = .ready ∧
      ended.delivery.heldNext = some 0x80#64 ∧ (ended.voice 0).state = .ending ∧ (ended.voice 0).endPosted = false ∧
      (∀ n, n < 0 → (ended.voice n).state = .ending → (ended.voice n).endPosted = true) ∧ (ended.voice 0).reads = 0 ∧
      State.reset.endChoice = none :=
  ⟨canonical_of rfl (by decide +kernel) (by decide +kernel) rfl rfl rfl, rfl, rfl, rfl, rfl, by decide +kernel,
    by decide +kernel, fun n h => absurd h (Nat.not_lt_zero n), by decide +kernel⟩

/-- A state whose held descriptor names another next pointer. -/
def heldNext (s : State) (a : HostAddr) (pending : Bool) : State :=
  { s with delivery := { s.delivery with heldNext := some a, resumePending := pending } }

/-- The advance after a delivery: misaligned, 0, and 0 with resume pending. -/
theorem witness_EndDeliveryMade_advance :
    bufferAligned 0x81#64 = false ∧ (heldNext deliverable 0x81#64 false).dataChoice = some 0 ∧
      (heldNext deliverable 0#64 true).delivery.heldBuffer.isSome = true ∧
      (heldNext ended 0#64 false).endChoice.isSome = true ∧
      (heldNext ended 0#64 true).delivery.resumePending = true := by decide +kernel

/-- Voice 0 with a run to fetch. -/
def hungry : State := { withVoice { record7 with refs := 1 } voice0 with requests := RequestProcessor.blank }

/-- A load of record 7 with its head block to queue. -/
def loadingFirst : State :=
  { State.reset with catalog := [(7, { record7 with
      state := .loading, headSlot := some 0, load := some { load7 with nextBlock := 0 } })] }

theorem witness_EnqueueMade :
    (nothingWaits hungry 0 ∧ ∀ m, (hungry.voice m).priority ≤ 15) ∧
      hungry.fillChoice = some (.voice 0 0) ∧ hungry.layoutOf (hungry.voice 0) = some layout7 ∧
      (hungry.voice 0).runFits layout7 = true ∧ (hungry.die 0).state = .ready ∧
      (withDie hungry (dieWith .poll .polling)).fillChoice = some (.voice 0 0) ∧
      (withDie loadingFirst (dieWith .poll .polling)).fillChoice = some (.load 7 0) ∧
      (loadingFirst.record 7).load = some { load7 with nextBlock := 0 } ∧ State.reset.fillChoice = none ∧
      State.reset.queue.length < 4096 ∧ 0 < hungry.pace.period * (hungry.voice 0).rate :=
  ⟨⟨⟨rfl, rfl, rfl⟩,
    fun m => of_decide_eq_true (every_voice (p := fun v => decide (v.priority ≤ 15)) (by decide) (by decide +kernel) m)⟩,
    by decide +kernel⟩

/-- A load's read issued at once on an idle die. -/
theorem witness_EnqueueMade_load :
    nothingWaits loadingFirst 0 ∧ (∀ d, loadingFirst.dieOffline d = false) ∧ loadingFirst.fillChoice = some (.load 7 0) ∧
      (loadingFirst.die 0).state = .ready ∧ (loadingFirst.die 0).operation = none ∧
      ((after loadingFirst (exec .fetchEnqueue loadingFirst)).record 7).loadReads = 1 :=
  ⟨⟨rfl, rfl, rfl⟩, fun _ => rfl, by decide +kernel⟩

/-- Voice 0 at the stream limit, with consumption that asks for one more run. -/
def atLimit : State :=
  { withVoice { record7 with refs := 1 } { voice0 with
      cursor := { source := 0, stream := 4294967295, atEnd := false }, consumed := 4294967296 * 65536 } with
    requests := RequestProcessor.blank }

theorem witness_EnqueueMade_limit :
    nothingWaits atLimit 0 ∧ atLimit.fillChoice = some (.voice 0 0) ∧ atLimit.layoutOf (atLimit.voice 0) = some layout7 ∧
      (atLimit.voice 0).runFits layout7 = false :=
  ⟨⟨rfl, rfl, rfl⟩, by decide +kernel⟩

/-- At a START of a RESIDENT record of one head block its head-sourced run is given at once. -/
theorem test_start_headRuns :
    ((after (withRecord resident7) (exec (.start last { startP with leadClass := 3#8 }) (withRecord resident7))).voice 0).scheduled =
      2048 := by decide +kernel

/-- The program of block 0 of `store0`. -/
def program0 : ProgramEntry := { place := 0, address := 0, host := 0x10000#64 }

theorem witness_DiePhases :
    ((withDie State.reset (dieWith (.read entry0) .addressing)).die 0).operation = some (operation (.read entry0)) ∧
      ((withDie State.reset (dieWith (.read entry0) .polling)).die 0).state = .polling ∧
      ((withDie State.reset (dieWith (.program program0) .addressing)).die 0).operation =
        some (operation (.program program0)) ∧
      ((withDie State.reset (dieWith (.program program0) .transferring)).die 0).state = .transferring ∧
      ((withDie State.reset (dieWith (.program program0) .polling)).die 0).state = .polling := by decide +kernel

/-- For VoiceReadEndsWell, ReadRetries and VoiceReadsLost. -/
theorem witness_voiceRead (x : DieState) :
    let s := withDie awaiting (dieWith (.read entry0) x)
    s.registers.engine = .ready ∧ (s.die 0).operation = some (operation (.read entry0)) ∧ (s.die 0).state = x ∧
      nothingWaits s 0 ∧ entry0.owner = .voice 0 (s.voice 0).generation ∧ entry0.destination = .place 0 0 ∧
      (s.voice 0).sounding = true ∧ s.layoutOf (s.voice 0) = some layout7 ∧ (s.window 0).place 0 = .awaited run0 ∧
      s.completions = [] :=
  ⟨rfl, rfl, rfl, ⟨rfl, rfl, rfl⟩, rfl, rfl, rfl, rfl, rfl, rfl⟩

/-- Voice 0 ENDING with its last read in flight, its END posted or not. -/
def endingRead (posted : Bool) : State :=
  { withDie awaiting (dieWith (.read entry0) .transferring) with
    voices := [(0, { voice0 with state := .ending, endReason := some .stopped, reads := 1, endPosted := posted })] }

theorem witness_VoiceReadEndsWell_ending (posted : Bool) :
    nothingWaits (endingRead posted) 0 ∧ ((endingRead posted).die 0).state = .transferring ∧
      ((endingRead posted).voice 0).state = .ending ∧ ((endingRead posted).voice 0).endPosted = posted ∧
      ((endingRead posted).voice 0).reads = 1 ∧ entry0.owner = .voice 0 ((endingRead posted).voice 0).generation :=
  ⟨⟨rfl, rfl, rfl⟩, rfl, rfl, rfl, rfl, rfl⟩

/-- A REVIVE_DIE on a poll list. -/
def revive0 : PollRequest := { revive := true, token := token }

/-- A die with an operation, a fetch of a deadline, a program and poll requests behind it. -/
def busyDie (s : State) (o : Operation) (x : DieState) (deadline : Nat) (polls : List PollRequest) : State :=
  { withDie s { Die.blank with state := x, operation := some o, programs := [program0], polls := polls } with
    queue := [{ entry0 with deadline := deadline }], completions := [] }

/-- The arbiter's choice: a fetch at the program guard, a program before a later one, a PROBE_DIE before both. -/
theorem test_die_choice :
    (busyDie awaiting (operation .poll) .polling 4 []).dieChoice 0 = some (.read entry0) ∧
      (busyDie awaiting (operation .poll) .polling 5 [revive0]).dieChoice 0 = some (.program program0) ∧
      (busyDie awaiting (operation .poll) .polling 4 [revive0, probe0]).dieChoice 0 = some .poll ∧
      (withDie { awaiting with queue := [{ entry0 with deadline := 5 }] } Die.blank).dieChoice 0 =
        some (.read { entry0 with deadline := 5 }) ∧ awaiting.dieChoice 0 = none := by decide +kernel

/-- A voice's read, a marked read and a program that end with work waiting. -/
theorem witness_arbiter :
    let s := busyDie awaiting (operation (.read entry0)) .transferring 5 []
    let u := busyDie awaiting (marked (.read entry0)) .transferring 4 [revive0]
    let p := busyDie awaiting (operation (.program program0)) .polling 5 [probe0]
    (s.registers.engine = .ready ∧ (s.window 0).place 0 = .awaited run0 ∧ (s.voice 0).sounding = true ∧
        s.dieChoice 0 = some (.program program0)) ∧
      (endsWork u 0 (marked (.read entry0)) .ready (.dieTransferEnd 0 [] []) ∧ u.dieChoice 0 = some (.read entry0)) ∧
      ((p.die 0).operation = some (operation (.program program0)) ∧ (p.die 0).state = .polling ∧
        p.dieChoice 0 = some .poll) :=
  ⟨⟨rfl, rfl, rfl, by decide +kernel⟩, ⟨.inr (.inl ⟨rfl, ⟨_, _, rfl⟩, rfl⟩), by decide +kernel⟩, rfl, rfl,
    by decide +kernel⟩

/-- A marked operation that ends while READY, and one that ends in an engine reset while another runs. -/
theorem witness_ReadRetries_marked :
    let x : Die := { Die.blank with state := .transferring, operation := some (marked (.read entry0)) }
    let s := withDie State.reset x
    let u := inReset { State.reset with dies := [(0, x), (1, x)] }
    nothingWaits s 0 ∧ nothingWaits u 0 ∧ s.registers.engine = .ready ∧ u.registers.engine = .resetting ∧
      (u.die 1).operation.isSome = true ∧ (marked (.read entry0)).discard = true ∧
      endsWork s 0 (marked (.read entry0)) .ready (.dieTransferEnd 0 [] []) :=
  ⟨⟨rfl, rfl, rfl⟩, ⟨rfl, rfl, rfl⟩, rfl, rfl, rfl, rfl, .inr (.inl ⟨rfl, ⟨_, _, rfl⟩, rfl⟩)⟩

theorem witness_ReadRetries :
    (State.reset.die 0).retries < State.reset.tunables.retryLimit ∧ leField [1#8, 0#8, 0#8, 0#8] 0 4 ≠ (crc32 []).toNat ∧
      { State.reset.tunables with retryLimit := 0 }.retryLimit ≤ (State.reset.die 0).retries := by decide +kernel

theorem witness_VoiceReadsLost :
    (withDie awaiting (dieWith (.read entry0) .polling)).Canonical ∧ (awaiting.record 7).load = none :=
  ⟨canonical_of rfl (by decide +kernel) (by decide +kernel) (by decide +kernel) (by decide +kernel) (by decide +kernel),
    by decide +kernel⟩

theorem witness_noLoad (id : Nat) : (awaiting.record id).load = none := by
  by_cases h : 7 = id <;> simp [State.record, awaiting, withVoice, withRecord, taking, Table.get, h, record7,
    Record.defined, Record.blank, Record.vacant]

/-- The signature of record 7's head, which zeros do not match. -/
def signature7 : Signature := { spans := [⟨0, 1⟩], expected := 0#32 }

theorem witness_LoadReadsEnd :
    let s := withDie { withRecord loading7 with requests := RequestProcessor.blank } (dieWith (.read entryLoad) .transferring)
    s.registers.engine = .ready ∧ (s.die 0).operation = some (operation (.read entryLoad)) ∧ nothingWaits s 0 ∧
      entryLoad.owner = .load 7 (s.record 7).generation ∧ entryLoad.destination = .headBlock load7.slot 0 ∧
      (s.record 7).load = some load7 ∧ (s.record 7).layout = some layout7 ∧ load7.arrived.length + 1 = layout7.headBlocks ∧
      { layout7 with signature := some signature7 }.signature = some signature7 ∧
      s.slotsPlaying 7 (s.record 7).generation = [] :=
  ⟨rfl, rfl, ⟨rfl, rfl, rfl⟩, rfl, rfl, rfl, rfl, rfl, rfl, by decide +kernel⟩

/-- A load whose head block's read is to end UNRECOVERED, `n` of its reads in flight. -/
def unrecovered (n : Nat) : State :=
  withDie { withRecord { record7 with state := .loading, headSlot := some 0, load := some load7, loadReads := n } with
    requests := RequestProcessor.blank } { dieWith (.read entryLoad) .addressing with retries := 2 }

/-- Its last read, and one of two. -/
theorem witness_LoadReadsEnd_blockError :
    ((unrecovered 1).Canonical ∧ (unrecovered 2).Canonical ∧ nothingWaits (unrecovered 2) 0) ∧
      (unrecovered 2).tunables.retryLimit ≤ ((unrecovered 2).die 0).retries ∧ (unrecovered 2).reclaiming = [] ∧
      entryLoad.owner = .load 7 ((unrecovered 2).record 7).generation ∧
      ((unrecovered 2).record 7).load = some load7 ∧ 1 < ((unrecovered 2).record 7).loadReads ∧
      (unrecovered 2).slotsPlaying 7 1#16 = [] :=
  ⟨⟨canonical_of rfl (by decide +kernel) rfl rfl rfl (by decide +kernel),
    canonical_of rfl (by decide +kernel) rfl rfl rfl (by decide +kernel), rfl, rfl, rfl⟩, by decide +kernel⟩

/-- The slot of a load that ended, `n` of its reads in flight. -/
def reclaim0 (n : Nat) : Reclaim := { slot := 0, outstanding := n, id := 7, generation := 1#16 }

/-- A record, the slot of its abandoned load RECLAIMING, a read of it on die 0. -/
def reclaimed (r : Record) (n : Nat) : State :=
  withDie { State.reset with catalog := [(7, { r with loadReads := n })], reclaiming := [reclaim0 n], takes := 1 }
    (dieWith (.read entryLoad) .transferring)

/-- A record that goes on, one used again by another generation, and a RETIRING record left with nothing. -/
theorem witness_LoadReadsEnd_reclaiming :
    (nothingWaits (reclaimed record7 2) 0 ∧ (reclaimed record7 2).reclaiming = [] ++ reclaim0 2 :: []) ∧
      entryLoad.destination = .headBlock (reclaim0 2).slot 0 ∧ ((reclaimed record7 2).record 7).load = none ∧
      ((reclaimed record7 2).record 7).state = .defined ∧ ((reclaimed record7 2).record 7).generation = 1#16 ∧
      ((reclaimed { record7 with generation := 2#16 } 0).record 7).generation ≠ 1#16 ∧
      ((reclaimed { record7 with state := .retiring, retire := some token } 1).record 7).retire = some token ∧
      ((reclaimed { record7 with state := .retiring, retire := some token } 1).record 7).refs = 0 :=
  ⟨⟨⟨rfl, rfl, rfl⟩, rfl⟩, by decide +kernel⟩

theorem witness_ProgramsEnd (x : DieState) :
    let s := withDie { State.reset with stores := [store0] } (dieWith (.program program0) x)
    s.registers.engine = .ready ∧ (s.die 0).operation = some (operation (.program program0)) ∧ (s.die 0).state = x ∧
      nothingWaits s 0 ∧ s.stores = [store0] ∧ store0.place = program0.place ∧ store0.failure = none ∧
      store0.queued = 0 ∧ store0.inFlight = 1 :=
  ⟨rfl, rfl, rfl, ⟨rfl, rfl, rfl⟩, rfl, rfl, rfl, rfl, rfl⟩

theorem witness_ProgramsEnd_canonical :
    (withDie { State.reset with stores := [store0] } (dieWith (.program program0) .transferring)).Canonical :=
  canonical_of rfl rfl rfl rfl rfl (by decide +kernel)

/-- Another STORE in the table, over blocks 16 to 31. -/
def store1 : StoreEntry := { store0 with place := 1, first := 16 }

/-- A STORE of two in the table, one of its programs on die 0 and one queued at die 1. -/
def programming (x : StoreEntry) (w : DieState) : State :=
  { State.reset with
    stores := [store1, x], dies := [(0, dieWith (.program program0) w), (1, { Die.blank with programs := [program0] })] }

/-- The first failure of a STORE with another program in flight, and a program that succeeds or fails on one that has failed. -/
theorem witness_ProgramsEnd_table :
    let two := { store0 with queued := 1, inFlight := 2 }
    let bad := { store0 with failure := some 9 }
    let ends (x : StoreEntry) (w : DieState) (c : Instr) := after (programming x w) (exec c (programming x w))
    ((programming two .addressing).Canonical ∧ (programming bad .polling).Canonical) ∧
      (∀ z ∈ (programming two .polling).stores, z.place = two.place → z = two) ∧ two.place = program0.place ∧
      (ends two .addressing (.dieAddressRefused 0)).stores =
        [store1, { store0 with inFlight := 1, failure := some 0 }] ∧
      ((ends two .transferring (.programDmaFailed 0)).die 1).programs = [] ∧
      (ends two .polling (.dieReadyAnswer 0 0#32)).stores =
        [store1, { store0 with programmed := 1, queued := 1, inFlight := 1 }] ∧
      (ends bad .addressing (.dieAddressRefused 0)).stores = [store1] ∧
      (ends bad .polling (.dieReadyAnswer 0 0#32)).out =
        [.hostWrite (requestStatusAddress token.address) (doneBytes .blockError 1#32 9#32)] :=
  ⟨⟨canonical_of rfl rfl rfl rfl rfl (by decide +kernel), canonical_of rfl rfl rfl rfl rfl (by decide +kernel)⟩,
    by decide +kernel⟩

/-- A program that times out on a STORE that has failed: its last, and one of two. -/
theorem witness_DieGoesOffline_failed :
    let s (n : Nat) := programming { store0 with failure := some 9, inFlight := n } .polling
    ((s 1).Canonical ∧ (s 2).Canonical) ∧ (s 1).registers.engine = .ready ∧
      ((s 1).die 0).operation = some (operation (.program program0)) ∧
      (after (s 1) (exec (.programTimeout 0) (s 1))).stores = [store1] ∧
      (after (s 2) (exec (.programTimeout 0) (s 2))).stores = [store1, { store0 with failure := some 9, inFlight := 1 }] :=
  ⟨⟨canonical_of rfl rfl rfl rfl rfl (by decide +kernel), canonical_of rfl rfl rfl rfl rfl (by decide +kernel)⟩,
    by decide +kernel⟩

theorem witness_PollEnds (x : DieState) :
    let s := withDie State.reset { dieWith .poll x with polls := [probe0] }
    s.registers.engine = .ready ∧ (s.die 0).operation = some (operation .poll) ∧ (s.die 0).polls = [probe0] ∧
      (s.die 0).programs = [] ∧ s.subQueue 0 = [] ∧ (s.die 0).state = x ∧ s.completions = [] :=
  ⟨rfl, rfl, rfl, rfl, rfl, rfl, rfl⟩

/-- A POLL that ends with requests and work behind it: on a READY die, on a die that its REVIVE_DIE takes into service, and on
one that stays OFFLINE. -/
theorem witness_PollEnds_waiting :
    let s := busyDie awaiting (operation .poll) .polling 4 [probe0, revive0]
    let u := busyDie awaiting (operation .poll) .offline 4 [revive0, revive0, probe0]
    (s.die 0).polls = probe0 :: [revive0] ∧ (u.die 0).polls = revive0 :: [revive0, probe0] ∧ u.registers.engine = .ready ∧
      ((after s (exec (.dieBusyAnswer 0 1#32) s)).die 0).operation = some (s.begun (.read entry0)) ∧
      ((after u (exec (.dieReadyAnswer 0 1#32) u)).die 0).polls = [probe0] ∧
      ((after u (exec (.dieReadyAnswer 0 1#32) u)).die 0).state = .polling ∧
      ((after u (exec (.pollTimeout 0) u)).die 0).polls = [revive0, probe0] ∧
      ((after u (exec (.pollTimeout 0) u)).die 0).state = .offline := by decide +kernel

theorem witness_DieGoesOffline :
    (withDie State.reset (dieWith (.read entry0) .polling)).Canonical ∧
      ((withDie State.reset (dieWith (.read entry0) .polling)).die 0).operation = some (operation (.read entry0)) ∧
      (withDie State.reset (dieWith (.program program0) .polling)).Canonical ∧
      ((withDie State.reset (dieWith (.program program0) .polling)).die 0).operation = some (operation (.program program0)) :=
  ⟨canonical_of rfl rfl rfl rfl rfl (by decide +kernel), by decide +kernel,
    canonical_of rfl rfl rfl rfl rfl (by decide +kernel), by decide +kernel⟩

/-- The fetch entry of voice 0 queued, die 0 at a read for another place. -/
def queuedVoice : State :=
  { withDie awaiting (dieWith (.read { entry0 with destination := .place 5 0 }) .polling) with queue := [entry0] }

theorem witness_DieGoesOffline_voice :
    queuedVoice.Canonical ∧ queuedVoice.WindowsHeldOnce ∧ (∀ id, (queuedVoice.record id).load = none) ∧
      entry0 ∈ queuedVoice.queue ∧ dieOf entry0.address = 0 ∧
      entry0.destination = .place (queuedVoice.voice 0).window 0 ∧ 0 < (queuedVoice.record 7).refs ∧
      (queuedVoice.window 0).place 0 = .awaited run0 :=
  ⟨canonical_of rfl (by decide +kernel) (by decide +kernel) (by decide +kernel) (by decide +kernel) (by decide +kernel),
    alone rfl, witness_noLoad, by decide +kernel⟩

/-- A load with its read on die 0, a queued entry behind it, or its next block unqueued. -/
theorem witness_DieGoesOffline_load :
    let s := withDie { withRecord loading7 with queue := [{ entryLoad with destination := .headBlock 0 16, address := 16 }] }
      (dieWith (.read entryLoad) .polling)
    let u := withDie loadingFirst (dieWith (.program program0) .polling)
    s.Canonical ∧ u.Canonical ∧ (s.record 7).load = some load7 ∧ s.queue.map (fun e => dieOf e.address) = [0] ∧
      entryLoad.destination = .headBlock 0 0 ∧ u.queue = [] ∧ (u.record 7).loadAddress = some 0 ∧ dieOf 0 = 0 :=
  ⟨canonical_of rfl (by decide +kernel) rfl rfl rfl (by decide +kernel),
    canonical_of rfl (by decide +kernel) rfl rfl rfl (by decide +kernel), by decide +kernel⟩

/-- A STORE whose program times out, and one with entries queued behind a read. -/
theorem witness_DieGoesOffline_store :
    let s := withDie { State.reset with stores := [store0] } (dieWith (.program program0) .polling)
    let u := withDie { State.reset with stores := [{ store0 with queued := 1, inFlight := 0 }] }
      { dieWith (.read entry0) .polling with programs := [program0] }
    s.Canonical ∧ u.Canonical ∧ s.stores = [store0] ∧ program0.place = store0.place ∧ (u.die 0).programs = [program0] ∧
      store0.failure = none ∧ store0.inFlight - 1 = 0 :=
  ⟨canonical_of rfl rfl rfl rfl rfl (by decide +kernel), canonical_of rfl rfl rfl rfl rfl (by decide +kernel),
    by decide +kernel⟩

/-! ### Runs given at once, and the silent places among them -/

/-- Every die OFFLINE, and a byte that is not 0 where place 0 of window 0 begins. -/
def dark (s : State) : State :=
  { s with
    dies := (List.range 16).map fun d => (d, { Die.blank with state := .offline }), dram := [(s.placeBase 0 0, 5#8)] }

/-- Record 7 and voice 0, every die OFFLINE. -/
def darkVoice : State := dark (withVoice { record7 with refs := 1 } voice0)

theorem darkVoice_canonical (s : State) (c : s.catalog = darkVoice.catalog) (v : s.voices = darkVoice.voices)
    (w : s.windows = []) (d : s.dies = darkVoice.dies) (m : s.dram = darkVoice.dram) : s.Canonical := by
  refine canonical_of ?_ ?_ ?_ ?_ ?_ ?_
  · rw [m]; decide +kernel
  · rw [c]; decide +kernel
  · rw [v]; decide +kernel
  · rw [w]; rfl
  · rw [w]; rfl
  · rw [d]; decide +kernel

/-- Block 0 has been given to voice 0 as a silent place: the place, its first byte, the fill point, the cursor, the scheduled
frames, and no place after it. -/
def silencedOnce (t : State) : Prop :=
  (t.window 0).place 0 = .filled { run0 with damaged := true } ∧ (t.window 0).place 1 = .empty ∧ (t.window 0).fill = 1 ∧
    Memory.read t.dram (t.placeBase 0 0) = 0#8 ∧ (t.voice 0).scheduled = 2048 ∧
    (t.voice 0).cursor = { source := 2048, stream := 2048, atEnd := false }

/-- RETUNE of voice 0 to half rate, nothing else named. -/
def retuneRateP : RetuneParams := { retuneP with presence := 1#8 }

/-- TUNE_ENGINE of the lead class table alone. -/
def tuneLeadP : TuneParams :=
  { tuneP with mask := 2#32, lead0 := ⟨4#8, 1#8⟩, lead1 := ⟨8#8, 2#8⟩, lead2 := ⟨16#8, 4#8⟩, lead3 := ⟨32#8, 8#8⟩ }

/-- Where RETUNE, SET_PACE, TUNE_ENGINE and PERIOD_EXPIRY find a sounding voice to give runs to. -/
theorem witness_runs :
    darkVoice.Taking ∧ darkVoice.Canonical ∧ darkVoice.WindowsHeldOnce ∧ (running darkVoice).Canonical ∧
      (running darkVoice).WindowsHeldOnce ∧ (darkVoice.voice 0).sounding = true ∧
      darkVoice.layoutOf (darkVoice.voice 0) = some layout7 ∧ retuneValid retuneRateP = true ∧
      settingsOf ⟨0#8, 1#8, 2#8⟩ = some ⟨.internal, 48000, 256⟩ ∧ tuneValid tuneLeadP = true ∧
      tuneLeadP.mask.getLsbD 1 = true :=
  ⟨⟨rfl, rfl, rfl, rfl, rfl⟩, darkVoice_canonical _ rfl rfl rfl rfl rfl, alone rfl,
    darkVoice_canonical _ rfl rfl rfl rfl rfl, alone rfl, by decide +kernel⟩

theorem test_start_silent :
    let s := dark (withRecord record7)
    Memory.read s.dram (s.placeBase 0 0) = 5#8 ∧ silencedOnce (after s (exec (.start last startP) s)) := by
  unfold silencedOnce
  decide +kernel

theorem test_takes_silent :
    silencedOnce (after darkVoice (exec (.retune last retuneRateP) darkVoice)) ∧
      silencedOnce (after darkVoice (exec (.setPace last ⟨0#8, 1#8, 2#8⟩) darkVoice)) ∧
      silencedOnce (after darkVoice (exec (.tuneEngine last tuneLeadP) darkVoice)) := by
  unfold silencedOnce
  decide +kernel

theorem test_expiry_silent : silencedOnce (after (running darkVoice) (exec .periodExpiry (running darkVoice))) := by
  unfold silencedOnce
  decide +kernel

/-- The run of place 1, a silent one of block 1. -/
def run1 : Run := { block := 1, source := 2048, frames := 2048, stream := 2048, damaged := true }

/-- A delivery from place 0, its voice's next block on an OFFLINE die and within its horizon. -/
def darkDelivery : State :=
  { deliverable with
    dies := darkVoice.dies
    voices := [(0, { voice0 with
      leadClass := 3, scheduled := 2048, total := some 4096, cursor := { source := 2048, stream := 2048, atEnd := false } })] }

theorem test_delivery_silent :
    let t := after darkDelivery (exec .dataDelivery darkDelivery)
    darkDelivery.dataChoice = some 0 ∧ (t.window 0).place 0 = .empty ∧ (t.window 0).delivery = 1 ∧
      (t.window 0).place 1 = .filled run1 ∧ (t.voice 0).scheduled = 4096 ∧ (t.voice 0).state = .draining := by
  decide +kernel

theorem witness_DataDeliveryMade_runs :
    darkDelivery.Canonical ∧ darkDelivery.WindowsHeldOnce ∧ darkDelivery.layoutOf (darkDelivery.voice 0) = some layout7 ∧
      (darkDelivery.voice 0).headDelivery layout7 = false ∧ darkDelivery.registers.engine = .ready :=
  ⟨canonical_of rfl (by decide +kernel) (by decide +kernel) (by decide +kernel) (by decide +kernel) (by decide +kernel), alone rfl,
    by decide +kernel⟩

/-- A delivery at which its voice, with a queued entry, ends NATURAL. -/
def lastDelivery : State :=
  { deliverable with
    queue := [{ entry0 with destination := .place 0 1 }]
    voices := [(0, { voice0 with scheduled := 2048, total := some 2048, consumed := 2048 * 65536 })] }

theorem witness_DataDeliveryMade_natural :
    lastDelivery.Canonical ∧ lastDelivery.dataChoice = some 0 ∧
      (after lastDelivery (exec .dataDelivery lastDelivery)).queue = [] ∧
      ((after lastDelivery (exec .dataDelivery lastDelivery)).record 7).refs = 0 ∧
      ((after lastDelivery (exec .dataDelivery lastDelivery)).voice 0).endReason = some .natural :=
  ⟨canonical_of rfl (by decide +kernel) (by decide +kernel) (by decide +kernel) (by decide +kernel) rfl, by decide +kernel⟩

/-- Voice 0 hungry for blocks 0 and 1, die 1 OFFLINE. -/
def hungryDark : State :=
  { hungry with dies := [(1, { Die.blank with state := .offline })], voices := [(0, { voice0 with leadClass := 3 })] }

theorem test_enqueue_silent :
    let t := after hungryDark (exec .fetchEnqueue hungryDark)
    hungryDark.fillChoice = some (.voice 0 0) ∧ (t.window 0).place 0 = .awaited run0 ∧ (t.window 0).place 1 = .filled run1 ∧
      (t.voice 0).scheduled = 4096 := by
  decide +kernel

theorem witness_EnqueueMade_runs : hungryDark.Canonical ∧ hungryDark.WindowsHeldOnce ∧ nothingWaits hungryDark 0 :=
  ⟨canonical_of rfl (by decide +kernel) (by decide +kernel) rfl rfl (by decide +kernel), alone rfl, rfl, rfl, rfl⟩

/-- Voice 0's block 0 waits for die 0, which a program's timeout takes OFFLINE. -/
def dimming : State :=
  { withDie (withVoice { record7 with refs := 1 } voice0) (dieWith (.program program0) .polling) with
    dram := [(State.reset.placeBase 0 0, 5#8)] }

theorem test_offline_silent : silencedOnce (after dimming (exec (.programTimeout 0) dimming)) := by
  unfold silencedOnce
  decide +kernel

theorem witness_DieGoesOffline_runs :
    dimming.Canonical ∧ dimming.WindowsHeldOnce ∧ dimming.registers.engine = .ready ∧
      (dimming.die 0).operation = some (operation (.program program0)) ∧ (dimming.voice 0).sounding = true ∧
      queuedVoice.WindowsHeldOnce ∧ (∀ x ∈ queuedVoice.queue, x.destination = entry0.destination → x.owner = entry0.owner) :=
  ⟨canonical_of (by decide +kernel) (by decide +kernel) (by decide +kernel) rfl rfl (by decide +kernel), alone rfl, rfl,
    by decide +kernel, by decide +kernel, alone rfl, by decide +kernel⟩

/-- A read that times out: its place's bytes read 0. -/
theorem test_timeout_zeros :
    let s := { withDie awaiting (dieWith (.read entry0) .polling) with dram := [(State.reset.placeBase 0 0, 5#8)] }
    ((after s (exec (.readTimeout 0) s)).window 0).place 0 = .filled { run0 with damaged := true } ∧
      Memory.read (after s (exec (.readTimeout 0) s)).dram (State.reset.placeBase 0 0) = 0#8 := by
  decide +kernel

/-- A voice's or a load's last attempt that ends with a CRC mismatch. -/
theorem witness_endsUnrecovered :
    let s := withDie awaiting { dieWith (.read entry0) .transferring with retries := 2 }
    let u := { unrecovered 1 with dies := [(0, { dieWith (.read entryLoad) .transferring with retries := 2 })] }
    let counters := (Counters.zero.rise .blockCheck).rise .unrecovered
    (endsUnrecovered s 0 (.dieTransferEnd 0 [] [1#8, 0#8, 0#8, 0#8]) counters ∧
        endsUnrecovered u 0 (.dieTransferEnd 0 [] [1#8, 0#8, 0#8, 0#8]) counters ∧
        endsUnrecovered (unrecovered 1) 0 (.dieAddressRefused 0) (Counters.zero.rise .unrecovered)) ∧
      u.Canonical ∧ nothingWaits s 0 ∧ nothingWaits u 0 ∧
      (after s (exec (.dieTransferEnd 0 [] [1#8, 0#8, 0#8, 0#8]) s)).registers.counters = counters ∧
      ((after s (exec (.dieTransferEnd 0 [] [1#8, 0#8, 0#8, 0#8]) s)).window 0).place 0 = .filled { run0 with damaged := true } ∧
      (after u (exec (.dieTransferEnd 0 [] [1#8, 0#8, 0#8, 0#8]) u)).registers.counters = counters ∧
      ((after u (exec (.dieTransferEnd 0 [] [1#8, 0#8, 0#8, 0#8]) u)).record 7).staleReason = .blockError :=
  ⟨⟨⟨by decide +kernel, .inr ⟨rfl, ⟨[], [1#8, 0#8, 0#8, 0#8], by decide +kernel, rfl⟩, rfl⟩⟩,
      ⟨by decide +kernel, .inr ⟨rfl, ⟨[], [1#8, 0#8, 0#8, 0#8], by decide +kernel, rfl⟩, rfl⟩⟩, ⟨by decide +kernel, .inl ⟨rfl, rfl, rfl⟩⟩⟩,
    canonical_of rfl (by decide +kernel) rfl rfl rfl (by decide +kernel), ⟨rfl, rfl, rfl⟩, ⟨rfl, rfl, rfl⟩, by decide +kernel⟩

/-! ### What an entry to ENDING leaves -/

/-- Voice 0 with a read in flight for place 0, a queued entry for place 1, and place 2 FILLED. -/
def windowed : State :=
  { awaiting with
    queue := [{ entry0 with destination := .place 0 1 }, entryLoad]
    windows := [(0, { Window.blank with places := [(0, .awaited run0), (1, .awaited run1), (2, .filled run0)], fill := 3 })] }

theorem windowed_canonical : windowed.Canonical :=
  canonical_of rfl (by decide +kernel) (by decide +kernel) (by decide +kernel) (by decide +kernel) rfl

/-- The window keeps its place in flight alone, the queue its other entry, and the record has no voice. -/
def leftEnding (t : State) : Prop :=
  (t.window 0).places = [(0, .awaited run0)] ∧ (t.window 0).fill = 3 ∧ t.queue = [entryLoad] ∧ (t.record 7).refs = 0

theorem test_endings :
    leftEnding (after windowed (exec .panic windowed)) ∧ leftEnding (after windowed (exec (.locate last 0#64) windowed)) ∧
      leftEnding (after windowed (exec (.stop last nameVoice0) windowed)) := by
  unfold leftEnding
  decide +kernel

/-- PANIC, LOCATE and STOP end `windowed`'s voice; a RETIRING record's only voice; a steal within one record. -/
theorem witness_endings :
    windowed.Taking ∧ windowed.Canonical ∧ windowed.WindowsHeldOnce ∧ windowed.registers.engine = .ready ∧
      (windowed.slotsPlaying 7 (windowed.record 7).generation).length = 1 ∧
      (after State.reset (exec .panic (withVoice retiring1 voice0))).record 7 = Record.vacant 1#16 ∧
      (full.voice 0).plays 7 (full.record 7).generation = true ∧
      ((after full (exec (.start last startP) full)).record 7).refs = (full.record 7).refs :=
  ⟨⟨rfl, rfl, rfl, rfl, rfl⟩, windowed_canonical, alone rfl, rfl, by decide +kernel⟩

/-- NATURAL ends at an expiry: the queued entry leaves, the window is emptied, the record's count falls. -/
theorem test_expiry_ends :
    let s := running { windowed with voices := [(0, { voice0 with reads := 1, total := some 0 })] }
    leftEnding (after s (exec .periodExpiry s)) := by
  unfold leftEnding
  decide +kernel

/-! ### Misaligned pointers -/

/-- A next pointer that is no descriptor address, at the ends of the re-reads and at a resume. -/
theorem test_misaligned_request :
    let at_ (s : State) := { s with requests := { s.requests with address := 0x1001#64 } }
    let ends (s : State) := after s (exec (.requestNextRereadEnd (some 0x1001#64)) s)
    let stuck (t : State) := t.requests.state = .parked ∧ t.requests.parkReason = some .linkError ∧
      t.requests.address = 0x1001#64 ∧ t.requests.takenMark = false ∧ t.latched .portError = true ∧ t.out = []
    stuck (ends (rereading .nextAtAdvance)) ∧ stuck (ends (rereading .nextAtResume)) ∧
      stuck (after State.reset (exec .requestResume (at_ (parked .linkError false)))) ∧
      stuck (after State.reset (exec .engineResetClear (inReset { State.reset with
        requests := { waitingRead with address := 0x1001#64 } }))) ∧
      (ends (inReset (rereading .nextAtAdvance))).requests.waiting = true ∧ requestAligned 0x1001#64 = false := by
  decide +kernel

/-- A next pointer that is no buffer descriptor's address, at the ends of the re-reads and at a resume. -/
theorem test_misaligned_buffer :
    let with_ (e : DeliveryEngine) := { State.reset with delivery := e }
    let ends (s : State) := after s (exec (.bufferNextRereadEnd (some 0x41#64)) s)
    let stuck (t : State) := t.delivery.state = .parked ∧ t.delivery.parkReason = some .linkError ∧
      t.delivery.address = 0x41#64 ∧ t.delivery.usedMark = false ∧ t.latched .portError = true ∧
      t.latched .bufferParked = true ∧ t.out = []
    stuck (ends (with_ { waitingFetch with waiting := false, read := .next })) ∧
      stuck (ends (with_ { parkedBuffer .endOfList false with rereads := 1 })) ∧
      stuck (after State.reset (exec .bufferResume (with_ { parkedBuffer .linkError false with address := 0x41#64 }))) ∧
      stuck (after State.reset (exec .engineResetClear (inReset (with_ { waitingFetch with address := 0x41#64 })))) ∧
      (ends (inReset (with_ { waitingFetch with waiting := false, read := .next }))).delivery.waiting = true ∧
      bufferAligned 0x41#64 = false := by
  decide +kernel

/-! ### Messages, flags that stay, and work that waits through an engine reset -/

/-- Messages enabled with every flag's enable bit set. -/
def listening (s : State) : State :=
  { s with registers := { s.registers with msiEnable := true, msiVector := 3#32, mask := 0x3FF#10 } }

/-- A latch sends one message, and a second latch none. -/
theorem test_message_latch :
    let t := after State.reset (exec .statusWriteFailed (listening State.reset))
    t.out = [.message 3#32] ∧ (after State.reset (exec .panic t)).out = t.out ∧
      (after State.reset (exec .bufferFetchFailed { t with delivery := waitingFetch })).out = t.out := by decide +kernel

theorem witness_messageMade :
    let s := listening State.reset
    let t := after State.reset (exec .statusWriteFailed s)
    ¬ s.wantsMessage ∧ t.wantsMessage ∧ ¬ (after State.reset (exec .statusWriteFailed State.reset)).wantsMessage ∧
      s.messages = [] ∧ t.messages = [3#32] :=
  ⟨fun h => h.2 rfl, ⟨by decide +kernel, by decide +kernel⟩, fun h => absurd h.1 (by decide +kernel), by decide +kernel⟩

/-- A clock loss in EXTERNAL_LOCKED sends its message. -/
theorem test_message_clockLoss :
    let s := listening { State.reset with pace := { State.reset.pace with state := .externalLocked } }
    (after s (exec .clockLoss s)).messages = [3#32] := by decide +kernel

/-- A request with NOTIFY clear, and a TAKEN write, leave REQUEST_DONE clear. -/
theorem test_notify_clear :
    let s := fresh
    (after s (exec (.run { last with flags := 0#16 }) s)).latched .requestDone = false ∧
      (after s (exec (.run last) s)).latched .requestDone = true ∧
      (after s (exec (.halt last) (running s))).latched .requestDone = false := by decide +kernel

/-- No delivery while the engine is PARKED, and none during an engine reset. -/
theorem witness_noDelivery :
    let parked : State := { deliverable with delivery := { deliverable.delivery with state := .parked, holding := false } }
    parked.dataChoice = none ∧ parked.delivery.state ≠ .active ∧ (inReset deliverable).dataChoice = none ∧
      (inReset ended).endChoice = none ∧ ended.endChoice = some 0 := by decide +kernel

/-- A first delivery below the priority threshold, and one below the coalescing count. -/
theorem test_notices_quiet :
    let s := { deliverable with tunables := { Tunables.powerOn with priorityThreshold := 16 } }
    let t := after s (exec .dataDelivery s)
    s.dataChoice = some 0 ∧ (s.voice 0).priority < s.tunables.priorityThreshold ∧
      t.latched .priorityDelivery = false ∧ t.latched .delivery = false := by decide +kernel

/-- An engine reset with a fetch and a program waiting for die 0 behind a marked read, another die busy. -/
def resetWaiting : State :=
  let x : Die := { Die.blank with state := .transferring, operation := some (marked (.read entry0)) }
  inReset { awaiting with
    queue := [entry0], dies := [(0, { x with programs := [program0] }), (1, x)], requests := RequestProcessor.blank }

theorem witness_ReadRetries_waiting :
    resetWaiting.registers.engine = .resetting ∧ resetWaiting.subQueue 0 = [entry0] ∧ (resetWaiting.die 1).operation.isSome = true ∧
      endsWork resetWaiting 0 (marked (.read entry0)) .ready (.dieTransferEnd 0 [] []) ∧
      endsWork resetWaiting 0 (marked (.read entry0)) .offline (.readTimeout 0) :=
  ⟨rfl, by decide +kernel, rfl, .inr (.inl ⟨rfl, ⟨_, _, rfl⟩, rfl⟩), .inr (.inr ⟨rfl, rfl⟩)⟩

/-- There the arbiter chooses nothing, and a timeout drops what waits without outcome. -/
theorem test_resetWaiting :
    let t := after resetWaiting (exec (.dieTransferEnd 0 [] []) resetWaiting)
    let u := after resetWaiting (exec (.readTimeout 0) resetWaiting)
    (t.die 0).operation = none ∧ t.queue = [entry0] ∧ (t.die 0).programs = [program0] ∧
      u.queue = [] ∧ (u.die 0).programs = [] ∧ u.latched .dieFault = true ∧ (u.window 0).place 0 = .awaited run0 := by
  decide +kernel

end Sys2Proof.Tests
end

section
/-! PROOFS. POWER_ON and the Sample Catalog (R26): every record is Record.blank, no range is claimed, and so the first DEFINE
issues generation 1. -/

namespace Sys2Proof.Machine

/-! ### The meanings of the two commands -/

theorem exec_powerOn (s : State) : exec .powerOn s = event State.powerOn s := by rfl

theorem exec_define (h : Header) (p : DefineParams) (s : State) :
    exec (.define h p) s = event (arrival h (.define p)) s := by rfl

/-! ### Power-on -/

@[simp] theorem State.powerOn_record (s : State) (id : Nat) : s.powerOn.record id = Record.blank := rfl

@[simp] theorem State.powerOn_stores (s : State) : s.powerOn.stores = [] := rfl

theorem exec_powerOn_next (s : State) : ∃ t, exec .powerOn s = .next t ∧ Posted s.powerOn t := by
  obtain ⟨t, ht, posted, _⟩ := event_next State.powerOn s
  exact ⟨t, (exec_powerOn s).trans ht, posted⟩

/-! ### Claims -/

/-- Only a STORE in flight claims a range (R9). -/
theorem State.storeClaims_of_no_stores {s : State} (h : s.stores = []) (extents : List Extent) :
    s.storeClaims extents = false := by
  simp [State.storeClaims, h]

/-! ### An accepted DEFINE -/

/-- The accepting branch of a DEFINE's checks (R9, R10). -/
theorem takeDefine_accepted {s : State} {p : DefineParams} {l : Layout} (t : Token)
    (hl : layoutOf p s.partition.slotBlocks = some l) (hv : (s.record p.id.toNat).state = .vacant)
    (hc : s.storeClaims l.extents = false) :
    takeDefine t p s =
      (s.setRecord p.id.toNat
        (Record.defined (nextGeneration (s.record p.id.toNat).generation) l (pinOf p))).complete t .ok
        ((nextGeneration (s.record p.id.toNat).generation).setWidth 32) (BitVec.ofNat 32 l.headFrames) := by
  simp [takeDefine, hl, hv, hc]

/-- An accepted DEFINE fills its own record and no other (R10), and is written DONE with the generation and the head frames. -/
theorem exec_define_accepted {s : State} (h : Header) {p : DefineParams} {l : Layout} (k : s.Taking)
    (hl : layoutOf p s.partition.slotBlocks = some l) (hv : (s.record p.id.toNat).state = .vacant)
    (hc : s.storeClaims l.extents = false) :
    ∃ t, exec (.define h p) s = .next t ∧
      TakenDone s t h .ok ((nextGeneration (s.record p.id.toNat).generation).setWidth 32)
        (BitVec.ofNat 32 l.headFrames) ∧
      t.record p.id.toNat = Record.defined (nextGeneration (s.record p.id.toNat).generation) l (pinOf p) ∧
      ∀ id, id ≠ p.id.toNat → t.record id = s.record id := by
  have body := takeDefine_accepted (s := s.beginTake h) (s.tokenFor h) hl hv hc
  obtain ⟨t, ht, done, posted, _⟩ :=
    takenDone_of k (body := .define p) body (congrArg (List.cons _) k.settled) List.prefix_rfl rfl rfl
  refine ⟨t, (exec_define h p s).trans ht, done, ?_, fun id other => ?_⟩
  · simp [posted.record]
  · simp [posted.record, State.record_setRecord_other _ _ other]

/-- Generation 0 is never issued: the first DEFINE of a blank record issues generation 1 (R10, R26). -/
theorem exec_define_blank {s : State} (h : Header) {p : DefineParams} {l : Layout} (k : s.Taking)
    (blank : s.record p.id.toNat = Record.blank) (hl : layoutOf p s.partition.slotBlocks = some l)
    (hc : s.storeClaims l.extents = false) :
    ∃ t, exec (.define h p) s = .next t ∧ t.record p.id.toNat = Record.defined 1#16 l (pinOf p) := by
  have vacant : (s.record p.id.toNat).state = .vacant := by rw [blank]; rfl
  have first : nextGeneration (s.record p.id.toNat).generation = 1#16 := by rw [blank]; rfl
  obtain ⟨t, ht, _, filled, _⟩ := exec_define_accepted h k hl vacant hc
  exact ⟨t, ht, first ▸ filled⟩

/-- Settles O9: what power-on leaves in the catalog is read through `Posted`, and the DEFINE after it is the accepted DEFINE of
a blank record. -/
theorem powerOnCatalog : Obligations.PowerOnCatalog := by
  intro s
  obtain ⟨t, ht, posted⟩ := exec_powerOn_next s
  have blank (id : Nat) : t.record id = Record.blank := (posted.record id).trans (s.powerOn_record id)
  have noStores : t.stores = [] := posted.stores.trans s.powerOn_stores
  refine ⟨t, ht, fun id => ?_, noStores, State.storeClaims_of_no_stores noStores, ?_⟩
  · rw [blank id]
    exact ⟨rfl, rfl, rfl, rfl, rfl, rfl, rfl, rfl⟩
  · intro u h p l taking asLeft hl hc
    obtain ⟨w, hw, filled⟩ := exec_define_blank h taking (asLeft.trans (blank _)) hl hc
    exact ⟨w, hw, by rw [filled]; rfl, by rw [filled]; rfl⟩

end Sys2Proof.Machine
end

section
/-! PROOFS. POWER_ON and the voice slots (R76): every slot is Voice.blank, no window is held, no START is counted, and so the
first START gets sequence 0 and issues generation 1. -/

namespace Sys2Proof.Machine

/-! ### What power-on leaves in the Voice Table -/

@[simp] theorem State.powerOn_voices (s : State) : s.powerOn.voices = [] := rfl

@[simp] theorem State.powerOn_voice (s : State) (n : Nat) : s.powerOn.voice n = Voice.blank := rfl

@[simp] theorem State.powerOn_startCount (s : State) : s.powerOn.startCount = 0 := rfl

@[simp] theorem State.powerOn_tunables (s : State) : s.powerOn.tunables = Tunables.powerOn := rfl

/-! ### Windows -/

/-- Only a slot that is not FREE holds a window (R42). -/
theorem State.windowFree_of_no_voices {s : State} (h : s.voices = []) (w : Nat) : s.windowFree w = true := by
  simp [State.windowFree, h]

/-! ### The voice a START sets up -/

section
variable (s : State) (p : StartParams) (r : Record) (l : Layout) (slot window : Nat)

@[simp] theorem State.newVoice_startSequence : (s.newVoice p r l slot window).startSequence = s.startCount := rfl

@[simp] theorem State.newVoice_generation :
    (s.newVoice p r l slot window).generation = nextGeneration (s.voice slot).generation := rfl

end

/-- A slot with generation 0 issues generation 1 (R76). -/
theorem State.newVoice_generation_first {s : State} {slot : Nat} (h : (s.voice slot).generation = 0#16)
    (p : StartParams) (r : Record) (l : Layout) (window : Nat) :
    (s.newVoice p r l slot window).generation = 1#16 := by
  rw [State.newVoice_generation, h]
  rfl

/-- Settles O10: what power-on leaves in the Voice Table is read through `Posted`; the voice of the START after it takes its
sequence from the count and its generation from the slot. -/
theorem powerOnVoices : Obligations.PowerOnVoices := by
  intro s
  obtain ⟨t, ht, posted⟩ := exec_powerOn_next s
  have blank (n : Nat) : t.voice n = Voice.blank := (posted.voice n).trans (s.powerOn_voice n)
  have noVoices : t.voices = [] := posted.voices.trans s.powerOn_voices
  have tunables : t.tunables = Tunables.powerOn := posted.tunables.trans s.powerOn_tunables
  have noStarts : t.startCount = 0 := posted.startCount.trans s.powerOn_startCount
  refine ⟨t, ht, blank, State.windowFree_of_no_voices noVoices, by rw [tunables]; rfl, noStarts, ?_⟩
  intro u p r l slot w counted asLeft
  have unissued : (u.voice slot).generation = 0#16 := by rw [asLeft, blank]; rfl
  exact ⟨counted.trans noStarts, State.newVoice_generation_first unissued p r l w⟩

end Sys2Proof.Machine
end

section
/-! PROOFS. What no operation of the library, the voices and the dies does: it changes no register and puts no VACANT record in
possession of a head slot. `Calm` says it, with one lemma an operation, beside `Inner` of Laws/Inner.lean. -/

namespace Sys2Proof.Machine

/-! ### Records -/

/-- A record that an operation leaves VACANT holds no head slot, unless it was VACANT before and holds what it held. -/
def RecordStep (r q : Record) : Prop :=
  q.state = .vacant → q.headSlot = none ∨ (r.state = .vacant ∧ q.headSlot = r.headSlot)

theorem RecordStep.refl (r : Record) : RecordStep r r := fun h => .inr ⟨h, rfl⟩

theorem RecordStep.trans {r q p : Record} (h : RecordStep r q) (k : RecordStep q p) : RecordStep r p := by
  intro hp
  obtain none | ⟨hq, same⟩ := k hp
  · exact .inl none
  · obtain none | ⟨hr, same'⟩ := h hq
    · exact .inl (same.trans none)
    · exact .inr ⟨hr, same.trans same'⟩

/-- A record keeps its state and its head slot. -/
theorem RecordStep.of_kept {r q : Record} (hs : q.state = r.state) (hh : q.headSlot = r.headSlot) : RecordStep r q :=
  fun h => .inr ⟨hs.symm.trans h, hh⟩

theorem RecordStep.of_slotless (r : Record) {q : Record} (h : q.headSlot = none) : RecordStep r q := fun _ => .inl h

theorem RecordStep.of_inUse (r : Record) {q : Record} (h : q.state ≠ .vacant) : RecordStep r q := fun k => absurd k h

/-- Every record makes such a step. -/
def Steady (s t : State) : Prop := ∀ id, RecordStep (s.record id) (t.record id)

theorem Steady.refl (s : State) : Steady s s := fun _ => RecordStep.refl _

theorem Steady.trans {s t u : State} (h : Steady s t) (k : Steady t u) : Steady s u := fun id => (h id).trans (k id)

theorem Steady.of_catalog {s t : State} (h : t.catalog = s.catalog) : Steady s t := fun id => by
  rw [State.record_congr h]
  exact RecordStep.refl _

theorem Steady.setRecord (s : State) (id : Nat) (r : Record) (h : RecordStep (s.record id) r) :
    Steady s (s.setRecord id r) := by
  intro j
  by_cases hj : j = id
  · subst hj
    rw [State.record_setRecord_same]
    exact h
  · rw [State.record_setRecord_other s r hj]
    exact RecordStep.refl _

/-! ### Calm operations -/

/-- The operation changes no register, and its records make steps. -/
structure Calm (s t : State) : Prop where
  registers : t.registers = s.registers
  records : Steady s t

theorem Calm.refl (s : State) : Calm s s := ⟨rfl, Steady.refl s⟩

theorem Calm.trans {s t u : State} (h : Calm s t) (k : Calm t u) : Calm s u :=
  ⟨k.registers.trans h.registers, h.records.trans k.records⟩

theorem Calm.ite {s t u : State} {c : Prop} [Decidable c] (h : Calm s t) (k : Calm s u) : Calm s (if c then t else u) := by
  split
  · exact h
  · exact k

theorem Calm.foldl {α : Type} (f : State → α → State) (h : ∀ s x, Calm s (f s x)) (l : List α) (s : State) :
    Calm s (l.foldl f s) := by
  induction l generalizing s with
  | nil => exact Calm.refl s
  | cons x xs ih => exact (h s x).trans (ih _)

/-- An operation that leaves the catalog and the registers alone. -/
theorem Calm.of_same {s t : State} (hr : t.registers = s.registers) (hc : t.catalog = s.catalog) : Calm s t :=
  ⟨hr, Steady.of_catalog hc⟩

/-- A calm operation, made after one that leaves the catalog and the registers alone. -/
theorem Calm.after {s u t : State} (k : Calm u t) (hr : u.registers = s.registers) (hc : u.catalog = s.catalog) :
    Calm s t := (Calm.of_same hr hc).trans k

theorem Calm.setRecord (s : State) (id : Nat) (r : Record) (h : RecordStep (s.record id) r) : Calm s (s.setRecord id r) :=
  ⟨rfl, Steady.setRecord s id r h⟩

/-! ### The catalog, the voices, the head store -/

theorem Calm.toVacant (s : State) (id : Nat) : Calm s (s.toVacant id) :=
  (Calm.setRecord s id _ (RecordStep.of_slotless _ rfl)).trans (Calm.of_same rfl rfl)

theorem Calm.settleRetiring (s : State) (id : Nat) : Calm s (s.settleRetiring id) := by
  simp only [State.settleRetiring]
  refine Calm.ite ?_ (Calm.refl s)
  split
  · exact (Calm.toVacant _ id).after rfl rfl
  · exact Calm.toVacant s id

theorem Calm.dropReference (s : State) (id : Nat) (g : Generation) : Calm s (s.dropReference id g) := by
  simp only [State.dropReference]
  refine Calm.ite ((Calm.setRecord s id _ ?_).trans (Calm.settleRetiring _ id)) (Calm.refl s)
  exact RecordStep.of_kept rfl rfl

theorem Calm.endVoice (reason : EndReason) (s : State) (slot : Nat) : Calm s (State.endVoice reason s slot) := by
  simp only [State.endVoice]
  refine Calm.ite (Calm.trans ?_ (Calm.dropReference _ _ _)) (Calm.refl s)
  exact Calm.of_same rfl rfl

theorem Calm.endVoices (reason : EndReason) (s : State) (l : List Nat) : Calm s (s.endVoices reason l) :=
  Calm.foldl _ (Calm.endVoice reason) l s

theorem Calm.settleFree (s : State) (slot : Nat) : Calm s (s.settleFree slot) := by
  simp only [State.settleFree]
  exact Calm.ite (Calm.of_same rfl rfl) (Calm.refl s)

theorem Calm.releaseSlot (s : State) (slot reads id : Nat) (g : Generation) : Calm s (s.releaseSlot slot reads id g) := by
  simp only [State.releaseSlot]
  exact Calm.ite (Calm.of_same rfl rfl) (Calm.refl s)

theorem Calm.abandonLoad (s : State) (id : Nat) (reason : EndReason) : Calm s (s.abandonLoad id reason) := by
  simp only [State.abandonLoad]
  split
  · exact Calm.refl s
  · have dropped : Calm s (s.dropLoadEntries id (s.record id).generation) := Calm.of_same rfl rfl
    refine dropped.trans ((Calm.endVoices _ _ _).trans (Calm.after ((Calm.setRecord _ _ _ ?_).trans
      (Calm.releaseSlot _ _ _ _ _)) rfl rfl))
    exact RecordStep.of_slotless _ rfl

theorem Calm.loadFailureComplete (f : LoadFailure) (s : State) (l : Load) : Calm s (f.complete s l) := by
  cases f <;> exact Calm.of_same rfl rfl

theorem Calm.failLoad (s : State) (id : Nat) (f : LoadFailure) : Calm s (s.failLoad id f) := by
  simp only [State.failLoad]
  split
  · exact Calm.refl s
  · have dropped : Calm s (s.dropLoadEntries id (s.record id).generation) := Calm.of_same rfl rfl
    refine dropped.trans ((Calm.endVoices _ _ _).trans ((Calm.loadFailureComplete _ _ _).trans
      ((Calm.setRecord _ _ _ ?_).trans (Calm.releaseSlot _ _ _ _ _))))
    exact RecordStep.of_slotless _ rfl

theorem Calm.finishLoad (s : State) (id : Nat) (l : Load) : Calm s (s.finishLoad id l) := by
  have resident : Calm s (s.setRecord id { s.record id with state := .resident, load := none }) :=
    Calm.setRecord s id _ (RecordStep.of_inUse _ (by simp))
  exact resident.trans (Calm.of_same rfl rfl)

theorem Calm.judgeLoad (s : State) (id : Nat) (y : Layout) (l : Load) : Calm s (s.judgeLoad id y l) := by
  simp only [State.judgeLoad]
  split
  · exact Calm.finishLoad s id l
  · exact Calm.ite (Calm.finishLoad s id l) (Calm.failLoad s id _)

/-! ### The giving of runs -/

theorem State.KeptButRuns.calm {s t : State} (h : s.KeptButRuns t) : Calm s t := by
  unfold State.KeptButRuns at h
  exact Calm.of_same (by rw [h]) (by rw [h])

theorem Calm.settleVoice (s : State) (slot : Nat) : Calm s (s.settleVoice slot) :=
  (State.settleVoice_judged s slot).kept.calm

theorem Calm.settleVoices (s : State) : Calm s s.settleVoices := Calm.foldl _ Calm.settleVoice _ s

theorem Calm.settleLoad (s : State) (id : Nat) : Calm s (s.settleLoad id) := by
  simp only [State.settleLoad]
  split
  · exact Calm.ite (Calm.failLoad s id _) (Calm.refl s)
  · exact Calm.refl s

theorem Calm.settleLoads (s : State) : Calm s s.settleLoads := Calm.foldl _ Calm.settleLoad _ s

/-! ### The dies -/

theorem Calm.storeComplete (x : StoreEntry) (s : State) : Calm s (x.complete s) := by
  simp only [StoreEntry.complete]
  split <;> exact Calm.of_same rfl rfl

theorem Calm.judgeStore (s : State) (p : Nat) : Calm s (s.judgeStore p) := by
  simp only [State.judgeStore]
  split
  · exact Calm.refl s
  · exact Calm.ite ((Calm.storeComplete _ _).after rfl rfl) (Calm.refl s)

theorem Calm.judgeStores (s : State) : Calm s s.judgeStores := Calm.foldl _ Calm.judgeStore _ s

theorem Calm.failStore (s : State) (p b : Nat) : Calm s (s.failStore p b) := by
  simp only [State.failStore]
  split
  · exact Calm.refl s
  · exact Calm.ite (Calm.refl s) (Calm.of_same rfl rfl)

theorem Calm.raiseReads (s : State) (o : Owner) : Calm s (s.raiseReads o) := by
  cases o
  · exact Calm.of_same rfl rfl
  · exact Calm.setRecord s _ _ (RecordStep.of_kept rfl rfl)

theorem Calm.issueRead (s : State) (d : Nat) (e : FetchEntry) : Calm s (s.issueRead d e) := by
  simp only [State.issueRead]
  refine Calm.trans (Calm.after (Calm.raiseReads _ e.owner) ?_ ?_) (Calm.of_same rfl rfl) <;> rfl

theorem Calm.chooseTransfer (s : State) (d : Nat) : Calm s (s.chooseTransfer d) := by
  simp only [State.chooseTransfer]
  split
  · exact Calm.ite (Calm.issueRead s d _) (Calm.of_same rfl rfl)
  · exact Calm.issueRead s d _
  · exact Calm.of_same rfl rfl
  · exact Calm.refl s

theorem Calm.chooseReady (d : Nat) (l : List PollRequest) (s : State) : Calm s (State.chooseReady d l s) := by
  induction l generalizing s with
  | nil => exact Calm.chooseTransfer s d
  | cons q rest ih =>
    simp only [State.chooseReady]
    exact Calm.ite ((ih _).after rfl rfl) (Calm.of_same rfl rfl)

theorem Calm.arbitrate (s : State) (d : Nat) : Calm s (s.arbitrate d) := by
  simp only [State.arbitrate]
  refine Calm.ite (Calm.refl s) ?_
  split
  · exact Calm.chooseReady d _ s
  · exact Calm.ite (Calm.refl s) (Calm.of_same rfl rfl)
  all_goals exact Calm.refl s

theorem Calm.fillAwaited (s : State) (w i : Nat) (l : Layout) (e : ReadEnd) : Calm s (s.fillAwaited w i l e) := by
  simp only [State.fillAwaited]
  split
  · cases e <;> exact Calm.of_same rfl rfl
  all_goals exact Calm.refl s

theorem Calm.endVoiceRead (s : State) (slot : Nat) (g : Generation) (w i : Nat) (e : ReadEnd) :
    Calm s (s.endVoiceRead slot g w i e) := by
  have lowered : Calm s (s.setVoice slot { s.voice slot with reads := (s.voice slot).reads - 1 }) := Calm.of_same rfl rfl
  simp only [State.endVoiceRead]
  refine Calm.ite (Calm.ite ?_ ?_) (Calm.refl s)
  · split
    · exact lowered.trans (Calm.fillAwaited _ _ _ _ _)
    · exact lowered
  · exact (Calm.settleFree _ _).after rfl rfl

theorem Calm.arriveHead (s : State) (id k : Nat) (data : List Byte) : Calm s (s.arriveHead id k data) := by
  simp only [State.arriveHead]
  split
  · refine Calm.ite (Calm.after ((Calm.setRecord _ id _ ?_).trans (Calm.judgeLoad _ _ _ _)) ?_ ?_)
      (Calm.after (Calm.setRecord _ id _ ?_) ?_ ?_)
    · exact RecordStep.of_kept rfl rfl
    · rfl
    · rfl
    · exact RecordStep.of_kept rfl rfl
    · rfl
    · rfl
  · exact Calm.refl s

theorem Calm.lowerLoadReads (s : State) (id : Nat) (g : Generation) (slot : Nat) : Calm s (s.lowerLoadReads id g slot) := by
  have lowered (l : List Reclaim) : Calm s { s with reclaiming := l } := Calm.of_same rfl rfl
  simp only [State.lowerLoadReads]
  exact Calm.ite ((lowered _).trans (Calm.setRecord _ _ _ (RecordStep.of_kept rfl rfl))) (lowered _)

theorem Calm.endLoadRead (s : State) (id : Nat) (g : Generation) (slot k : Nat) (e : ReadEnd) :
    Calm s (s.endLoadRead id g slot k e) := by
  have lowered := Calm.lowerLoadReads s id g slot
  simp only [State.endLoadRead]
  refine Calm.ite ?_ (lowered.trans (Calm.settleRetiring _ _))
  cases e with
  | good data => exact lowered.trans (Calm.arriveHead _ _ _ _)
  | unrecovered => exact lowered.trans (Calm.failLoad _ _ _)
  | offline => exact lowered.trans (Calm.failLoad _ _ _)

theorem Calm.handOver (s : State) (f : FetchEntry) (e : ReadEnd) : Calm s (s.handOver f e) := by
  simp only [State.handOver]
  split
  · exact Calm.endVoiceRead s _ _ _ _ _
  · exact Calm.endLoadRead s _ _ _ _ _
  all_goals exact Calm.refl s

theorem Calm.dieIdle (s : State) (d : Nat) : Calm s (s.dieIdle d) := Calm.of_same rfl rfl

theorem Calm.endRead (s : State) (d : Nat) (f : FetchEntry) (discard : Bool) (e : ReadEnd) :
    Calm s (s.endRead d f discard e) := by
  simp only [State.endRead]
  exact ((Calm.dieIdle s d).trans (Calm.ite (Calm.refl _) (Calm.handOver _ _ _))).trans (Calm.arbitrate _ d)

theorem Calm.endProgram (s : State) (d : Nat) (p : ProgramEntry) (discard : Bool) : Calm s (s.endProgram d p discard) := by
  simp only [State.endProgram]
  refine Calm.trans ((Calm.dieIdle s d).trans ?_) (Calm.arbitrate _ d)
  exact Calm.ite (Calm.refl _) ((Calm.judgeStore _ _).after rfl rfl)

theorem Calm.programFails (s : State) (p : ProgramEntry) : Calm s (s.programFails p) :=
  (Calm.failStore _ _ _).after (u := s.updateStore p.place _) rfl rfl

theorem Calm.failProgram (s : State) (d : Nat) (p : ProgramEntry) (discard : Bool) : Calm s (s.failProgram d p discard) := by
  simp only [State.failProgram]
  exact ((Calm.dieIdle s d).trans (Calm.ite (Calm.refl _) ((Calm.programFails _ _).trans (Calm.judgeStore _ _)))).trans
    (Calm.arbitrate _ d)

theorem Calm.endPoll (s : State) (d : Nat) (o : Operation) (a : PollAnswer) (n : Nat) : Calm s (s.endPoll d o a n) := by
  simp only [State.endPoll]
  split <;> exact (Calm.arbitrate _ d).after rfl rfl

theorem Calm.failLoadOffline (l : List FetchEntry) (s : State) (o : Nat × Generation) :
    Calm s (State.failLoadOffline l s o) := by
  simp only [State.failLoadOffline]
  refine Calm.ite ?_ (Calm.refl s)
  split
  · exact Calm.failLoad s _ _
  · exact Calm.refl s

theorem Calm.failVoiceEntry (s : State) (e : FetchEntry) : Calm s (s.failVoiceEntry e) := by
  simp only [State.failVoiceEntry]
  split
  · refine Calm.ite ?_ (Calm.refl s)
    split
    · exact Calm.fillAwaited s _ _ _ _
    · exact Calm.refl s
  all_goals exact Calm.refl s

theorem Calm.failQueuedStore (l : List ProgramEntry) (s : State) (p : Nat) : Calm s (State.failQueuedStore l s p) := by
  simp only [State.failQueuedStore]
  split
  · exact Calm.failStore s _ _
  · exact Calm.refl s

theorem Calm.timedOutRead (s : State) (f : FetchEntry) : Calm s (s.timedOutRead f) := by
  simp only [State.timedOutRead]
  split
  · exact Calm.endVoiceRead s _ _ _ _ _
  · exact Calm.ite (Calm.lowerLoadReads s _ _ _) ((Calm.lowerLoadReads s _ _ _).trans (Calm.settleRetiring _ _))
  all_goals exact Calm.refl s

theorem Calm.timedOutWork (s : State) (o : Operation) : Calm s (s.timedOutWork o) := by
  simp only [State.timedOutWork]
  refine Calm.ite (Calm.refl s) ?_
  split
  · exact Calm.timedOutRead s _
  · exact Calm.programFails s _
  · exact Calm.refl s

/-! ### Operations that latch flags or raise counters -/

/-- An operation after a latch or a count: calm from the state whose registers alone differ. -/
theorem Calm.steady_after {s u t : State} (k : Calm u t) (h : u.catalog = s.catalog) : Steady s t :=
  (Steady.of_catalog h).trans k.records

/-- What a die that goes OFFLINE leads to, beside the latched flag. -/
theorem State.goOffline_calm (s : State) (d : Nat) (o : Operation) : Calm (s.latch .dieFault) (s.goOffline d o) := by
  simp only [State.goOffline]
  refine Calm.trans (Calm.of_same (t := { (s.setDie d { s.die d with
    state := .offline, operation := none, retries := 0, buffer := [], programs := [] }).latch .dieFault with
      queue := s.queue.filter fun e => dieOf e.address != d }) rfl rfl) (Calm.ite (Calm.refl _) ?_)
  exact (Calm.timedOutWork _ _).trans ((Calm.foldl _ Calm.failVoiceEntry _ _).trans
    ((Calm.foldl _ (Calm.failLoadOffline _) _ _).trans ((Calm.foldl _ (Calm.failQueuedStore _) _ _).trans
      ((Calm.judgeStores _).trans ((Calm.settleVoices _).trans (Calm.settleLoads _))))))

theorem Steady.goOffline (s : State) (d : Nat) (o : Operation) : Steady s (s.goOffline d o) :=
  (s.goOffline_calm d o).steady_after rfl

theorem Steady.endAttempt (s : State) (d : Nat) (f : FetchEntry) (o : Operation) : Steady s (s.endAttempt d f o) := by
  simp only [State.endAttempt]
  split
  · exact (Calm.endRead s d f _ _).records
  · split
    · exact Steady.of_catalog rfl
    · exact (Calm.endRead _ d f _ _).steady_after rfl

/-! ### The dies' answers -/

theorem Steady.pollInterval (s : State) (d : Nat) : Steady s (s.pollInterval d) := by
  simp only [State.pollInterval]
  split
  · split <;> exact Steady.of_catalog rfl
  · exact Steady.refl s

theorem Steady.addressAck (s : State) (d : Nat) : Steady s (s.addressAck d) := by
  simp only [State.addressAck]
  split
  · split <;> exact Steady.of_catalog rfl
  · exact Steady.refl s

theorem Steady.addressRefused (s : State) (d : Nat) : Steady s (s.addressRefused d) := by
  simp only [State.addressRefused]
  split
  · split
    · exact Steady.endAttempt s d _ _
    · exact (Calm.failProgram s d _ _).records
    · exact Steady.refl s
  · exact Steady.refl s

theorem Steady.readyAnswer (s : State) (d n : Nat) : Steady s (s.readyAnswer d n) := by
  simp only [State.readyAnswer]
  split
  · exact Steady.refl s
  · split
    · exact (Calm.endPoll s d _ _ _).records
    · split <;> exact Steady.of_catalog rfl
    · split
      · exact (Calm.endProgram s d _ _).records
      · exact Steady.refl s

theorem Steady.busyAnswer (s : State) (d n : Nat) : Steady s (s.busyAnswer d n) := by
  simp only [State.busyAnswer]
  split
  · exact Steady.refl s
  · split
    · exact (Calm.endPoll s d _ _ _).records
    all_goals exact Steady.refl s

theorem Steady.crcMismatch (s : State) (d : Nat) (f : FetchEntry) (o : Operation) : Steady s (s.crcMismatch d f o) := by
  simp only [State.crcMismatch]
  refine Steady.trans (Steady.of_catalog ?_) (Steady.endAttempt _ d f o)
  split <;> rfl

theorem Steady.transferEnd (s : State) (d : Nat) (data stored : List Byte) : Steady s (s.transferEnd d data stored) := by
  simp only [State.transferEnd]
  have held (given : List Byte) : Steady s (s.holdTransfer d given) := Steady.of_catalog rfl
  split
  · split
    · split
      · exact (held _).trans (Calm.endRead _ d _ _ _).records
      · exact (held _).trans (Steady.crcMismatch _ d _ _)
    all_goals exact Steady.refl s
  · exact Steady.refl s

theorem Steady.readTimesOut (s : State) (d : Nat) : Steady s (s.readTimesOut d) := by
  simp only [State.readTimesOut]
  split
  · exact Steady.refl s
  · split
    · exact Steady.goOffline s d _
    all_goals exact Steady.refl s

theorem Steady.pollTimesOut (s : State) (d : Nat) : Steady s (s.pollTimesOut d) := by
  simp only [State.pollTimesOut]
  split
  · exact Steady.refl s
  · split
    · exact (Calm.endPoll s d _ _ _).records
    all_goals exact Steady.refl s

theorem Steady.dataPhaseEnds (s : State) (d : Nat) (data : List Byte) : Steady s (s.dataPhaseEnds d data) := by
  simp only [State.dataPhaseEnds]
  split
  · split <;> exact Steady.of_catalog rfl
  · exact Steady.refl s

theorem Steady.dmaFails (s : State) (d : Nat) : Steady s (s.dmaFails d) := by
  simp only [State.dmaFails]
  split
  · split
    · exact (Calm.failProgram _ d _ _).steady_after rfl
    all_goals exact Steady.refl s
  · exact Steady.refl s

theorem Steady.programTimesOut (s : State) (d : Nat) : Steady s (s.programTimesOut d) := by
  simp only [State.programTimesOut]
  split
  · exact Steady.refl s
  · split
    · exact Steady.goOffline s d _
    all_goals exact Steady.refl s

end Sys2Proof.Machine
end

section
/-! PROOFS. What every command keeps, said once: `Orderly` gathers the invariants of Safety.lean, that what has left the part stays,
and that the commands that wait go on waiting; it composes, and each operation of a command is orderly. `work` names the
operation whose event a command is. -/

namespace Sys2Proof.Machine

/-! ### The work of a command -/

/-- What the owners do at the event that a command is. -/
def work : Instr → State → State
  | .define h p => arrival h (.define p)
  | .setPin h r pin => arrival h (.setPin r pin)
  | .retire h r force => arrival h (.retire r force)
  | .loadHead h r => arrival h (.loadHead r)
  | .unloadHead h r => arrival h (.unloadHead r)
  | .configureMemory h p => arrival h (.configureMemory p)
  | .start h p => arrival h (.start p)
  | .release h v => arrival h (.release v)
  | .stop h v => arrival h (.stop v)
  | .retune h p => arrival h (.retune p)
  | .run h => arrival h .run
  | .halt h => arrival h .halt
  | .locate h position => arrival h (.locate position)
  | .setPace h p => arrival h (.setPace p)
  | .store h p => arrival h (.store p)
  | .probeDie h die => arrival h (.probeDie die)
  | .reviveDie h die => arrival h (.reviveDie die)
  | .tuneEngine h p => arrival h (.tuneEngine p)
  | .badKind h kind => arrival h (.badKind kind)
  | .requestFetchHeld r => fun s => s.requestArrives r
  | .requestFetchFailed => State.requestFetchFails
  | .requestNextRereadEnd read => fun s => s.requestReread read
  | .statusWriteFailed => fun s => s.latch .portError
  | .requestListPointer lower => fun s => s.requestPointerLower lower
  | .requestResume => State.resumeRequests
  | .bufferListPointer lower => fun s => s.bufferPointerLower lower
  | .bufferResume => State.resumeBuffer
  | .bufferFetchArrival next buffer done => fun s => s.bufferArrives next buffer done
  | .bufferFetchFailed => State.bufferFetchFails
  | .bufferNextRereadEnd read => fun s => s.bufferReread read
  | .dataDelivery => State.deliverData
  | .endDelivery => State.deliverEnd
  | .deliveryWriteFailed => State.deliveryFails
  | .panic => State.panic
  | .engineReset => State.engineReset
  | .engineResetClear => State.finishEngineReset
  | .interruptStatusWrite value => fun s => s.clearFlags value
  | .interruptMaskWrite value => fun s => s.writeMask value
  | .counterWrite counter => fun s => s.clearCounter counter
  | .inspectCapture table index page => fun s => s.capture table index page
  | .inspectPageSelect page => fun s => s.selectPage page
  | .wideRegisterUpperWrite register value => fun s => s.writeUpper register value
  | .wideRegisterLowerRead register => fun s => s.readLower register
  | .registerWrite _ _ => fun s => s
  | .msiEnableChange enable vector => fun s => s.setMessages enable vector
  | .powerOn => State.powerOn
  | .linkReset => State.linkReset
  | .periodExpiry => State.expiry
  | .clockLoss => State.clockLost
  | .wordClockEdge => State.clockEdge
  | .fetchEnqueue => State.fetchEnqueue
  | .diePollInterval d => fun s => s.pollInterval d.val
  | .dieAddressAck d => fun s => s.addressAck d.val
  | .programDataPhaseEnd d data => fun s => s.dataPhaseEnds d.val data
  | .dieAddressRefused d => fun s => (s.addressRefused d.val).finishEngineReset
  | .dieReadyAnswer d elapsed => fun s => (s.readyAnswer d.val elapsed.toNat).finishEngineReset
  | .dieBusyAnswer d elapsed => fun s => (s.busyAnswer d.val elapsed.toNat).finishEngineReset
  | .dieTransferEnd d data stored => fun s => (s.transferEnd d.val data stored).finishEngineReset
  | .readTimeout d => fun s => (s.readTimesOut d.val).finishEngineReset
  | .pollTimeout d => fun s => (s.pollTimesOut d.val).finishEngineReset
  | .programDmaFailed d => fun s => (s.dmaFails d.val).finishEngineReset
  | .programTimeout d => fun s => (s.programTimesOut d.val).finishEngineReset

theorem exec_work (c : Instr) (s : State) : exec c s = event (work c) s := by
  cases c <;> rfl

/-! ### The invariants, each from what it speaks of -/

theorem State.Canonical.of_same {s t : State} (k : s.Canonical) (dram : t.dram = s.dram) (catalog : t.catalog = s.catalog)
    (voices : t.voices = s.voices) (windows : t.windows = s.windows) (dies : t.dies = s.dies) : t.Canonical where
  dram := dram ▸ k.dram
  catalog := catalog ▸ k.catalog
  voices := voices ▸ k.voices
  windows := windows ▸ k.windows
  places w := State.window_congr windows w ▸ k.places w
  dies := dies ▸ k.dies

theorem State.WithinLimits.of_le {s t : State} (k : s.WithinLimits) (queue : t.queue.length ≤ s.queue.length)
    (stores : t.stores.length ≤ s.stores.length) (polls : ∀ d, (t.die d).polls.length ≤ (s.die d).polls.length) :
    t.WithinLimits where
  queue := Nat.le_trans queue k.queue
  stores := Nat.le_trans stores k.stores
  polls d := Nat.le_trans (polls d) (k.polls d)

theorem State.PaceSound.of_pace {s t : State} (k : s.PaceSound) (h : t.pace = s.pace) : t.PaceSound := by
  constructor <;> rw [h]
  · exact k.locked
  · exact k.stopped

/-- What the voice invariants ask of a voice's change: it does not begin to sound, is not taken into use, and keeps its window
while in use. -/
structure Voice.Tame (v w : Voice) : Prop where
  sounding : w.sounding = true → v.sounding = true
  held : w.state ≠ .free → v.state ≠ .free ∧ w.window = v.window

theorem Voice.Tame.refl (v : Voice) : v.Tame v := ⟨id, fun h => ⟨h, rfl⟩⟩

theorem Voice.Tame.trans {u v w : Voice} (h : u.Tame v) (k : v.Tame w) : u.Tame w where
  sounding := h.sounding ∘ k.sounding
  held x := ⟨(h.held (k.held x).1).1, (k.held x).2.trans (h.held (k.held x).1).2⟩

theorem Voice.Tame.of_kept {v w : Voice} (hs : w.state = v.state) (hw : w.window = v.window) : v.Tame w where
  sounding := by simp [Voice.sounding, hs]
  held := by simp [hs, hw]

theorem VoiceStep.tame {v w : Voice} (h : VoiceStep v w) : v.Tame w := ⟨h.sounding, fun k => ⟨h.inUse k, h.window⟩⟩

/-- A list without duplicates is not longer than a list that has all its elements. -/
theorem nodup_length_le (l : List Nat) : ∀ m : List Nat, l.Nodup → (∀ n ∈ l, n ∈ m) → l.length ≤ m.length := by
  induction l with
  | nil => exact fun _ _ _ => Nat.zero_le _
  | cons x l ih =>
    intro m nodup inside
    obtain ⟨apart, rest⟩ := List.nodup_cons.mp nodup
    have listed := inside x List.mem_cons_self
    have shorter := ih (m.erase x) rest fun n hn =>
      (List.mem_erase_of_ne fun e : n = x => apart (e ▸ hn)).mpr (inside n (List.mem_cons_of_mem _ hn))
    rw [List.length_erase_of_mem listed] at shorter
    have some := List.length_pos_of_mem listed
    rw [List.length_cons]
    omega

/-- Slots that sound are counted once each, so no more sound where fewer slots do. -/
theorem State.soundingCount_le {s : State} (c : Table.wf Voice.blank s.voices = true) (slots : List Nat)
    (h : ∀ n, (s.voice n).sounding = true → n ∈ slots) : s.soundingCount ≤ slots.length :=
  nodup_length_le _ _ (State.soundingSlots_nodup c) fun n hn => h n ((State.mem_soundingSlots c n).mp hn)

theorem State.soundingCount_mono {s t : State} (cs : s.Canonical) (ct : t.Canonical)
    (h : ∀ n, (t.voice n).sounding = true → (s.voice n).sounding = true) : t.soundingCount ≤ s.soundingCount :=
  State.soundingCount_le ct.voices s.soundingSlots fun n hn => (State.mem_soundingSlots cs.voices n).mpr (h n hn)

theorem State.WindowsHeldOnce.of_tame {s t : State} (k : s.WindowsHeldOnce) (h : ∀ n, (s.voice n).Tame (t.voice n)) :
    t.WindowsHeldOnce := by
  intro m n mn hm hn
  obtain ⟨fm, wm⟩ := (h m).held hm
  obtain ⟨fn, wn⟩ := (h n).held hn
  rw [wm, wn]
  exact k m n mn fm fn

theorem State.VacantHoldsNoSlot.of_steady {s t : State} (k : s.VacantHoldsNoSlot) (h : Steady s t) : t.VacantHoldsNoSlot := by
  intro id hv
  obtain none | ⟨hs, same⟩ := h id hv
  · exact none
  · exact same.trans (k id hs)

/-! ### Orderly operations -/

/-- What every operation of a command keeps. -/
structure Orderly (s t : State) : Prop where
  out : s.out <+: t.out
  pending : t.pending = s.pending
  pace : s.PaceSound → t.PaceSound
  canonical : s.Canonical → t.Canonical
  limits : s.Canonical → s.WithinLimits → t.WithinLimits
  admitted : s.Canonical → s.VoicesAdmitted → t.VoicesAdmitted
  windows : s.Canonical → s.WindowsHeldOnce → t.WindowsHeldOnce
  slots : s.Canonical → s.VacantHoldsNoSlot → t.VacantHoldsNoSlot

theorem Orderly.refl (s : State) : Orderly s s :=
  ⟨List.prefix_rfl, rfl, id, id, fun _ => id, fun _ => id, fun _ => id, fun _ => id⟩

theorem Orderly.trans {s t u : State} (h : Orderly s t) (k : Orderly t u) : Orderly s u where
  out := h.out.trans k.out
  pending := k.pending.trans h.pending
  pace := k.pace ∘ h.pace
  canonical := k.canonical ∘ h.canonical
  limits c := k.limits (h.canonical c) ∘ h.limits c
  admitted c := k.admitted (h.canonical c) ∘ h.admitted c
  windows c := k.windows (h.canonical c) ∘ h.windows c
  slots c := k.slots (h.canonical c) ∘ h.slots c

theorem Orderly.ite {s t u : State} {c : Prop} [Decidable c] (h : Orderly s t) (k : Orderly s u) :
    Orderly s (if c then t else u) := by
  split
  · exact h
  · exact k

theorem Orderly.foldl {α : Type} (f : State → α → State) (h : ∀ s x, Orderly s (f s x)) (l : List α) (s : State) :
    Orderly s (l.foldl f s) := by
  induction l generalizing s with
  | nil => exact Orderly.refl s
  | cons x xs ih => exact (h s x).trans (ih _)

/-- An operation under which voices are tame, records steady, and the voice limit stays. -/
structure Tame (s t : State) : Prop where
  out : s.out <+: t.out
  pending : t.pending = s.pending
  pace : s.PaceSound → t.PaceSound
  canonical : s.Canonical → t.Canonical
  limits : s.Canonical → s.WithinLimits → t.WithinLimits
  limit : t.tunables.voiceLimit = s.tunables.voiceLimit
  voices : s.Canonical → ∀ n, (s.voice n).Tame (t.voice n)
  records : s.Canonical → Steady s t

theorem Tame.orderly {s t : State} (h : Tame s t) : Orderly s t where
  out := h.out
  pending := h.pending
  pace := h.pace
  canonical := h.canonical
  limits := h.limits
  admitted c k := by
    unfold State.VoicesAdmitted
    rw [h.limit]
    exact Nat.le_trans (State.soundingCount_mono c (h.canonical c) fun n => (h.voices c n).sounding) k
  windows c k := k.of_tame (h.voices c)
  slots c k := k.of_steady (h.records c)

theorem Orderly.of_inner {s t : State} (h : Inner s t) (k : Steady s t) : Orderly s t :=
  Tame.orderly
    { out := h.out
      pending := h.pending
      pace := fun p => p.of_pace h.pace
      canonical := h.canonical
      limits := fun c l => l.of_le h.queue h.stores fun d => (h.polls c d).length_le
      limit := by rw [h.tunables]
      voices := fun _ n => (h.voices n).tame
      records := fun _ => k }

/-- An operation that changes nothing of what the invariants speak of. -/
theorem Orderly.of_same {s t : State} (out : s.out <+: t.out)
    (h : (t.pending, t.pace, t.dram, t.catalog, t.voices, t.windows, t.dies, t.queue, t.stores, t.tunables) =
      (s.pending, s.pace, s.dram, s.catalog, s.voices, s.windows, s.dies, s.queue, s.stores, s.tunables)) :
    Orderly s t := by
  simp only [Prod.mk.injEq] at h
  obtain ⟨pending, pace, dram, catalog, voices, windows, dies, queue, stores, tunables⟩ := h
  exact Tame.orderly
    { out := out
      pending := pending
      pace := fun p => p.of_pace pace
      canonical := fun c => c.of_same dram catalog voices windows dies
      limits := fun _ l => l.of_le (Nat.le_of_eq (by rw [queue])) (Nat.le_of_eq (by rw [stores])) fun d =>
        Nat.le_of_eq (by rw [State.die_congr dies d])
      limit := by rw [tunables]
      voices := fun _ n => State.voice_congr voices n ▸ Voice.Tame.refl _
      records := fun _ => Steady.of_catalog catalog }

theorem Posted.orderly {s t : State} (h : Posted s t) : Orderly s t := by
  refine Orderly.of_same h.1 ?_
  rw [h.2]

theorem Orderly.setPace (s : State) (p : Pace) (h : s.PaceSound → ({ s with pace := p } : State).PaceSound) :
    Orderly s { s with pace := p } :=
  Tame.orderly
    { out := List.prefix_rfl
      pending := rfl
      pace := h
      canonical := fun c => c.of_same rfl rfl rfl rfl rfl
      limits := fun _ l => l.of_le (Nat.le_refl _) (Nat.le_refl _) fun _ => (Nat.le_refl _)
      limit := rfl
      voices := fun _ _ => Voice.Tame.refl _
      records := fun _ => Steady.refl s }

theorem Orderly.setVoice (s : State) (n : Nat) (v : Voice) (h : (s.voice n).Tame v) : Orderly s (s.setVoice n v) :=
  Tame.orderly
    { out := List.prefix_rfl
      pending := rfl
      pace := fun p => p.of_pace rfl
      canonical := fun c => ⟨c.dram, c.catalog, Table.wf_set _ _ _ _ c.voices, c.windows, c.places, c.dies⟩
      limits := fun _ l => l.of_le (Nat.le_refl _) (Nat.le_refl _) fun _ => (Nat.le_refl _)
      limit := rfl
      voices := fun _ m => by
        by_cases hm : m = n
        · subst hm
          rw [State.voice_setVoice_same]
          exact h
        · rw [State.voice_setVoice_other s v hm]
          exact Voice.Tame.refl _
      records := fun _ => Steady.of_catalog rfl }

/-- Every voice slot is changed in the same tame way. -/
theorem Orderly.updateVoices (s : State) (f : Nat → Voice → Voice) (blank : ∀ n, f n Voice.blank = Voice.blank)
    (h : ∀ n v, Voice.Tame v (f n v)) : Orderly s { s with voices := Table.update Voice.blank f s.voices } :=
  Tame.orderly
    { out := List.prefix_rfl
      pending := rfl
      pace := fun p => p.of_pace rfl
      canonical := fun c => ⟨c.dram, c.catalog, Table.wf_update _ _ _ c.voices, c.windows, c.places, c.dies⟩
      limits := fun _ l => l.of_le (Nat.le_refl _) (Nat.le_refl _) fun _ => (Nat.le_refl _)
      limit := rfl
      voices := fun c n => by
        have voice : ({ s with voices := Table.update Voice.blank f s.voices } : State).voice n = f n (s.voice n) :=
          Table.get_update _ _ _ _ ((Table.wf_iff _ _).mp c.voices).1 (blank n)
        rw [voice]
        exact h n _
      records := fun _ => Steady.of_catalog rfl }

/-! ### The library, the voices and the dies -/

theorem Orderly.setRecord (s : State) (id : Nat) (r : Record) (h : RecordStep (s.record id) r) :
    Orderly s (s.setRecord id r) := Orderly.of_inner (Inner.setRecord s id r) (Steady.setRecord s id r h)

theorem Orderly.setWindow (s : State) (w : Nat) (x : Window) (h : (s.window w).canonical → x.canonical) :
    Orderly s (s.setWindow w x) := Orderly.of_inner (Inner.setWindow s w x h) (Steady.of_catalog rfl)

theorem Orderly.latch (s : State) (f : Flag) : Orderly s (s.latch f) := Orderly.of_same List.prefix_rfl rfl

theorem Orderly.count (s : State) (c : CounterName) : Orderly s (s.count c) := Orderly.of_same List.prefix_rfl rfl

theorem Orderly.emit (s : State) (o : Output) : Orderly s (s.emit o) := Orderly.of_same (List.prefix_append _ _) rfl

theorem Orderly.complete (s : State) (t : Token) (r : Result) (x y : Word) : Orderly s (s.complete t r x y) :=
  Orderly.of_same List.prefix_rfl rfl

theorem Orderly.endVoices (reason : EndReason) (s : State) (l : List Nat) : Orderly s (s.endVoices reason l) :=
  Orderly.of_inner (Inner.endVoices reason s l) (Calm.endVoices reason s l).records

theorem Orderly.endVoice (reason : EndReason) (s : State) (n : Nat) : Orderly s (State.endVoice reason s n) :=
  Orderly.of_inner (Inner.endVoice reason s n) (Calm.endVoice reason s n).records

theorem Orderly.settleVoice (s : State) (n : Nat) : Orderly s (s.settleVoice n) :=
  Orderly.of_inner (Inner.settleVoice s n) (Calm.settleVoice s n).records

theorem Orderly.settleVoices (s : State) : Orderly s s.settleVoices :=
  Orderly.of_inner (Inner.settleVoices s) (Calm.settleVoices s).records

theorem Orderly.settleLoad (s : State) (id : Nat) : Orderly s (s.settleLoad id) :=
  Orderly.of_inner (Inner.settleLoad s id) (Calm.settleLoad s id).records

theorem Orderly.settleRetiring (s : State) (id : Nat) : Orderly s (s.settleRetiring id) :=
  Orderly.of_inner (Inner.settleRetiring s id) (Calm.settleRetiring s id).records

theorem Orderly.toVacant (s : State) (id : Nat) : Orderly s (s.toVacant id) :=
  Orderly.of_inner (Inner.toVacant s id) (Calm.toVacant s id).records

theorem Orderly.abandonLoad (s : State) (id : Nat) (reason : EndReason) : Orderly s (s.abandonLoad id reason) :=
  Orderly.of_inner (Inner.abandonLoad s id reason) (Calm.abandonLoad s id reason).records

theorem Orderly.arbitrate (s : State) (d : Nat) : Orderly s (s.arbitrate d) :=
  Orderly.of_inner (Inner.arbitrate s d) (Calm.arbitrate s d).records

/-! ### The takes of the catalog and the Head Store -/

theorem Orderly.takeDefine (t : Token) (p : DefineParams) (s : State) : Orderly s (takeDefine t p s) := by
  simp only [Machine.takeDefine]
  split
  · exact Orderly.complete s _ _ _ _
  · refine Orderly.ite (Orderly.complete s _ _ _ _) (Orderly.ite (Orderly.complete s _ _ _ _) ?_)
    refine (Orderly.setRecord s _ _ ?_).trans (Orderly.complete _ _ _ _ _)
    exact RecordStep.of_slotless _ rfl

theorem Orderly.takeSetPin (t : Token) (n : RecordName) (pin : Byte) (s : State) : Orderly s (takeSetPin t n pin s) := by
  simp only [Machine.takeSetPin]
  refine Orderly.ite ((Orderly.setRecord s _ _ ?_).trans (Orderly.complete _ _ _ _ _)) (Orderly.complete s _ _ _ _)
  exact RecordStep.of_kept rfl rfl

theorem Orderly.setRetiring (s : State) (id : Nat) (t : Token) :
    Orderly s (s.setRecord id { s.record id with state := .retiring, retire := some t }) :=
  Orderly.setRecord s id _ (RecordStep.of_inUse _ (by simp))

theorem Orderly.leaveRecency (s : State) (id : Nat) : Orderly s (s.leaveRecency id) := Orderly.of_same List.prefix_rfl rfl

theorem Orderly.takeRetire (t : Token) (n : RecordName) (force : Byte) (s : State) : Orderly s (takeRetire t n force s) := by
  simp only [Machine.takeRetire]
  refine Orderly.ite (Orderly.complete s _ _ _ _) (Orderly.ite (Orderly.complete s _ _ _ _) (Orderly.ite ?_ ?_))
  · exact (Orderly.toVacant s _).trans (Orderly.complete _ _ _ _ _)
  · refine Orderly.trans (Orderly.trans ?_ (Orderly.setRetiring _ _ t)) (Orderly.settleRetiring _ _)
    refine Orderly.trans ?_ (Orderly.leaveRecency _ _)
    have forced := Orderly.ite (c := byteSet force = true)
      (Orderly.endVoices .retired s (s.slotsPlaying n.id.toNat n.generation)) (Orderly.refl s)
    exact Orderly.ite (forced.trans (Orderly.abandonLoad _ _ _)) forced

theorem Orderly.unload (s : State) (id : Nat) : Orderly s (s.unload id) := by
  refine Orderly.trans (Orderly.setRecord s id _ ?_) (Orderly.leaveRecency _ id)
  exact RecordStep.of_slotless _ rfl

theorem Orderly.beginLoad (s : State) (t : Token) (id slot : Nat) (evicted : Option (Generation × Nat)) :
    Orderly s (s.beginLoad t id slot evicted) := Orderly.setRecord s id _ (RecordStep.of_inUse _ (by simp))

theorem Orderly.acceptLoad (s : State) (t : Token) (id slot : Nat) (evicted : Option (Generation × Nat)) :
    Orderly s (s.acceptLoad t id slot evicted) := by
  simp only [State.acceptLoad]
  refine Orderly.trans (Orderly.trans ?_ (Orderly.beginLoad _ t id slot evicted)) (Orderly.settleLoad _ id)
  cases evicted with
  | none => exact Orderly.refl s
  | some x => exact Orderly.unload s _

theorem Orderly.takeLoadHead (t : Token) (n : RecordName) (s : State) : Orderly s (takeLoadHead t n s) := by
  simp only [Machine.takeLoadHead]
  refine Orderly.ite (Orderly.complete s _ _ _ _) (Orderly.ite (Orderly.complete s _ _ _ _)
    (Orderly.ite (Orderly.complete s _ _ _ _) (Orderly.ite ?_ (Orderly.ite (Orderly.complete s _ _ _ _)
      (Orderly.ite (Orderly.complete s _ _ _ _) ?_)))))
  · exact Orderly.of_same List.prefix_rfl rfl
  · split
    · exact Orderly.complete s _ _ _ _
    · exact Orderly.acceptLoad s t _ _ _

theorem Orderly.unloadLoading (s : State) (id : Nat) : Orderly s (s.unloadLoading id) := by
  refine (Orderly.abandonLoad s id .stale).trans (Orderly.setRecord _ id _ ?_)
  exact RecordStep.of_inUse _ (by simp)

theorem Orderly.takeUnloadHead (t : Token) (n : RecordName) (s : State) : Orderly s (takeUnloadHead t n s) := by
  simp only [Machine.takeUnloadHead]
  refine Orderly.ite (Orderly.complete s _ _ _ _) ?_
  split
  · exact Orderly.complete s _ _ _ _
  · exact Orderly.ite ((Orderly.unload s _).trans (Orderly.complete _ _ _ _ _)) (Orderly.complete s _ _ _ _)
  · exact (Orderly.unloadLoading s _).trans (Orderly.complete _ _ _ _ _)
  all_goals exact Orderly.complete s _ _ _ _

/-- Every window is emptied, with the partition set anew. -/
theorem Orderly.repartition (s : State) (x : Partition) :
    Orderly s { s with partition := x, recency := [], windows := [] } :=
  Tame.orderly
    { out := List.prefix_rfl
      pending := rfl
      pace := fun p => p.of_pace rfl
      canonical := fun c => ⟨c.dram, c.catalog, c.voices, rfl, fun _ => Window.canonical_blank, c.dies⟩
      limits := fun _ l => l.of_le (Nat.le_refl _) (Nat.le_refl _) fun _ => (Nat.le_refl _)
      limit := rfl
      voices := fun _ _ => Voice.Tame.refl _
      records := fun _ => Steady.of_catalog rfl }

theorem Orderly.takeConfigureMemory (t : Token) (p : ConfigureParams) (s : State) :
    Orderly s (takeConfigureMemory t p s) := by
  simp only [Machine.takeConfigureMemory]
  split
  · exact Orderly.complete s _ _ _ _
  · exact Orderly.ite (Orderly.complete s _ _ _ _) (Orderly.ite (Orderly.complete s _ _ _ _)
      ((Orderly.repartition s _).trans (Orderly.complete _ _ _ _ _)))

/-! ### START -/

/-- A window is free when no slot in use holds it (R42). -/
theorem State.windowFree_iff {s : State} (c : s.Canonical) (w : Nat) :
    s.windowFree w = true ↔ ∀ n, (s.voice n).state ≠ .free → (s.voice n).window ≠ w := by
  simp only [State.windowFree, List.all_eq_true, Bool.or_eq_true, beq_iff_eq, bne_iff_ne, ne_eq]
  constructor
  · intro h n used
    obtain listed | blank := Table.get_mem Voice.blank s.voices n
    · exact (h _ listed).resolve_left used
    · exact absurd (congrArg Voice.state blank) used
  · intro h e he
    rw [← State.voice_of_mem c.voices he]
    by_cases free : (s.voice e.1).state = .free
    · exact .inl free
    · exact .inr (h e.1 free)

/-- A voice set up, after an orderly operation, in a FREE slot with a free window and below the voice limit. -/
theorem Orderly.newVoice {s u : State} (h : Orderly s u) (slot w : Nat) (v : Voice) (window : v.window = w)
    (wfree : s.Canonical → u.windowFree w = true)
    (room : s.Canonical → s.VoicesAdmitted → u.soundingCount < u.tunables.voiceLimit) :
    Orderly s ((u.setWindow w Window.blank).setVoice slot v) := by
  have canonical (c : u.Canonical) : ((u.setWindow w Window.blank).setVoice slot v).Canonical :=
    let d := (Inner.setWindow u w Window.blank fun _ => Window.canonical_blank).canonical c
    ⟨d.dram, d.catalog, Table.wf_set _ _ _ _ d.voices, d.windows, d.places, d.dies⟩
  have other {n : Nat} (h : n ≠ slot) : ((u.setWindow w Window.blank).setVoice slot v).voice n = u.voice n :=
    State.voice_setVoice_other _ v h
  have same : ((u.setWindow w Window.blank).setVoice slot v).voice slot = v := State.voice_setVoice_same _ slot v
  exact {
    out := h.out
    pending := h.pending
    pace := fun p => (h.pace p).of_pace rfl
    canonical := fun c => canonical (h.canonical c)
    limits := fun c l => (h.limits c l).of_le (Nat.le_refl _) (Nat.le_refl _) fun _ => (Nat.le_refl _)
    admitted := fun c k => by
      have cu := h.canonical c
      have le : ((u.setWindow w Window.blank).setVoice slot v).soundingCount ≤ (slot :: u.soundingSlots).length :=
        State.soundingCount_le (canonical cu).voices _ fun n hn => by
          by_cases h : n = slot
          · exact h ▸ List.mem_cons_self
          · rw [other h] at hn
            exact List.mem_cons_of_mem _ ((State.mem_soundingSlots cu.voices n).mpr hn)
      exact Nat.le_trans le (room c k)
    windows := fun c k m n mn hm hn => by
      have held := (State.windowFree_iff (h.canonical c) w).mp (wfree c)
      by_cases hs : m = slot
      · subst hs
        rw [other mn.symm] at hn ⊢
        rw [same, window]
        exact (held n hn).symm
      · rw [other hs] at hm ⊢
        by_cases hs' : n = slot
        · subst hs'
          rw [same, window]
          exact held m hm
        · rw [other hs'] at hn ⊢
          exact h.windows c k m n mn hm hn
    slots := fun c k => (h.slots c k).of_steady (Steady.of_catalog rfl) }

theorem Orderly.addReference (s : State) (id : Nat) : Orderly s (s.addReference id) := by
  have raised : Orderly s (s.setRecord id { s.record id with refs := (s.record id).refs + 1 }) :=
    Orderly.setRecord s id _ (RecordStep.of_kept rfl rfl)
  simp only [State.addReference]
  exact Orderly.ite (raised.trans (Orderly.of_same List.prefix_rfl rfl)) raised

theorem Orderly.setStartCount (s : State) (n : Nat) : Orderly s { s with startCount := n } :=
  Orderly.of_same List.prefix_rfl rfl

/-- A START accepted after an orderly operation that makes room for it. -/
theorem Orderly.acceptStart {s u : State} (h : Orderly s u) (t : Token) (p : StartParams) (l : Layout) (slot w : Nat)
    (wfree : s.Canonical → u.windowFree w = true)
    (room : s.Canonical → s.VoicesAdmitted → u.soundingCount < u.tunables.voiceLimit) :
    Orderly s (u.acceptStart t p l slot w) := by
  have setUp := h.newVoice slot w (u.newVoice p (u.record p.sample.id.toNat) l slot w) rfl wfree room
  simp only [State.acceptStart]
  refine Orderly.trans (Orderly.trans ?_ (Orderly.settleVoice _ slot)) (Orderly.complete _ _ _ _ _)
  exact (setUp.trans (Orderly.setStartCount _ _)).trans (Orderly.addReference _ _)

theorem Voice.victimKey_length (v : Voice) : v.victimKey.length = 3 := rfl

/-- The victim of a steal sounds (R53). -/
theorem State.victim_sounds {s : State} (c : s.Canonical) {n : Nat} (h : s.victim = some n) :
    (s.voice n).sounding = true :=
  (State.mem_soundingSlots c.voices n).mp (leastBy_some _ 3 _ (fun _ _ => Voice.victimKey_length _) n h).1

/-- A steal makes room for one voice (R53). -/
theorem State.steal_room {s : State} (c : s.Canonical) (k : s.VoicesAdmitted) {victim : Nat}
    (h : (s.voice victim).sounding = true) : (s.steal victim).soundingCount < (s.steal victim).tunables.voiceLimit := by
  have inner : Inner s (s.steal victim) := (Inner.endVoice .stolen s victim).trans (Inner.count _ _)
  have listed := (State.mem_soundingSlots c.voices victim).mpr h
  have ended : ((s.steal victim).voice victim).sounding = false := by
    have left := State.endVoice_left .stolen s victim h (c.places _)
    have := left.voices victim (List.mem_singleton_self _)
    rw [State.steal, State.voice_count, this]
    rfl
  have le : (s.steal victim).soundingCount ≤ (s.soundingSlots.erase victim).length :=
    State.soundingCount_le (inner.canonical c).voices _ fun n hn => by
      have ne : n ≠ victim := fun e => by rw [e, ended] at hn; exact Bool.false_ne_true hn
      exact (List.mem_erase_of_ne ne).mpr ((State.mem_soundingSlots c.voices n).mpr ((inner.voices n).sounding hn))
  have less : (s.soundingSlots.erase victim).length < s.soundingSlots.length := by
    rw [List.length_erase_of_mem listed]
    exact Nat.sub_lt (List.length_pos_of_mem listed) Nat.one_pos
  rw [inner.tunables]
  exact Nat.lt_of_lt_of_le (Nat.lt_of_le_of_lt le less) k

theorem Orderly.steal (s : State) (victim : Nat) : Orderly s (s.steal victim) :=
  (Orderly.endVoice .stolen s victim).trans (Orderly.count _ _)

theorem State.admission_room {s : State} {priority : Nat} (h : s.admission priority = some none) :
    s.soundingCount < s.tunables.voiceLimit := by
  simp only [State.admission] at h
  split at h
  · assumption
  · split at h
    · contradiction
    · split at h <;> simp at h

theorem State.admission_victim {s : State} {priority victim : Nat} (h : s.admission priority = some (some victim)) :
    s.victim = some victim := by
  simp only [State.admission] at h
  split at h
  · simp at h
  · split at h
    · contradiction
    · split at h <;> simp_all

theorem State.lowestFreeWindow_free {s : State} {w : Nat} (h : s.lowestFreeWindow = some w) : s.windowFree w = true :=
  (lowest_some h).2.1

/-- A free window stays free where no voice is taken into use. -/
theorem State.windowFree_inner {s t : State} (h : Inner s t) (c : s.Canonical) {w : Nat} (k : s.windowFree w = true) :
    t.windowFree w = true :=
  (State.windowFree_iff (h.canonical c) w).mpr fun n used => by
    rw [(h.voices n).window]
    exact (State.windowFree_iff c w).mp k n ((h.voices n).inUse used)

theorem Orderly.takeStart (t : Token) (p : StartParams) (s : State) : Orderly s (takeStart t p s) := by
  have refused (r : Result) : Orderly s (s.refuse t r) := Orderly.complete s t r _ _
  simp only [Machine.takeStart]
  refine Orderly.ite (refused _) (Orderly.ite (refused _) (Orderly.ite (refused _) (Orderly.ite (refused _) ?_)))
  split
  · exact refused _
  · refine Orderly.ite (refused _) ?_
    split
    · exact refused _
    · exact refused _
    · exact refused _
    · rename_i slot w _ wfree admitted
      exact (Orderly.refl s).acceptStart t p _ slot w (fun _ => State.lowestFreeWindow_free wfree)
        fun _ _ => State.admission_room admitted
    · rename_i slot w victim _ wfree admitted
      have inner : Inner s (s.steal victim) := (Inner.endVoice .stolen s victim).trans (Inner.count _ _)
      exact (Orderly.steal s victim).acceptStart t p _ slot w
        (fun c => State.windowFree_inner inner c (State.lowestFreeWindow_free wfree))
        fun c k => State.steal_room c k (State.victim_sounds c (State.admission_victim admitted))

/-! ### The other takes of voices -/

theorem Voice.Tame.release (v : Voice) (l : Layout) : v.Tame (v.release l) := by
  unfold Voice.release
  split <;> try exact Voice.Tame.refl v
  all_goals
    split
    · exact Voice.Tame.refl v
    · constructor <;> simp_all [Voice.setReleased, Voice.sounding]

theorem Orderly.takeRelease (t : Token) (n : VoiceName) (s : State) : Orderly s (takeRelease t n s) := by
  simp only [Machine.takeRelease]
  refine Orderly.ite (Orderly.complete s _ _ _ _) (Orderly.ite (Orderly.complete s _ _ _ _) ?_)
  refine Orderly.trans ?_ (Orderly.complete _ _ _ _ _)
  split
  · exact Orderly.setVoice s _ _ (Voice.Tame.release _ _)
  · exact Orderly.refl s

theorem Orderly.takeStop (t : Token) (n : VoiceName) (s : State) : Orderly s (takeStop t n s) := by
  simp only [Machine.takeStop]
  exact Orderly.ite (Orderly.complete s _ _ _ _) (Orderly.ite (Orderly.complete s _ _ _ _)
    ((Orderly.endVoice _ s _).trans (Orderly.complete _ _ _ _ _)))

theorem Voice.retune_kept (v : Voice) (p : RetuneParams) (running : Bool) :
    (v.retune p running).state = v.state ∧ (v.retune p running).window = v.window := by
  simp only [Voice.retune]
  split
  · exact ⟨rfl, rfl⟩
  · split <;> exact ⟨rfl, rfl⟩

theorem Orderly.takeRetune (t : Token) (p : RetuneParams) (s : State) : Orderly s (takeRetune t p s) := by
  simp only [Machine.takeRetune]
  refine Orderly.ite (Orderly.complete s _ _ _ _) (Orderly.ite (Orderly.complete s _ _ _ _) ?_)
  refine Orderly.trans (Orderly.ite ?_ (Orderly.refl s)) (Orderly.complete _ _ _ _ _)
  obtain ⟨state, window⟩ := (s.voice p.voice.slot.toNat).retune_kept p s.pace.running
  exact (Orderly.setVoice s _ _ (Voice.Tame.of_kept state window)).trans (Orderly.settleVoice _ _)

/-! ### The takes of pace and transport -/

theorem State.completePosition_orderly (s : State) (t : Token) : Orderly s (s.completePosition t) :=
  Orderly.complete s _ _ _ _

theorem Orderly.takeRun (t : Token) (s : State) : Orderly s (takeRun t s) := by
  simp only [Machine.takeRun]
  refine Orderly.ite (s.completePosition_orderly t) (Orderly.trans (Orderly.setPace s _ ?_) (State.completePosition_orderly _ t))
  exact fun k => ⟨k.locked, nofun⟩

theorem Orderly.takeHalt (t : Token) (s : State) : Orderly s (takeHalt t s) := by
  simp only [Machine.takeHalt]
  split
  · exact s.completePosition_orderly t
  · rename_i running
    refine Orderly.ite (Orderly.complete s _ _ _ _) (Orderly.setPace s _ fun k => ⟨k.locked, fun stopped => ?_⟩)
    have stopped : s.pace.running = false := stopped
    simp [stopped] at running

theorem Orderly.takeLocate (t : Token) (position : BitVec 64) (s : State) : Orderly s (takeLocate t position s) := by
  simp only [Machine.takeLocate]
  refine Orderly.ite (Orderly.complete s _ _ _ _) (Orderly.ite (Orderly.complete s _ _ _ _) ?_)
  refine Orderly.trans (Orderly.setPace s _ ?_) ((Orderly.endVoices _ _ _).trans (Orderly.complete _ _ _ _ _))
  exact fun k => ⟨k.locked, k.stopped⟩

/-- EXTERNAL_LOCKED is given with a clock present alone (R85). -/
theorem paceStateFor_locked {source : PaceSource} {present : Bool} (h : paceStateFor source present = .externalLocked) :
    present = true := by
  cases source <;> cases present <;> simp_all [paceStateFor]

theorem Orderly.applyPace (s : State) (x : PaceSettings) (t : Token) : Orderly s (s.applyPace x t) := by
  refine Orderly.trans (Orderly.setPace s _ ?_) (Orderly.complete _ _ _ _ _)
  exact fun k => ⟨fun locked => paceStateFor_locked locked, k.stopped⟩

theorem Orderly.takeSetPace (t : Token) (p : PaceParams) (s : State) : Orderly s (takeSetPace t p s) := by
  simp only [Machine.takeSetPace]
  split
  · exact Orderly.complete s _ _ _ _
  · refine Orderly.ite (Orderly.complete s _ _ _ _) ?_
    split
    · rename_i running
      refine Orderly.setPace s _ fun k => ⟨k.locked, fun stopped => ?_⟩
      have stopped : s.pace.running = false := stopped
      simp [stopped] at running
    · exact (Orderly.applyPace s _ t).trans (Orderly.settleVoices _)

/-! ### The takes of the dies and the tunables -/

theorem Orderly.setDie (s : State) (d : Nat) (x : Die)
    (h : s.WithinLimits → x.polls.length ≤ Config.pollLimit) : Orderly s (s.setDie d x) :=
  Tame.orderly
    { out := List.prefix_rfl
      pending := rfl
      pace := fun p => p.of_pace rfl
      canonical := fun c => ⟨c.dram, c.catalog, c.voices, c.windows, c.places, Table.wf_set _ _ _ _ c.dies⟩
      limits := fun _ l => ⟨l.queue, l.stores, fun j => by
        by_cases hj : j = d
        · subst hj
          rw [State.die_setDie_same]
          exact h l
        · rw [State.die_setDie_other s x hj]
          exact l.polls j⟩
      limit := rfl
      voices := fun _ _ => Voice.Tame.refl _
      records := fun _ => Steady.of_catalog rfl }

theorem Orderly.queueProgram (s : State) (p : ProgramEntry) : Orderly s (s.queueProgram p) :=
  Orderly.setDie s _ _ fun l => l.polls _

theorem RecordStep.overwrite (first count : Nat) (r : Record) : RecordStep r (r.overwrite first count) := by
  unfold Record.overwrite
  split
  · split
    · exact RecordStep.of_inUse _ (by simp)
    · exact RecordStep.of_inUse _ (by simp)
    all_goals exact RecordStep.refl r
  · exact RecordStep.refl r

/-- A STORE joins the table where it has room, and marks the records it overlaps. -/
theorem Orderly.addStore (s : State) (x : StoreEntry) (first count : Nat) (room : s.stores.length < Config.storeLimit) :
    Orderly s { s with
      catalog := Table.update Record.blank (fun _ r => r.overwrite first count) s.catalog, stores := s.stores ++ [x] } :=
  Tame.orderly
    { out := List.prefix_rfl
      pending := rfl
      pace := fun p => p.of_pace rfl
      canonical := fun c =>
        ⟨c.dram, Table.wf_update _ (fun _ r => r.overwrite first count) _ c.catalog, c.voices, c.windows, c.places, c.dies⟩
      limits := fun _ l => ⟨l.queue, by simpa using Nat.succ_le_of_lt room, l.polls⟩
      limit := rfl
      voices := fun _ _ => Voice.Tame.refl _
      records := fun c id => by
        have record := Table.get_update Record.blank (fun _ r => r.overwrite first count) s.catalog id
          ((Table.wf_iff _ _).mp c.catalog).1 rfl
        exact Eq.mpr (congrArg _ record) (RecordStep.overwrite first count (s.record id)) }

theorem Orderly.acceptStore (s : State) (t : Token) (p : StoreParams) (room : s.stores.length < Config.storeLimit) :
    Orderly s (s.acceptStore t p) :=
  (Orderly.addStore s _ _ _ room).trans ((Orderly.foldl _ Orderly.queueProgram _ _).trans
    (Orderly.foldl _ Orderly.arbitrate _ _))

theorem Orderly.takeStore (t : Token) (p : StoreParams) (s : State) : Orderly s (takeStore t p s) := by
  have refused (r : Result) : Orderly s (s.refuse t r) := Orderly.complete s t r _ _
  simp only [Machine.takeStore]
  refine Orderly.ite (refused _) ?_
  split
  · exact refused _
  · rename_i room
    exact Orderly.ite (refused _) (Orderly.ite (refused _) (Orderly.ite (refused _)
      (Orderly.acceptStore s t p (Nat.lt_of_not_le room))))

theorem Orderly.joinPolls (s : State) (d : Nat) (q : PollRequest) (room : ¬ s.pollsFull d = true) :
    Orderly s (s.joinPolls d q) := by
  have room : (s.die d).polls.length < Config.pollLimit := by simpa [State.pollsFull] using room
  exact (Orderly.setDie s d _ fun _ => by simpa using Nat.succ_le_of_lt room).trans (Orderly.arbitrate _ d)

theorem Orderly.takeProbeDie (t : Token) (die : Byte) (s : State) : Orderly s (takeProbeDie t die s) := by
  simp only [Machine.takeProbeDie]
  refine Orderly.ite (Orderly.complete s _ _ _ _) ?_
  split
  · exact Orderly.complete s _ _ _ _
  · exact Orderly.joinPolls s _ _ ‹_›

theorem Orderly.takeReviveDie (t : Token) (die : Byte) (s : State) : Orderly s (takeReviveDie t die s) := by
  simp only [Machine.takeReviveDie]
  refine Orderly.ite (Orderly.complete s _ _ _ _) (Orderly.ite (Orderly.complete s _ _ _ _) ?_)
  split
  · exact Orderly.complete s _ _ _ _
  · exact Orderly.joinPolls s _ _ ‹_›

/-- New tunables, with a voice limit that admits the voices that sound (R52, R173). -/
theorem Orderly.setTunables (s : State) (x : Tunables) (h : s.VoicesAdmitted → s.soundingCount ≤ x.voiceLimit) :
    Orderly s { s with tunables := x } where
  out := List.prefix_rfl
  pending := rfl
  pace p := p.of_pace rfl
  canonical c := c.of_same rfl rfl rfl rfl rfl
  limits _ l := l.of_le (Nat.le_refl _) (Nat.le_refl _) fun _ => (Nat.le_refl _)
  admitted _ k := h k
  windows _ k := k
  slots _ k := k

theorem Orderly.takeTuneEngine (t : Token) (p : TuneParams) (s : State) : Orderly s (takeTuneEngine t p s) := by
  simp only [Machine.takeTuneEngine]
  refine Orderly.ite (Orderly.complete s _ _ _ _) ?_
  split
  · exact Orderly.complete s _ _ _ _
  · rename_i enough
    have tuned : Orderly s { s with tunables := tuned s.tunables p } := Orderly.setTunables s _ fun k => by
      have k : s.soundingCount ≤ s.tunables.voiceLimit := k
      simp only [Machine.tuned, tunePick]
      split
      · simp_all
      · exact k
    exact Orderly.trans (Orderly.ite (tuned.trans (Orderly.settleVoices _)) tuned) (Orderly.complete _ _ _ _ _)

/-! ### The take -/

theorem Orderly.takeBody (t : Token) (b : RequestBody) (s : State) : Orderly s (takeBody t b s) := by
  cases b with
  | define p => exact Orderly.takeDefine t p s
  | setPin n pin => exact Orderly.takeSetPin t n pin s
  | retire n force => exact Orderly.takeRetire t n force s
  | loadHead n => exact Orderly.takeLoadHead t n s
  | unloadHead n => exact Orderly.takeUnloadHead t n s
  | configureMemory p => exact Orderly.takeConfigureMemory t p s
  | start p => exact Orderly.takeStart t p s
  | release n => exact Orderly.takeRelease t n s
  | stop n => exact Orderly.takeStop t n s
  | retune p => exact Orderly.takeRetune t p s
  | run => exact Orderly.takeRun t s
  | halt => exact Orderly.takeHalt t s
  | locate position => exact Orderly.takeLocate t position s
  | setPace p => exact Orderly.takeSetPace t p s
  | store p => exact Orderly.takeStore t p s
  | probeDie die => exact Orderly.takeProbeDie t die s
  | reviveDie die => exact Orderly.takeReviveDie t die s
  | tuneEngine p => exact Orderly.takeTuneEngine t p s
  | badKind k => exact Orderly.complete s _ _ _ _

theorem Orderly.takeRequest (s : State) (r : Request) : Orderly s (s.takeRequest r) := by
  have begun : Orderly s (s.beginTake r.header) := Orderly.of_same List.prefix_rfl rfl
  exact begun.trans ((Orderly.takeBody _ r.body _).trans (Posted.takeRequest s r).orderly)

theorem Orderly.requestArrives (s : State) (r : Request) : Orderly s (s.requestArrives r) := by
  simp only [State.requestArrives]
  exact Orderly.ite (Orderly.refl s) (Orderly.ite (Posted.setRequests s _).orderly (Orderly.takeRequest s r))

end Sys2Proof.Machine
end

section
/-! PROOFS. The Buffer List, the deliveries, the events of time, the resets and the Register Window are orderly too, and with them
every command and every step: O1 to O8. -/

namespace Sys2Proof.Machine

/-! ### The Buffer List -/

/-- What the commands of the Buffer List do, apart from making deliveries: they move the Delivery Engine through its list, read the
link, and latch BUFFER_PARKED and PORT_ERROR. -/
structure Listed (s t : State) : Prop where
  out : s.out <+: t.out
  kept : t = { s with
    out := t.out, delivery := t.delivery, registers := { s.registers with status := t.registers.status } }
  counts : t.delivery.count = s.delivery.count ∧ t.delivery.noticeCount = s.delivery.noticeCount ∧
    t.delivery.noticeStamp = s.delivery.noticeStamp
  flags : ∀ f : Flag, f ≠ .portError → f ≠ .bufferParked → t.latched f = s.latched f
  latched : ∀ f : Flag, s.latched f = true → t.latched f = true

theorem Listed.refl (s : State) : Listed s s :=
  ⟨List.prefix_rfl, rfl, ⟨rfl, rfl, rfl⟩, fun _ _ _ => rfl, fun _ => id⟩

theorem Listed.trans {s t u : State} (h : Listed s t) (k : Listed t u) : Listed s u where
  out := h.out.trans k.out
  kept := by
    have e := k.kept
    rw [h.kept] at e
    exact e
  counts := ⟨k.counts.1.trans h.counts.1, k.counts.2.1.trans h.counts.2.1, k.counts.2.2.trans h.counts.2.2⟩
  flags f hp hb := (k.flags f hp hb).trans (h.flags f hp hb)
  latched f := k.latched f ∘ h.latched f

theorem Listed.ite {s t u : State} {c : Prop} [Decidable c] (h : Listed s t) (k : Listed s u) :
    Listed s (if c then t else u) := by
  split
  · exact h
  · exact k

theorem Listed.emit (s : State) (o : Output) : Listed s (s.emit o) :=
  ⟨List.prefix_append _ _, rfl, ⟨rfl, rfl, rfl⟩, fun _ _ _ => rfl, fun _ => id⟩

theorem Listed.latch (s : State) {f : Flag} (h : f = .portError ∨ f = .bufferParked) : Listed s (s.latch f) where
  out := List.prefix_rfl
  kept := rfl
  counts := ⟨rfl, rfl, rfl⟩
  flags g hp hb := State.latched_other s (by rintro rfl; exact h.elim hp hb)
  latched g k := State.latched_latch s g f k

/-- The engine moves without making a delivery. -/
theorem Listed.setDelivery (s : State) (e : DeliveryEngine)
    (h : (e.count, e.noticeCount, e.noticeStamp) = (s.delivery.count, s.delivery.noticeCount, s.delivery.noticeStamp)) :
    Listed s { s with delivery := e } := by
  simp only [Prod.mk.injEq] at h
  exact ⟨List.prefix_rfl, rfl, h, fun _ _ _ => rfl, fun _ => id⟩

theorem Listed.parkBuffer (s : State) (reason : BufferPark) (a : HostAddr) (used : Bool) :
    Listed s (s.parkBuffer reason a used) := by
  simp only [State.parkBuffer]
  have parked := (Listed.setDelivery s { s.delivery with
    state := .parked, holding := false, address := a, heldNext := none, heldBuffer := none
    parkReason := some reason, usedMark := used, read := .none, waiting := false
    resumePending := s.delivery.resumePending && !(reason == .linkError) } rfl).trans (Listed.latch _ (.inr rfl))
  exact Listed.ite (parked.trans (Listed.latch _ (.inl rfl))) parked

theorem Listed.fetchBuffer (s : State) (a : HostAddr) : Listed s (s.fetchBuffer a) := by
  simp only [State.fetchBuffer]
  refine Listed.ite (Listed.setDelivery s _ rfl) (Listed.ite ?_ ?_)
  · refine Listed.trans ?_ (Listed.emit _ _)
    exact Listed.setDelivery s _ rfl
  · exact (Listed.setDelivery s s.delivery.leave rfl).trans (Listed.parkBuffer _ _ _ _)

theorem Listed.rereadBuffer (s : State) : Listed s s.rereadBuffer :=
  (Listed.setDelivery s { s.delivery with read := .next } rfl).trans (Listed.emit _ _)

theorem Listed.rereadAtBufferResume (s : State) : Listed s s.rereadAtBufferResume :=
  (Listed.setDelivery s { s.delivery with rereads := s.delivery.rereads + 1 } rfl).trans (Listed.emit _ _)

theorem Listed.endOfBuffers (s : State) : Listed s s.endOfBuffers := by
  simp only [State.endOfBuffers]
  exact Listed.ite ((Listed.setDelivery s { s.delivery with resumePending := false } rfl).trans (Listed.rereadBuffer _))
    (Listed.parkBuffer s _ _ _)

theorem Listed.advanceBuffer (s : State) (next : HostAddr) : Listed s (s.advanceBuffer next) := by
  have advanced := Listed.setDelivery s { s.delivery with holding := false, heldNext := none, heldBuffer := none } rfl
  simp only [State.advanceBuffer]
  exact Listed.ite (advanced.trans (Listed.endOfBuffers _)) (advanced.trans (Listed.fetchBuffer _ _))

theorem Listed.writeBufferPointer (s : State) (a : HostAddr) : Listed s (s.writeBufferPointer a) := by
  simp only [State.writeBufferPointer]
  refine Listed.ite (Listed.latch s (.inl rfl)) (Listed.ite (Listed.setDelivery s _ rfl) (Listed.ite ?_
    (Listed.latch s (.inl rfl))))
  exact (Listed.setDelivery s { s.delivery with resumePending := false } rfl).trans (Listed.fetchBuffer _ _)

theorem Listed.resumeBuffer (s : State) : Listed s s.resumeBuffer := by
  simp only [State.resumeBuffer]
  split
  · exact Listed.refl s
  · exact Listed.setDelivery s _ rfl
  · split
    · exact Listed.rereadAtBufferResume s
    · exact Listed.rereadAtBufferResume s
    · exact Listed.fetchBuffer s _
    · exact Listed.fetchBuffer s _
    · exact Listed.refl s

theorem Listed.bufferArrives (s : State) (next buffer : HostAddr) (done : Bool) : Listed s (s.bufferArrives next buffer done) := by
  simp only [State.bufferArrives]
  refine Listed.ite (Listed.refl s) (Listed.ite (Listed.parkBuffer s _ _ _) (Listed.ite (Listed.setDelivery s _ rfl)
    (Listed.ite ?_ (Listed.parkBuffer s _ _ _))))
  exact (Listed.setDelivery s { s.delivery with resumePending := false } rfl).trans (Listed.fetchBuffer _ _)

theorem Listed.bufferFetchFails (s : State) : Listed s s.bufferFetchFails :=
  Listed.ite (Listed.parkBuffer s _ _ _) (Listed.refl s)

theorem Listed.rereadBufferEnds (s : State) (read : Option HostAddr) : Listed s (s.rereadBufferEnds read) := by
  cases read with
  | none => exact Listed.parkBuffer s .linkError s.delivery.address true
  | some a => exact Listed.ite (Listed.endOfBuffers s) (Listed.fetchBuffer s a)

theorem Listed.bufferReread (s : State) (read : Option HostAddr) : Listed s (s.bufferReread read) := by
  simp only [State.bufferReread]
  have late := Listed.setDelivery s { s.delivery with lateRereads := s.delivery.lateRereads - 1 } rfl
  refine Listed.ite (Listed.ite (late.trans (Listed.latch _ (.inl rfl))) late) (Listed.ite ?_ (Listed.ite ?_
    (Listed.refl s)))
  · exact (Listed.setDelivery s { s.delivery with read := .none } rfl).trans (Listed.rereadBufferEnds _ read)
  · exact (Listed.setDelivery s { s.delivery with rereads := s.delivery.rereads - 1 } rfl).trans
      (Listed.rereadBufferEnds _ read)

theorem Listed.deliveryFails (s : State) : Listed s s.deliveryFails :=
  Listed.ite (Listed.parkBuffer s _ _ _) (Listed.refl s)

theorem Listed.orderly {s t : State} (h : Listed s t) : Orderly s t := by
  refine Orderly.of_same h.out ?_
  rw [h.kept]

/-! ### Deliveries -/

theorem Orderly.setDelivery (s : State) (e : DeliveryEngine) : Orderly s { s with delivery := e } :=
  Orderly.of_same List.prefix_rfl rfl

theorem Orderly.postNotice (s : State) : Orderly s s.postNotice := (Orderly.setDelivery s _).trans (Orderly.latch _ _)

theorem Orderly.countDelivery (s : State) : Orderly s s.countDelivery := by
  simp only [State.countDelivery]
  exact Orderly.ite ((Orderly.setDelivery s _).trans (Orderly.postNotice _)) (Orderly.setDelivery s _)

theorem Orderly.naturalEnd (s : State) (n : Nat) : Orderly s (s.naturalEnd n) :=
  Orderly.ite (Orderly.endVoice .natural s n) (Orderly.refl s)

theorem Orderly.takePlace (s : State) (w : Nat) : Orderly s (s.takePlace w) :=
  Orderly.setWindow s w _ fun h => Window.canonical_setPlace (s.window w) (s.window w).delivery .empty h

theorem Orderly.makeData (s : State) (slot : Nat) (l : Layout) (next buffer : HostAddr) :
    Orderly s (s.makeData slot l next buffer) := by
  simp only [State.makeData]
  refine Orderly.trans ?_ (Listed.advanceBuffer _ next).orderly
  refine Orderly.trans (Orderly.trans ?_ (Orderly.naturalEnd _ slot)) (Orderly.settleVoice _ slot)
  have written := (Orderly.emit s (.hostWrite (buffer + BitVec.ofNat 64 ((s.voice slot).deliveryOffset l))
    (s.deliveryBytes (s.voice slot) l))).trans (Orderly.emit _ (.hostWrite (deliveryStatusAddress s.delivery.address)
      (deliveryStatusBytes (s.dataStatus slot (s.voice slot) l))))
  refine Orderly.trans ?_ (Orderly.ite (Orderly.latch _ _) (Orderly.refl _))
  refine Orderly.trans (Orderly.trans ?_ (Orderly.setVoice _ slot _ ?_)) (Orderly.countDelivery _)
  · exact written.trans (Orderly.ite (Orderly.refl _) (Orderly.takePlace _ _))
  · split <;> exact Voice.Tame.of_kept rfl rfl

theorem Orderly.settleFree (s : State) (slot : Nat) : Orderly s (s.settleFree slot) :=
  Orderly.of_inner (Inner.settleFree s slot) (Calm.settleFree s slot).records

theorem Orderly.makeEnd (s : State) (slot : Nat) (next : HostAddr) : Orderly s (s.makeEnd slot next) := by
  simp only [State.makeEnd]
  refine Orderly.trans ?_ (Listed.advanceBuffer _ next).orderly
  refine Orderly.trans (Orderly.trans ?_ (Orderly.countDelivery _)) (Orderly.settleFree _ slot)
  exact (Orderly.emit s _).trans (Orderly.setVoice _ slot _ (Voice.Tame.of_kept rfl rfl))

theorem Orderly.deliverData (s : State) : Orderly s s.deliverData := by
  simp only [State.deliverData]
  split
  · exact Orderly.refl s
  · split
    · exact Orderly.makeData s _ _ _ _
    · exact Orderly.refl s

theorem Orderly.deliverEnd (s : State) : Orderly s s.deliverEnd := by
  simp only [State.deliverEnd]
  split
  · exact Orderly.makeEnd s _ _
  · exact Orderly.refl s

/-! ### The events of time -/

theorem Orderly.expirePace (s : State) : Orderly s { s with pace := s.pace.expire } :=
  Orderly.setPace s _ fun k => ⟨k.locked, k.stopped⟩

theorem Orderly.applyPending (s : State) : Orderly s s.applyPending := by
  simp only [State.applyPending]
  split
  · refine Orderly.trans (Orderly.setPace s _ ?_) (Orderly.applyPace _ _ _)
    exact fun k => ⟨k.locked, fun h => ⟨(k.stopped h).1, rfl⟩⟩
  · exact Orderly.refl s

/-- A pending HALT completes only after the pending settings have been applied, so that nothing stays pending (R90, R91). -/
theorem Orderly.completeHalt {s : State} (h : s.pace.pending = none) : Orderly s s.completeHalt := by
  simp only [State.completeHalt]
  split
  · refine Orderly.trans (Orderly.setPace s _ ?_) (Orderly.complete _ _ _ _ _)
    exact fun k => ⟨k.locked, fun _ => ⟨rfl, h⟩⟩
  · exact Orderly.refl s

theorem State.applyPending_pending (s : State) : s.applyPending.pace.pending = none := by
  simp only [State.applyPending]
  split
  · rfl
  · assumption

theorem Voice.advance_kept (old new : Nat) (v : Voice) : (v.advance old new).window = v.window := by
  unfold Voice.advance Voice.leavePriming Voice.consume
  split
  · dsimp only
    split <;> rfl
  · rfl

theorem Voice.Tame.advance (old new : Nat) (v : Voice) : v.Tame (v.advance old new) := by
  by_cases h : v.sounding = true
  · exact ⟨fun _ => h, fun _ => ⟨Voice.sounding_held h, Voice.advance_kept old new v⟩⟩
  · have same : v.advance old new = v := if_neg h
    rw [same]
    exact Voice.Tame.refl v

theorem Orderly.leadTest (s : State) (n : Nat) : Orderly s (s.leadTest n) := by
  simp only [State.leadTest, State.starvedTest, State.underrunTest]
  refine Orderly.trans ?_ (Orderly.ite ?_ (Orderly.refl _))
  · have tested := Orderly.setVoice s n { s.voice n with starved := s.leadLow (s.voice n) } (Voice.Tame.of_kept rfl rfl)
    exact Orderly.ite ((tested.trans (Orderly.latch _ _)).trans (Orderly.count _ _)) tested
  · refine Orderly.trans (Orderly.trans (Orderly.setVoice _ n _ ?_) (Orderly.latch _ _)) (Orderly.count _ _)
    exact Voice.Tame.of_kept rfl rfl

theorem Orderly.advanceVoices (s : State) (tested : List Nat) (old new : Nat) :
    Orderly s (s.advanceVoices tested old new) := by
  simp only [State.advanceVoices]
  refine Orderly.trans (Orderly.trans (Orderly.trans ?_ (Orderly.foldl _ Orderly.leadTest _ _))
    (Orderly.foldl _ Orderly.naturalEnd _ _)) (Orderly.settleVoices _)
  exact Orderly.updateVoices s _ (fun _ => rfl) fun _ => Voice.Tame.advance old new

theorem Orderly.noticeAge (s : State) : Orderly s s.noticeAge := by
  simp only [State.noticeAge]
  split
  · exact Orderly.ite (Orderly.postNotice s) (Orderly.refl s)
  · exact Orderly.refl s

theorem Orderly.expiry (s : State) : Orderly s s.expiry := by
  simp only [State.expiry]
  have pace := ((Orderly.expirePace s).trans (Orderly.applyPending _)).trans
    (Orderly.completeHalt (State.applyPending_pending _))
  exact Orderly.trans (Orderly.ite (pace.trans (Orderly.advanceVoices _ _ _ _)) pace) (Orderly.noticeAge _)

theorem Orderly.countFrame (s : State) : Orderly s s.countFrame := by
  simp only [State.countFrame]
  exact Orderly.ite (Orderly.expiry s) (Orderly.setPace s _ fun k => ⟨k.locked, k.stopped⟩)

theorem Orderly.countInternalFrame (s : State) : Orderly s s.countInternalFrame :=
  Orderly.ite (Orderly.refl s) (Orderly.countFrame s)

theorem Orderly.clockEdge (s : State) : Orderly s s.clockEdge := by
  have present : Orderly s { s with pace := { s.pace with clockPresent := true } } :=
    Orderly.setPace s _ fun k => ⟨fun _ => rfl, k.stopped⟩
  simp only [State.clockEdge]
  exact Orderly.ite (present.trans (Orderly.countFrame _)) present

theorem Orderly.clockLost (s : State) : Orderly s s.clockLost := by
  simp only [State.clockLost]
  split
  · refine Orderly.trans (Orderly.setPace s _ ?_) (Orderly.latch _ _)
    exact fun k => ⟨nofun, k.stopped⟩
  · rename_i unlocked
    exact Orderly.setPace s _ fun k => ⟨fun locked => absurd locked unlocked, k.stopped⟩

/-! ### The fill arbiter -/

/-- The arbiter chooses only while the queue has room (R108). -/
theorem State.fillChoice_room {s : State} {c : Candidate} (h : s.fillChoice = some c) :
    s.queue.length < Config.queueLimit := by
  simp only [State.fillChoice] at h
  split at h
  · contradiction
  · simp_all

theorem insertEntry_length (e : FetchEntry) (q : List FetchEntry) : (insertEntry e q).length = q.length + 1 := by
  induction q with
  | nil => rfl
  | cons x xs ih =>
    simp only [insertEntry]
    split <;> simp [ih]

theorem Orderly.enqueue {s : State} (owner : Owner) (address : Nat) (destination : Destination) (deadline : Nat)
    (room : s.queue.length < Config.queueLimit) : Orderly s (s.enqueue owner address destination deadline) :=
  Tame.orderly
    { out := List.prefix_rfl
      pending := rfl
      pace := fun p => p.of_pace rfl
      canonical := fun c => c.of_same rfl rfl rfl rfl rfl
      limits := fun _ l => ⟨Nat.le_trans (Nat.le_of_eq (insertEntry_length _ _)) room, l.stores, l.polls⟩
      limit := rfl
      voices := fun _ _ => Voice.Tame.refl _
      records := fun _ => Steady.of_catalog rfl }

theorem Orderly.fillPlace (s : State) (w : Nat) (p : Place) : Orderly s (s.fillPlace w p) :=
  Orderly.of_inner (Inner.fillPlace s w p) (Steady.of_catalog rfl)

theorem Orderly.enqueueVoice {s : State} (slot a : Nat) (room : s.queue.length < Config.queueLimit) :
    Orderly s (s.enqueueVoice slot a) := by
  have given (u : State) (h : u.voices = s.voices) (l : Layout) : Orderly u (u.setVoice slot ((s.voice slot).giveRun l)) :=
    Orderly.setVoice u slot _ (by rw [State.voice_congr h]; exact (VoiceStep.giveRun _ l).tame)
  simp only [State.enqueueVoice]
  split
  · exact Orderly.refl s
  · rename_i l _
    refine Orderly.ite ?_ (given s rfl l)
    refine Orderly.trans ((Orderly.enqueue _ _ _ _ room).trans (Orderly.fillPlace _ _ _)) (given _ ?_ l)
    rfl

theorem Orderly.enqueueLoad {s : State} (id a : Nat) (room : s.queue.length < Config.queueLimit) :
    Orderly s (s.enqueueLoad id a) := by
  simp only [State.enqueueLoad]
  split
  · exact Orderly.refl s
  · refine (Orderly.enqueue _ _ _ _ room).trans (Orderly.setRecord _ id _ ?_)
    exact RecordStep.of_kept rfl rfl

theorem Orderly.enqueueForLoad {s : State} (id a : Nat) (room : s.queue.length < Config.queueLimit) :
    Orderly s (s.enqueueForLoad id a) := by
  have queued := Orderly.enqueueLoad id a room
  have counted : Orderly s { s.enqueueLoad id a with freeCount := s.freeCount + 1 } :=
    queued.trans (Orderly.of_same List.prefix_rfl rfl)
  simp only [State.enqueueForLoad]
  refine Orderly.ite (Orderly.ite ?_ ?_) (queued.trans (Orderly.arbitrate _ _))
  · exact (counted.trans (Orderly.arbitrate _ _)).trans (Orderly.settleLoad _ id)
  · exact (counted.trans (Orderly.settleLoad _ id)).trans (Orderly.arbitrate _ _)

theorem Orderly.fetchEnqueue (s : State) : Orderly s s.fetchEnqueue := by
  simp only [State.fetchEnqueue]
  split
  · exact Orderly.refl s
  · exact Orderly.enqueueForLoad _ _ (State.fillChoice_room ‹_›)
  · exact ((Orderly.enqueueVoice _ _ (State.fillChoice_room ‹_›)).trans (Orderly.settleVoice _ _)).trans
      (Orderly.arbitrate _ _)

/-! ### The resets -/

theorem Voice.cleared_sounding (v : Voice) : v.cleared.sounding = false := rfl

theorem Voice.Tame.cleared (v : Voice) : v.Tame v.cleared := ⟨nofun, fun h => absurd rfl h⟩

/-- Every voice is cleared, every window emptied, and the queue (R45, R77, R118). -/
theorem Orderly.clearStreams (s : State) : Orderly s s.clearVoices.clearQueue := by
  have voices := Orderly.updateVoices s (fun _ v => v.cleared) (fun _ => rfl) fun _ => Voice.Tame.cleared
  have emptied (u : State) : Orderly u { u with windows := [], queue := [], enqueueCount := 0 } :=
    Tame.orderly
      { out := List.prefix_rfl
        pending := rfl
        pace := fun p => p.of_pace rfl
        canonical := fun c => ⟨c.dram, c.catalog, c.voices, rfl, fun _ => Window.canonical_blank, c.dies⟩
        limits := fun _ l => l.of_le (Nat.zero_le _) (Nat.le_refl _) fun _ => (Nat.le_refl _)
        limit := rfl
        voices := fun _ _ => Voice.Tame.refl _
        records := fun _ => Steady.of_catalog rfl }
  exact voices.trans (emptied _)

/-- Every record is changed in the same steady way. -/
theorem Orderly.updateRecords (s : State) (f : Nat → Record → Record) (blank : ∀ id, f id Record.blank = Record.blank)
    (h : ∀ id r, RecordStep r (f id r)) : Orderly s { s with catalog := Table.update Record.blank f s.catalog } :=
  Tame.orderly
    { out := List.prefix_rfl
      pending := rfl
      pace := fun p => p.of_pace rfl
      canonical := fun c => ⟨c.dram, Table.wf_update _ _ _ c.catalog, c.voices, c.windows, c.places, c.dies⟩
      limits := fun _ l => l.of_le (Nat.le_refl _) (Nat.le_refl _) fun _ => (Nat.le_refl _)
      limit := rfl
      voices := fun _ _ => Voice.Tame.refl _
      records := fun c id => by
        have record : ({ s with catalog := Table.update Record.blank f s.catalog } : State).record id = f id (s.record id) :=
          Table.get_update _ _ _ _ ((Table.wf_iff _ _).mp c.catalog).1 (blank id)
        rw [record]
        exact h id _ }

/-- Every die is changed in the same way, no poll list growing. -/
theorem Orderly.updateDies (s : State) (f : Nat → Die → Die) (blank : ∀ d, f d Die.blank = Die.blank)
    (h : ∀ d x, (f d x).polls.length ≤ x.polls.length) : Orderly s { s with dies := Table.update Die.blank f s.dies } :=
  Tame.orderly
    { out := List.prefix_rfl
      pending := rfl
      pace := fun p => p.of_pace rfl
      canonical := fun c => ⟨c.dram, c.catalog, c.voices, c.windows, c.places, Table.wf_update _ _ _ c.dies⟩
      limits := fun c l => l.of_le (Nat.le_refl _) (Nat.le_refl _) fun d => by
        have die : ({ s with dies := Table.update Die.blank f s.dies } : State).die d = f d (s.die d) :=
          Table.get_update _ _ _ _ ((Table.wf_iff _ _).mp c.dies).1 (blank d)
        rw [die]
        exact h d _
      limit := rfl
      voices := fun _ _ => Voice.Tame.refl _
      records := fun _ => Steady.of_catalog rfl }

theorem Orderly.clearStores (s : State) : Orderly s { s with stores := [] } :=
  Tame.orderly
    { out := List.prefix_rfl
      pending := rfl
      pace := fun p => p.of_pace rfl
      canonical := fun c => c.of_same rfl rfl rfl rfl rfl
      limits := fun _ l => l.of_le (Nat.le_refl _) (Nat.zero_le _) fun _ => (Nat.le_refl _)
      limit := rfl
      voices := fun _ _ => Voice.Tame.refl _
      records := fun _ => Steady.of_catalog rfl }

theorem RecordStep.linkReset (r : Record) : RecordStep r r.linkReset := by
  unfold Record.linkReset
  split
  · exact RecordStep.of_slotless r rfl
  · exact RecordStep.of_slotless r rfl
  all_goals exact RecordStep.of_kept rfl rfl

theorem Orderly.clearPace (s : State) : Orderly s { s with pace := s.pace.cleared } :=
  Orderly.setPace s _ fun k => ⟨k.locked, fun _ => ⟨rfl, rfl⟩⟩

theorem Orderly.linkReset (s : State) : Orderly s s.linkReset := by
  have streams := Orderly.clearStreams s
  have stores := streams.trans (Orderly.clearStores _)
  have records := stores.trans (Orderly.updateRecords _ (fun _ r => r.linkReset) (fun _ => rfl) fun _ => RecordStep.linkReset)
  have pace := records.trans (Orderly.clearPace _)
  have dies := pace.trans (Orderly.updateDies _ (fun _ x => x.marked.emptied) (fun _ => rfl) fun _ _ => Nat.zero_le _)
  exact dies.trans (Orderly.of_same List.prefix_rfl rfl)

theorem Orderly.clearPart (s : State) : Orderly s s.clearPart := by
  have streams := Orderly.clearStreams s
  have stores := streams.trans (Orderly.clearStores _)
  have records := stores.trans (Orderly.updateRecords _ (fun _ r => Record.vacant r.generation) (fun _ => rfl)
    fun _ r => RecordStep.of_slotless r rfl)
  have pace := records.trans (Orderly.clearPace _)
  have dies := pace.trans (Orderly.updateDies _ (fun _ x => x.emptied) (fun _ => rfl) fun _ _ => Nat.zero_le _)
  exact dies.trans (Orderly.of_same List.prefix_rfl rfl)

theorem Orderly.releaseRequests (s : State) : Orderly s s.releaseRequests := by
  simp only [State.releaseRequests]
  refine Orderly.ite ?_ (Orderly.refl s)
  split
  · exact Orderly.takeRequest s _
  · exact (Posted.fetchRequest s _).orderly
  · exact Orderly.of_same (List.prefix_append _ _) rfl
  · exact Orderly.of_same (List.prefix_append _ _) rfl
  · exact Orderly.refl s

theorem Orderly.releaseBuffers (s : State) : Orderly s s.releaseBuffers :=
  Orderly.ite (Listed.fetchBuffer s _).orderly (Orderly.refl s)

theorem Orderly.finishEngineReset (s : State) : Orderly s s.finishEngineReset :=
  Orderly.ite (((Orderly.clearPart s).trans (Orderly.releaseBuffers _)).trans (Orderly.releaseRequests _)) (Orderly.refl s)

theorem Orderly.startEngineReset (s : State) : Orderly s s.startEngineReset := by
  have pace : Orderly s { s with pace := s.pace.stopped } := Orderly.setPace s _ fun k => ⟨k.locked, fun _ => ⟨rfl, rfl⟩⟩
  have voices := pace.trans (Orderly.updateVoices _ (fun _ v => { v with pendingRate := none }) (fun _ => rfl)
    fun _ _ => Voice.Tame.of_kept rfl rfl)
  have dies := voices.trans (Orderly.updateDies _ (fun _ x => x.marked) (fun _ => rfl) fun _ _ => (Nat.le_refl _))
  exact dies.trans (Orderly.of_same List.prefix_rfl rfl)

theorem Orderly.engineReset (s : State) : Orderly s s.engineReset :=
  Orderly.ite (Orderly.refl s) ((Orderly.startEngineReset s).trans (Orderly.finishEngineReset _))

/-! ### The state after reset -/

theorem State.reset_canonical : State.reset.Canonical := ⟨rfl, rfl, rfl, rfl, fun _ => Window.canonical_blank, rfl⟩

theorem State.reset_withinLimits : State.reset.WithinLimits := ⟨Nat.zero_le _, Nat.zero_le _, fun _ => Nat.zero_le _⟩

theorem State.reset_paceSound : State.reset.PaceSound := ⟨nofun, fun _ => ⟨rfl, rfl⟩⟩

theorem State.reset_voicesAdmitted : State.reset.VoicesAdmitted := Nat.zero_le _

theorem State.reset_windowsHeldOnce : State.reset.WindowsHeldOnce := fun _ _ _ h => absurd rfl h

theorem State.reset_vacantHoldsNoSlot : State.reset.VacantHoldsNoSlot := fun _ _ => rfl

/-- Power-on is the state after reset, whatever was before (R26, R76). -/
theorem Orderly.powerOn (s : State) : Orderly s s.powerOn where
  out := List.prefix_rfl
  pending := rfl
  pace _ := State.reset_paceSound.of_pace rfl
  canonical _ := State.reset_canonical.of_same rfl rfl rfl rfl rfl
  limits _ _ := State.reset_withinLimits.of_le (Nat.le_refl _) (Nat.le_refl _) fun _ => (Nat.le_refl _)
  admitted _ _ := State.reset_voicesAdmitted
  windows _ _ := State.reset_windowsHeldOnce
  slots _ _ := State.reset_vacantHoldsNoSlot

/-! ### Every command -/

theorem Orderly.setRegisters (s : State) (w : RegisterWindow) : Orderly s { s with registers := w } :=
  Orderly.of_same List.prefix_rfl rfl

theorem Orderly.dieEvent {s t : State} (h : Inner s t) (k : Steady s t) : Orderly s t.finishEngineReset :=
  (Orderly.of_inner h k).trans (Orderly.finishEngineReset t)

theorem Orderly.work (c : Instr) (s : State) : Orderly s (work c s) := by
  cases c with
  | define h p => exact Orderly.requestArrives s _
  | setPin h r pin => exact Orderly.requestArrives s _
  | retire h r force => exact Orderly.requestArrives s _
  | loadHead h r => exact Orderly.requestArrives s _
  | unloadHead h r => exact Orderly.requestArrives s _
  | configureMemory h p => exact Orderly.requestArrives s _
  | start h p => exact Orderly.requestArrives s _
  | release h v => exact Orderly.requestArrives s _
  | stop h v => exact Orderly.requestArrives s _
  | retune h p => exact Orderly.requestArrives s _
  | run h => exact Orderly.requestArrives s _
  | halt h => exact Orderly.requestArrives s _
  | locate h position => exact Orderly.requestArrives s _
  | setPace h p => exact Orderly.requestArrives s _
  | store h p => exact Orderly.requestArrives s _
  | probeDie h die => exact Orderly.requestArrives s _
  | reviveDie h die => exact Orderly.requestArrives s _
  | tuneEngine h p => exact Orderly.requestArrives s _
  | badKind h kind => exact Orderly.requestArrives s _
  | requestFetchHeld r => exact Orderly.requestArrives s r
  | requestFetchFailed => exact (Posted.requestFetchFails s).orderly
  | requestNextRereadEnd read => exact (Posted.requestReread s read).orderly
  | statusWriteFailed => exact Orderly.latch s _
  | requestListPointer lower =>
    exact (Orderly.setRegisters s _).trans (Posted.writeRequestPointer (s.setWriteHold .requestListPointer 0#32) _).orderly
  | requestResume => exact (Posted.resumeRequests s).orderly
  | bufferListPointer lower =>
    exact (Orderly.setRegisters s _).trans (Listed.writeBufferPointer (s.setWriteHold .bufferListPointer 0#32) _).orderly
  | bufferResume => exact (Listed.resumeBuffer s).orderly
  | bufferFetchArrival next buffer done => exact (Listed.bufferArrives s next buffer done).orderly
  | bufferFetchFailed => exact (Listed.bufferFetchFails s).orderly
  | bufferNextRereadEnd read => exact (Listed.bufferReread s read).orderly
  | dataDelivery => exact Orderly.deliverData s
  | endDelivery => exact Orderly.deliverEnd s
  | deliveryWriteFailed => exact (Listed.deliveryFails s).orderly
  | panic => exact Orderly.ite (Orderly.refl s) (Orderly.endVoices _ s _)
  | engineReset => exact Orderly.engineReset s
  | engineResetClear => exact Orderly.finishEngineReset s
  | interruptStatusWrite value => exact Orderly.setRegisters s _
  | interruptMaskWrite value => exact Orderly.setRegisters s _
  | counterWrite counter => exact Orderly.setRegisters s _
  | inspectCapture table index page => exact Orderly.setRegisters s _
  | inspectPageSelect page => exact Orderly.setRegisters s _
  | wideRegisterUpperWrite register value => exact Orderly.ite (Orderly.setRegisters s _) (Orderly.refl s)
  | wideRegisterLowerRead register => exact (Orderly.setRegisters s _).trans (Orderly.emit _ _)
  | registerWrite offset value => exact Orderly.refl s
  | msiEnableChange enable vector => exact Orderly.setRegisters s _
  | powerOn => exact Orderly.powerOn s
  | linkReset => exact Orderly.linkReset s
  | periodExpiry => exact Orderly.expiry s
  | clockLoss => exact Orderly.clockLost s
  | wordClockEdge => exact Orderly.clockEdge s
  | fetchEnqueue => exact Orderly.fetchEnqueue s
  | diePollInterval d => exact Orderly.of_inner (Inner.pollInterval s d) (Steady.pollInterval s d)
  | dieAddressAck d => exact Orderly.of_inner (Inner.addressAck s d) (Steady.addressAck s d)
  | programDataPhaseEnd d data => exact Orderly.of_inner (Inner.dataPhaseEnds s d data) (Steady.dataPhaseEnds s d data)
  | dieAddressRefused d => exact Orderly.dieEvent (Inner.addressRefused s d) (Steady.addressRefused s d)
  | dieReadyAnswer d elapsed => exact Orderly.dieEvent (Inner.readyAnswer s d _) (Steady.readyAnswer s d _)
  | dieBusyAnswer d elapsed => exact Orderly.dieEvent (Inner.busyAnswer s d _) (Steady.busyAnswer s d _)
  | dieTransferEnd d data stored => exact Orderly.dieEvent (Inner.transferEnd s d data stored) (Steady.transferEnd s d data stored)
  | readTimeout d => exact Orderly.dieEvent (Inner.readTimesOut s d) (Steady.readTimesOut s d)
  | pollTimeout d => exact Orderly.dieEvent (Inner.pollTimesOut s d) (Steady.pollTimesOut s d)
  | programDmaFailed d => exact Orderly.dieEvent (Inner.dmaFails s d) (Steady.dmaFails s d)
  | programTimeout d => exact Orderly.dieEvent (Inner.programTimesOut s d) (Steady.programTimesOut s d)

theorem exec_orderly (c : Instr) (s : State) : ∃ t, exec c s = .next t ∧ t.completions = [] ∧ Orderly s t := by
  obtain ⟨t, ht, posted, settled⟩ := event_next (work c) s
  exact ⟨t, (exec_work c s).trans ht, settled, (Orderly.work c s).trans posted.orderly⟩

/-- A step keeps what every command keeps: on an empty queue it counts a frame, else it runs the front command. The queue that
waits is none of what the invariants speak of. -/
theorem step_keeps {P : State → Prop} (orderly : ∀ {s t}, Orderly s t → P s → P t)
    (queued : ∀ (s : State) (rest : List Instr), P s → P { s with pending := rest }) (s t : State) (h : P s)
    (k : step s = .next t) : P t := by
  unfold step at k
  split at k
  · obtain ⟨u, hu, posted, _⟩ := event_next State.countInternalFrame s
    obtain rfl : u = t := Host.Outcome.next.inj (hu.symm.trans k)
    exact orderly ((Orderly.countInternalFrame s).trans posted.orderly) h
  · rename_i c rest _
    obtain ⟨u, hu, _, ord⟩ := exec_orderly c { s with pending := rest }
    obtain rfl : u = t := Host.Outcome.next.inj (hu.symm.trans k)
    exact orderly ord (queued s rest h)

theorem State.Canonical.setPending {s : State} (c : s.Canonical) (rest : List Instr) :
    ({ s with pending := rest } : State).Canonical := c.of_same rfl rfl rfl rfl rfl

theorem State.WithinLimits.setPending {s : State} (l : s.WithinLimits) (rest : List Instr) :
    ({ s with pending := rest } : State).WithinLimits := l.of_le (Nat.le_refl _) (Nat.le_refl _) fun _ => (Nat.le_refl _)

/-! ### The obligations -/

/-- Settles O4: every operation of a command is orderly, and so every step. -/
theorem canonicalKept : Obligations.CanonicalKept :=
  step_keeps (fun o => o.canonical) fun _ rest c => c.setPending rest

/-- Settles O5: the queue grows only where the fill arbiter finds room, the table of STOREs and a poll list only at a take that finds
room. -/
theorem limitsKept : Obligations.LimitsKept := fun s t c l k =>
  (step_keeps (P := fun s => s.Canonical ∧ s.WithinLimits) (fun o h => ⟨o.canonical h.1, o.limits h.1 h.2⟩)
    (fun _ rest h => ⟨h.1.setPending rest, h.2.setPending rest⟩) s t ⟨c, l⟩ k).2

/-- Settles O6: each of the pace operations of an expiry and of the takes leaves the Pace Timer sound. -/
theorem paceSoundKept : Obligations.PaceSoundKept :=
  step_keeps (fun o => o.pace) fun _ _ p => p.of_pace rfl

/-- Settles O7: only a START below the limit, or after a steal, adds a sounding voice, and TUNE_ENGINE keeps room for those that
sound. -/
theorem voicesAdmittedKept : Obligations.VoicesAdmittedKept := fun s t c a k =>
  (step_keeps (P := fun s => s.Canonical ∧ s.VoicesAdmitted) (fun o h => ⟨o.canonical h.1, o.admitted h.1 h.2⟩)
    (fun _ rest h => ⟨h.1.setPending rest, h.2⟩) s t ⟨c, a⟩ k).2

/-- Settles O8: only a START gives a window, and gives a free one; no operation that leaves a record VACANT leaves it a slot. -/
theorem windowsHeldOnceKept : Obligations.WindowsHeldOnceKept :=
  ⟨fun s t c w k => (step_keeps (P := fun s => s.Canonical ∧ s.WindowsHeldOnce)
      (fun o h => ⟨o.canonical h.1, o.windows h.1 h.2⟩) (fun _ rest h => ⟨h.1.setPending rest, h.2⟩) s t ⟨c, w⟩ k).2,
    fun s t c v k => (step_keeps (P := fun s => s.Canonical ∧ s.VacantHoldsNoSlot)
      (fun o h => ⟨o.canonical h.1, o.slots h.1 h.2⟩) (fun _ rest h => ⟨h.1.setPending rest, h.2⟩) s t ⟨c, v⟩ k).2⟩

/-- Settles O2: every command is an event, whose work only adds to what leaves the part and whose end writes the completions. -/
theorem everyCommandAnswersNext : Obligations.EveryCommandAnswersNext := fun c s => by
  obtain ⟨t, ht, settled, o⟩ := exec_orderly c s
  exact ⟨t, ht, settled, o.out, o.pending⟩

/-- Settles O1: the step's match on the queue. -/
theorem frontCommandRuns : Obligations.FrontCommandRuns := fun c rest s h => by
  unfold step
  rw [h]

/-- Settles O3: the state after reset has no voice in use, no record that is not blank, nothing queued and nothing pending. -/
theorem invariantsAtReset : Obligations.InvariantsAtReset :=
  ⟨State.reset_canonical, State.reset_withinLimits, State.reset_paceSound, State.reset_voicesAdmitted,
    State.reset_windowsHeldOnce, State.reset_vacantHoldsNoSlot⟩

end Sys2Proof.Machine
end

section
/-! PROOFS. The resets (O11 to O14): what the part holds after power-on, after a link reset and after an engine reset's clear, read
field by field from the tables each reset updates; and the message that no reset sends. -/

namespace Sys2Proof.Machine

/-! ### Events without completions -/

/-- An event that completes no request ends with its message alone. -/
theorem exec_settled {c : Instr} {s t : State} (h : work c s = t) (k : t.completions = []) :
    exec c s = .next (sendMessage s t) := by
  rw [exec_work, event_settled _ _ (by rw [h]; exact k), h]

/-- No message goes out where none is wanted after the event, or one was wanted before it (R182). -/
theorem sendMessage_silent {s t : State} (h : t.messageWanted = true → s.messageWanted = true) : sendMessage s t = t := by
  cases hs : s.messageWanted <;> cases ht : t.messageWanted <;> simp_all [sendMessage]

theorem sendMessage_disabled {s t : State} (h : t.registers.msiEnable = false) : sendMessage s t = t :=
  sendMessage_silent fun k => by simp [State.messageWanted, h] at k

/-- No message goes out where the flags, the mask and the enable stay as they were. -/
theorem sendMessage_same {s t : State} (h : t.registers.status = s.registers.status) (m : t.registers.mask = s.registers.mask)
    (e : t.registers.msiEnable = s.registers.msiEnable) : sendMessage s t = t :=
  sendMessage_silent fun k => by simpa [State.messageWanted, State.maskedStatus, h, m, e] using k

/-! ### Tables under an update of every entry -/

theorem State.record_update {s : State} (c : s.Canonical) {f : Nat → Record → Record} {t : State}
    (h : t.catalog = Table.update Record.blank f s.catalog) (blank : ∀ id, f id Record.blank = Record.blank) (id : Nat) :
    t.record id = f id (s.record id) := by
  unfold State.record
  rw [h]
  exact Table.get_update _ _ _ _ ((Table.wf_iff _ _).mp c.catalog).1 (blank id)

theorem State.voice_update {s : State} (c : s.Canonical) {f : Nat → Voice → Voice} {t : State}
    (h : t.voices = Table.update Voice.blank f s.voices) (blank : ∀ n, f n Voice.blank = Voice.blank) (n : Nat) :
    t.voice n = f n (s.voice n) := by
  unfold State.voice
  rw [h]
  exact Table.get_update _ _ _ _ ((Table.wf_iff _ _).mp c.voices).1 (blank n)

theorem State.die_update {s : State} (c : s.Canonical) {f : Nat → Die → Die} {t : State}
    (h : t.dies = Table.update Die.blank f s.dies) (blank : ∀ d, f d Die.blank = Die.blank) (d : Nat) :
    t.die d = f d (s.die d) := by
  unfold State.die
  rw [h]
  exact Table.get_update _ _ _ _ ((Table.wf_iff _ _).mp c.dies).1 (blank d)

theorem State.window_none {t : State} (h : t.windows = []) (w i : Nat) : (t.window w).place i = .empty := by
  unfold State.window
  rw [h]
  rfl

theorem Counters.zero_value (c : CounterName) : Counters.zero.value c = 0 := by
  cases c <;> rfl

theorem inspectData_blank {t : State} (h : t.registers.snapshot = List.replicate 32 0#64) (n : Nat) :
    t.inspectData n = 0#64 := by
  simp only [State.inspectData, h, List.getD_eq_getElem?_getD, List.getElem?_replicate]
  split <;> split <;> rfl

/-! ### Power-on -/

/-- Power-on clears the enable of messages, so it sends none (R182). -/
theorem exec_powerOn_exact (s : State) : exec .powerOn s = .next s.powerOn :=
  (exec_settled (c := .powerOn) rfl rfl).trans (congrArg _ (sendMessage_disabled rfl))

/-- Settles O11: power-on is the state after reset. -/
theorem powerOnBlocks : Obligations.PowerOnBlocks := fun s =>
  ⟨s.powerOn, exec_powerOn_exact s, rfl, rfl, rfl, State.window_none rfl, rfl, rfl, rfl, rfl,
    fun _ => ⟨rfl, rfl, rfl, rfl, rfl⟩, rfl, rfl, rfl, rfl, rfl, rfl, rfl, rfl, rfl, rfl, rfl, rfl, rfl, rfl,
    Counters.zero_value, rfl, rfl, rfl, inspectData_blank rfl, fun _ => ⟨rfl, rfl⟩, rfl, rfl, fun _ => rfl⟩

/-! ### Link reset -/

theorem exec_linkReset_exact (s : State) : exec .linkReset s = .next s.linkReset :=
  (exec_settled (c := .linkReset) rfl rfl).trans (congrArg _ (sendMessage_disabled rfl))

theorem State.linkReset_record {s : State} (c : s.Canonical) (id : Nat) :
    s.linkReset.record id = (s.record id).linkReset :=
  State.record_update c (f := fun _ r => r.linkReset) rfl (fun _ => rfl) id

theorem State.linkReset_voice {s : State} (c : s.Canonical) (n : Nat) : s.linkReset.voice n = (s.voice n).cleared :=
  State.voice_update c (f := fun _ v => v.cleared) rfl (fun _ => rfl) n

theorem State.linkReset_die {s : State} (c : s.Canonical) (d : Nat) : s.linkReset.die d = (s.die d).marked.emptied :=
  State.die_update c (f := fun _ x => x.marked.emptied) rfl (fun _ => rfl) d

/-- Settles O12: the records, the voices and the dies by their tables' updates, the rest as the reset writes it. -/
theorem linkResetBlocks : Obligations.LinkResetBlocks := by
  intro s c
  refine ⟨s.linkReset, exec_linkReset_exact s, fun id => ?_, rfl, rfl, rfl, fun _ => rfl, rfl, State.linkReset_voice c,
    State.window_none rfl, rfl, rfl, rfl, rfl, rfl, State.linkReset_die c, rfl, rfl, rfl, rfl, rfl, rfl, rfl, rfl, rfl, rfl,
    rfl, rfl, rfl, rfl, rfl, rfl, Counters.zero_value, rfl, rfl, rfl, inspectData_blank rfl, fun _ => ⟨rfl, rfl⟩, rfl⟩
  rw [State.linkReset_record c id]
  unfold Record.linkReset
  split <;> simp_all [Record.vacant]

/-! ### The beginning of an engine reset -/

/-- No die has an operation in flight (R179). -/
theorem State.noOperation_iff {s : State} (c : s.Canonical) :
    s.noOperation = true ↔ ∀ d, (s.die d).operation = none := by
  simp only [State.noOperation, List.all_eq_true, Option.isNone_iff_eq_none]
  constructor
  · intro h d
    obtain listed | blank := Table.get_mem Die.blank s.dies d
    · exact h _ listed
    · exact congrArg Die.operation blank
  · intro h e he
    have die : s.die e.1 = e.2 := Table.get_of_mem _ _ ((Table.wf_iff _ _).mp c.dies).1 he
    rw [← die]
    exact h e.1

theorem State.startEngineReset_voice {s : State} (c : s.Canonical) (n : Nat) :
    s.startEngineReset.voice n = { s.voice n with pendingRate := none } :=
  State.voice_update c (f := fun _ v => { v with pendingRate := none }) rfl (fun _ => rfl) n

theorem State.startEngineReset_die {s : State} (c : s.Canonical) (d : Nat) :
    s.startEngineReset.die d = (s.die d).marked :=
  State.die_update c (f := fun _ x => x.marked) rfl (fun _ => rfl) d

theorem State.startEngineReset_noOperation {s : State} (c : s.Canonical) :
    s.startEngineReset.noOperation = s.noOperation := by
  have c' := (Orderly.startEngineReset s).canonical c
  rw [Bool.eq_iff_iff, State.noOperation_iff c', State.noOperation_iff c]
  simp [State.startEngineReset_die c, Die.marked]

theorem State.resetting_of {s : State} (h : s.registers.engine = .resetting) : s.resetting = true := by
  simp [State.resetting, h]

theorem State.not_resetting_of {s : State} (h : s.registers.engine = .ready) : s.resetting = false := by
  simp [State.resetting, h]

/-- Settles O13: with an operation in flight the reset only begins, and while it is in progress the write is ignored. -/
theorem engineResetBegins : Obligations.EngineResetBegins := by
  refine ⟨fun s c ready busy settled => ⟨s.startEngineReset, ?_, rfl, rfl, State.startEngineReset_voice c,
    State.startEngineReset_die c, ⟨fun _ => rfl, rfl, rfl, rfl⟩, fun _ => rfl, ⟨rfl, rfl⟩, fun _ => rfl, rfl, rfl, rfl, rfl, rfl,
    rfl⟩, fun s resetting settled => ?_⟩
  · have started : work .engineReset s = s.startEngineReset := by
      simp [work, State.engineReset, State.not_resetting_of ready, State.finishEngineReset,
        State.startEngineReset_noOperation c, busy]
    exact (exec_settled started settled).trans (congrArg _ (sendMessage_same rfl rfl rfl))
  · have ignored : work .engineReset s = s := by simp [work, State.engineReset, State.resetting_of resetting]
    exact (exec_settled ignored settled).trans (congrArg _ (sendMessage_same rfl rfl rfl))

/-! ### The clear of an engine reset -/

theorem Table.all_update {α : Type} [DecidableEq α] {b : α} {f : Nat → α → α} {t : Table α} {p : α → Bool}
    (h : ∀ k v, p (f k v) = true) : (Table.update b f t).all (fun e => p e.2) = true :=
  List.all_eq_true.mpr fun e he => by
    obtain ⟨x, _, rfl, _⟩ := Table.mem_update he
    exact h x.1 x.2

theorem State.clearPart_empty (s : State) : s.clearPart.isEmpty = true := by
  have records : s.clearPart.catalog.all (fun e => e.2.state == .vacant) = true :=
    Table.all_update (f := fun _ r => Record.vacant r.generation) (p := fun r => r.state == .vacant) fun _ _ => rfl
  have voices : s.clearPart.voices.all (fun e => e.2.state == .free) = true :=
    Table.all_update (f := fun _ (v : Voice) => v.cleared) (p := fun v => v.state == .free) fun _ _ => rfl
  unfold State.isEmpty
  rw [records, voices]
  rfl

theorem State.clearPart_cleared {s : State} (c : s.Canonical) : ClearedPart s s.clearPart where
  records := State.record_update c (f := fun _ r => Record.vacant r.generation) rfl fun _ => rfl
  slots := ⟨rfl, rfl, rfl⟩
  voices := State.voice_update c (f := fun _ v => v.cleared) rfl fun _ => rfl
  windows := State.window_none rfl
  starts := rfl
  queue := ⟨rfl, rfl⟩
  dies := State.die_update c (f := fun _ x => x.emptied) rfl fun _ => rfl
  stores := rfl
  pace := rfl
  delivery := rfl
  tunables := rfl
  dram _ := rfl
  engine := rfl
  empty := s.clearPart_empty
  window := rfl

/-- What a cleared part is depends on what the clear does not overwrite alone. -/
theorem ClearedPart.congr {s u t : State} (h : ClearedPart u t) (records : ∀ id, (u.record id).generation = (s.record id).generation)
    (partition : u.partition = s.partition) (voices : ∀ n, (u.voice n).cleared = (s.voice n).cleared)
    (starts : u.startCount = s.startCount) (dies : ∀ d, (u.die d).emptied = (s.die d).emptied)
    (pace : u.pace.cleared = s.pace.cleared) (delivery : u.delivery = s.delivery) (tunables : u.tunables = s.tunables)
    (dram : SameDram s u) (window : { u.registers with engine := .ready, status := s.registers.status } =
      { s.registers with engine := .ready }) : ClearedPart s t where
  records id := by rw [h.records id, records id]
  slots := ⟨h.slots.1, h.slots.2.1, h.slots.2.2.trans partition⟩
  voices n := (h.voices n).trans (voices n)
  windows := h.windows
  starts := h.starts.trans starts
  queue := h.queue
  dies d := (h.dies d).trans (dies d)
  stores := h.stores
  pace := h.pace.trans pace
  delivery := by rw [h.delivery, delivery]
  tunables := h.tunables.trans tunables
  dram a := (h.dram a).trans (dram a)
  engine := h.engine
  empty := h.empty
  window := by
    have other := congrArg (fun w : RegisterWindow => { w with status := t.registers.status }) window
    exact h.window.trans other

/-- The reset of a part with no operation in flight clears it at once. -/
theorem ClearedPart.of_started {s t : State} (c : s.Canonical) (idle : s.noOperation = true)
    (h : ClearedPart s.startEngineReset t) : ClearedPart s t := by
  refine h.congr (fun _ => rfl) rfl (fun n => ?_) rfl (fun d => ?_) rfl rfl rfl (fun _ => rfl) rfl
  · rw [State.startEngineReset_voice c]
    rfl
  · have none := (State.noOperation_iff c).mp idle d
    simp [State.startEngineReset_die c, Die.marked, Die.emptied, none]

theorem State.finishEngineReset_eq {s : State} (resetting : s.registers.engine = .resetting) (idle : s.noOperation = true) :
    s.finishEngineReset = s.clearPart.releaseBuffers.releaseRequests := by
  simp [State.finishEngineReset, State.resetting_of resetting, idle]

theorem State.releaseBuffers_idle {s : State} (h : s.delivery.waiting = false) : s.releaseBuffers = s := by
  simp [State.releaseBuffers, h]

theorem State.releaseRequests_idle {s : State} (h : s.requests.waiting = false) : s.releaseRequests = s := by
  simp [State.releaseRequests, h]

/-- The clear where no buffer fetch waits. -/
theorem State.finishEngineReset_requests {s : State} (resetting : s.registers.engine = .resetting)
    (idle : s.noOperation = true) (buffers : s.delivery.waiting = false) :
    s.finishEngineReset = s.clearPart.releaseRequests := by
  rw [State.finishEngineReset_eq resetting idle, State.releaseBuffers_idle (s := s.clearPart) buffers]

/-- The clear where no read of the Request Processor waits. -/
theorem State.finishEngineReset_buffers {s : State} (resetting : s.registers.engine = .resetting)
    (idle : s.noOperation = true) (requests : s.requests.waiting = false) :
    s.finishEngineReset = s.clearPart.releaseBuffers := by
  rw [State.finishEngineReset_eq resetting idle]
  refine State.releaseRequests_idle ?_
  have kept : s.clearPart.releaseBuffers.requests = s.clearPart.requests := by
    unfold State.releaseBuffers
    split
    · rw [(Listed.fetchBuffer s.clearPart _).kept]
    · rfl
  rw [kept]
  exact requests

/-- The clear where nothing waits. -/
theorem State.finishEngineReset_idle {s : State} (resetting : s.registers.engine = .resetting) (idle : s.noOperation = true)
    (requests : s.requests.waiting = false) (buffers : s.delivery.waiting = false) : s.finishEngineReset = s.clearPart := by
  rw [State.finishEngineReset_buffers resetting idle requests, State.releaseBuffers_idle (s := s.clearPart) buffers]

theorem exec_engineResetClear_settled {s t : State} (h : s.finishEngineReset = t) (k : t.completions = []) :
    exec .engineResetClear s = .next (sendMessage s t) := exec_settled (c := .engineResetClear) h k

/-- What an event ends with beside its owners' work: nothing but the message is added to what leaves the part. -/
theorem sendMessage_kept (b s : State) : sendMessage b s = { s with out := (sendMessage b s).out } := by
  unfold sendMessage
  split <;> rfl

/-! ### What waited goes on -/

/-- The cleared part as the take of a held descriptor finds it: its read in flight again. -/
def State.clearedReading (s : State) : State :=
  { s.clearPart with requests := { s.requests with waiting := false, read := .descriptor, held := none } }

theorem State.clearedReading_cleared {s : State} (c : s.Canonical) : ClearedPart s s.clearedReading :=
  let h := State.clearPart_cleared c
  { records := h.records, slots := h.slots, voices := h.voices, windows := h.windows, starts := h.starts, queue := h.queue
    dies := h.dies, stores := h.stores, pace := h.pace, delivery := h.delivery, tunables := h.tunables, dram := h.dram
    engine := h.engine, empty := h.empty, window := h.window }

theorem State.clearedReading_taking {s : State} (h : s.requests.state = .fetching) : s.clearedReading.Taking :=
  ⟨h, rfl, rfl, rfl, rfl⟩

theorem exec_requestArrival (r : Request) (s : State) : exec r.arrival s = event (arrival r.header r.body) s := by
  obtain ⟨h, body⟩ := r
  cases body <;> rfl

/-- A held descriptor is taken by the cleared part as its arrival would be (R174). -/
theorem exec_engineResetClear_held {s : State} (resetting : s.registers.engine = .resetting) (idle : s.noOperation = true)
    (fetching : s.requests.state = .fetching) (waiting : s.requests.waiting = true) {r : Request}
    (held : s.requests.held = some r) (buffers : s.delivery.waiting = false) :
    exec .engineResetClear s = exec r.arrival s.clearedReading := by
  have released : s.finishEngineReset = s.clearPart.takeRequest r := by
    rw [State.finishEngineReset_requests resetting idle buffers]
    simp [State.releaseRequests, State.clearPart, State.clearVoices, State.clearQueue, fetching, waiting, held]
  have taken : s.clearPart.takeRequest r = s.clearedReading.takeRequest r := rfl
  rw [exec_requestArrival, exec_arrival (State.clearedReading_taking fetching), exec_work]
  unfold event
  rw [show work .engineResetClear s = s.finishEngineReset from rfl, released, taken]
  rfl

theorem exec_run (h : Header) (s : State) : exec (.run h) s = event (arrival h .run) s := rfl

/-- The engine reset's clear releases a waiting read or fetch, which latches nothing where its address is aligned. -/
theorem exec_engineResetClear_released {s t : State} (h : s.finishEngineReset = t) (k : t.completions = [])
    (status : t.registers.status = s.registers.status) (mask : t.registers.mask = s.registers.mask)
    (enable : t.registers.msiEnable = s.registers.msiEnable) : exec .engineResetClear s = .next t :=
  (exec_engineResetClear_settled h k).trans (congrArg _ (sendMessage_same status mask enable))

theorem State.clearPart_released {s : State} (fetching : s.requests.state = .fetching) (waiting : s.requests.waiting = true)
    (held : s.requests.held = none) : s.clearPart.releaseRequests =
      match s.requests.read with
      | .descriptor => s.clearPart.fetchRequest s.clearPart.requests.address
      | .nextAtResume | .nextAtAdvance => s.clearPart.beginReread
      | .none => s.clearPart := by
  have h : s.clearPart.requests.held = none := held
  have k : s.clearPart.requests.state = .fetching ∧ s.clearPart.requests.waiting = true := ⟨fetching, waiting⟩
  unfold State.releaseRequests
  rw [if_pos k]
  cases hr : s.requests.read <;>
    · have r : s.clearPart.requests.read = s.requests.read := rfl
      simp only [h, r, hr]

/-- A message adds no read of the link. -/
theorem sendMessage_reads {b s : State} {x : HostAddr} {n : Nat} (h : .hostRead x n ∈ (sendMessage b s).out) :
    .hostRead x n ∈ s.out := by
  unfold sendMessage at h
  split at h
  · simpa using h
  · exact h

theorem State.latched_sendMessage (b s : State) (f : Flag) : (sendMessage b s).latched f = s.latched f := by
  unfold State.latched
  rw [sendMessage_registers]

/-- A descriptor fetch at an aligned address begins at once while the part is READY (R165, R187). -/
theorem State.fetchRequest_begins {s : State} {a : HostAddr} (ready : s.resetting = false) (h : requestAligned a = true) :
    s.fetchRequest a = ({ s with requests := { s.requests.leave with
      state := .fetching, waiting := s.resetting, address := a, heldNext := none, parkReason := none, takenMark := false
      read := .descriptor } } : State).emit (.hostRead a 256) := by
  simp [State.fetchRequest, ready, h]

/-- A buffer descriptor's fetch at an aligned address begins at once while the part is READY (R142, R187). -/
theorem State.fetchBuffer_begins {s : State} {a : HostAddr} (ready : s.resetting = false) (h : bufferAligned a = true) :
    s.fetchBuffer a = ({ s with delivery := { s.delivery.leave with
      state := .active, holding := false, address := a, heldNext := none, heldBuffer := none, parkReason := none
      usedMark := false, read := .descriptor, waiting := s.resetting } } : State).emit (.hostRead a 24) := by
  simp [State.fetchBuffer, ready, h]

/-- A descriptor fetch that waited, at a misaligned address (R187). -/
theorem RequestsParkedAt.of_fetch {b s : State} (a : HostAddr) (h : requestAligned a = false) (ready : s.resetting = false) :
    RequestsParkedAt s (sendMessage b (s.fetchRequest a)) a := by
  have parked : s.fetchRequest a = s.parkRequestsLinkError a false := by simp [State.fetchRequest, ready, h]
  rw [parked]
  exact {
    state := by rw [sendMessage_requests]; exact ⟨rfl, rfl, rfl⟩
    address := by rw [sendMessage_requests]; exact ⟨rfl, rfl, rfl⟩
    count := by rw [sendMessage_requests]; rfl
    flag := by rw [State.latched_sendMessage]; exact State.latched_same _ _
    reads := fun x n hx => by
      have h := sendMessage_reads hx
      exact h }

theorem State.parkBuffer_linkError (s : State) (a : HostAddr) (used : Bool) :
    s.parkBuffer .linkError a used = ((({ s with delivery := { s.delivery with
      state := .parked, holding := false, address := a, heldNext := none, heldBuffer := none
      parkReason := some .linkError, usedMark := used, read := .none, waiting := false
      resumePending := false } } : State).latch .bufferParked).latch .portError) := by
  simp [State.parkBuffer]

theorem sendMessage_delivery (b s : State) : (sendMessage b s).delivery = s.delivery := by
  unfold sendMessage
  split <;> rfl

/-- A buffer fetch at a misaligned address (R187). -/
theorem BufferParkedAt.of_fetch {b s : State} (a : HostAddr) (h : bufferAligned a = false) (ready : s.resetting = false) :
    BufferParkedAt s (sendMessage b (s.fetchBuffer a)) a := by
  have parked : s.fetchBuffer a = ({ s with delivery := s.delivery.leave } : State).parkBuffer .linkError a false := by
    simp [State.fetchBuffer, ready, h]
  rw [parked, State.parkBuffer_linkError]
  exact {
    state := by rw [sendMessage_delivery]; exact ⟨rfl, rfl, rfl⟩
    address := by rw [sendMessage_delivery]; exact ⟨rfl, rfl, rfl⟩
    count := by rw [sendMessage_delivery]; rfl
    flags := ⟨by rw [State.latched_sendMessage]; exact State.latched_same _ _,
      by rw [State.latched_sendMessage]; exact State.latched_latch _ _ _ (State.latched_same _ _)⟩
    reads := fun x n hx => by
      have h := sendMessage_reads hx
      exact h }

theorem Listed.completions {s t : State} (h : Listed s t) : t.completions = s.completions := by
  rw [h.kept]

/-- The parking state that an engine reset's clear leaves, seen from the part before it. -/
theorem RequestsParkedAt.of_clear {s t : State} {a : HostAddr} (h : RequestsParkedAt s.clearPart t a) :
    RequestsParkedAt s t a := ⟨h.state, h.address, h.count, h.flag, h.reads⟩

theorem BufferParkedAt.of_clear {s t : State} {a : HostAddr} (h : BufferParkedAt s.clearPart t a) :
    BufferParkedAt s t a := ⟨h.state, h.address, h.count, h.flags, h.reads⟩

theorem State.clearPart_completions (s : State) : s.clearPart.completions = [] := rfl

theorem State.fetchRequest_completions (s : State) (a : HostAddr) : (s.fetchRequest a).completions = s.completions := by
  simp only [State.fetchRequest]
  split
  · rfl
  · split <;> rfl

theorem takeRun_halted {t : Token} {s : State} (h : s.pace.running = false) :
    takeRun t s = { s with pace := { s.pace with running := true, frame := 0 } }.completePosition t := by
  simp [takeRun, h]

theorem State.completePosition_zero {t : Token} {s : State} (h : s.pace.position = 0) (hc : s.completions = []) :
    (s.completePosition t).completions = [⟨t, .ok, 0#32, 0#32⟩] := by
  simp [State.completePosition, State.complete, h, hc, lowWord, highWord]

/-- The seven ways on for what waited during an engine reset (R163, R174). -/
theorem engineResetClear_goesOn (s : State) (c : s.Canonical) (idle : s.noOperation = true)
    (resetting : s.registers.engine = .resetting) :
    (∀ h, s.requests.state = .fetching → s.requests.waiting = true → s.requests.held = some ⟨h, .run⟩ →
      s.delivery.waiting = false →
      ∃ t, exec .engineResetClear s = .next t ∧ TakenDone s t h .ok 0#32 0#32 ∧ t.pace.running = true ∧
        t.pace.position = 0) ∧
    (s.requests.state = .fetching → s.requests.waiting = true → s.requests.held = none → s.requests.read = .descriptor →
      requestAligned s.requests.address = true → s.delivery.waiting = false →
      ∃ t, exec .engineResetClear s = .next t ∧ t.out = s.out ++ [.hostRead s.requests.address 256] ∧
        t.requests.state = .fetching ∧ t.requests.waiting = false ∧ t.requests.address = s.requests.address ∧
        t.requests.read = .descriptor) ∧
    (s.requests.state = .fetching → s.requests.waiting = true → s.requests.held = none → s.requests.read = .descriptor →
      requestAligned s.requests.address = false → s.delivery.waiting = false →
      ∃ t, exec .engineResetClear s = .next t ∧ RequestsParkedAt s t s.requests.address) ∧
    (s.requests.waiting = false → s.delivery.waiting = true → bufferAligned s.delivery.address = true →
      ∃ t, exec .engineResetClear s = .next t ∧ t.out = s.out ++ [.hostRead s.delivery.address 24] ∧
        t.delivery.state = .active ∧ t.delivery.holding = false ∧ t.delivery.waiting = false ∧
        t.delivery.address = s.delivery.address ∧ t.delivery.read = .descriptor) ∧
    (s.requests.waiting = false → s.delivery.waiting = true → bufferAligned s.delivery.address = false →
      ∃ t, exec .engineResetClear s = .next t ∧ BufferParkedAt s t s.delivery.address) ∧
    (∀ h body, s.requests.state = .fetching → s.requests.waiting = true → s.requests.held = some ⟨h, body⟩ →
      s.delivery.waiting = false →
      ∃ u, ClearedPart s u ∧ u.Canonical ∧ u.Taking ∧ u.out = s.out ∧
        u.requests = { s.requests with waiting := false, read := .descriptor, held := none } ∧
        exec .engineResetClear s = exec (Request.arrival ⟨h, body⟩) u) ∧
    (s.requests.state = .fetching → s.requests.waiting = true → s.requests.held = none →
      s.requests.read = .nextAtAdvance ∨ s.requests.read = .nextAtResume → s.delivery.waiting = false →
      ∃ t, exec .engineResetClear s = .next t ∧ ClearedPart s t ∧ t.out = s.out ++ [.hostRead s.requests.address 8] ∧
        t.requests = { s.requests with waiting := false }) := by
  have ready : s.clearPart.resetting = false := rfl
  refine ⟨fun h fetching waiting held buffers => ?_, fun fetching waiting held read aligned buffers => ?_,
    fun fetching waiting held read misaligned buffers => ?_, fun requests waiting aligned => ?_,
    fun requests waiting misaligned => ?_, fun h body fetching waiting held buffers => ?_,
    fun fetching waiting held read buffers => ?_⟩
  · rw [exec_engineResetClear_held resetting idle fetching waiting held buffers]
    obtain ⟨t, ht, done, posted, _⟩ := takenDone_of (h := h) (body := .run) (r := .ok) (x := 0#32) (y := 0#32)
      (State.clearedReading_taking fetching) (takeRun_halted rfl) (State.completePosition_zero rfl rfl)
      List.prefix_rfl rfl rfl
    exact ⟨t, ht, ⟨done.status, done.count, done.tag, done.flag, done.quiet⟩, by rw [posted.pace]; rfl, by
      rw [posted.pace]; rfl⟩
  · have fetched := State.finishEngineReset_requests resetting idle buffers
    rw [State.clearPart_released fetching waiting held, read] at fetched
    have begun := State.fetchRequest_begins ready aligned
    exact ⟨_, exec_engineResetClear_released (fetched.trans begun) rfl rfl rfl rfl, rfl, rfl, ready, rfl, rfl⟩
  · have fetched := State.finishEngineReset_requests resetting idle buffers
    rw [State.clearPart_released fetching waiting held, read] at fetched
    exact ⟨_, exec_engineResetClear_settled fetched (State.fetchRequest_completions _ _),
      (RequestsParkedAt.of_fetch s.requests.address misaligned ready).of_clear⟩
  · have fetched := State.finishEngineReset_buffers resetting idle requests
    have begun : s.clearPart.releaseBuffers = _ := (if_pos waiting).trans (State.fetchBuffer_begins ready aligned)
    exact ⟨_, exec_engineResetClear_released (fetched.trans begun) rfl rfl rfl rfl, rfl, rfl, rfl, ready, rfl, rfl⟩
  · have fetched := State.finishEngineReset_buffers resetting idle requests
    have begun : s.clearPart.releaseBuffers = s.clearPart.fetchBuffer s.delivery.address := if_pos waiting
    exact ⟨_, exec_engineResetClear_settled (fetched.trans begun) (Listed.fetchBuffer _ _).completions,
      (BufferParkedAt.of_fetch s.delivery.address misaligned ready).of_clear⟩
  · exact ⟨s.clearedReading, State.clearedReading_cleared c,
      ((Orderly.clearPart s).canonical c).of_same rfl rfl rfl rfl rfl, State.clearedReading_taking fetching, rfl, rfl,
      exec_engineResetClear_held resetting idle fetching waiting held buffers⟩
  · have fetched : s.finishEngineReset = s.clearPart.beginReread := by
      rw [State.finishEngineReset_requests resetting idle buffers, State.clearPart_released fetching waiting held]
      obtain read | read := read <;> rw [read]
    have cleared := State.clearPart_cleared c
    exact ⟨_, exec_engineResetClear_released fetched rfl rfl rfl rfl,
      ⟨cleared.records, cleared.slots, cleared.voices, cleared.windows, cleared.starts, cleared.queue, cleared.dies,
        cleared.stores, cleared.pace, cleared.delivery, cleared.tunables, cleared.dram, cleared.engine, cleared.empty,
        cleared.window⟩, rfl, rfl⟩

/-! ### The end of the last marked operation -/

/-- The end of a marked operation during an engine reset: of the part, the die alone changes, but for the flag that a timeout or a
failed DMA read latches and the queue that a lost die drops. -/
structure MarkedEnd (s t : State) (d : Nat) (after : DieState) : Prop where
  kept : t = { s with
    registers := { s.registers with status := t.registers.status }, dies := t.dies, queue := t.queue }
  die : (t.die d).emptied = ((s.die d).ended after).emptied
  others : ∀ x, x ≠ d → t.die x = s.die x

theorem MarkedEnd.setDie (s : State) (d : Nat) {x : Die} {after : DieState} (h : x.emptied = ((s.die d).ended after).emptied) :
    MarkedEnd s (s.setDie d x) d after :=
  ⟨rfl, by rw [State.die_setDie_same]; exact h, fun _ hx => State.die_setDie_other s x hx⟩

theorem State.arbitrate_resetting {s : State} (h : s.resetting = true) (d : Nat) : s.arbitrate d = s := by
  simp [State.arbitrate, h]

theorem State.endRead_marked {s : State} (h : s.resetting = true) (d : Nat) (f : FetchEntry) (e : ReadEnd) :
    s.endRead d f true e = s.dieIdle d := by
  simp only [State.endRead, if_true]
  exact State.arbitrate_resetting (s := s.dieIdle d) h d

theorem State.endAttempt_marked {s : State} (h : s.resetting = true) (d : Nat) (f : FetchEntry) {o : Operation}
    (m : o.discard = true) : s.endAttempt d f o = s.dieIdle d := by
  simp only [State.endAttempt, m, if_true]
  exact State.endRead_marked h d f _

theorem State.endProgram_marked {s : State} (h : s.resetting = true) (d : Nat) (p : ProgramEntry) :
    s.endProgram d p true = s.dieIdle d := by
  simp only [State.endProgram, if_true]
  exact State.arbitrate_resetting (s := s.dieIdle d) h d

theorem State.failProgram_marked {s : State} (h : s.resetting = true) (d : Nat) (p : ProgramEntry) :
    s.failProgram d p true = s.dieIdle d := by
  simp only [State.failProgram, if_true]
  exact State.arbitrate_resetting (s := s.dieIdle d) h d

theorem State.endPoll_marked {s : State} (h : s.resetting = true) (d : Nat) {o : Operation} (m : o.discard = true)
    (a : PollAnswer) (n : Nat) :
    s.endPoll d o a n = s.setDie d ((s.die d).ended (stateAfterPoll (s.die d).state false)) := by
  simp only [State.endPoll, m]
  exact State.arbitrate_resetting (s := s.setDie d _) h d

theorem stateAfterPoll_marked (x : DieState) : stateAfterPoll x false = if x = .offline then .offline else .ready := by
  simp [stateAfterPoll]

theorem MarkedEnd.dieIdle (s : State) (d : Nat) : MarkedEnd s (s.dieIdle d) d .ready := MarkedEnd.setDie s d rfl

theorem MarkedEnd.goOffline {s : State} (h : s.resetting = true) (d : Nat) (o : Operation) :
    MarkedEnd s (s.goOffline d o) d .offline := by
  have gone : s.goOffline d o = { (s.setDie d { (s.die d).ended .offline with programs := [] }).latch .dieFault with
      queue := s.queue.filter fun e => dieOf e.address != d } := by
    simp only [State.goOffline, h, if_true]
    rfl
  rw [gone]
  refine ⟨rfl, ?_, fun x hx => ?_⟩
  · have same := congrArg Die.emptied (State.die_setDie_same s d { (s.die d).ended .offline with programs := [] })
    exact same
  · exact State.die_setDie_other s { (s.die d).ended .offline with programs := [] } hx

/-- A transfer that ends on a marked read: the transfer buffer is empty again (log 33). -/
theorem MarkedEnd.transferEnd {s : State} (h : s.resetting = true) (d : Nat) (data stored : List Byte) {o : Operation}
    {f : FetchEntry} (ho : (s.die d).operation = some o) (hs : (s.die d).state = .transferring) (hw : o.work = .read f)
    (m : o.discard = true) : MarkedEnd s (s.transferEnd d data stored) d .ready := by
  have idle : s.transferEnd d data stored = (s.holdTransfer d (data ++ stored)).dieIdle d := by
    simp only [State.transferEnd, ho, hs, hw, m, State.crcMismatch, if_true]
    rw [State.endRead_marked (s := s.holdTransfer d (data ++ stored)) h,
      State.endAttempt_marked (s := s.holdTransfer d (data ++ stored)) h d f m, ite_self]
  rw [idle]
  refine ⟨rfl, ?_, fun x hx => ?_⟩
  · simp [State.dieIdle, State.holdTransfer, Die.ended, Die.emptied]
  · simp [State.dieIdle, State.holdTransfer, hx]

theorem MarkedEnd.cleared {s t : State} {d : Nat} {after : DieState} (h : MarkedEnd s t d after) (c : t.Canonical) :
    ClearedPart (s.setDie d ((s.die d).ended after)) t.clearPart := by
  have kept := h.kept
  refine (State.clearPart_cleared c).congr (fun id => ?_) (by rw [kept]; rfl) (fun n => ?_) (by rw [kept]; rfl)
    (fun x => ?_) (by rw [kept]; rfl) (by rw [kept]; rfl) (by rw [kept]; rfl) (fun a => by rw [kept]; rfl) (by rw [kept]; rfl)
  · rw [kept]
    rfl
  · rw [kept]
    rfl
  · by_cases hx : x = d
    · subst hx
      rw [State.die_setDie_same]
      exact h.die
    · rw [State.die_setDie_other s _ hx, h.others x hx]

theorem sendMessage_clearedPart {b s u : State} (h : ClearedPart u s) : ClearedPart u (sendMessage b s) := by
  rw [sendMessage_kept]
  exact ⟨h.records, h.slots, h.voices, h.windows, h.starts, h.queue, h.dies, h.stores, h.pace, h.delivery, h.tunables, h.dram,
    h.engine, h.empty, h.window⟩

/-- The end of the last operation in flight during an engine reset clears the part (R179). -/
theorem exec_lastMarkedEnd {s t : State} {d : Nat} {after : DieState} {c : Instr} (k : s.Canonical)
    (resetting : s.registers.engine = .resetting) (requests : s.requests.waiting = false) (buffers : s.delivery.waiting = false)
    (others : ∀ x, x ≠ d → (s.die x).operation = none) (h : MarkedEnd s t d after) (inner : Inner s t)
    (hc : work c s = t.finishEngineReset) :
    ∃ u, exec c s = .next u ∧ ClearedPart (s.setDie d ((s.die d).ended after)) u ∧ u.requests = s.requests := by
  have canonical := inner.canonical k
  have idle : t.noOperation = true := (State.noOperation_iff canonical).mpr fun x => by
    by_cases hx : x = d
    · subst hx
      exact congrArg Die.operation h.die
    · rw [h.others x hx]
      exact others x hx
  have cleared : t.finishEngineReset = t.clearPart := State.finishEngineReset_idle (inner.engine.trans resetting) idle
    (by rw [inner.requests]; exact requests) (by rw [inner.delivery]; exact buffers)
  refine ⟨_, exec_settled (hc.trans cleared) rfl, sendMessage_clearedPart (h.cleared canonical), ?_⟩
  rw [sendMessage_requests]
  exact inner.requests

/-- Settles O14: at the reset itself and at its clear the part is `clearPart`; what waited goes on from there; and each end of the
last marked operation changes its die alone before the clear. -/
theorem engineResetClears : Obligations.EngineResetClears := by
  refine ⟨fun s c idle settled requests buffers => ⟨fun ready => ?_, fun resetting => ?_⟩,
    fun s c idle _ resetting => engineResetClear_goesOn s c idle resetting,
    fun s d o after c k _ resetting requests buffers ho m others ends => ?_⟩
  · have started : s.startEngineReset.noOperation = true := (State.startEngineReset_noOperation c).trans idle
    have cleared : work .engineReset s = s.startEngineReset.clearPart :=
      (if_neg (by simp [State.not_resetting_of ready])).trans
        (State.finishEngineReset_idle rfl started requests buffers)
    have canonical := (Orderly.startEngineReset s).canonical c
    exact ⟨_, (exec_settled cleared rfl).trans (congrArg _ (sendMessage_same rfl rfl rfl)),
      ClearedPart.of_started c idle (State.clearPart_cleared canonical), rfl, rfl⟩
  · exact ⟨_, exec_engineResetClear_released (State.finishEngineReset_idle resetting idle requests buffers) rfl rfl rfl rfl,
      State.clearPart_cleared c, rfl, rfl⟩
  · have reset := State.resetting_of resetting
    have ended {t : State} {c : Instr} (h : MarkedEnd s t d after) (inner : Inner s t)
        (hc : work c s = t.finishEngineReset) := exec_lastMarkedEnd k resetting requests buffers others h inner hc
    unfold endsWork at ends
    split at ends
    · rename_i f hw
      obtain ⟨addressing, rfl, rfl⟩ | ⟨transferring, ⟨data, stored, rfl⟩, rfl⟩ | ⟨rfl, rfl⟩ := ends
      · refine ended (t := s.addressRefused d) ?_ (Inner.addressRefused s d) rfl
        simp only [State.addressRefused, ho, addressing, hw, State.endAttempt_marked reset _ _ m]
        exact MarkedEnd.dieIdle s d
      · exact ended (MarkedEnd.transferEnd reset d data stored ho transferring hw m) (Inner.transferEnd s d data stored) rfl
      · refine ended (t := s.readTimesOut d) ?_ (Inner.readTimesOut s d) rfl
        simp only [State.readTimesOut, ho, hw]
        exact MarkedEnd.goOffline reset d o
    · rename_i p hw
      obtain ⟨addressing, rfl, rfl⟩ | ⟨transferring, rfl, rfl⟩ | ⟨polling, ⟨n, rfl⟩, rfl⟩ | ⟨rfl, rfl⟩ := ends
      · refine ended (t := s.addressRefused d) ?_ (Inner.addressRefused s d) rfl
        simp only [State.addressRefused, ho, addressing, hw, m, State.failProgram_marked reset]
        exact MarkedEnd.dieIdle s d
      · refine ended (t := s.dmaFails d) ?_ (Inner.dmaFails s d) rfl
        simp only [State.dmaFails, ho, transferring, hw, m]
        rw [State.failProgram_marked (s := s.latch .portError) reset]
        exact ⟨rfl, congrArg Die.emptied (State.die_setDie_same _ _ _), fun _ hx => State.die_setDie_other _ _ hx⟩
      · refine ended (t := s.readyAnswer d n.toNat) ?_ (Inner.readyAnswer s d _) rfl
        simp only [State.readyAnswer, ho, polling, hw, m, if_true, State.endProgram_marked reset]
        exact MarkedEnd.dieIdle s d
      · refine ended (t := s.programTimesOut d) ?_ (Inner.programTimesOut s d) rfl
        simp only [State.programTimesOut, ho, hw]
        exact MarkedEnd.goOffline reset d o
    · rename_i hw
      obtain ⟨command, rfl⟩ := ends
      have poll (a : PollAnswer) (n : Nat) : MarkedEnd s (s.endPoll d o a n) d
          (if (s.die d.val).state = .offline then .offline else .ready) := by
        rw [State.endPoll_marked reset _ m, stateAfterPoll_marked]
        exact MarkedEnd.setDie s d rfl
      obtain ⟨n, rfl⟩ | ⟨n, rfl⟩ | rfl := command
      · refine ended (t := s.readyAnswer d n.toNat) ?_ (Inner.readyAnswer s d _) rfl
        simp only [State.readyAnswer, ho, hw]
        exact poll _ _
      · refine ended (t := s.busyAnswer d n.toNat) ?_ (Inner.busyAnswer s d _) rfl
        simp only [State.busyAnswer, ho, hw]
        exact poll _ _
      · refine ended (t := s.pollTimesOut d) ?_ (Inner.pollTimesOut s d) rfl
        simp only [State.pollTimesOut, ho, hw]
        exact poll _ _

end Sys2Proof.Machine
end

section
/-! PROOFS. The Register Window (O15 to O18): the message of every command from `Quiet`, the registers of a snapshot field by field,
the holds of the wide registers, and PANIC. -/

namespace Sys2Proof.Machine

/-! ### The message of every command -/

/-- No command's owners send a message; the end of its event does (R182). -/
theorem Quiet.work (c : Instr) (s : State) : Quiet s (work c s) := by
  cases c with
  | requestFetchHeld r => exact Quiet.requestArrives s r
  | requestFetchFailed => exact Quiet.requestFetchFails s
  | requestNextRereadEnd read => exact Quiet.requestReread s read
  | requestListPointer lower => exact (Quiet.of_out rfl).trans (Quiet.writeRequestPointer _ _)
  | requestResume => exact Quiet.resumeRequests s
  | bufferListPointer lower => exact (Quiet.of_out rfl).trans (Quiet.writeBufferPointer _ _)
  | bufferResume => exact Quiet.resumeBuffer s
  | bufferFetchArrival next buffer done => exact Quiet.bufferArrives s next buffer done
  | bufferFetchFailed => exact Quiet.bufferFetchFails s
  | bufferNextRereadEnd read => exact Quiet.bufferReread s read
  | dataDelivery => exact Quiet.deliverData s
  | endDelivery => exact Quiet.deliverEnd s
  | deliveryWriteFailed => exact Quiet.deliveryFails s
  | panic => exact Quiet.panic s
  | engineReset => exact Quiet.engineReset s
  | engineResetClear => exact Quiet.finishEngineReset s
  | wideRegisterUpperWrite register value => exact Quiet.writeUpper s register value
  | wideRegisterLowerRead register => exact Quiet.readLower s register
  | periodExpiry => exact Quiet.expiry s
  | clockLoss => exact Quiet.clockLost s
  | wordClockEdge => exact Quiet.clockEdge s
  | fetchEnqueue => exact Quiet.fetchEnqueue s
  | diePollInterval d => exact (Inner.pollInterval s d).isQuiet
  | dieAddressAck d => exact (Inner.addressAck s d).isQuiet
  | programDataPhaseEnd d data => exact (Inner.dataPhaseEnds s d data).isQuiet
  | dieAddressRefused d => exact Quiet.dieEvent (Inner.addressRefused s d)
  | dieReadyAnswer d elapsed => exact Quiet.dieEvent (Inner.readyAnswer s d _)
  | dieBusyAnswer d elapsed => exact Quiet.dieEvent (Inner.busyAnswer s d _)
  | dieTransferEnd d data stored => exact Quiet.dieEvent (Inner.transferEnd s d data stored)
  | readTimeout d => exact Quiet.dieEvent (Inner.readTimesOut s d)
  | pollTimeout d => exact Quiet.dieEvent (Inner.pollTimesOut s d)
  | programDmaFailed d => exact Quiet.dieEvent (Inner.dmaFails s d)
  | programTimeout d => exact Quiet.dieEvent (Inner.programTimesOut s d)
  | statusWriteFailed => rfl
  | interruptStatusWrite value => rfl
  | interruptMaskWrite value => rfl
  | counterWrite counter => rfl
  | inspectCapture table index page => rfl
  | inspectPageSelect page => rfl
  | registerWrite offset value => rfl
  | msiEnableChange enable vector => rfl
  | powerOn => rfl
  | linkReset => rfl
  | define | setPin | retire | loadHead | unloadHead | configureMemory | start | release | stop | retune | run | halt | locate
  | setPace | store | probeDie | reviveDie | tuneEngine | badKind => exact Quiet.requestArrives s _

theorem exec_messageMade {c : Instr} {s t : State} (h : exec c s = .next t) : messageMade s t :=
  event_messageMade (Quiet.work c s) ((exec_work c s).symm.trans h)

theorem sendMessage_wants (b s : State) : (sendMessage b s).wantsMessage = s.wantsMessage := by
  unfold State.wantsMessage
  rw [sendMessage_registers]

/-- An event that puts nothing of its own on the link puts its one message there (R182). -/
theorem sendMessage_oneMessage {b s : State} (h : s.out = b.out) : oneMessage b (sendMessage b s) := by
  unfold oneMessage
  rw [sendMessage_wants, sendMessage_registers, ← State.messageWanted_iff, ← State.messageWanted_iff]
  cases hb : b.messageWanted <;> cases hs : s.messageWanted <;> simp [sendMessage, hb, hs, h]

/-! ### Flags, counters, mask, message -/

theorem State.latched_clearFlags (s : State) (v : Word) (f : Flag) :
    (s.clearFlags v).latched f = (s.latched f && !v.getLsbD f.position) := by
  cases f <;> simp [State.latched, State.clearFlags, Flag.position]

/-- A flag cleared wants no message that was not wanted. -/
theorem sendMessage_clearFlags (s : State) (v : Word) : sendMessage s (s.clearFlags v) = s.clearFlags v := by
  refine sendMessage_silent fun h => ?_
  simp only [State.messageWanted, State.maskedStatus, Bool.and_eq_true, bne_iff_ne] at h ⊢
  obtain ⟨enabled, some⟩ := h
  refine ⟨enabled, fun none => some ?_⟩
  have e : (s.clearFlags v).registers.status = s.registers.status &&& ~~~(v.extractLsb' 0 10) := rfl
  have m : (s.clearFlags v).registers.mask = s.registers.mask := rfl
  rw [e, m, BitVec.and_assoc, BitVec.and_comm _ s.registers.mask, ← BitVec.and_assoc, none, BitVec.zero_and]

theorem Counters.clear_value (c : Counters) (n m : CounterName) :
    (c.clear n).value m = if m = n then 0 else c.value m := by
  cases n <;> cases m <;> rfl

/-- Settles O15: each write by its one register, and the message of every command from `Quiet.work`. -/
theorem flagsCountersMessages : Obligations.FlagsCountersMessages := by
  refine ⟨⟨fun v s settled => ?_, fun c s settled => ?_⟩, ⟨fun v s settled => ?_, fun enable vector s settled => ?_⟩,
    fun c s t h => exec_messageMade h⟩
  · have ends := exec_settled (c := .interruptStatusWrite v) (s := s) rfl settled
    exact ⟨_, ends.trans (congrArg _ (sendMessage_clearFlags s v)), s.latched_clearFlags v, rfl⟩
  · have ends := exec_settled (c := .counterWrite c) (s := s) rfl settled
    refine ⟨_, ends.trans (congrArg _ (sendMessage_same rfl rfl rfl)), ?_, fun d other => ?_, rfl⟩
    · exact (Counters.clear_value _ _ _).trans (if_pos rfl)
    · exact (Counters.clear_value _ _ _).trans (if_neg other)
  · refine ⟨_, exec_settled (c := .interruptMaskWrite v) rfl settled, by rw [sendMessage_registers]; rfl,
      sendMessage_oneMessage rfl, ?_⟩
    rw [sendMessage_registers]
    exact sendMessage_kept _ _
  · refine ⟨_, exec_settled (c := .msiEnableChange enable vector) rfl settled, by rw [sendMessage_registers]; rfl,
      sendMessage_oneMessage rfl, ?_⟩
    rw [sendMessage_registers]
    exact sendMessage_kept _ _

/-! ### The inspection port -/

theorem exec_capture {s : State} (table : BitVec 3) (index : BitVec 24) (page : Bool) (settled : s.completions = []) :
    exec (.inspectCapture table index page) s = .next (s.capture table index page) :=
  (exec_settled (c := .inspectCapture table index page) rfl settled).trans (congrArg _ (sendMessage_same rfl rfl rfl))

theorem padPage_length (l : List (BitVec 64)) : (padPage l).length = 16 := by
  simp [padPage]

theorem padPage_getD (l : List (BitVec 64)) (n : Nat) (h : n < 16) : (padPage l).getD n 0#64 = l.getD n 0#64 := by
  simp only [padPage, List.getD_eq_getElem?_getD, List.getElem?_take, h, if_true]
  by_cases k : n < l.length
  · rw [List.getElem?_append_left k]
  · rw [List.getElem?_append_right (by omega), List.getElem?_replicate, List.getElem?_eq_none (by omega)]
    split <;> rfl

theorem State.snapshotOf_length (s : State) (table : BitVec 3) (index : BitVec 24) :
    (s.snapshotOf table index).length = 32 := by
  unfold State.snapshotOf
  split
  · simp [padPage_length]
  · rfl

theorem State.snapshotOf_outside {s : State} {table : BitVec 3} {index : BitVec 24} (h : inspectRange table ≤ index.toNat)
    (n : Nat) : (s.snapshotOf table index).getD n 0#64 = 0#64 := by
  simp only [State.snapshotOf, if_neg (Nat.not_lt.mpr h), List.getD_eq_getElem?_getD, List.getElem?_replicate]
  split <;> rfl

/-- A register of page 0. -/
theorem State.snapshotOf_first {s : State} {table : BitVec 3} {index : BitVec 24} (h : index.toNat < inspectRange table)
    (n : Nat) (k : n < 16) :
    (s.snapshotOf table index).getD n 0#64 = (inspectHeader table index :: s.recordRegisters table index.toNat).getD n 0#64 := by
  rw [State.snapshotOf, if_pos h, List.getD_eq_getElem?_getD, List.getElem?_append_left (by rw [padPage_length]; exact k),
    ← List.getD_eq_getElem?_getD]
  exact padPage_getD _ n k

/-- A register of page 1. -/
theorem State.snapshotOf_second {s : State} {table : BitVec 3} {index : BitVec 24} (h : index.toNat < inspectRange table)
    (n : Nat) (k : n < 16) :
    (s.snapshotOf table index).getD (16 + n) 0#64 = (s.secondPage table index.toNat).getD n 0#64 := by
  rw [State.snapshotOf, if_pos h, List.getD_eq_getElem?_getD, List.getElem?_append_right (by rw [padPage_length]; omega),
    padPage_length, Nat.add_sub_cancel_left, ← List.getD_eq_getElem?_getD]
  exact padPage_getD _ n k

theorem inspectHeader_value (table : BitVec 3) (index : BitVec 24) :
    (inspectHeader table index).toNat = 1 + 2 * table.toNat + 256 * index.toNat := by
  have ht := table.isLt
  have hi := index.isLt
  simp only [inspectHeader, packFields, List.map_cons, List.map_nil, List.sum_cons, List.sum_nil, BitVec.toNat_ofNat]
  omega

/-- A register made of fields shows each of them. -/
theorem shows_of_fields {t : State} {n : Nat} {fields : List Field} {shown : List (Nat × Nat × Nat)}
    (h : t.registers.snapshot.getD n 0#64 = packFields fields) (apart : fieldsApart 0 fields = true)
    (among : ∀ f ∈ shown, ⟨f.1, f.2.1, f.2.2⟩ ∈ fields) : shows t n shown := fun f hf => by
  rw [h]
  exact packFields_slice fields apart ⟨f.1, f.2.1, f.2.2⟩ (among f hf)

theorem State.capture_first {s : State} {table : BitVec 3} {index : BitVec 24} {page : Bool}
    (h : index.toNat < inspectRange table) (n : Nat) (k : n < 15) :
    (s.capture table index page).registers.snapshot.getD (n + 1) 0#64 =
      (s.recordRegisters table index.toNat).getD n 0#64 :=
  State.snapshotOf_first h (n + 1) (by omega)

theorem State.capture_second {s : State} {table : BitVec 3} {index : BitVec 24} {page : Bool}
    (h : index.toNat < inspectRange table) (n : Nat) (k : n < 16) :
    (s.capture table index page).registers.snapshot.getD (16 + n) 0#64 = (s.secondPage table index.toNat).getD n 0#64 :=
  State.snapshotOf_second h n k

theorem extentRegisters_some {r : Record} {n : Nat} {e : Extent} (h : ((r.layout.map Layout.extents).getD [])[n]? = some e) :
    (extentRegisters r).getD n 0#64 = packFields [⟨0, 30, e.start⟩, ⟨32, 16, e.count⟩] := by
  simp [extentRegisters, List.getD_eq_getElem?_getD, h]

theorem extentRegisters_none {r : Record} {n : Nat} (h : ((r.layout.map Layout.extents).getD []).length ≤ n) :
    (extentRegisters r).getD n 0#64 = 0#64 := by
  simp [extentRegisters, List.getD_eq_getElem?_getD, h]

/-- What a CATALOG snapshot shows (R25, 11.2). -/
theorem State.capture_catalog (s : State) {index : BitVec 24} {page : Bool} (h : index.toNat < 65536) :
    let t := s.capture 0#3 index page
    let r := s.record index.toNat
    let extents := (r.layout.map Layout.extents).getD []
    let loop := r.layout.bind Layout.loop
    let signature := r.layout.bind Layout.signature
    shows t 1 [(0, 4, r.state.code), (4, 4, (r.layout.map fun l => l.format.code).getD 0), (8, 4, extents.length),
      (12, 4, (signature.map fun g => g.spans.length).getD 0), (16, 16, r.generation.toNat),
      (32, 32, (r.layout.map Layout.length).getD 0)] ∧
    shows t 2 [(0, 16, (r.layout.map Layout.headBlocks).getD 0), (16, 1, r.pin.toNat), (17, 1, loop.isSome.toNat),
      (18, 1, signature.isSome.toNat), (19, 1, r.headSlot.isSome.toNat), (20, 4, r.staleReason.code),
      (24, 8, r.loadReads), (32, 11, r.refs)] ∧
    shows t 3 [(0, 32, (loop.map Loop.start).getD 0), (32, 32, (loop.map Loop.stop).getD 0)] ∧
    shows t 4 [(0, 32, (signature.map fun g => g.expected.toNat).getD 0), (32, 32, r.headSlot.getD 0)] ∧
    (∀ n e, n < 15 → extents[n]? = some e → shows t (16 + n) [(0, 30, e.start), (32, 16, e.count)]) ∧
    (∀ n, n < 15 → extents.length ≤ n → t.registers.snapshot.getD (16 + n) 0#64 = 0#64) := by
  intro t r extents loop signature
  have first := fun n k => s.capture_first (table := 0#3) (page := page) (n := n) h k
  have second := fun n k => s.capture_second (table := 0#3) (page := page) (n := n) h k
  have count : extents.length = (r.layout.map fun l => l.extents.length).getD 0 := by
    show ((r.layout.map Layout.extents).getD []).length = _
    cases r.layout <;> rfl
  refine ⟨shows_of_fields (first 0 (by omega)) rfl (by simp [count, r, signature]),
    shows_of_fields (first 1 (by omega)) rfl (by simp [r, loop, signature]),
    shows_of_fields (first 2 (by omega)) rfl (by simp [loop, r]),
    shows_of_fields (first 3 (by omega)) rfl (by simp [signature, r]), fun n e k he => ?_, fun n k none => ?_⟩
  · exact shows_of_fields ((second n (by omega)).trans (extentRegisters_some he)) rfl (by simp)
  · exact (second n (by omega)).trans (extentRegisters_none none)

/-- What a VOICE snapshot shows (R75, 11.2). -/
theorem State.capture_voice (s : State) {index : BitVec 24} {page : Bool} (h : index.toNat < 1024) :
    let t := s.capture 1#3 index page
    let v := s.voice index.toNat
    shows t 1 [(0, 3, v.state.code), (3, 1, v.headMode.toNat), (4, 1, v.loopFollow.toNat), (5, 1, v.released.toNat),
      (6, 1, v.starved.toNat), (7, 1, v.endPosted.toNat), (8, 1, v.firstDelivery.toNat),
      (9, 1, v.pendingRate.isSome.toNat), (10, 1, v.total.isSome.toNat), (11, 1, v.cursor.atEnd.toNat),
      (12, 4, v.priority), (16, 2, v.leadClass), (18, 4, endReasonCode v.endReason), (32, 16, v.generation.toNat),
      (48, 10, v.window)] ∧
    shows t 2 [(0, 16, v.sampleId), (16, 16, v.sampleGeneration.toNat), (32, 32, v.cookie.toNat)] ∧
    shows t 3 [(0, 32, v.startOffset), (32, 32, v.rate)] ∧
    shows t 4 [(0, 32, v.pendingRate.getD 0), (32, 8, v.underruns), (40, 10, v.reads)] ∧
    shows t 5 [(0, 48, v.position)] ∧ shows t 6 [(0, 48, v.startSequence)] ∧
    shows t 7 [(0, 32, v.cursor.source), (32, 32, v.cursor.stream)] ∧
    shows t 8 [(0, 32, v.scheduled), (32, 32, v.delivered)] ∧ shows t 9 [(0, 48, v.consumed)] ∧
    shows t 10 [(0, 32, v.total.getD 0)] := by
  intro t v
  have first := fun n k => s.capture_first (table := 1#3) (page := page) (n := n) h k
  exact ⟨shows_of_fields (first 0 (by omega)) rfl (by simp [v]), shows_of_fields (first 1 (by omega)) rfl (by simp [v]),
    shows_of_fields (first 2 (by omega)) rfl (by simp [v]), shows_of_fields (first 3 (by omega)) rfl (by simp [v]),
    shows_of_fields (first 4 (by omega)) rfl (by simp [v]), shows_of_fields (first 5 (by omega)) rfl (by simp [v]),
    shows_of_fields (first 6 (by omega)) rfl (by simp [v]), shows_of_fields (first 7 (by omega)) rfl (by simp [v]),
    shows_of_fields (first 8 (by omega)) rfl (by simp [v]), shows_of_fields (first 9 (by omega)) rfl (by simp [v])⟩

/-- What a DIE snapshot shows of the die and its sub-queue, and of its operation by its codes (R116, R136, 11.2). -/
theorem State.capture_die (s : State) {index : BitVec 24} {page : Bool} (h : index.toNat < 16) :
    let t := s.capture 2#3 index page
    let x := s.die index.toNat
    let queue := s.subQueue index.toNat
    let owner := operationOwner x.operation
    shows t 1 [(0, 3, x.state.code), (10, 3, x.retries), (16, 7, x.programs.length), (24, 3, x.polls.length),
      (32, 13, queue.length), (63, 1, if queue = [] then 0 else 1)] ∧
    shows t 3 [(0, 48, (queue.head?.map FetchEntry.deadline).getD 0)] ∧
    shows t 1 [(4, 2, operationCode x.operation), (6, 4, (x.operation.map Operation.attempt).getD 0), (28, 2, owner.1)] ∧
    shows t 2 [(0, 32, operationAddress x.operation), (32, 16, owner.2.1), (48, 16, owner.2.2)] := by
  intro t x queue owner
  have first := fun n k => s.capture_first (table := 2#3) (page := page) (n := n) h k
  have waits : (if queue = [] then 0 else 1) = (queue.head?.map FetchEntry.deadline).isSome.toNat := by
    cases queue <;> rfl
  exact ⟨shows_of_fields (first 0 (by omega)) rfl (by simp [waits, x, queue]),
    shows_of_fields (first 2 (by omega)) rfl (by simp [queue]),
    shows_of_fields (first 0 (by omega)) rfl (by simp [x, owner]),
    shows_of_fields (first 1 (by omega)) rfl (by simp [x, owner])⟩

/-- What a LEAD_CLASS snapshot shows (R116, 11.2). -/
theorem State.capture_lead (s : State) {index : BitVec 24} {page : Bool} {n : Fin 4} (h : index.toNat = n.val) :
    shows (s.capture 3#3 index page) 1 [(32, 8, s.tunables.leadClasses[n].target), (40, 8, s.tunables.leadClasses[n].tolerance),
      (48, 13, s.queue.length)] := by
  have inside : index.toNat < inspectRange 3#3 := h ▸ n.isLt
  have class_ : (s.tunables.leadClasses[index.toNat]?).getD ⟨1, 0⟩ = s.tunables.leadClasses[n] := by simp [h]
  refine shows_of_fields (s.capture_first (page := page) inside 0 (by omega)) rfl ?_
  simp [class_]

/-- Settles O16: the capture's registers, then the four tables' snapshots, of DIE for each kind of operation. -/
theorem inspectPort : Obligations.InspectPort := by
  refine ⟨⟨fun table index page s settled => ?_, fun page s settled => ?_⟩,
    fun index page s settled h => ⟨_, exec_capture _ _ _ settled, s.capture_catalog h⟩,
    fun index page s settled h => ⟨_, exec_capture _ _ _ settled, s.capture_voice h⟩,
    fun index page s settled h => ⟨_, exec_capture _ _ _ settled, ?_⟩,
    fun index page s n settled h => ⟨_, exec_capture _ _ _ settled, s.capture_lead h⟩⟩
  · exact ⟨_, exec_capture _ _ _ settled, rfl, rfl, rfl, s.snapshotOf_length table index,
      fun h => (congrArg _ (State.snapshotOf_first h 0 (by omega))).trans (inspectHeader_value table index),
      fun h n => State.snapshotOf_outside h n, rfl, rfl⟩
  · exact (exec_settled (c := .inspectPageSelect page) rfl settled).trans (congrArg _ (sendMessage_same rfl rfl rfl))
  · obtain ⟨die, deadline, kind, address⟩ := s.capture_die (page := page) h
    refine ⟨die, deadline, fun ho => ?_, fun o e slot g ho hw owner => ?_, fun o e id g ho hw owner => ?_,
      fun o p ho hw => ?_, fun o ho hw => ?_⟩
    all_goals
      simpa only [*, operationCode, operationAddress, operationOwner, Option.map_some, Option.map_none, Option.getD_some,
        Option.getD_none] using And.intro kind address

/-! ### The wide registers -/

theorem wideNumber_injective {q r : WideRegister} (h : wideNumber q = wideNumber r) : q = r := by
  cases q <;> cases r <;> simp_all [wideNumber] <;> omega

/-- Settles O17: one hold is set, the others are other entries of its table. -/
theorem registerAccesses : Obligations.RegisterAccesses := by
  have other {q r : WideRegister} (h : q ≠ r) : wideNumber q ≠ wideNumber r := fun e => h (wideNumber_injective e)
  refine ⟨fun r v s settled => ?_, fun r s settled => ?_, fun offset value s settled => ?_⟩
  · have same : sendMessage s (s.writeUpper r v) = s.writeUpper r v := by
      unfold State.writeUpper
      split <;> exact sendMessage_same rfl rfl rfl
    have completes : (s.writeUpper r v).completions = [] := by
      unfold State.writeUpper
      split <;> exact settled
    refine ⟨_, (exec_settled (c := .wideRegisterUpperWrite r v) rfl completes).trans (congrArg _ same), ?_, ?_, ?_⟩
    · cases r with
      | requestListPointer | bufferListPointer => exact Table.get_set_same _ _ _ _
      | transportPosition | periodIndex | inspectData => rfl
    · intro q hq
      unfold State.writeUpper
      split
      · exact Table.get_set_other _ _ _ (other hq)
      · rfl
    · unfold State.writeUpper
      split <;> rfl
  · exact ⟨_, (exec_settled (c := .wideRegisterLowerRead r) rfl settled).trans (congrArg _ (sendMessage_same rfl rfl rfl)), rfl,
      Table.get_set_same _ _ _ _, fun q hq => Table.get_set_other _ _ _ (other hq), rfl⟩
  · exact (exec_settled (c := .registerWrite offset value) rfl settled).trans (congrArg _ (sendMessage_same rfl rfl rfl))

/-! ### PANIC -/

/-- Settles O18: every sounding voice ends, and the event writes what the RETIREs that this completes wait for. -/
theorem panicEndsVoices : Obligations.PanicEndsVoices := by
  refine ⟨fun s c ready => ?_, fun s resetting settled => ?_⟩
  · have ends : work .panic s = s.endVoices .panic s.soundingSlots := if_neg (by simp [State.not_resetting_of ready])
    have kept := (s.endVoices_left .panic s.soundingSlots (State.soundingSlots_nodup c.voices) c fun n hn =>
      (State.mem_soundingSlots c.voices n).mp hn).kept
    obtain ⟨t, ht, posted, -⟩ := event_next (work .panic) s
    have sent : t = sendMessage s (work .panic s).flush := by
      have := ht
      simpa [event] using this.symm
    rw [ends] at posted sent
    refine ⟨t, (exec_work .panic s).trans ht, State.endVoices_allEnd .panic c posted fun x hx => ?_, ?_, ?_, ?_, ?_, ?_⟩
    · obtain ⟨before, after, e⟩ := ((s.endVoices .panic s.soundingSlots).flush_wrote x hx).mono (Posted.sendMessage s _).1
      rw [← sent] at e
      exact ⟨before, after, by rw [e, kept]⟩
    · rw [posted.pace, kept]
    · rw [posted.tunables, kept]
    · rw [posted.startCount, kept]
    · rw [posted.delivery, kept]
    · rw [posted.registers, kept]
  · have ignored : work .panic s = s := if_pos (State.resetting_of resetting)
    exact (exec_settled ignored settled).trans (congrArg _ (sendMessage_same rfl rfl rfl))

end Sys2Proof.Machine
end

section
/-! PROOFS. The two lists the host links (O19 to O21, O47, O48): pointer writes, resumes, and the ends of their reads. Each operation
is said once as what it leaves; `Listed` and `Posted` carry the rest. -/

namespace Sys2Proof.Machine

/-! ### Events that send nothing -/

/-- An event that completes no request and leaves the registers alone ends as it is. -/
theorem exec_silent {c : Instr} {s t : State} (h : work c s = t) (k : t.completions = []) (r : t.registers = s.registers) :
    exec c s = .next t := by
  rw [exec_settled h k, sendMessage_same (by rw [r]) (by rw [r]) (by rw [r])]

theorem sendMessage_writeHold (b s : State) (r : WideRegister) : (sendMessage b s).writeHold r = s.writeHold r := by
  unfold State.writeHold
  rw [sendMessage_registers]

theorem State.writeHold_cleared (s : State) (r : WideRegister) : (s.setWriteHold r 0#32).writeHold r = 0#32 := by
  simp only [State.writeHold, State.setWriteHold]
  exact Table.get_set_same _ _ _ _

theorem State.latched_portErrorKeeps (s : State) (f : Flag) (h : f ≠ .portError) :
    (s.latch .portError).latched f = s.latched f := State.latched_other s h

/-! ### The Request List: its operations -/

/-- A descriptor fetch that begins, or waits for the end of an engine reset (R165, R174). -/
theorem State.fetchRequest_due {s : State} {a : HostAddr} (h : requestAligned a = true ∨ s.resetting = true) :
    s.fetchRequest a = { s with
      requests := { s.requests.leave with
        state := .fetching, waiting := s.resetting, address := a, heldNext := none, parkReason := none, takenMark := false
        read := .descriptor }
      out := s.out ++ (if s.resetting then [] else [.hostRead a 256]) } := by
  cases resetting : s.resetting with
  | true => simp [State.fetchRequest, resetting]
  | false =>
    rw [State.fetchRequest_begins resetting (h.resolve_right (by simp [resetting]))]
    simp [State.emit, resetting]

theorem RequestsParkedAt.of_same {s u t : State} {a : HostAddr} (h : RequestsParkedAt u t a)
    (count : u.requests.takenCount = s.requests.takenCount) (out : u.out = s.out) : RequestsParkedAt s t a :=
  ⟨h.state, h.address, h.count.trans count, h.flag, out ▸ h.reads⟩

/-- An event whose work is a descriptor fetch. -/
theorem exec_fetchRequest_due {c : Instr} {s u : State} {a : HostAddr} (h : work c s = u.fetchRequest a)
    (due : requestAligned a = true ∨ u.resetting = true) (k : u.completions = []) (r : u.registers = s.registers) :
    exec c s = .next { u with
      requests := { u.requests.leave with
        state := .fetching, waiting := u.resetting, address := a, heldNext := none, parkReason := none, takenMark := false
        read := .descriptor }
      out := u.out ++ (if u.resetting then [] else [.hostRead a 256]) } :=
  exec_silent (h.trans (State.fetchRequest_due due)) k r

/-- An event whose work is a descriptor fetch at a misaligned address (R187). -/
theorem exec_fetchRequest_misaligned {c : Instr} {s u : State} {a : HostAddr} (h : work c s = u.fetchRequest a)
    (misaligned : requestAligned a = false) (ready : u.resetting = false) (k : u.completions = [])
    (count : u.requests.takenCount = s.requests.takenCount) (out : u.out = s.out) :
    ∃ t, exec c s = .next t ∧ RequestsParkedAt s t a :=
  ⟨_, exec_settled h ((State.fetchRequest_completions u a).trans k), (RequestsParkedAt.of_fetch a misaligned ready).of_same count out⟩

theorem State.writeRequestPointer_fetching {s : State} (h : s.requests.state = .fetching) (a : HostAddr) :
    s.writeRequestPointer a = s.latch .portError := if_pos h

theorem State.writeRequestPointer_zero {s : State} (h : s.requests.state ≠ .fetching) :
    s.writeRequestPointer 0#64 = { s with requests := { s.requests.leave with
      state := .idle, waiting := false, address := 0#64, parkReason := none, takenMark := false, resumePending := false } } := by
  simp [State.writeRequestPointer, h]

theorem State.writeRequestPointer_misaligned {s : State} {a : HostAddr} (h : s.requests.state ≠ .fetching) (nonzero : a ≠ 0#64)
    (misaligned : requestAligned a = false) : s.writeRequestPointer a = s.latch .portError := by
  simp [State.writeRequestPointer, h, nonzero, misaligned]

theorem State.writeRequestPointer_aligned {s : State} {a : HostAddr} (h : s.requests.state ≠ .fetching) (nonzero : a ≠ 0#64)
    (aligned : requestAligned a = true) :
    s.writeRequestPointer a =
      ({ s with requests := { s.requests with resumePending := false } } : State).fetchRequest a := by
  simp [State.writeRequestPointer, h, nonzero, aligned]

theorem State.writeRequestPointer_completions (s : State) (a : HostAddr) :
    (s.writeRequestPointer a).completions = s.completions := by
  unfold State.writeRequestPointer
  split
  · rfl
  · split
    · rfl
    · split
      · exact State.fetchRequest_completions _ _
      · rfl

/-- A processor that has no next-pointer read of its own leaves behind those that resumes began. -/
theorem RequestProcessor.leave_lateRereads {q : RequestProcessor} (h : q.read = .none) :
    q.leave.lateRereads = q.lateRereads + q.rereads := by
  simp [RequestProcessor.leave, RequestProcessor.nextReads, h]

/-- REQUEST_LIST_POINTER by the whole value written (R165, R176, R187). -/
theorem requestListPointer_writes (lower : Word) (s : State) (a : HostAddr)
    (whole : a = s.writeHold .requestListPointer ++ lower) (settled : s.completions = []) :
    ∃ t, exec (.requestListPointer lower) s = .next t ∧ t.writeHold .requestListPointer = 0#32 ∧
      (s.requests.state = .fetching → t.requests = s.requests ∧ t.latched .portError = true) ∧
      (s.requests.state ≠ .fetching → a = 0#64 →
        t.requests.state = .idle ∧ t.requests.address = 0#64 ∧ t.requests.resumePending = false ∧
          t.registers.status = s.registers.status) ∧
      (s.requests.state ≠ .fetching → a ≠ 0#64 → requestAligned a = false →
        t.requests = s.requests ∧ t.latched .portError = true) ∧
      (s.requests.state ≠ .fetching → s.requests.read = .none → a = 0#64 ∨ requestAligned a = true →
        t.requests.rereads = 0 ∧ t.requests.lateRereads = s.requests.lateRereads + s.requests.rereads) ∧
      (s.requests.state ≠ .fetching → a ≠ 0#64 → requestAligned a = true →
        t.requests.state = .fetching ∧ t.requests.address = a ∧ t.requests.parkReason = none ∧
          t.requests.resumePending = false ∧ t.requests.read = .descriptor ∧ t.requests.waiting = s.resetting ∧
          t.registers.status = s.registers.status ∧
          t.out = s.out ++ (if s.resetting then [] else [.hostRead a 256])) := by
  subst whole
  let u := s.setWriteHold .requestListPointer 0#32
  generalize ha : s.writeHold .requestListPointer ++ lower = a
  have ends : exec (.requestListPointer lower) s = .next (sendMessage s (u.writeRequestPointer a)) := by
    refine exec_settled (ha ▸ rfl) ((State.writeRequestPointer_completions u a).trans settled)
  refine ⟨_, ends, ?_, ?_⟩
  · have held : (u.writeRequestPointer a).writeHold .requestListPointer = u.writeHold .requestListPointer := by
      unfold State.writeHold
      rw [(Posted.writeRequestPointer u a).registers]
    rw [sendMessage_writeHold, held]
    exact State.writeHold_cleared s _
  have zero (h : s.requests.state ≠ .fetching) := State.writeRequestPointer_zero (s := u) h
  have aligned (h : s.requests.state ≠ .fetching) (nonzero : a ≠ 0#64) (k : requestAligned a = true) :=
    (State.writeRequestPointer_aligned (s := u) h nonzero k).trans (State.fetchRequest_due (.inl k))
  refine ⟨fun h => ?_, fun h z => ?_, fun h nonzero misaligned => ?_, fun h read good => ?_, fun h nonzero k => ?_⟩
  · rw [State.writeRequestPointer_fetching (s := u) h, sendMessage_requests, State.latched_sendMessage]
    exact ⟨rfl, State.latched_same _ _⟩
  · rw [z, zero h, sendMessage_requests, sendMessage_registers]
    exact ⟨rfl, rfl, rfl, rfl⟩
  · rw [State.writeRequestPointer_misaligned (s := u) h nonzero misaligned, sendMessage_requests, State.latched_sendMessage]
    exact ⟨rfl, State.latched_same _ _⟩
  · have late := RequestProcessor.leave_lateRereads read
    rw [sendMessage_requests]
    by_cases z : a = 0#64
    · rw [z, zero h]
      exact ⟨rfl, late⟩
    · rw [aligned h z (good.resolve_left z)]
      exact ⟨rfl, late⟩
  · rw [aligned h nonzero k, sendMessage_same]
    · exact ⟨rfl, rfl, rfl, rfl, rfl, rfl, rfl, rfl⟩
    all_goals rfl

/-! ### The Buffer List: its operations -/

/-- A buffer descriptor's fetch that begins, or waits for the end of an engine reset (R142, R163). -/
theorem State.fetchBuffer_due {s : State} {a : HostAddr} (h : bufferAligned a = true ∨ s.resetting = true) :
    s.fetchBuffer a = { s with
      delivery := { s.delivery.leave with
        state := .active, holding := false, address := a, heldNext := none, heldBuffer := none, parkReason := none
        usedMark := false, read := .descriptor, waiting := s.resetting }
      out := s.out ++ (if s.resetting then [] else [.hostRead a 24]) } := by
  cases resetting : s.resetting with
  | true => simp [State.fetchBuffer, resetting]
  | false =>
    rw [State.fetchBuffer_begins resetting (h.resolve_right (by simp [resetting]))]
    simp [State.emit, resetting]

theorem BufferParkedAt.of_same {s u t : State} {a : HostAddr} (h : BufferParkedAt u t a)
    (count : u.delivery.count = s.delivery.count) (out : u.out = s.out) : BufferParkedAt s t a :=
  ⟨h.state, h.address, h.count.trans count, h.flags, out ▸ h.reads⟩

/-- An event whose work is a buffer descriptor's fetch. -/
theorem exec_fetchBuffer_due {c : Instr} {s u : State} {a : HostAddr} (h : work c s = u.fetchBuffer a)
    (due : bufferAligned a = true ∨ u.resetting = true) (k : u.completions = []) (r : u.registers = s.registers) :
    exec c s = .next { u with
      delivery := { u.delivery.leave with
        state := .active, holding := false, address := a, heldNext := none, heldBuffer := none, parkReason := none
        usedMark := false, read := .descriptor, waiting := u.resetting }
      out := u.out ++ (if u.resetting then [] else [.hostRead a 24]) } :=
  exec_silent (h.trans (State.fetchBuffer_due due)) k r

/-- An event whose work is a buffer descriptor's fetch at a misaligned address (R187). -/
theorem exec_fetchBuffer_misaligned {c : Instr} {s u : State} {a : HostAddr} (h : work c s = u.fetchBuffer a)
    (misaligned : bufferAligned a = false) (ready : u.resetting = false) (k : u.completions = [])
    (count : u.delivery.count = s.delivery.count) (out : u.out = s.out) :
    ∃ t, exec c s = .next t ∧ BufferParkedAt s t a :=
  ⟨_, exec_settled h ((Listed.fetchBuffer u a).completions.trans k),
    (BufferParkedAt.of_fetch a misaligned ready).of_same count out⟩

theorem State.writeBufferPointer_active {s : State} (h : s.delivery.state = .active) (a : HostAddr) :
    s.writeBufferPointer a = s.latch .portError := if_pos h

theorem State.writeBufferPointer_zero {s : State} (h : s.delivery.state ≠ .active) :
    s.writeBufferPointer 0#64 = { s with delivery := { s.delivery.leave with
      state := .idle, holding := false, address := 0#64, parkReason := none, usedMark := false, resumePending := false
      waiting := false } } := by
  simp [State.writeBufferPointer, h]

theorem State.writeBufferPointer_misaligned {s : State} {a : HostAddr} (h : s.delivery.state ≠ .active) (nonzero : a ≠ 0#64)
    (misaligned : bufferAligned a = false) : s.writeBufferPointer a = s.latch .portError := by
  simp [State.writeBufferPointer, h, nonzero, misaligned]

theorem State.writeBufferPointer_aligned {s : State} {a : HostAddr} (h : s.delivery.state ≠ .active) (nonzero : a ≠ 0#64)
    (aligned : bufferAligned a = true) :
    s.writeBufferPointer a =
      ({ s with delivery := { s.delivery with resumePending := false } } : State).fetchBuffer a := by
  simp [State.writeBufferPointer, h, nonzero, aligned]

theorem DeliveryEngine.leave_lateRereads (e : DeliveryEngine) :
    e.leave.lateRereads = e.lateRereads + e.rereads + (if e.read = .next then 1 else 0) := by
  simp only [DeliveryEngine.leave]
  cases e.read <;> rfl

/-- BUFFER_LIST_POINTER by the whole value written (R143, R176, R187). -/
theorem bufferListPointer_writes (lower : Word) (s : State) (a : HostAddr)
    (whole : a = s.writeHold .bufferListPointer ++ lower) (settled : s.completions = []) :
    ∃ t, exec (.bufferListPointer lower) s = .next t ∧ t.writeHold .bufferListPointer = 0#32 ∧
      (s.delivery.state = .active → t.delivery = s.delivery ∧ t.latched .portError = true) ∧
      (s.delivery.state ≠ .active → a = 0#64 →
        t.delivery.state = .idle ∧ t.delivery.address = 0#64 ∧ t.delivery.resumePending = false ∧
          t.registers.status = s.registers.status) ∧
      (s.delivery.state ≠ .active → a ≠ 0#64 → bufferAligned a = false →
        t.delivery = s.delivery ∧ t.latched .portError = true) ∧
      (s.delivery.state ≠ .active → a = 0#64 ∨ bufferAligned a = true →
        t.delivery.rereads = 0 ∧ t.delivery.lateRereads =
          s.delivery.lateRereads + s.delivery.rereads + (if s.delivery.read = .next then 1 else 0)) ∧
      (s.delivery.state ≠ .active → a ≠ 0#64 → bufferAligned a = true →
        t.delivery.state = .active ∧ t.delivery.holding = false ∧ t.delivery.address = a ∧
          t.delivery.parkReason = none ∧ t.delivery.resumePending = false ∧ t.delivery.read = .descriptor ∧
          t.delivery.waiting = s.resetting ∧ t.registers.status = s.registers.status ∧
          t.out = s.out ++ (if s.resetting then [] else [.hostRead a 24])) := by
  subst whole
  let u := s.setWriteHold .bufferListPointer 0#32
  generalize ha : s.writeHold .bufferListPointer ++ lower = a
  have ends : exec (.bufferListPointer lower) s = .next (sendMessage s (u.writeBufferPointer a)) := by
    refine exec_settled (ha ▸ rfl) ((Listed.writeBufferPointer u a).completions.trans settled)
  refine ⟨_, ends, ?_, ?_⟩
  · have held : (u.writeBufferPointer a).writeHold .bufferListPointer = u.writeHold .bufferListPointer := by
      rw [(Listed.writeBufferPointer u a).kept]
      rfl
    rw [sendMessage_writeHold, held]
    exact State.writeHold_cleared s _
  have zero (h : s.delivery.state ≠ .active) := State.writeBufferPointer_zero (s := u) h
  have aligned (h : s.delivery.state ≠ .active) (nonzero : a ≠ 0#64) (k : bufferAligned a = true) :=
    (State.writeBufferPointer_aligned (s := u) h nonzero k).trans (State.fetchBuffer_due (.inl k))
  have late := DeliveryEngine.leave_lateRereads s.delivery
  refine ⟨fun h => ?_, fun h z => ?_, fun h nonzero misaligned => ?_, fun h good => ?_, fun h nonzero k => ?_⟩
  · rw [State.writeBufferPointer_active (s := u) h, sendMessage_delivery, State.latched_sendMessage]
    exact ⟨rfl, State.latched_same _ _⟩
  · rw [z, zero h, sendMessage_delivery, sendMessage_registers]
    exact ⟨rfl, rfl, rfl, rfl⟩
  · rw [State.writeBufferPointer_misaligned (s := u) h nonzero misaligned, sendMessage_delivery, State.latched_sendMessage]
    exact ⟨rfl, State.latched_same _ _⟩
  · rw [sendMessage_delivery]
    by_cases z : a = 0#64
    · rw [z, zero h]
      exact ⟨rfl, late⟩
    · rw [aligned h z (good.resolve_left z)]
      exact ⟨rfl, late⟩
  · rw [aligned h nonzero k, sendMessage_same]
    · exact ⟨rfl, rfl, rfl, rfl, rfl, rfl, rfl, rfl, rfl⟩
    all_goals rfl

/-- Settles O19, list by list. -/
theorem listPointerWrites : Obligations.ListPointerWrites := ⟨requestListPointer_writes, bufferListPointer_writes⟩

/-! ### Request resumes -/

theorem State.resumeRequests_idle {s : State} (h : s.requests.state = .idle) : s.resumeRequests = s := by
  simp [State.resumeRequests, h]

theorem State.resumeRequests_fetching {s : State} (h : s.requests.state = .fetching) :
    s.resumeRequests = { s with requests := { s.requests with resumePending := true } } := by
  simp [State.resumeRequests, h]

/-- The park reasons whose resume reads the next pointer again (R168). -/
theorem State.resumeRequests_reread {s : State} (h : s.requests.state = .parked)
    (k : s.requests.parkReason = some .endOfList ∨
      (s.requests.parkReason = some .linkError ∧ s.requests.takenMark = true)) : s.resumeRequests = s.rereadAtResume := by
  obtain reason | ⟨reason, mark⟩ := k
  · simp [State.resumeRequests, h, reason]
  · simp [State.resumeRequests, h, reason, mark]

theorem State.resumeRequests_fetch {s : State} (h : s.requests.state = .parked)
    (reason : s.requests.parkReason = some .linkError) (mark : s.requests.takenMark = false) :
    s.resumeRequests = s.fetchRequest s.requests.address := by
  simp [State.resumeRequests, h, reason, mark]

theorem State.rereadAtResume_ready {s : State} (h : s.resetting = false) :
    s.rereadAtResume = { s with
      requests := { s.requests with rereads := s.requests.rereads + 1 }, out := s.out ++ [.hostRead s.requests.address 8] } := by
  simp [State.rereadAtResume, h, State.emit]

theorem State.rereadAtResume_resetting {s : State} (h : s.resetting = true) :
    s.rereadAtResume = { s with requests := { s.requests with
      state := .fetching, waiting := true, parkReason := none, takenMark := false, read := .nextAtResume } } := if_pos h

theorem requestResume_by_state (s : State) (settled : s.completions = []) :
    (s.requests.state = .idle → exec .requestResume s = .next s) ∧
    (s.requests.state = .fetching →
      exec .requestResume s = .next { s with requests := { s.requests with resumePending := true } }) ∧
    (s.requests.state = .parked → s.resetting = false →
      s.requests.parkReason = some .endOfList ∨ (s.requests.parkReason = some .linkError ∧ s.requests.takenMark = true) →
      exec .requestResume s = .next { s with
        requests := { s.requests with rereads := s.requests.rereads + 1 }, out := s.out ++ [.hostRead s.requests.address 8] }) ∧
    (s.requests.state = .parked → s.resetting = true →
      s.requests.parkReason = some .endOfList ∨ (s.requests.parkReason = some .linkError ∧ s.requests.takenMark = true) →
      exec .requestResume s = .next { s with requests := { s.requests with
        state := .fetching, waiting := true, parkReason := none, takenMark := false, read := .nextAtResume } }) ∧
    (s.requests.state = .parked → s.requests.parkReason = some .linkError → s.requests.takenMark = false →
      requestAligned s.requests.address = false → s.resetting = false →
      ∃ t, exec .requestResume s = .next t ∧ RequestsParkedAt s t s.requests.address) ∧
    (s.requests.state = .parked → s.requests.parkReason = some .linkError → s.requests.takenMark = false →
      requestAligned s.requests.address = true ∨ s.resetting = true →
      ∃ t, exec .requestResume s = .next t ∧ t.requests.state = .fetching ∧ t.requests.address = s.requests.address ∧
        t.requests.read = .descriptor ∧ t.requests.waiting = s.resetting ∧
        t.out = s.out ++ (if s.resetting then [] else [.hostRead s.requests.address 256])) := by
  refine ⟨fun h => exec_silent (State.resumeRequests_idle h) settled rfl,
    fun h => exec_silent (State.resumeRequests_fetching h) settled rfl,
    fun h ready k => exec_silent ((State.resumeRequests_reread h k).trans (State.rereadAtResume_ready ready)) settled rfl,
    fun h resetting k =>
      exec_silent ((State.resumeRequests_reread h k).trans (State.rereadAtResume_resetting resetting)) settled rfl,
    fun h reason mark misaligned ready =>
      exec_fetchRequest_misaligned (State.resumeRequests_fetch h reason mark) misaligned ready settled rfl rfl,
    fun h reason mark due => ?_⟩
  exact ⟨_, exec_fetchRequest_due (State.resumeRequests_fetch h reason mark) due settled rfl, rfl, rfl, rfl, rfl, rfl⟩

/-! ### The ends of a next pointer's read -/

/-- The state in which the end of a read of the descriptor's own is decided: the read is over. -/
def State.rereadEnding (s : State) : State :=
  { s with requests := { s.requests with rereads := s.requests.rereads - 1, read := .none } }

theorem State.rereadEnding_fetching {s : State} (h : s.requests.rereads = 0) :
    s.rereadEnding = { s with requests := { s.requests with read := .none } } := by
  simp only [State.rereadEnding, h]

theorem State.rereadEnding_parked {s : State} (h : s.requests.read = .none) :
    s.rereadEnding = { s with requests := { s.requests with rereads := s.requests.rereads - 1 } } := by
  simp only [State.rereadEnding]
  rw [← h]

/-- An advance's read ends (R167). -/
theorem State.requestReread_advance {s : State} (late : s.requests.lateRereads = 0) (read : s.requests.read = .nextAtAdvance)
    (waiting : s.requests.waiting = false) (rereads : s.requests.rereads = 0) (p : Option HostAddr) :
    s.requestReread p = s.rereadEnding.rereadAtAdvanceEnds p := by
  rw [State.rereadEnding_fetching rereads]
  simp [State.requestReread, State.fetchingRereadEnds, late, read, waiting, rereads]

/-- A resume's read ends, of a processor that is FETCHING or PARKED (R168). -/
theorem State.requestReread_resume {s : State} (late : s.requests.lateRereads = 0)
    (h : (s.requests.read = .nextAtResume ∧ s.requests.waiting = false ∧ s.requests.rereads = 0) ∨
      (s.requests.read = .none ∧ s.requests.state = .parked ∧ 0 < s.requests.rereads)) (p : Option HostAddr) :
    s.requestReread p = s.rereadEnding.rereadAtResumeEnds p := by
  obtain ⟨read, waiting, rereads⟩ | ⟨read, parked, rereads⟩ := h
  · rw [State.rereadEnding_fetching rereads]
    simp [State.requestReread, State.fetchingRereadEnds, late, read, waiting, rereads]
  · rw [State.rereadEnding_parked read]
    simp [State.requestReread, State.parkedRereadEnds, late, parked, rereads]

/-- A read whose descriptor the processor has left ends (log 44). -/
theorem requestReread_late (s : State) (read : Option HostAddr) (late : 0 < s.requests.lateRereads)
    (settled : s.completions = []) :
    ∃ t, exec (.requestNextRereadEnd read) s = .next t ∧
      t.requests = { s.requests with lateRereads := s.requests.lateRereads - 1 } ∧
      (read = none → t.latched .portError = true) ∧ (read ≠ none → t.registers = s.registers ∧ t.out = s.out) := by
  have h : work (.requestNextRereadEnd read) s =
      ({ s with requests := { s.requests with lateRereads := s.requests.lateRereads - 1 } } : State).rereadUnused read :=
    if_pos late
  cases read with
  | none =>
    exact ⟨_, exec_settled h settled, by rw [sendMessage_requests]; rfl,
      fun _ => by rw [State.latched_sendMessage]; exact State.latched_same _ _, fun k => absurd rfl k⟩
  | some a => exact ⟨_, exec_silent h settled rfl, rfl, nofun, fun _ => ⟨rfl, rfl⟩⟩

/-- A resume's read begun in PARKED ends after a further resume has made the processor wait (log 16). -/
theorem requestReread_older (s : State) (read : Option HostAddr) (late : s.requests.lateRereads = 0)
    (rereads : 0 < s.requests.rereads) (fetching : s.requests.state = .fetching) (atResume : s.requests.read = .nextAtResume)
    (settled : s.completions = []) :
    ∃ t, exec (.requestNextRereadEnd read) s = .next t ∧
      (read = none ∨ read = some 0#64 → t.requests = { s.requests with rereads := s.requests.rereads - 1 }) ∧
      (read = none → t.latched .portError = true) ∧ (read = some 0#64 → t.registers = s.registers) ∧
      (∀ a, read = some a → a ≠ 0#64 → requestAligned a = false → s.resetting = false → RequestsParkedAt s t a) ∧
      ∀ a, read = some a → a ≠ 0#64 → requestAligned a = true ∨ s.resetting = true →
        t.requests.state = .fetching ∧ t.requests.address = a ∧ t.requests.read = .descriptor ∧
          t.requests.waiting = s.resetting ∧ t.requests.rereads = 0 ∧
          t.requests.lateRereads = s.requests.rereads - 1 + (if s.requests.waiting then 0 else 1) ∧
          t.out = s.out ++ (if s.resetting then [] else [.hostRead a 256]) := by
  let u : State := { s with requests := { s.requests with rereads := s.requests.rereads - 1 } }
  have h : work (.requestNextRereadEnd read) s = u.olderRereadEnds read := by
    show s.requestReread read = _
    simp [State.requestReread, State.parkedRereadEnds, late, rereads, fetching, u]
  cases read with
  | none =>
    exact ⟨_, exec_settled h settled, fun _ => by rw [sendMessage_requests]; rfl,
      fun _ => by rw [State.latched_sendMessage]; exact State.latched_same _ _, nofun, nofun, nofun⟩
  | some a =>
    by_cases zero : a = 0#64
    · subst zero
      refine ⟨_, exec_silent h settled rfl, fun _ => rfl, nofun, fun _ => rfl, fun a ha nonzero => ?_, fun a ha nonzero => ?_⟩
      · exact absurd (Option.some.inj ha).symm nonzero
      · exact absurd (Option.some.inj ha).symm nonzero
    · have fetched : work (.requestNextRereadEnd (some a)) s = u.fetchRequest a := h.trans (if_pos zero)
      have other {P : Prop} (k : some a = some 0#64) : P := absurd (Option.some.inj k) zero
      by_cases due : requestAligned a = true ∨ s.resetting = true
      · refine ⟨_, exec_fetchRequest_due fetched due settled rfl, fun k => k.elim nofun other, nofun, other, ?_, ?_⟩
        · rintro b ⟨⟩ - misaligned ready
          simp [misaligned, ready] at due
        · rintro b ⟨⟩ - -
          refine ⟨rfl, rfl, rfl, rfl, rfl, ?_, rfl⟩
          simp only [u, RequestProcessor.leave, RequestProcessor.nextReads, late, atResume]
          cases s.requests.waiting <;> simp
      · have misaligned : requestAligned a = false := by simpa using fun k => due (.inl k)
        have ready : s.resetting = false := by simpa using fun k => due (.inr k)
        obtain ⟨t, ht, parked⟩ := exec_fetchRequest_misaligned fetched misaligned ready settled rfl rfl
        refine ⟨t, ht, fun k => k.elim nofun other, nofun, other, ?_, ?_⟩
        · rintro b ⟨⟩ - - -
          exact parked
        · rintro b ⟨⟩ - k
          exact absurd k due

/-- The end of a read of the descriptor's own, at an advance or a resume (R167, R168). -/
theorem requestReread_ends (s : State) (late : s.requests.lateRereads = 0) (settled : s.completions = [])
    (own : ((s.requests.read = .nextAtAdvance ∨ s.requests.read = .nextAtResume) ∧ s.requests.waiting = false ∧
        s.requests.rereads = 0) ∨
      (s.requests.read = .none ∧ s.requests.state = .parked ∧ 0 < s.requests.rereads)) :
    (∀ a, a ≠ 0#64 → requestAligned a = true → s.resetting = false →
      ∃ t, exec (.requestNextRereadEnd (some a)) s = .next t ∧ t.requests.state = .fetching ∧ t.requests.address = a ∧
        t.requests.read = .descriptor ∧ t.out = s.out ++ [.hostRead a 256]) ∧
    (∀ a, a ≠ 0#64 → requestAligned a = false → s.resetting = false →
      ∃ t, exec (.requestNextRereadEnd (some a)) s = .next t ∧ RequestsParkedAt s t a) ∧
    (∀ a, a ≠ 0#64 → s.resetting = true →
      ∃ t, exec (.requestNextRereadEnd (some a)) s = .next t ∧ t.requests.state = .fetching ∧ t.requests.address = a ∧
        t.requests.read = .descriptor ∧ t.requests.waiting = true ∧ t.registers = s.registers ∧ t.out = s.out) ∧
    (s.requests.resumePending = false →
      ∃ t, exec (.requestNextRereadEnd (some 0#64)) s = .next t ∧ t.requests.state = .parked ∧
        t.requests.parkReason = some .endOfList ∧ t.requests.address = s.requests.address ∧
        t.registers = s.registers) ∧
    (s.requests.resumePending = true → s.resetting = false →
      ∃ t, exec (.requestNextRereadEnd (some 0#64)) s = .next t ∧ t.requests.resumePending = false ∧
        t.requests.address = s.requests.address ∧ t.out = s.out ++ [.hostRead s.requests.address 8] ∧
        (s.requests.state = .fetching →
          t.requests.state = .fetching ∧ t.requests.waiting = false ∧ t.requests.read = s.requests.read) ∧
        (s.requests.read = .none → t.requests.state = .parked ∧ t.requests.rereads = s.requests.rereads)) ∧
    (∃ t, exec (.requestNextRereadEnd none) s = .next t ∧ t.requests.state = .parked ∧
      t.requests.parkReason = some (if s.requests.read = .nextAtAdvance then .linkError else .endOfList) ∧
      (s.requests.read = .nextAtAdvance → t.requests.takenMark = true) ∧
      t.requests.address = s.requests.address ∧ t.latched .portError = true) := by
  let u := s.rereadEnding
  have cases : (s.requests.read = .nextAtAdvance ∧ ∀ p, s.requestReread p = u.rereadAtAdvanceEnds p) ∨
      (s.requests.read ≠ .nextAtAdvance ∧ ∀ p, s.requestReread p = u.rereadAtResumeEnds p) := by
    obtain ⟨read | read, waiting, rereads⟩ | ⟨read, parked, rereads⟩ := own
    · exact .inl ⟨read, State.requestReread_advance late read waiting rereads⟩
    · exact .inr ⟨by simp [read], State.requestReread_resume late (.inl ⟨read, waiting, rereads⟩)⟩
    · exact .inr ⟨by simp [read], State.requestReread_resume late (.inr ⟨read, parked, rereads⟩)⟩
  have pointer (a : HostAddr) (nonzero : a ≠ 0#64) : work (.requestNextRereadEnd (some a)) s = u.fetchRequest a := by
    obtain ⟨-, h⟩ | ⟨-, h⟩ := cases
    · exact (h _).trans (if_pos nonzero)
    · exact (h _).trans (if_pos nonzero)
  refine ⟨fun a nonzero aligned ready => ?_, fun a nonzero misaligned ready => ?_, fun a nonzero resetting => ?_,
    fun pending => ?_, fun pending ready => ?_, ?_⟩
  · refine ⟨_, exec_fetchRequest_due (pointer a nonzero) (.inl aligned) settled rfl, rfl, rfl, rfl, ?_⟩
    show s.out ++ (if s.resetting then [] else _) = _
    simp [ready]
  · exact exec_fetchRequest_misaligned (pointer a nonzero) misaligned ready settled rfl rfl
  · refine ⟨_, exec_fetchRequest_due (pointer a nonzero) (.inr resetting) settled rfl, rfl, rfl, rfl, resetting, rfl, ?_⟩
    show s.out ++ (if s.resetting then [] else _) = _
    simp [resetting]
  · have parks : work (.requestNextRereadEnd (some 0#64)) s = u.parkRequestsEnd := by
      have k : u.requests.resumePending = false := pending
      obtain ⟨-, h⟩ | ⟨-, h⟩ := cases
      · exact (h _).trans (by simp [State.rereadAtAdvanceEnds, State.advanceRequests, k])
      · exact (h _).trans (by simp [State.rereadAtResumeEnds, k])
    exact ⟨_, exec_silent parks settled rfl, rfl, rfl, rfl, rfl⟩
  · have k : u.requests.resumePending = true := pending
    have r : u.resetting = false := ready
    obtain ⟨read, h⟩ | ⟨read, h⟩ := cases
    · have again : work (.requestNextRereadEnd (some 0#64)) s = ({ u with requests := { u.requests with
          state := .fetching, waiting := u.resetting, heldNext := none, parkReason := none, takenMark := false
          resumePending := false, read := .nextAtAdvance } } : State).emit (.hostRead s.requests.address 8) :=
        (h _).trans (by simp [State.rereadAtAdvanceEnds, State.advanceRequests, State.rereadAtAdvance, State.rereadFetching, k, r]; rfl)
      exact ⟨_, exec_silent again settled rfl, rfl, rfl, rfl, fun _ => ⟨rfl, r, read.symm⟩, fun none => by simp [none] at read⟩
    · have again : work (.requestNextRereadEnd (some 0#64)) s = u.rereadAgain :=
        (h _).trans (by simp [State.rereadAtResumeEnds, k])
      by_cases fetching : s.requests.state = .fetching
      · have reads : u.rereadAgain = ({ u with requests := { u.requests with
            state := .fetching, waiting := u.resetting, heldNext := none, parkReason := none, takenMark := false
            resumePending := false, read := .nextAtResume } } : State).emit (.hostRead s.requests.address 8) :=
          (if_pos fetching).trans (by simp [State.rereadFetching, r]; rfl)
        obtain ⟨hread | hread, -⟩ | ⟨-, parked, -⟩ := own
        · exact absurd hread read
        · exact ⟨_, exec_silent (again.trans reads) settled rfl, rfl, rfl, rfl, fun _ => ⟨rfl, r, hread.symm⟩,
            fun none => by simp [none] at hread⟩
        · simp [parked] at fetching
      · have reads := (if_neg fetching : u.rereadAgain = _).trans (State.rereadAtResume_ready r)
        refine ⟨_, exec_silent (again.trans reads) settled rfl, rfl, rfl, rfl, fun k => absurd k fetching, fun none => ?_⟩
        obtain ⟨hread | hread, -⟩ | ⟨-, parked, some⟩ := own
        · simp [none] at hread
        · simp [none] at hread
        · exact ⟨parked, Nat.sub_add_cancel some⟩
  · obtain ⟨read, h⟩ | ⟨read, h⟩ := cases
    · refine ⟨_, exec_settled (h none) settled, ?_⟩
      rw [sendMessage_requests, State.latched_sendMessage, if_pos read]
      exact ⟨rfl, rfl, fun _ => rfl, rfl, State.latched_same _ _⟩
    · refine ⟨_, exec_settled (h none) settled, ?_⟩
      rw [sendMessage_requests, State.latched_sendMessage, if_neg read]
      exact ⟨rfl, rfl, fun k => absurd k read, rfl, State.latched_same _ _⟩

/-- Settles O20: the resume, then the ends of the three kinds of read. -/
theorem requestResumes : Obligations.RequestResumes :=
  ⟨requestResume_by_state, requestReread_late, requestReread_older, requestReread_ends⟩

/-! ### The ends of a descriptor's read and of a status write -/

/-- Settles O21: the processor parks or holds the descriptor; a failed status write only latches. -/
theorem requestReadsAndWritesEnd : Obligations.RequestReadsAndWritesEnd := by
  refine ⟨fun s fetching read begun settled => ?_, fun s settled => ?_⟩
  · have reading : s.requestReading = true := by simp [State.requestReading, fetching, read, begun]
    refine ⟨⟨_, exec_settled (c := .requestFetchFailed) (if_pos reading) settled, ?_⟩, fun resetting r => ?_⟩
    · rw [sendMessage_requests, State.latched_sendMessage]
      exact ⟨rfl, rfl, rfl, rfl, rfl, rfl, State.latched_same _ _⟩
    · refine exec_silent (?_ : s.requestArrives r = _) settled rfl
      simp [State.requestArrives, reading, resetting]
  · refine ⟨_, exec_settled (c := .statusWriteFailed) rfl settled, ?_, fun f other => ?_, sendMessage_oneMessage rfl, ?_⟩
    · rw [State.latched_sendMessage]
      exact State.latched_same _ _
    · rw [State.latched_sendMessage]
      exact State.latched_other s other
    · rw [sendMessage_registers]
      exact sendMessage_kept _ _

/-! ### Buffer resumes -/

theorem State.resumeBuffer_idle {s : State} (h : s.delivery.state = .idle) : s.resumeBuffer = s := by
  simp [State.resumeBuffer, h]

theorem State.resumeBuffer_active {s : State} (h : s.delivery.state = .active) :
    s.resumeBuffer = { s with delivery := { s.delivery with resumePending := true } } := by
  simp [State.resumeBuffer, h]

/-- The park reasons whose resume reads the next pointer again (R144). -/
theorem State.resumeBuffer_reread {s : State} (h : s.delivery.state = .parked)
    (k : s.delivery.parkReason = some .endOfList ∨
      (s.delivery.parkReason = some .linkError ∧ s.delivery.usedMark = true)) :
    s.resumeBuffer = s.rereadAtBufferResume := by
  obtain reason | ⟨reason, mark⟩ := k
  · simp [State.resumeBuffer, h, reason]
  · simp [State.resumeBuffer, h, reason, mark]

/-- The park reasons whose resume fetches the descriptor itself (R144). -/
theorem State.resumeBuffer_fetch {s : State} (h : s.delivery.state = .parked)
    (k : s.delivery.parkReason = some .notReclaimed ∨
      (s.delivery.parkReason = some .linkError ∧ s.delivery.usedMark = false)) :
    s.resumeBuffer = s.fetchBuffer s.delivery.address := by
  obtain reason | ⟨reason, mark⟩ := k
  · simp [State.resumeBuffer, h, reason]
  · simp [State.resumeBuffer, h, reason, mark]

/-- The state in which the end of a buffer's next-pointer read is decided: the read is over. -/
def State.bufferRereadEnding (s : State) : State :=
  if s.delivery.read = .next then { s with delivery := { s.delivery with read := .none } }
  else { s with delivery := { s.delivery with rereads := s.delivery.rereads - 1 } }

/-- The end of a read decides on an engine that is as it was but for the reads it counts. -/
theorem State.bufferRereadEnding_kept (s : State) :
    s.bufferRereadEnding = { s with delivery := { s.delivery with
      read := s.bufferRereadEnding.delivery.read, rereads := s.bufferRereadEnding.delivery.rereads } } := by
  unfold State.bufferRereadEnding
  split <;> rfl

/-- A buffer's next-pointer read of the descriptor's own ends (R144, R153). -/
theorem State.bufferReread_own {s : State} (late : s.delivery.lateRereads = 0)
    (own : s.delivery.read = .next ∨ (s.delivery.state = .parked ∧ 0 < s.delivery.rereads)) (p : Option HostAddr) :
    s.bufferReread p = s.bufferRereadEnding.rereadBufferEnds p := by
  by_cases read : s.delivery.read = .next
  · simp [State.bufferReread, State.bufferRereadEnding, late, read]
  · simp [State.bufferReread, State.bufferRereadEnding, late, read, own.resolve_left read]

/-- A read whose descriptor the engine has left ends (log 44). -/
theorem bufferReread_late (s : State) (read : Option HostAddr) (late : 0 < s.delivery.lateRereads) (settled : s.completions = []) :
    ∃ t, exec (.bufferNextRereadEnd read) s = .next t ∧
      t.delivery = { s.delivery with lateRereads := s.delivery.lateRereads - 1 } ∧
      (read = none → t.latched .portError = true) ∧ (read ≠ none → t.registers = s.registers ∧ t.out = s.out) := by
  let u : State := { s with delivery := { s.delivery with lateRereads := s.delivery.lateRereads - 1 } }
  have h : work (.bufferNextRereadEnd read) s = if read.isNone then u.latch .portError else u := if_pos late
  cases read with
  | none =>
    exact ⟨_, exec_settled h settled, by rw [sendMessage_delivery]; rfl,
      fun _ => by rw [State.latched_sendMessage]; exact State.latched_same _ _, fun k => absurd rfl k⟩
  | some a => exact ⟨_, exec_silent h settled rfl, rfl, nofun, fun _ => ⟨rfl, rfl⟩⟩

/-- What the engine shows when it has parked, of its state and of the flags (R145). -/
theorem State.parkBuffer_parked (s : State) (reason : BufferPark) (a : HostAddr) (used : Bool) :
    (s.parkBuffer reason a used).delivery.state = .parked ∧
    (s.parkBuffer reason a used).delivery.parkReason = some reason ∧
    (s.parkBuffer reason a used).delivery.usedMark = used ∧ (s.parkBuffer reason a used).delivery.address = a ∧
    (s.parkBuffer reason a used).latched .bufferParked = true ∧
    (reason = .linkError → (s.parkBuffer reason a used).delivery.resumePending = false ∧
      (s.parkBuffer reason a used).latched .portError = true) := by
  cases reason with
  | linkError =>
    rw [State.parkBuffer_linkError]
    exact ⟨rfl, rfl, rfl, rfl, State.latched_latch _ _ _ (State.latched_same _ _), fun _ => ⟨rfl, State.latched_same _ _⟩⟩
  | endOfList => exact ⟨rfl, rfl, rfl, rfl, State.latched_same _ _, nofun⟩
  | notReclaimed => exact ⟨rfl, rfl, rfl, rfl, State.latched_same _ _, nofun⟩

/-- An event whose work parks the Delivery Engine. -/
theorem exec_parkBuffer {c : Instr} {s u : State} {reason : BufferPark} {a : HostAddr} {used : Bool}
    (h : work c s = u.parkBuffer reason a used) (k : u.completions = []) :
    ∃ t, exec c s = .next t ∧ t.delivery.state = .parked ∧ t.delivery.parkReason = some reason ∧
      t.delivery.usedMark = used ∧ t.delivery.address = a ∧ t.latched .bufferParked = true ∧
      (reason = .linkError → t.delivery.resumePending = false ∧ t.latched .portError = true) ∧
      Listed u t := by
  have listed := Listed.parkBuffer u reason a used
  refine ⟨_, exec_settled h (listed.completions.trans k), ?_⟩
  have sent : Listed (u.parkBuffer reason a used) (sendMessage s (u.parkBuffer reason a used)) := by
    unfold sendMessage
    exact Listed.ite (Listed.emit _ _) (Listed.refl _)
  rw [sendMessage_delivery, State.latched_sendMessage, State.latched_sendMessage]
  obtain ⟨parked, why, mark, place, flag, link⟩ := u.parkBuffer_parked reason a used
  exact ⟨parked, why, mark, place, flag, link, listed.trans sent⟩

/-- The end of a buffer's next-pointer read, by what it read (R144, R153). -/
theorem bufferReread_ends (s : State) (late : s.delivery.lateRereads = 0) (settled : s.completions = [])
    (own : s.delivery.read = .next ∨ (s.delivery.state = .parked ∧ 0 < s.delivery.rereads)) :
    (∀ a, a ≠ 0#64 → bufferAligned a = true → s.resetting = false →
      ∃ t, exec (.bufferNextRereadEnd (some a)) s = .next t ∧ t.delivery.state = .active ∧
        t.delivery.holding = false ∧ t.delivery.address = a ∧ t.delivery.read = .descriptor ∧
        t.out = s.out ++ [.hostRead a 24]) ∧
    (∀ a, a ≠ 0#64 → bufferAligned a = false → s.resetting = false →
      ∃ t, exec (.bufferNextRereadEnd (some a)) s = .next t ∧ BufferParkedAt s t a) ∧
    (∀ a, a ≠ 0#64 → s.resetting = true →
      ∃ t, exec (.bufferNextRereadEnd (some a)) s = .next t ∧ t.delivery.state = .active ∧ t.delivery.holding = false ∧
        t.delivery.address = a ∧ t.delivery.read = .descriptor ∧ t.delivery.waiting = true ∧
        t.registers = s.registers ∧ t.out = s.out) ∧
    (s.delivery.resumePending = false →
      ∃ t, exec (.bufferNextRereadEnd (some 0#64)) s = .next t ∧ t.delivery.state = .parked ∧
        t.delivery.parkReason = some .endOfList ∧ t.delivery.address = s.delivery.address ∧
        t.latched .bufferParked = true) ∧
    (s.delivery.resumePending = true →
      ∃ t, exec (.bufferNextRereadEnd (some 0#64)) s = .next t ∧ t.delivery.state = s.delivery.state ∧
        t.delivery.read = .next ∧ t.delivery.resumePending = false ∧ t.delivery.address = s.delivery.address ∧
        t.out = s.out ++ [.hostRead s.delivery.address 8] ∧ t.registers = s.registers) ∧
    (∃ t, exec (.bufferNextRereadEnd none) s = .next t ∧ t.delivery.state = .parked ∧
      t.delivery.parkReason = some .linkError ∧ t.delivery.usedMark = true ∧
      t.delivery.address = s.delivery.address ∧ t.delivery.resumePending = false ∧
      t.latched .bufferParked = true ∧ t.latched .portError = true) := by
  have ends (p : Option HostAddr) : work (.bufferNextRereadEnd p) s = s.bufferRereadEnding.rereadBufferEnds p :=
    State.bufferReread_own late own p
  have kept := s.bufferRereadEnding_kept
  generalize s.bufferRereadEnding = u at ends kept
  have resetting : u.resetting = s.resetting := by rw [kept]; rfl
  have completions : u.completions = [] := by rw [kept]; exact settled
  have registers : u.registers = s.registers := by rw [kept]
  have out : u.out = s.out := by rw [kept]
  have state : u.delivery.state = s.delivery.state := by rw [kept]
  have address : u.delivery.address = s.delivery.address := by rw [kept]
  have count : u.delivery.count = s.delivery.count := by rw [kept]
  have resume : u.delivery.resumePending = s.delivery.resumePending := by rw [kept]
  have pointer (a : HostAddr) (nonzero : a ≠ 0#64) : work (.bufferNextRereadEnd (some a)) s = u.fetchBuffer a :=
    (ends _).trans (if_neg nonzero)
  refine ⟨fun a nonzero aligned ready => ?_, fun a nonzero misaligned ready => ?_, fun a nonzero waits => ?_,
    fun pending => ?_, fun pending => ?_, ?_⟩
  · refine ⟨_, exec_fetchBuffer_due (pointer a nonzero) (.inl aligned) completions registers, rfl, rfl, rfl, rfl, ?_⟩
    simp [resetting, ready, out]
  · exact exec_fetchBuffer_misaligned (pointer a nonzero) misaligned (resetting.trans ready) completions count out
  · refine ⟨_, exec_fetchBuffer_due (pointer a nonzero) (.inr (resetting.trans waits)) completions registers, rfl, rfl, rfl, rfl,
      resetting.trans waits, registers, ?_⟩
    simp [resetting, waits, out]
  · have parks : work (.bufferNextRereadEnd (some 0#64)) s = u.parkBuffer .endOfList u.delivery.address false :=
      (ends _).trans (by simp [State.rereadBufferEnds, State.endOfBuffers, resume, pending])
    obtain ⟨t, ht, parked, why, -, place, flag, -⟩ := exec_parkBuffer parks completions
    exact ⟨t, ht, parked, why, place.trans address, flag⟩
  · have reads : work (.bufferNextRereadEnd (some 0#64)) s =
        ({ u with delivery := { u.delivery with resumePending := false, read := .next } } : State).emit
          (.hostRead u.delivery.address 8) :=
      (ends _).trans (by simp [State.rereadBufferEnds, State.endOfBuffers, State.rereadBuffer, resume, pending])
    refine ⟨_, exec_silent reads completions registers, state, rfl, rfl, address, ?_, registers⟩
    simp [State.emit, out, address]
  · have parks : work (.bufferNextRereadEnd none) s = u.parkBuffer .linkError u.delivery.address true := ends none
    obtain ⟨t, ht, parked, why, mark, place, flag, link⟩ := exec_parkBuffer parks completions
    obtain ⟨pending, error⟩ := link.1 rfl
    exact ⟨t, ht, parked, why, mark, place.trans address, pending, flag, error⟩

/-- Settles O47: the resume by state and park reason, then the ends of the reads it begins. -/
theorem bufferResumes : Obligations.BufferResumes := by
  refine fun s settled => ⟨fun h => exec_silent (State.resumeBuffer_idle h) settled rfl,
    fun h => exec_silent (State.resumeBuffer_active h) settled rfl,
    fun h k => exec_silent (State.resumeBuffer_reread h k) settled rfl,
    fun h misaligned ready k => exec_fetchBuffer_misaligned (State.resumeBuffer_fetch h k) misaligned ready settled rfl rfl,
    fun h due k => ?_, fun read late => bufferReread_late s read late settled,
    fun late own => bufferReread_ends s late settled own⟩
  exact ⟨_, exec_fetchBuffer_due (State.resumeBuffer_fetch h k) due settled rfl, rfl, rfl, rfl, rfl, rfl, rfl⟩

/-! ### The ends of a buffer descriptor's read and of a delivery's write -/

theorem Listed.streams {s t : State} (h : Listed s t) : SameStreams s t := by
  have kept := h.kept
  refine ⟨fun a => by rw [kept], ⟨fun id => ?_, by rw [kept], by rw [kept], by rw [kept]⟩,
    ⟨fun n => ?_, fun w => ?_, by rw [kept]⟩, ⟨by rw [kept], by rw [kept]⟩, ⟨fun d => ?_, by rw [kept]⟩, by rw [kept]⟩
  all_goals
    rw [kept]
    rfl

/-- Settles O48: the engine holds the descriptor, fetches it once more, or parks. -/
theorem bufferReadsAndWritesEnd : Obligations.BufferReadsAndWritesEnd := by
  refine ⟨fun s next buffer settled active read begun => ?_, fun s settled chosen => ?_⟩
  · have reading : s.bufferReading = true := by simp [State.bufferReading, active, read, begun]
    have arrives (done : Bool) (aligned : bufferAligned buffer = true) : work (.bufferFetchArrival next buffer done) s =
        if !done then { s with delivery := { s.delivery with
          holding := true, heldNext := some next, heldBuffer := some buffer, read := .none } }
        else if s.delivery.resumePending then
          ({ s with delivery := { s.delivery with resumePending := false } } : State).fetchBuffer s.delivery.address
        else s.parkBuffer .notReclaimed s.delivery.address false := by
      show s.bufferArrives next buffer done = _
      simp [State.bufferArrives, reading, aligned]
    refine ⟨fun aligned => exec_silent (arrives false aligned) settled rfl, fun aligned pending => ?_,
      fun aligned pending address ready => ?_, fun c hc => ?_⟩
    · obtain ⟨t, ht, parked, why, -, place, flag, -⟩ :=
        exec_parkBuffer ((arrives true aligned).trans (if_neg (Bool.eq_false_iff.mp pending))) settled
      exact ⟨t, ht, parked, why, place, flag⟩
    · have again := (arrives true aligned).trans (if_pos pending)
      refine ⟨_, exec_fetchBuffer_due again (.inl address) settled rfl, rfl, rfl, rfl, rfl, ?_⟩
      show s.out ++ (if s.resetting then [] else _) = _
      simp [ready]
    · have parks : work c s = s.parkBuffer .linkError s.delivery.address false := by
        obtain rfl | ⟨done, rfl, misaligned⟩ := hc
        · exact if_pos reading
        · show s.bufferArrives next buffer done = _
          simp [State.bufferArrives, reading, misaligned]
      obtain ⟨t, ht, parked, why, mark, place, flag, link, -⟩ := exec_parkBuffer parks settled
      obtain ⟨pending, error⟩ := link rfl
      exact ⟨t, ht, parked, why, mark, place, pending, flag, error⟩
  · have fails : work .deliveryWriteFailed s = s.parkBuffer .linkError s.delivery.address false := by
      refine if_pos ?_
      simpa [Option.isSome_iff_ne_none] using chosen
    obtain ⟨t, ht, parked, why, mark, place, flag, link, listed⟩ := exec_parkBuffer fails settled
    exact ⟨t, ht, parked, why, mark, place, listed.counts.1, listed.streams, flag, (link rfl).2⟩

end Sys2Proof.Machine
end

section
/-! PROOFS. The takes of the catalog and the Head Store (O23 to O28): one rule for a take that completes at once, one for a take
that completes others with it, and one for a load that ends without its head (R15, R39, R41). -/

namespace Sys2Proof.Machine

/-! ### A take that answers at once -/

/-- A take whose owner answers it, whatever else the owner did first. -/
theorem taken_answered {s u : State} {h : Header} {body : RequestBody} {r : Result} {x y : Word} (k : s.Taking)
    (hb : takeBody (s.tokenFor h) body (s.beginTake h) = u.complete (s.tokenFor h) r x y) (settled : u.completions = [])
    (out : s.out <+: u.out) (requests : u.requests = (s.beginTake h).requests)
    (flag : u.latched .requestDone = s.latched .requestDone) :
    ∃ t, event (arrival h body) s = .next t ∧ TakenDone s t h r x y ∧ Posted u t := by
  obtain ⟨t, ht, done, posted, -⟩ :=
    takenDone_of k hb (congrArg (List.cons _) settled) out requests flag
  exact ⟨t, ht, done, (Posted.setCompletions u _).trans posted⟩

/-- A take that only answers changes nothing of the streams. -/
theorem taken_refused {s : State} {h : Header} {body : RequestBody} {r : Result} {x y : Word} (k : s.Taking)
    (hb : takeBody (s.tokenFor h) body (s.beginTake h) = (s.beginTake h).complete (s.tokenFor h) r x y) :
    ∃ t, event (arrival h body) s = .next t ∧ TakenDone s t h r x y ∧ SameStreams s t := by
  obtain ⟨t, ht, done, posted⟩ := taken_answered k hb k.settled List.prefix_rfl rfl rfl
  exact ⟨t, ht, done, posted.streams⟩

/-- A take that only answers, with words that no rule states. -/
theorem taken_refusedUnstated {s : State} {h : Header} {body : RequestBody} {r : Result} (k : s.Taking)
    (hb : takeBody (s.tokenFor h) body (s.beginTake h) = (s.beginTake h).completeUnstated (s.tokenFor h) r) :
    ∃ t, event (arrival h body) s = .next t ∧ TakenDoneAnyWords s t h r ∧ SameStreams s t := by
  obtain ⟨t, ht, done, same⟩ := taken_refused k hb
  exact ⟨t, ht, ⟨_, _, done⟩, same⟩

/-! ### A take that completes other requests too -/

/-- What an event wrote after a state's traffic, it wrote after what that state's traffic began with. -/
theorem wroteAt.from {s u t : State} {a : HostAddr} {bytes : List Byte} (h : wroteAt u t a bytes) (k : s.out <+: u.out) :
    wroteAt s t a bytes := by
  obtain ⟨before, after, e⟩ := h
  obtain ⟨first, k⟩ := k
  exact ⟨first ++ before, after, by rw [e, ← k]; simp⟩

/-- The statuses of a take follow the DONE writes of the requests completed (R170). -/
theorem Posted.flush_writeStatuses (b : State) (t : Token) : Posted b.flush (b.writeStatuses t) :=
  Posted.ite (Posted.refl _) (Posted.writeTaken _ _)

/-- A take whatever it completes: every completion is written, and TAKEN where the request is not among them (R170). -/
theorem taken_wrote {s b : State} {h : Header} {body : RequestBody} (k : s.Taking)
    (hb : takeBody (s.tokenFor h) body (s.beginTake h) = b) (out : s.out <+: b.out) :
    ∃ t, event (arrival h body) s = .next t ∧ Posted b t ∧ (b.completesNow (s.tokenFor h) = true → Posted b.flush t) ∧
      (∀ c ∈ b.completions, wroteAt s t c.token.address (doneBytes c.result c.word0 c.word1)) ∧
      ((∀ c ∈ b.completions, c.token.order ≠ s.takes) → wroteStatus s t takenBytes) := by
  have ends : Posted (b.writeStatuses (s.tokenFor h)) (sendMessage s (s.takeRequest ⟨h, body⟩).flush) := by
    rw [← hb]
    exact (Posted.advanceRequests _ _).trans ((Posted.flush _).trans (Posted.sendMessage _ _))
  have flushed := (Posted.flush_writeStatuses b (s.tokenFor h)).trans ends
  refine ⟨_, exec_arrival k h body, (Posted.flush b).trans flushed, fun _ => flushed,
    fun c hc => ((b.flush_wrote c hc).from out).mono flushed.1, fun late => ?_⟩
  have long : b.completesNow (s.tokenFor h) = false := by
    simp only [State.completesNow, List.any_eq_false, beq_iff_eq]
    exact late
  obtain ⟨first, hf⟩ := out
  obtain ⟨more, hm⟩ := (Posted.flush b).1
  have taken : (b.writeStatuses (s.tokenFor h)).out =
      s.out ++ (first ++ more) ++ .hostWrite (requestStatusAddress s.requests.address) takenBytes :: [] := by
    simp only [State.writeStatuses, long, Bool.false_eq_true, if_false]
    show b.flush.out ++ [.hostWrite (requestStatusAddress s.requests.address) takenBytes] = _
    rw [← hm, ← hf, List.append_assoc s.out]
  obtain ⟨last, hl⟩ := ends.1
  exact ⟨first ++ more, last, by rw [← hl, taken]; simp⟩

/-! ### DEFINE and SET_PIN -/

/-- Settles O23: the accepted DEFINE is the one of the sitting before; a refused one only answers. -/
theorem defineTaken : Obligations.DefineTaken := by
  refine ⟨fun h p s l k layout vacant unclaimed => exec_define_accepted h k layout vacant unclaimed,
    fun h p s k => ⟨fun none => ?_, fun l layout held => ?_, fun l layout vacant claimed => ?_⟩⟩
  · exact taken_refused (body := .define p) k (by simp [takeBody, takeDefine, none, State.refuse])
  · exact taken_refused (body := .define p) k (by simp [takeBody, takeDefine, layout, held, State.refuse])
  · exact taken_refused (body := .define p) k (by simp [takeBody, takeDefine, layout, vacant, claimed, State.refuse])

/-- Settles O24: the record's pin, or the refusal. -/
theorem setPinTaken : Obligations.SetPinTaken := by
  refine fun h n pin s k => ⟨fun named => ?_, fun unnamed => ?_⟩
  · have body : takeBody (s.tokenFor h) (.setPin n pin) (s.beginTake h) =
        ((s.beginTake h).setRecord n.id.toNat { s.record n.id.toNat with pin := byteSet pin }).complete (s.tokenFor h) .ok
          (boolWord (s.record n.id.toNat).pin) (Config.unstatedWord (s.tokenFor h).order 1) := by
      simp [takeBody, takeSetPin, named]
    obtain ⟨t, ht, done, posted⟩ := taken_answered k body k.settled List.prefix_rfl rfl rfl
    refine ⟨t, _, ht, done, (posted.record _).trans (State.record_setRecord_same _ _ _), fun id other => ?_⟩
    exact (posted.record _).trans (State.record_setRecord_other _ _ other)
  · exact taken_refusedUnstated (body := .setPin n pin) k (by simp [takeBody, takeSetPin, unnamed])

/-! ### The slots that a condition on the voice picks -/

/-- The slots whose voice has a property that a blank voice has not are those listed. -/
theorem State.mem_slotsWhere {s : State} (c : Table.wf Voice.blank s.voices = true) {p : Voice → Bool}
    (blank : p Voice.blank = false) (n : Nat) :
    n ∈ (s.voices.filter fun e => p e.2).map Prod.fst ↔ p (s.voice n) = true := by
  constructor
  · intro h
    obtain ⟨e, he, rfl⟩ := List.mem_map.mp h
    obtain ⟨m, hp⟩ := List.mem_filter.mp he
    rw [State.voice_of_mem c m]
    exact hp
  · intro h
    obtain m | m := Table.get_mem Voice.blank s.voices n
    · exact List.mem_map.mpr ⟨_, List.mem_filter.mpr ⟨m, h⟩, rfl⟩
    · unfold State.voice at h
      rw [m, blank] at h
      cases h

theorem State.slotsWhere_nodup {s : State} (c : Table.wf Voice.blank s.voices = true) (p : Voice → Bool) :
    ((s.voices.filter fun e => p e.2).map Prod.fst).Nodup :=
  List.pairwise_map.mpr ((((Table.wf_iff _ _).mp c).1.filter _).imp Nat.ne_of_lt)

theorem Voice.blank_plays (id : Nat) (g : Generation) : Voice.blank.plays id g = false := rfl

theorem State.mem_slotsPlaying {s : State} (c : Table.wf Voice.blank s.voices = true) (id : Nat) (g : Generation) (n : Nat) :
    n ∈ s.slotsPlaying id g ↔ (s.voice n).plays id g = true :=
  State.mem_slotsWhere c (p := fun v => v.plays id g) (Voice.blank_plays id g) n

theorem State.slotsPlaying_nodup {s : State} (c : Table.wf Voice.blank s.voices = true) (id : Nat) (g : Generation) :
    (s.slotsPlaying id g).Nodup := State.slotsWhere_nodup c fun v => v.plays id g

theorem State.mem_headSlotsPlaying {s : State} (c : Table.wf Voice.blank s.voices = true) (id : Nat) (g : Generation) (n : Nat) :
    n ∈ s.headSlotsPlaying id g ↔ (s.voice n).plays id g = true ∧ (s.voice n).headMode = true := by
  rw [← Bool.and_eq_true]
  exact State.mem_slotsWhere c (p := fun v => v.plays id g && v.headMode) rfl n

theorem State.headSlotsPlaying_nodup {s : State} (c : Table.wf Voice.blank s.voices = true) (id : Nat) (g : Generation) :
    (s.headSlotsPlaying id g).Nodup := State.slotsWhere_nodup c fun v => v.plays id g && v.headMode

theorem Voice.plays_id {v : Voice} {id : Nat} {g : Generation} (h : v.plays id g = true) : v.sampleId = id := by
  simp only [Voice.plays, Bool.and_eq_true, beq_iff_eq] at h
  exact h.1.2

theorem Voice.plays_generation {v : Voice} {id : Nat} {g : Generation} (h : v.plays id g = true) : v.sampleGeneration = g := by
  simp only [Voice.plays, Bool.and_eq_true, beq_iff_eq] at h
  exact h.2

/-! ### Voices of one record end -/

/-- Voices of one record that is not RETIRING end, and its load may end with them: the record, the voices, what the event
completes and the slots it leaves RECLAIMING. -/
structure State.Parted (s t : State) (id : Nat) (reason : EndReason) (slots : List Nat) (after : Record) (done : List Completion)
    (freed : List Reclaim) : Prop where
  kept : t = { s with
    queue := t.queue, windows := t.windows, voices := t.voices, catalog := t.catalog, completions := t.completions
    reclaiming := t.reclaiming }
  voices : ∀ n, n ∈ slots → t.voice n = (s.voice n).endedWith reason
  others : ∀ n, n ∉ slots → t.voice n = s.voice n
  record : t.record id = after
  records : ∀ j, j ≠ id → t.record j = s.record j
  completions : t.completions = done ++ s.completions
  reclaiming : t.reclaiming = s.reclaiming ++ freed
  queue : t.queue.Sublist s.queue
  canonical : s.Canonical → t.Canonical

theorem State.Parted.refl (s : State) (id : Nat) (reason : EndReason) : s.Parted s id reason [] (s.record id) [] [] where
  kept := rfl
  voices _ h := absurd h List.not_mem_nil
  others _ _ := rfl
  record := rfl
  records _ _ := rfl
  completions := rfl
  reclaiming := (List.append_nil _).symm
  queue := List.Sublist.refl _
  canonical c := c

/-- A load that ends after voices of its record have ended, no voice ending with it. -/
theorem State.Parted.trans {s t u : State} {id : Nat} {reason : EndReason} {slots : List Nat} {a b : Record}
    {done more : List Completion} {freed rest : List Reclaim} (h : s.Parted t id reason slots a done freed)
    (k : t.Parted u id reason [] b more rest) : s.Parted u id reason slots b (more ++ done) (freed ++ rest) where
  kept := by
    have e := k.kept
    rw [h.kept] at e
    exact e
  voices n hn := (k.others n List.not_mem_nil).trans (h.voices n hn)
  others n hn := (k.others n List.not_mem_nil).trans (h.others n hn)
  record := k.record
  records j hj := (k.records j hj).trans (h.records j hj)
  completions := by rw [k.completions, h.completions, List.append_assoc]
  reclaiming := by rw [k.reclaiming, h.reclaiming, List.append_assoc]
  queue := k.queue.trans h.queue
  canonical c := k.canonical (h.canonical c)

theorem State.settleRetiring_other {s : State} {id : Nat} (h : (s.record id).state ≠ .retiring) : s.settleRetiring id = s :=
  if_neg fun k => h k.1

theorem State.dropReference_kept (s : State) (id : Nat) (g : Generation) :
    s.dropReference id g = { s with
      catalog := (s.dropReference id g).catalog, recency := (s.dropReference id g).recency
      completions := (s.dropReference id g).completions } := by
  simp only [State.dropReference, State.settleRetiring]
  split
  · split
    · split <;> rfl
    · rfl
  · rfl

/-- A reference dropped from a record not RETIRING completes nothing and leaves the record in its state. -/
theorem State.dropReference_stays {s : State} {id : Nat} (g : Generation) (h : (s.record id).state ≠ .retiring) :
    (s.dropReference id g).completions = s.completions ∧ (s.dropReference id g).recency = s.recency ∧
      ((s.dropReference id g).record id).state = (s.record id).state := by
  simp only [State.dropReference]
  split
  · rw [State.settleRetiring_other (by rw [State.record_setRecord_same]; exact h)]
    exact ⟨rfl, rfl, by rw [State.record_setRecord_same]⟩
  · exact ⟨rfl, rfl, rfl⟩

/-- The state in which a voice that ends leaves its record (R45, R71, R110). -/
def State.silenced (s : State) (reason : EndReason) (slot : Nat) : State :=
  let v := s.voice slot
  let s1 := { s with queue := s.queue.filter fun e => !e.ofVoice slot v.generation }
  (s1.setWindow v.window ((s.window v.window).endEmpty (placesOf (s.queue.filter fun e => e.ofVoice slot v.generation)))).setVoice
    slot (v.endedWith reason)

theorem State.endVoice_eq (reason : EndReason) (s : State) (slot : Nat) :
    State.endVoice reason s slot =
      if (s.voice slot).sounding then
        (s.silenced reason slot).dropReference (s.voice slot).sampleId (s.voice slot).sampleGeneration
      else s := rfl

/-- The end of voices that name a record not RETIRING completes nothing and moves no record in the recency list. -/
theorem State.endVoices_completes_nothing (reason : EndReason) (id : Nat) (slots : List Nat) : ∀ s : State,
    (∀ n ∈ slots, (s.voice n).sampleId = id) → (s.record id).state ≠ .retiring →
    (s.endVoices reason slots).completions = s.completions ∧ (s.endVoices reason slots).recency = s.recency := by
  induction slots with
  | nil => exact fun s _ _ => ⟨rfl, rfl⟩
  | cons x slots ih =>
    intro s named state
    have one : (State.endVoice reason s x).completions = s.completions ∧ (State.endVoice reason s x).recency = s.recency ∧
        ((State.endVoice reason s x).record id).state = (s.record id).state := by
      rw [State.endVoice_eq, named x List.mem_cons_self]
      split
      · exact State.dropReference_stays (s := s.silenced reason x) _ state
      · exact ⟨rfl, rfl, rfl⟩
    obtain ⟨completions, recency, kept⟩ := one
    have voices (n : Nat) : ((State.endVoice reason s x).voice n).sampleId = (s.voice n).sampleId := by
      rw [((Inner.endVoice reason s x).voices n).kept]
    have rest := ih (State.endVoice reason s x) (fun n hn => (voices n).trans (named n (List.mem_cons_of_mem _ hn))) (by rwa [kept])
    exact ⟨rest.1.trans completions, rest.2.trans recency⟩

theorem State.endVoices_queue (reason : EndReason) (slots : List Nat) : ∀ s : State,
    (s.endVoices reason slots).queue.Sublist s.queue := by
  induction slots with
  | nil => exact fun s => List.Sublist.refl _
  | cons x slots ih =>
    intro s
    refine (ih (State.endVoice reason s x)).trans ?_
    rw [State.endVoice_eq]
    split
    · rw [State.dropReference_kept]
      exact List.filter_sublist
    · exact List.Sublist.refl _

theorem State.queueWithout_sublist (s : State) (ends : Nat → Bool) : (s.queueWithout ends).Sublist s.queue :=
  List.filter_sublist

/-- Voices that name one record, neither VACANT nor RETIRING, end (R12, R70). -/
theorem State.endVoices_parted (reason : EndReason) {s : State} {id : Nat} {slots : List Nat} (c : s.Canonical)
    (nodup : slots.Nodup) (plays : ∀ n ∈ slots, (s.voice n).plays id (s.record id).generation = true)
    (held : (s.record id).state ≠ .vacant) (stays : (s.record id).state ≠ .retiring) :
    s.Parted (s.endVoices reason slots) id reason slots { s.record id with refs := (s.record id).refs - slots.length } [] [] := by
  have left := s.endVoices_left reason slots nodup c fun n hn => Voice.plays_sounding (plays n hn)
  obtain ⟨completions, recency⟩ := s.endVoices_completes_nothing reason id slots (fun n hn => Voice.plays_id (plays n hn)) stays
  have naming : s.naming slots id = slots.length := by
    rw [State.naming, List.filter_eq_self.mpr plays]
  refine {
    kept := ?_, voices := left.voices, others := left.others, record := ?_, records := fun j hj => ?_
    completions := completions, reclaiming := ?_, queue := left.queue ▸ s.queueWithout_sublist _
    canonical := (Inner.endVoices reason s slots).canonical }
  · have e := left.kept
    rw [recency] at e
    rw [e]
  · rw [left.records id, naming, Record.leftBy_counted _ _ held (.inl stays)]
  · have none : s.naming slots j = 0 := by
      simp only [State.naming, List.length_eq_zero_iff, List.filter_eq_nil_iff]
      intro n hn named
      exact hj ((Voice.plays_id named).symm.trans (Voice.plays_id (plays n hn)))
    rw [left.records j, none]
    rfl
  · rw [left.kept, List.append_nil]

/-! ### A load that ends without its head -/

/-- A load gives up its queued entries, its voices and its slot, completes, and leaves its record changed (R15, R31, R39, R41). -/
def State.loseLoad (s : State) (id : Nat) (l : Load) (reason : EndReason) (slots : List Nat) (done : Completion)
    (f : Record → Record) : State :=
  let u := (s.dropLoadEntries id (s.record id).generation).endVoices reason slots
  let v := { u with completions := done :: u.completions }
  (v.setRecord id (f (v.record id))).releaseSlot l.slot (s.record id).loadReads id (s.record id).generation

/-- A load abandoned, as a load lost (R15, R41). -/
theorem State.abandonLoad_eq {s : State} {id : Nat} {l : Load} (reason : EndReason) (h : (s.record id).load = some l) :
    s.abandonLoad id reason = s.loseLoad id l reason (s.headSlotsPlaying id (s.record id).generation)
      ⟨l.token, .abandoned, BitVec.ofNat 32 l.arrived.length, 0#32⟩ Record.withoutLoad := by
  simp only [State.abandonLoad, h]
  rfl

/-- The completion of a failed load (R38, R39). -/
def LoadFailure.completion (f : LoadFailure) (l : Load) : Completion :=
  match f with
  | .blockError k => ⟨l.token, .blockError, BitVec.ofNat 32 k, BitVec.ofNat 32 l.arrived.length⟩
  | .dieOffline k => ⟨l.token, .dieOffline, BitVec.ofNat 32 k, BitVec.ofNat 32 l.arrived.length⟩
  | .mismatch x e => ⟨l.token, .signatureMismatch, x, e⟩

theorem LoadFailure.complete_eq (f : LoadFailure) (s : State) (l : Load) :
    f.complete s l = { s with completions := f.completion l :: s.completions } := by
  cases f <;> rfl

/-- The record of a failed load (R39). -/
def Record.failed (f : LoadFailure) (r : Record) : Record :=
  { r.withoutLoad with state := .stale, staleReason := f.staleReason }

/-- A load failed, as a load lost (R39). -/
theorem State.failLoad_eq {s : State} {id : Nat} {l : Load} (f : LoadFailure) (h : (s.record id).load = some l) :
    s.failLoad id f = s.loseLoad id l .stale (s.slotsPlaying id (s.record id).generation) (f.completion l) (Record.failed f) := by
  simp only [State.failLoad, h, LoadFailure.complete_eq]
  rfl

/-- The slot of a load that ends while its reads run is RECLAIMING (R31, R32). -/
def Record.reclaim (r : Record) (l : Load) (id : Nat) : List Reclaim :=
  if 0 < r.loadReads then [{ slot := l.slot, outstanding := r.loadReads, id := id, generation := r.generation }] else []

theorem State.releaseSlot_eq (s : State) (slot reads id : Nat) (g : Generation) :
    s.releaseSlot slot reads id g = { s with reclaiming := s.reclaiming ++
      if 0 < reads then [{ slot := slot, outstanding := reads, id := id, generation := g }] else [] } := by
  unfold State.releaseSlot
  split
  · rfl
  · rw [List.append_nil]

theorem Canonical.of_loseLoad {s : State} (c : s.Canonical) (id : Nat) (l : Load) (reason : EndReason) (slots : List Nat)
    (done : Completion) (f : Record → Record) : (s.loseLoad id l reason slots done f).Canonical := by
  have dropped : (s.dropLoadEntries id (s.record id).generation).Canonical := c.of_same rfl rfl rfl rfl rfl
  have ended := (Inner.endVoices reason (s.dropLoadEntries id (s.record id).generation) slots).canonical dropped
  rw [State.loseLoad, State.releaseSlot_eq]
  refine { dram := ended.dram, catalog := ?_, voices := ended.voices, windows := ended.windows, places := ended.places
           dies := ended.dies }
  exact Table.wf_set _ _ _ _ ended.catalog

/-- What a lost load leaves (R15, R39, R41). -/
theorem State.loseLoad_parted {s : State} {id : Nat} {l : Load} (reason : EndReason) {slots : List Nat} {done : Completion}
    {f : Record → Record} (c : s.Canonical) (nodup : slots.Nodup)
    (plays : ∀ n ∈ slots, (s.voice n).plays id (s.record id).generation = true) (held : (s.record id).state ≠ .vacant)
    (stays : (s.record id).state ≠ .retiring) :
    s.Parted (s.loseLoad id l reason slots done f) id reason slots
      (f { s.record id with refs := (s.record id).refs - slots.length }) [done] ((s.record id).reclaim l id) := by
  let d := s.dropLoadEntries id (s.record id).generation
  have ended : d.Parted (d.endVoices reason slots) id reason slots _ [] [] :=
    State.endVoices_parted reason (c.of_same rfl rfl rfl rfl rfl) nodup plays held stays
  have lost : s.loseLoad id l reason slots done f =
      { (({ d.endVoices reason slots with completions := done :: (d.endVoices reason slots).completions } : State).setRecord id
          (f ((d.endVoices reason slots).record id))) with
        reclaiming := (d.endVoices reason slots).reclaiming ++ (s.record id).reclaim l id } := by
    rw [State.loseLoad, State.releaseSlot_eq]
    rfl
  refine {
    kept := ?_, voices := fun n hn => ?_, others := fun n hn => ?_, record := ?_, records := fun j hj => ?_
    completions := ?_, reclaiming := ?_, queue := ?_, canonical := fun c => Canonical.of_loseLoad c id l reason slots done f }
  · rw [lost]
    have e := ended.kept
    generalize d.endVoices reason slots = u at e
    rw [e]
    rfl
  · rw [lost]
    exact ended.voices n hn
  · rw [lost]
    exact ended.others n hn
  · rw [lost]
    refine (State.record_setRecord_same _ _ _).trans ?_
    rw [ended.record]
    rfl
  · rw [lost]
    exact (State.record_setRecord_other _ _ hj).trans (ended.records j hj)
  · rw [lost]
    exact congrArg (List.cons done) ended.completions
  · rw [lost]
    show (d.endVoices reason slots).reclaiming ++ _ = _
    rw [ended.reclaiming, List.append_nil]
    rfl
  · rw [lost]
    exact ended.queue.trans List.filter_sublist

/-- No queued entry of a lost load is left (R111). -/
theorem State.loseLoad_entries {s : State} {id : Nat} {l : Load} (reason : EndReason) {slots : List Nat} {done : Completion}
    {f : Record → Record} : ∀ e ∈ (s.loseLoad id l reason slots done f).queue, e.owner ≠ .load id (s.record id).generation := by
  intro e he
  rw [State.loseLoad, State.releaseSlot_eq] at he
  have kept := (State.endVoices_queue reason slots (s.dropLoadEntries id (s.record id).generation)).mem he
  simpa using (List.mem_filter.mp kept).2

theorem State.abandonLoad_parted {s : State} {id : Nat} {l : Load} (reason : EndReason) (c : s.Canonical)
    (load : (s.record id).load = some l) (held : (s.record id).state ≠ .vacant) (stays : (s.record id).state ≠ .retiring) :
    s.Parted (s.abandonLoad id reason) id reason (s.headSlotsPlaying id (s.record id).generation)
      { s.record id with
        refs := (s.record id).refs - (s.headSlotsPlaying id (s.record id).generation).length, load := none, headSlot := none }
      [⟨l.token, .abandoned, BitVec.ofNat 32 l.arrived.length, 0#32⟩] ((s.record id).reclaim l id) := by
  rw [State.abandonLoad_eq reason load]
  exact State.loseLoad_parted reason c (State.headSlotsPlaying_nodup c.voices _ _)
    (fun m hm => ((State.mem_headSlotsPlaying c.voices _ _ m).mp hm).1) held stays

theorem State.abandonLoad_entries {s : State} {id : Nat} {l : Load} (reason : EndReason) (load : (s.record id).load = some l) :
    ∀ e ∈ (s.abandonLoad id reason).queue, e.owner ≠ .load id (s.record id).generation := by
  rw [State.abandonLoad_eq reason load]
  exact State.loseLoad_entries reason

theorem State.failLoad_parted {s : State} {id : Nat} {l : Load} (f : LoadFailure) (c : s.Canonical)
    (load : (s.record id).load = some l) (held : (s.record id).state ≠ .vacant) (stays : (s.record id).state ≠ .retiring) :
    s.Parted (s.failLoad id f) id .stale (s.slotsPlaying id (s.record id).generation)
      { s.record id with
        refs := (s.record id).refs - (s.slotsPlaying id (s.record id).generation).length, load := none, headSlot := none
        state := .stale, staleReason := f.staleReason }
      [f.completion l] ((s.record id).reclaim l id) := by
  rw [State.failLoad_eq f load]
  exact State.loseLoad_parted .stale c (State.slotsPlaying_nodup c.voices _ _)
    (fun m hm => (State.mem_slotsPlaying c.voices _ _ m).mp hm) held stays

theorem State.failLoad_entries {s : State} {id : Nat} {l : Load} (f : LoadFailure) (load : (s.record id).load = some l) :
    ∀ e ∈ (s.failLoad id f).queue, e.owner ≠ .load id (s.record id).generation := by
  rw [State.failLoad_eq f load]
  exact State.loseLoad_entries .stale

/-! ### RETIRE -/

theorem State.names_iff {s : State} {n : RecordName} :
    s.names n = true ↔ (s.record n.id.toNat).state ≠ .vacant ∧ (s.record n.id.toNat).generation = n.generation := by
  simp [State.names]

theorem mem_filter_ne (l : List Nat) (x : Nat) : x ∉ l.filter (· != x) := by
  simp [List.mem_filter]

theorem State.toVacant_same (s : State) (id : Nat) : (s.toVacant id).record id = Record.vacant (s.record id).generation :=
  State.record_setRecord_same _ _ _

theorem State.toVacant_other (s : State) {id j : Nat} (h : j ≠ id) : (s.toVacant id).record j = s.record j :=
  State.record_setRecord_other _ _ h

/-- The refusals of RETIRE, the record that becomes VACANT at once, and the one that waits for its voices (R14 to R17). -/
theorem retire_plain (h : Header) (n : RecordName) (force : Byte) (s : State) (k : s.Taking) :
    (s.names n = false →
      ∃ t, exec (.retire h n force) s = .next t ∧ TakenDoneAnyWords s t h .noRecord ∧ SameStreams s t) ∧
    (s.names n = true → (s.record n.id.toNat).state = .retiring →
      ∃ t, exec (.retire h n force) s = .next t ∧ TakenDoneAnyWords s t h .busy ∧ SameStreams s t) ∧
    (s.names n = true → (s.record n.id.toNat).state ≠ .retiring → (s.record n.id.toNat).state ≠ .loading →
      (s.record n.id.toNat).refs = 0 →
      ∃ t, exec (.retire h n force) s = .next t ∧ TakenDoneAnyWords s t h .ok ∧
        t.record n.id.toNat = Record.vacant n.generation ∧
        (∀ id, id ≠ n.id.toNat → t.record id = s.record id) ∧ n.id.toNat ∉ t.recency) ∧
    (s.names n = true → (s.record n.id.toNat).state ≠ .retiring → (s.record n.id.toNat).state ≠ .loading →
      0 < (s.record n.id.toNat).refs → byteSet force = false →
      ∃ t, exec (.retire h n force) s = .next t ∧ TakenLong s t ∧ (t.record n.id.toNat).state = .retiring ∧
        (t.record n.id.toNat).refs = (s.record n.id.toNat).refs ∧
        (t.record n.id.toNat).headSlot = (s.record n.id.toNat).headSlot ∧
        (∀ id, id ≠ n.id.toNat → t.record id = s.record id) ∧ n.id.toNat ∉ t.recency) := by
  refine ⟨fun unnamed => ?_, fun named retiring => ?_, fun named stays idle unplayed => ?_,
    fun named stays idle played unforced => ?_⟩
  · exact taken_refusedUnstated (body := .retire n force) k (by simp [takeBody, takeRetire, unnamed])
  · exact taken_refusedUnstated (body := .retire n force) k (by simp [takeBody, takeRetire, named, retiring])
  · have generation := (State.names_iff.mp named).2
    have body : takeBody (s.tokenFor h) (.retire n force) (s.beginTake h) =
        ((s.beginTake h).toVacant n.id.toNat).completeUnstated (s.tokenFor h) .ok := by
      simp [takeBody, takeRetire, named, stays, idle, unplayed]
    obtain ⟨t, ht, done, posted⟩ := taken_answered k body k.settled List.prefix_rfl rfl rfl
    refine ⟨t, ht, ⟨_, _, done⟩, ?_, fun id other => (posted.record _).trans (State.toVacant_other _ other), ?_⟩
    · exact (posted.record _).trans ((State.toVacant_same _ _).trans (congrArg _ generation))
    · rw [posted.recency]
      exact mem_filter_ne _ _
  · have body : takeBody (s.tokenFor h) (.retire n force) (s.beginTake h) =
        (((s.beginTake h).leaveRecency n.id.toNat).setRecord n.id.toNat
          { s.record n.id.toNat with state := .retiring, retire := some (s.tokenFor h) }).settleRetiring n.id.toNat := by
      simp [takeBody, takeRetire, named, stays, idle, Nat.pos_iff_ne_zero.mp played, unforced]
      rfl
    have waits : (((s.beginTake h).leaveRecency n.id.toNat).setRecord n.id.toNat
        { s.record n.id.toNat with state := .retiring, retire := some (s.tokenFor h) }).settleRetiring n.id.toNat =
        ((s.beginTake h).leaveRecency n.id.toNat).setRecord n.id.toNat
          { s.record n.id.toNat with state := .retiring, retire := some (s.tokenFor h) } := by
      refine if_neg fun k => ?_
      rw [State.record_setRecord_same] at k
      exact Nat.pos_iff_ne_zero.mp played k.2.1
    obtain ⟨t, ht, long, posted, -⟩ := takenLong_of k (body.trans waits) k.settled List.prefix_rfl rfl rfl
    have same := (posted.record n.id.toNat).trans (State.record_setRecord_same _ _ _)
    refine ⟨t, ht, long, by rw [same], by rw [same], by rw [same],
      fun id other => (posted.record _).trans (State.record_setRecord_other _ _ other), ?_⟩
    rw [posted.recency]
    exact mem_filter_ne _ _

/-- The slots whose voices a RETIRE ends (R15, R16). -/
def State.retiredSlots (s : State) (n : RecordName) (force : Byte) : List Nat :=
  if byteSet force = true then s.slotsPlaying n.id.toNat n.generation
  else if (s.record n.id.toNat).state = .loading then s.headSlotsPlaying n.id.toNat n.generation else []

/-- The voices and the load of a record that a RETIRE ends, before the record enters RETIRING. -/
def State.retireEnds (s : State) (n : RecordName) (force : Byte) : State :=
  let s1 := if byteSet force then s.endVoices .retired (s.slotsPlaying n.id.toNat n.generation) else s
  if (s.record n.id.toNat).state = .loading then s1.abandonLoad n.id.toNat .retired else s1

/-- The record as a RETIRE's endings leave it. -/
def Record.unvoiced (r : Record) (ended : Nat) : Record :=
  if r.state = .loading then { r with refs := r.refs - ended, load := none, headSlot := none }
  else { r with refs := r.refs - ended }

theorem Record.unvoiced_loading {r : Record} (h : r.state = .loading) (ended : Nat) :
    r.unvoiced ended = { r with refs := r.refs - ended }.withoutLoad := if_pos h

theorem State.mem_retiredSlots {s : State} (c : s.Canonical) (n : RecordName) (force : Byte) (m : Nat) :
    m ∈ s.retiredSlots n force ↔ (s.voice m).plays n.id.toNat n.generation = true ∧
      (byteSet force = true ∨ ((s.record n.id.toNat).state = .loading ∧ (s.voice m).headMode = true)) := by
  unfold State.retiredSlots
  by_cases forced : byteSet force = true
  · simp [forced, State.mem_slotsPlaying c.voices]
  · by_cases loading : (s.record n.id.toNat).state = .loading
    · simp [forced, loading, State.mem_headSlotsPlaying c.voices]
    · simp [forced, loading]

theorem Voice.endedWith_silent (v : Voice) (reason : EndReason) : (v.endedWith reason).sounding = false := rfl

/-- No slot still plays a record whose every voice has ended. -/
theorem State.Parted.none_plays {s t : State} {id : Nat} {reason : EndReason} {after : Record} {done : List Completion}
    {freed : List Reclaim} {g : Generation} (c : s.Canonical)
    (h : s.Parted t id reason (s.slotsPlaying id g) after done freed) (n : Nat) : (t.voice n).plays id g = false := by
  by_cases hn : n ∈ s.slotsPlaying id g
  · rw [h.voices n hn]
    rfl
  · rw [h.others n hn]
    simpa [State.mem_slotsPlaying c.voices] using hn

theorem State.headSlotsPlaying_none {s : State} {id : Nat} {g : Generation} (c : s.Canonical)
    (h : ∀ n, (s.voice n).plays id g = false) : s.headSlotsPlaying id g = [] := by
  rw [List.eq_nil_iff_forall_not_mem]
  intro n hn
  have := ((State.mem_headSlotsPlaying c.voices id g n).mp hn).1
  rw [h n] at this
  cases this

/-- What a RETIRE ends (R15, R16). -/
theorem State.retireEnds_parted {s : State} {n : RecordName} {force : Byte} (c : s.Canonical) (named : s.names n = true)
    (stays : (s.record n.id.toNat).state ≠ .retiring)
    (load : (s.record n.id.toNat).state = .loading → ∃ l, (s.record n.id.toNat).load = some l) :
    ∃ done freed, s.Parted (s.retireEnds n force) n.id.toNat .retired (s.retiredSlots n force)
        ((s.record n.id.toNat).unvoiced (s.retiredSlots n force).length) done freed ∧
      ((s.record n.id.toNat).state ≠ .loading → done = [] ∧ freed = []) ∧
      ∀ l, (s.record n.id.toNat).state = .loading → (s.record n.id.toNat).load = some l →
        done = [⟨l.token, .abandoned, BitVec.ofNat 32 l.arrived.length, 0#32⟩] ∧
        freed = (s.record n.id.toNat).reclaim l n.id.toNat ∧
        ∀ e ∈ (s.retireEnds n force).queue, e.owner ≠ .load n.id.toNat n.generation := by
  obtain ⟨held, generation⟩ := State.names_iff.mp named
  have forcedEnds : s.Parted (s.endVoices .retired (s.slotsPlaying n.id.toNat n.generation)) n.id.toNat .retired
      (s.slotsPlaying n.id.toNat n.generation) _ [] [] :=
    State.endVoices_parted .retired c (State.slotsPlaying_nodup c.voices _ _)
      (fun m hm => by rw [generation]; exact (State.mem_slotsPlaying c.voices _ _ m).mp hm) held stays
  by_cases loading : (s.record n.id.toNat).state = .loading
  · obtain ⟨l, hl⟩ := load loading
    have only {P : Load → Prop} (h : P l) : ∀ l', (s.record n.id.toNat).state = .loading →
        (s.record n.id.toNat).load = some l' → P l' := fun l' _ hl' => Option.some.inj (hl.symm.trans hl') ▸ h
    by_cases forced : byteSet force = true
    · generalize hs1 : s.endVoices .retired (s.slotsPlaying n.id.toNat n.generation) = s1 at forcedEnds
      have record := forcedEnds.record
      have none : s1.headSlotsPlaying n.id.toNat (s1.record n.id.toNat).generation = [] := by
        rw [record]
        refine State.headSlotsPlaying_none (forcedEnds.canonical c) fun m => ?_
        show (s1.voice m).plays _ (s.record n.id.toNat).generation = false
        rw [generation]
        exact forcedEnds.none_plays c m
      have ends : s.retireEnds n force = s1.abandonLoad n.id.toNat .retired := by
        simp only [State.retireEnds, forced, loading, if_true, hs1]
      have slots : s.retiredSlots n force = s.slotsPlaying n.id.toNat n.generation := if_pos forced
      have load1 : (s1.record n.id.toNat).load = some l := by
        rw [record]
        exact hl
      have lost := State.abandonLoad_parted .retired (forcedEnds.canonical c) load1 (by rw [record]; exact held)
        (by rw [record]; exact stays)
      refine ⟨_, _, ?_, fun k => absurd loading k, only ⟨rfl, rfl, ?_⟩⟩
      · rw [none] at lost
        have both := forcedEnds.trans lost
        rw [record] at both
        rw [ends, slots, Record.unvoiced_loading loading]
        exact both
      · have entries := State.abandonLoad_entries .retired load1
        rw [record] at entries
        rw [ends, ← generation]
        exact entries
    · have slots : s.retiredSlots n force = s.headSlotsPlaying n.id.toNat n.generation := by
        simp [State.retiredSlots, forced, loading]
      have ends : s.retireEnds n force = s.abandonLoad n.id.toNat .retired := by
        simp only [State.retireEnds, forced, loading, if_true, Bool.false_eq_true, if_false]
      have lost := State.abandonLoad_parted .retired c hl held stays
      refine ⟨_, _, ?_, fun k => absurd loading k, only ⟨rfl, rfl, ?_⟩⟩
      · rw [ends, slots, Record.unvoiced_loading loading, ← generation]
        exact lost
      · rw [ends, ← generation]
        exact State.abandonLoad_entries .retired hl
  · refine ⟨[], [], ?_, fun _ => ⟨rfl, rfl⟩, fun l k => absurd k loading⟩
    by_cases forced : byteSet force = true
    · simp only [State.retireEnds, State.retiredSlots, Record.unvoiced, forced, loading, if_true, if_false]
      exact forcedEnds
    · simp only [State.retireEnds, State.retiredSlots, Record.unvoiced, forced, loading, Bool.false_eq_true, if_false]
      exact State.Parted.refl s _ _

/-- RETIRE of a record that is LOADING or has voices (R15 to R17). -/
theorem retire_ends (h : Header) (n : RecordName) (force : Byte) (s : State) (k : s.Taking) (c : s.Canonical)
    (named : s.names n = true) (stays : (s.record n.id.toNat).state ≠ .retiring)
    (busy : (s.record n.id.toNat).state = .loading ∨ 0 < (s.record n.id.toNat).refs)
    (load : (s.record n.id.toNat).state = .loading →
      ∃ l, (s.record n.id.toNat).load = some l ∧ l.token.order < s.takes) :
    let r := s.record n.id.toNat
    let ended := s.retiredSlots n force
    let left := r.refs - ended.length
    ∃ t, exec (.retire h n force) s = .next t ∧
      (∀ m, m ∈ ended → t.voice m = (s.voice m).endedWith .retired) ∧ (∀ m, m ∉ ended → t.voice m = s.voice m) ∧
      (left = 0 ∧ r.loadReads = 0 →
        t.record n.id.toNat = Record.vacant n.generation ∧
        ∃ word0 word1, wroteStatus s t (doneBytes .ok word0 word1)) ∧
      (¬ (left = 0 ∧ r.loadReads = 0) →
        (t.record n.id.toNat).state = .retiring ∧ (t.record n.id.toNat).refs = left ∧
        (t.record n.id.toNat).loadReads = r.loadReads ∧
        (t.record n.id.toNat).headSlot = (if r.state = .loading then none else r.headSlot) ∧
        wroteStatus s t takenBytes) ∧
      (∀ id, id ≠ n.id.toNat → t.record id = s.record id) ∧ n.id.toNat ∉ t.recency ∧
      ∀ l, r.state = .loading → r.load = some l →
        wroteAt s t l.token.address (doneBytes .abandoned (BitVec.ofNat 32 l.arrived.length) 0#32) ∧
        (∀ e ∈ t.queue, e.owner ≠ .load n.id.toNat n.generation) ∧
        t.reclaiming = s.reclaiming ++
          (if 0 < r.loadReads then
            [{ slot := l.slot, outstanding := r.loadReads, id := n.id.toNat, generation := n.generation }]
          else []) := by
  intro r ended left
  obtain ⟨held, generation⟩ := State.names_iff.mp named
  obtain ⟨done, freed, parted, idle, loading⟩ := State.retireEnds_parted (s := s.beginTake h) (n := n) (force := force)
    (c.of_same rfl rfl rfl rfl rfl) named stays fun k => (load k).imp fun _ h => h.1
  generalize hu : (s.beginTake h).retireEnds n force = u at parted loading
  have record : u.record n.id.toNat = r.unvoiced ended.length := parted.record
  let v := (u.leaveRecency n.id.toNat).setRecord n.id.toNat
    { u.record n.id.toNat with state := .retiring, retire := some (s.tokenFor h) }
  have body : takeBody (s.tokenFor h) (.retire n force) (s.beginTake h) = v.settleRetiring n.id.toNat := by
    have notIdle : ¬ ((s.record n.id.toNat).state ≠ .loading ∧ (s.record n.id.toNat).refs = 0) := by
      obtain loading | played := busy
      · exact fun k => k.1 loading
      · exact fun k => Nat.pos_iff_ne_zero.mp played k.2
    simp only [takeBody, takeRetire, State.beginTake_names, named, State.beginTake_record, stays, notIdle, if_false, Bool.not_true,
      Bool.false_eq_true]
    simp only [v, ← hu]
    rfl
  have vRecord : v.record n.id.toNat = { u.record n.id.toNat with state := .retiring, retire := some (s.tokenFor h) } :=
    State.record_setRecord_same _ _ _
  have refs : (v.record n.id.toNat).refs = left := by
    rw [vRecord, record]
    simp only [Record.unvoiced]
    split <;> rfl
  have reads : (v.record n.id.toNat).loadReads = r.loadReads := by
    rw [vRecord, record]
    simp only [Record.unvoiced]
    split <;> rfl
  have slot : (v.record n.id.toNat).headSlot = if r.state = .loading then none else r.headSlot := by
    rw [vRecord, record]
    simp only [Record.unvoiced]
    split <;> rfl
  have vGeneration : (v.record n.id.toNat).generation = n.generation := by
    rw [vRecord, record, ← generation]
    simp only [Record.unvoiced]
    split <;> rfl
  have vOthers (id : Nat) (other : id ≠ n.id.toNat) : v.record id = s.record id :=
    (State.record_setRecord_other _ _ other).trans (parted.records id other)
  have completions : v.completions = done := by
    have e := parted.completions
    rw [show (s.beginTake h).completions = [] from k.settled, List.append_nil] at e
    exact e
  have out : v.out = s.out := by
    show u.out = s.out
    rw [parted.kept]
    rfl
  -- What is the same whether the record becomes VACANT or waits.
  have common {b : State} (hb : v.settleRetiring n.id.toNat = b) (grows : ∀ x ∈ done, x ∈ b.completions) (bOut : b.out = v.out)
      (voices : b.voices = v.voices) (queue : b.queue = v.queue) (reclaiming : b.reclaiming = v.reclaiming)
      (others : ∀ id, id ≠ n.id.toNat → b.record id = v.record id) (gone : n.id.toNat ∉ b.recency) :
      ∃ t, exec (.retire h n force) s = .next t ∧ Posted b t ∧
        (∀ x ∈ b.completions, wroteAt s t x.token.address (doneBytes x.result x.word0 x.word1)) ∧
        ((∀ x ∈ b.completions, x.token.order ≠ s.takes) → wroteStatus s t takenBytes) ∧
        (∀ m, m ∈ ended → t.voice m = (s.voice m).endedWith .retired) ∧ (∀ m, m ∉ ended → t.voice m = s.voice m) ∧
        (∀ id, id ≠ n.id.toNat → t.record id = s.record id) ∧ n.id.toNat ∉ t.recency ∧
        ∀ l, r.state = .loading → r.load = some l →
          wroteAt s t l.token.address (doneBytes .abandoned (BitVec.ofNat 32 l.arrived.length) 0#32) ∧
          (∀ e ∈ t.queue, e.owner ≠ .load n.id.toNat n.generation) ∧
          t.reclaiming = s.reclaiming ++
            (if 0 < r.loadReads then
              [{ slot := l.slot, outstanding := r.loadReads, id := n.id.toNat, generation := n.generation }]
            else []) := by
    obtain ⟨t, ht, posted, -, wrote, waits⟩ := taken_wrote k (body.trans hb) ((bOut.trans out).symm ▸ List.prefix_rfl)
    have voice (m : Nat) : t.voice m = u.voice m := (posted.voice m).trans (State.voice_congr voices m)
    refine ⟨t, ht, posted, wrote, waits, fun m hm => (voice m).trans (parted.voices m hm),
      fun m hm => (voice m).trans (parted.others m hm),
      fun id other => (posted.record id).trans ((others id other).trans (vOthers id other)), by rwa [posted.recency],
      fun l hs hl => ?_⟩
    obtain ⟨hdone, hfreed, entries⟩ := loading l hs hl
    refine ⟨wrote _ (grows _ (by rw [hdone]; exact List.mem_singleton_self _)), fun e he => entries e ?_, ?_⟩
    · rw [posted.queue, queue] at he
      exact he
    · rw [posted.reclaiming, reclaiming]
      exact parted.reclaiming.trans (by rw [hfreed, ← generation]; rfl)
  by_cases gone : left = 0 ∧ r.loadReads = 0
  · have vacant : v.settleRetiring n.id.toNat = (v.completeUnstated (s.tokenFor h) .ok).toVacant n.id.toNat := by
      simp only [State.settleRetiring, refs, reads, gone]
      rw [vRecord]
      rfl
    obtain ⟨t, ht, posted, wrote, -, voices, others, records, recency, load⟩ := common vacant
      (fun x hx => List.mem_cons_of_mem _ (by rw [completions]; exact hx)) rfl rfl rfl rfl
      (fun id other => State.toVacant_other _ other) (mem_filter_ne _ _)
    refine ⟨t, ht, voices, others, fun _ => ⟨?_, _, _, wrote _ List.mem_cons_self⟩, fun k => absurd gone k, records, recency, load⟩
    exact (posted.record _).trans ((State.toVacant_same _ _).trans (congrArg _ vGeneration))
  · have waits : v.settleRetiring n.id.toNat = v :=
      if_neg fun k => gone ⟨refs.symm.trans k.2.1, reads.symm.trans k.2.2⟩
    obtain ⟨t, ht, posted, wrote, taken, voices, others, records, recency, load'⟩ := common waits
      (fun x hx => by rw [completions]; exact hx) rfl rfl rfl rfl (fun _ _ => rfl) (mem_filter_ne _ _)
    refine ⟨t, ht, voices, others, fun k => absurd k gone, fun _ => ?_, records, recency, load'⟩
    rw [posted.record]
    refine ⟨congrArg Record.state vRecord, refs, reads, slot, taken fun x hx => ?_⟩
    rw [completions] at hx
    by_cases hs : r.state = .loading
    · obtain ⟨l, hl, before⟩ := load hs
      rw [(loading l hs hl).1, List.mem_singleton] at hx
      subst hx
      exact Nat.ne_of_lt before
    · rw [(idle hs).1] at hx
      cases hx

/-- Settles O25: the RETIREs that end nothing, then those that end voices or a load. -/
theorem retireTaken : Obligations.RetireTaken := by
  refine ⟨retire_plain, fun h n force s k c named stays busy load => ?_⟩
  obtain ⟨t, ht, voices, others, rest⟩ := retire_ends h n force s k c named stays busy load
  exact ⟨t, ht, fun m hm => voices m ((State.mem_retiredSlots c n force m).mpr hm),
    fun m hm => others m fun k => hm ((State.mem_retiredSlots c n force m).mp k), rest⟩

end Sys2Proof.Machine
end

section
/-! PROOFS. The takes of the Head Store and the memory (O26 to O28). -/

namespace Sys2Proof.Machine

/-! ### LOAD_HEAD that begins no load -/

/-- The refusals of LOAD_HEAD in their order, and its answer for a RESIDENT record (R33, R34). -/
theorem loadHead_plain (h : Header) (n : RecordName) (s : State) (k : s.Taking) :
    (s.names n = false →
      ∃ t, exec (.loadHead h n) s = .next t ∧ TakenDone s t h .noRecord 0#32 0#32 ∧ SameStreams s t) ∧
    (s.names n = true → (s.record n.id.toNat).state = .retiring →
      ∃ t, exec (.loadHead h n) s = .next t ∧ TakenDone s t h .sampleRetiring 0#32 0#32 ∧ SameStreams s t) ∧
    (s.names n = true → (s.record n.id.toNat).state = .loading →
      ∃ t, exec (.loadHead h n) s = .next t ∧ TakenDone s t h .busy 0#32 0#32 ∧ SameStreams s t) ∧
    (∀ slot, s.names n = true → (s.record n.id.toNat).state = .resident → (s.record n.id.toNat).headSlot = some slot →
      ∃ t, exec (.loadHead h n) s = .next t ∧ TakenDone s t h .ok (BitVec.ofNat 32 slot) 0#32 ∧
        (∀ id, t.record id = s.record id) ∧ t.recency = n.id.toNat :: s.recency.filter (· != n.id.toNat)) ∧
    (s.names n = true → (s.record n.id.toNat).state = .defined ∨ (s.record n.id.toNat).state = .stale →
      (0 < (s.record n.id.toNat).loadReads →
        ∃ t, exec (.loadHead h n) s = .next t ∧ TakenDone s t h .busy 0#32 0#32 ∧ SameStreams s t) ∧
      ((s.record n.id.toNat).loadReads = 0 → s.recordClaimed (s.record n.id.toNat) = true →
        ∃ t, exec (.loadHead h n) s = .next t ∧ TakenDone s t h .claimed 0#32 0#32 ∧ SameStreams s t) ∧
      ((s.record n.id.toNat).loadReads = 0 → s.recordClaimed (s.record n.id.toNat) = false →
        s.lowestFreeHeadSlot = none → s.evictionVictim = none →
        ∃ t, exec (.loadHead h n) s = .next t ∧ TakenDone s t h .noHeadSlot 0#32 0#32 ∧ SameStreams s t)) := by
  have refused {r : Result} (body : takeLoadHead (s.tokenFor h) n (s.beginTake h) = (s.beginTake h).refuse (s.tokenFor h) r) :=
    taken_refused (body := .loadHead n) k body
  refine ⟨fun unnamed => refused ?_, fun named state => refused ?_, fun named state => refused ?_, fun slot named state held => ?_,
    fun named state => ?_⟩
  · simp [takeLoadHead, unnamed]
  · simp [takeLoadHead, named, state]
  · simp [takeLoadHead, named, state]
  · have body : takeBody (s.tokenFor h) (.loadHead n) (s.beginTake h) =
        ((s.beginTake h).touch n.id.toNat).complete (s.tokenFor h) .ok (BitVec.ofNat 32 slot) 0#32 := by
      simp [takeBody, takeLoadHead, named, state, held]
    obtain ⟨t, ht, done, posted⟩ := taken_answered k body k.settled List.prefix_rfl rfl rfl
    exact ⟨t, ht, done, posted.record, posted.recency⟩
  · obtain state | state := state <;>
      exact ⟨fun reads => refused (by simp [takeLoadHead, named, state, reads]),
        fun unread claimed => refused (by simp [takeLoadHead, named, state, unread, claimed]),
        fun unread free none victim => refused (by
          simp [takeLoadHead, named, state, unread, free, State.slotForLoad, none, victim])⟩

/-! ### LOAD_HEAD that begins a load -/

/-- An accepted LOAD_HEAD takes the slot chosen (R34, R35). -/
theorem takeLoadHead_accepts {s : State} {n : RecordName} {t : Token} {slot : Nat} {evicted : Option (Generation × Nat)}
    (named : s.names n = true)
    (state : (s.record n.id.toNat).state = .defined ∨ (s.record n.id.toNat).state = .stale)
    (unread : (s.record n.id.toNat).loadReads = 0) (free : s.recordClaimed (s.record n.id.toNat) = false)
    (chosen : s.slotForLoad = some (slot, evicted)) :
    takeLoadHead t n s = s.acceptLoad t n.id.toNat slot evicted := by
  obtain state | state := state <;> simp [takeLoadHead, named, state, unread, free, chosen]

theorem State.beginLoad_same (s : State) (t : Token) (id slot : Nat) (evicted : Option (Generation × Nat)) :
    (s.beginLoad t id slot evicted).record id = { s.record id with
      state := .loading, headSlot := some slot, staleReason := .none, loadReads := 0
      load := some { slot := slot, nextBlock := 0, arrived := [], evicted := evicted, token := t } } :=
  State.record_setRecord_same _ _ _

theorem State.beginLoad_other (s : State) (t : Token) {id j : Nat} (slot : Nat) (evicted : Option (Generation × Nat)) (h : j ≠ id) :
    (s.beginLoad t id slot evicted).record j = s.record j := State.record_setRecord_other _ _ h

/-- The load goes on while its first head block's die is in service (R106). -/
theorem State.settleLoad_beginLoad {s : State} {t : Token} {id slot : Nat} {evicted : Option (Generation × Nat)} {l : Layout}
    {a : Nat} (layout : (s.record id).layout = some l) (first : blockAddress l.extents 0 = some a)
    (online : s.dieOffline (dieOf a) = false) :
    (s.beginLoad t id slot evicted).settleLoad id = s.beginLoad t id slot evicted := by
  have offline : (s.beginLoad t id slot evicted).dieOffline (dieOf a) = false := online
  simp only [State.settleLoad, Record.loadAddress, State.beginLoad_same, layout, first]
  by_cases some : 0 < l.headBlocks
  · simp [some, offline]
  · simp [some]

/-- The load fails where the first head block lies on an OFFLINE die (R34, R39, R106). -/
theorem State.settleLoad_offline {s : State} {t : Token} {id slot : Nat} {evicted : Option (Generation × Nat)} {l : Layout}
    {a : Nat} (layout : (s.record id).layout = some l) (head : 0 < l.headBlocks) (first : blockAddress l.extents 0 = some a)
    (offline : s.dieOffline (dieOf a) = true) (ready : s.resetting = false) :
    (s.beginLoad t id slot evicted).settleLoad id = (s.beginLoad t id slot evicted).failLoad id (.dieOffline 0) := by
  have out : (s.beginLoad t id slot evicted).dieOffline (dieOf a) = true := offline
  have up : (s.beginLoad t id slot evicted).resetting = false := ready
  simp only [State.settleLoad, Record.loadAddress, State.beginLoad_same, layout, first, head, if_true, out, up, Bool.not_false,
    Bool.and_self]

theorem State.acceptLoad_free (s : State) (t : Token) (id slot : Nat) :
    s.acceptLoad t id slot none = (s.beginLoad t id slot none).settleLoad id := rfl

theorem State.acceptLoad_evict (s : State) (t : Token) (id slot : Nat) (g : Generation) (v : Nat) :
    s.acceptLoad t id slot (some (g, v)) = ((s.unload v).beginLoad t id slot (some (g, v))).settleLoad id := rfl

theorem State.unload_same (s : State) (id : Nat) :
    (s.unload id).record id = { s.record id with state := .defined, headSlot := none } := by
  have same := State.record_setRecord_same s id { s.record id with state := .defined, headSlot := none }
  exact same

theorem State.unload_other (s : State) {id j : Nat} (h : j ≠ id) : (s.unload id).record j = s.record j := by
  have other := State.record_setRecord_other s { s.record id with state := .defined, headSlot := none } h
  exact other

/-- What a begun load shows of its record (R19, R36). -/
structure State.LoadBegun (s t : State) (id slot : Nat) : Prop where
  state : (t.record id).state = .loading
  slot : (t.record id).headSlot = some slot
  reason : (t.record id).staleReason = .none
  reads : (t.record id).loadReads = 0
  pin : (t.record id).pin = (s.record id).pin
  refs : (t.record id).refs = (s.record id).refs
  next : (t.record id).load.map Load.nextBlock = some 0
  arrived : (t.record id).load.map Load.arrived = some []

theorem State.LoadBegun.of_record {s t u : State} {id slot : Nat} {k : Token} {evicted : Option (Generation × Nat)}
    (h : t.record id = (u.beginLoad k id slot evicted).record id) (same : u.record id = s.record id) :
    s.LoadBegun t id slot := by
  rw [State.beginLoad_same, same] at h
  constructor <;> rw [h] <;> rfl

/-- LOAD_HEAD accepted with its first head block's die in service (R34 to R36). -/
theorem loadHead_accepted (h : Header) (n : RecordName) (s : State) (l : Layout) (a : Nat) (k : s.Taking) (named : s.names n = true)
    (state : (s.record n.id.toNat).state = .defined ∨ (s.record n.id.toNat).state = .stale)
    (unread : (s.record n.id.toNat).loadReads = 0) (free : s.recordClaimed (s.record n.id.toNat) = false)
    (layout : (s.record n.id.toNat).layout = some l) (first : blockAddress l.extents 0 = some a)
    (online : s.dieOffline (dieOf a) = false) :
    (∀ slot, s.lowestFreeHeadSlot = some slot →
      ∃ t, exec (.loadHead h n) s = .next t ∧ TakenLong s t ∧ s.LoadBegun t n.id.toNat slot ∧
        ∀ id, id ≠ n.id.toNat → t.record id = s.record id) ∧
    (∀ victim slot, s.lowestFreeHeadSlot = none → s.evictionVictim = some victim → victim ≠ n.id.toNat →
      (s.record victim).headSlot = some slot →
      ∃ t, exec (.loadHead h n) s = .next t ∧ TakenLong s t ∧ s.LoadBegun t n.id.toNat slot ∧
        (t.record victim).state = .defined ∧
        (t.record victim).headSlot = none ∧ t.recency = s.recency.filter (· != victim) ∧
        ∀ id, id ≠ n.id.toNat → id ≠ victim → t.record id = s.record id) := by
  refine ⟨fun slot lowest => ?_, fun victim slot none evict other held => ?_⟩
  · have body : takeBody (s.tokenFor h) (.loadHead n) (s.beginTake h) =
        (s.beginTake h).beginLoad (s.tokenFor h) n.id.toNat slot none := by
      refine (takeLoadHead_accepts (s := s.beginTake h) (slot := slot) (evicted := none) named state unread free
        (by simp [State.slotForLoad, lowest])).trans ?_
      rw [State.acceptLoad_free, State.settleLoad_beginLoad (s := s.beginTake h) layout first online]
    obtain ⟨t, ht, long, posted, -⟩ := takenLong_of k body k.settled List.prefix_rfl rfl rfl
    exact ⟨t, ht, long, .of_record (posted.record _) rfl,
      fun id different => (posted.record _).trans (State.beginLoad_other _ _ _ _ different)⟩
  · let u := (s.beginTake h).unload victim
    have record : u.record n.id.toNat = s.record n.id.toNat := State.unload_other _ other.symm
    have body : takeBody (s.tokenFor h) (.loadHead n) (s.beginTake h) =
        u.beginLoad (s.tokenFor h) n.id.toNat slot (some ((s.record victim).generation, victim)) := by
      refine (takeLoadHead_accepts (s := s.beginTake h) (slot := slot) (evicted := some ((s.record victim).generation, victim))
        named state unread free (by simp [State.slotForLoad, none, evict, held])).trans ?_
      rw [State.acceptLoad_evict]
      exact State.settleLoad_beginLoad (s := u) (by rw [record]; exact layout) first online
    obtain ⟨t, ht, long, posted, -⟩ := takenLong_of k body k.settled List.prefix_rfl rfl rfl
    have evicted : t.record victim = { s.record victim with state := .defined, headSlot := Option.none } :=
      (posted.record _).trans ((State.beginLoad_other _ _ _ _ other).trans (State.unload_same _ _))
    exact ⟨t, ht, long, .of_record (posted.record _) record, by rw [evicted], by rw [evicted], posted.recency,
      fun id different unlike => (posted.record _).trans
        ((State.beginLoad_other _ _ _ _ different).trans (State.unload_other _ unlike))⟩

/-- LOAD_HEAD that fails within its take, its first head block on an OFFLINE die (R34, R39, R106). -/
theorem loadHead_offline (h : Header) (n : RecordName) (s : State) (l : Layout) (a slot : Nat) (k : s.Taking) (c : s.Canonical)
    (named : s.names n = true)
    (state : (s.record n.id.toNat).state = .defined ∨ (s.record n.id.toNat).state = .stale)
    (unread : (s.record n.id.toNat).loadReads = 0) (free : s.recordClaimed (s.record n.id.toNat) = false)
    (layout : (s.record n.id.toNat).layout = some l) (head : 0 < l.headBlocks) (first : blockAddress l.extents 0 = some a)
    (offline : s.dieOffline (dieOf a) = true) (lowest : s.lowestFreeHeadSlot = some slot) :
    ∃ t, exec (.loadHead h n) s = .next t ∧ TakenDone s t h .dieOffline 0#32 0#32 ∧
      (t.record n.id.toNat).state = .stale ∧ (t.record n.id.toNat).staleReason = .dieOffline ∧
      (t.record n.id.toNat).headSlot = none ∧ (t.record n.id.toNat).load = none ∧ t.reclaiming = s.reclaiming ∧
      (∀ m, (s.voice m).plays n.id.toNat n.generation = true → t.voice m = (s.voice m).endedWith .stale) ∧
      (∀ m, (s.voice m).plays n.id.toNat n.generation = false → t.voice m = s.voice m) ∧
      ∀ id, id ≠ n.id.toNat → t.record id = s.record id := by
  have generation := (State.names_iff.mp named).2
  let u := (s.beginTake h).beginLoad (s.tokenFor h) n.id.toNat slot none
  have canonical : u.Canonical :=
    (Inner.setRecord (s.beginTake h) _ _).canonical (c.of_same rfl rfl rfl rfl rfl)
  have record := (s.beginTake h).beginLoad_same (s.tokenFor h) n.id.toNat slot none
  have body : takeBody (s.tokenFor h) (.loadHead n) (s.beginTake h) = u.failLoad n.id.toNat (.dieOffline 0) := by
    refine (takeLoadHead_accepts (s := s.beginTake h) (slot := slot) (evicted := none) named state unread free
      (by simp [State.slotForLoad, lowest])).trans ?_
    rw [State.acceptLoad_free, State.settleLoad_offline (s := s.beginTake h) layout head first offline
      (State.not_resetting_of k.ready)]
  have plays (m : Nat) (hm : m ∈ u.slotsPlaying n.id.toNat n.generation) : (s.voice m).plays n.id.toNat n.generation = true :=
    (State.mem_slotsPlaying c.voices _ _ m).mp hm
  have load : (u.record n.id.toNat).load = some ⟨slot, 0, [], none, s.tokenFor h⟩ := by rw [record]
  have sameGeneration : (u.record n.id.toNat).generation = n.generation := by
    rw [record]
    exact generation
  have parted := State.failLoad_parted (.dieOffline 0) canonical load (by rw [record]; exact nofun) (by rw [record]; exact nofun)
  rw [sameGeneration] at parted
  generalize hb : u.failLoad n.id.toNat (.dieOffline 0) = b at body parted
  have kept := parted.kept
  obtain ⟨t, ht, done, posted, -⟩ := takenDone_of (r := .dieOffline) (x := 0#32) (y := 0#32) k body
    (parted.completions.trans (congrArg (_ ++ ·) k.settled)) (by rw [kept]; exact List.prefix_rfl) (by rw [kept]; rfl)
    (by unfold State.latched; rw [kept]; rfl)
  have after := (posted.record n.id.toNat).trans parted.record
  refine ⟨t, ht, done, by rw [after], by rw [after]; rfl, by rw [after], by rw [after], ?_, fun m hm => ?_,
    fun m hm => ?_, fun id other => ?_⟩
  · rw [posted.reclaiming, parted.reclaiming, record]
    exact List.append_nil _
  · rw [posted.voice, parted.voices m ((State.mem_slotsPlaying c.voices _ _ m).mpr hm)]
    rfl
  · rw [posted.voice, parted.others m fun k => ?_]
    · rfl
    · rw [plays m k] at hm
      cases hm
  · rw [posted.record, parted.records id other]
    exact State.beginLoad_other _ _ _ _ other

/-! ### The slots and the eviction -/

theorem evictionVictim_first {s : State} {id : Nat} (h : s.evictionVictim = some id) :
    ∃ front back, s.recency = front ++ id :: back ∧ (s.record id).pin = false ∧ (s.record id).refs = 0 ∧
      ∀ x ∈ back, (s.record x).pin = true ∨ 0 < (s.record x).refs := by
  obtain ⟨found, before, after, split, none⟩ := List.find?_eq_some_iff_append.mp h
  simp only [Bool.and_eq_true, Bool.not_eq_true', beq_iff_eq] at found
  refine ⟨after.reverse, before.reverse, ?_, found.1, found.2, fun x hx => ?_⟩
  · rw [← List.reverse_reverse s.recency, split]
    simp
  · have := none x (List.mem_reverse.mp hx)
    simp only [Bool.not_eq_true', Bool.and_eq_false_iff, Bool.not_eq_false', beq_eq_false_iff_ne] at this
    exact this.imp_right Nat.pos_of_ne_zero

theorem evictionVictim_none {s : State} (h : s.evictionVictim = none) :
    ∀ x ∈ s.recency, (s.record x).pin = true ∨ 0 < (s.record x).refs := by
  intro x hx
  have := List.find?_eq_none.mp h x (List.mem_reverse.mpr hx)
  simp only [Bool.and_eq_true, Bool.not_eq_true', beq_iff_eq, not_and] at this
  cases pin : (s.record x).pin with
  | true => exact .inl rfl
  | false => exact .inr (Nat.pos_of_ne_zero (this pin))

/-- A head slot is FREE when no record holds it and it is not RECLAIMING (R31). -/
theorem State.slotFree_iff {s : State} (c : s.Canonical) (n : Nat) :
    s.slotFree n = true ↔ ¬ ((∃ id, (s.record id).headSlot = some n) ∨ ∃ r ∈ s.reclaiming, r.slot = n) := by
  have held : s.slotHeld n = true ↔ ∃ id, (s.record id).headSlot = some n := by
    simp only [State.slotHeld, List.any_eq_true, beq_iff_eq]
    constructor
    · rintro ⟨e, he, slot⟩
      refine ⟨e.1, ?_⟩
      rw [State.record, Table.get_of_mem _ _ ((Table.wf_iff _ _).mp c.catalog).1 he]
      exact slot
    · rintro ⟨id, slot⟩
      obtain listed | blank := Table.get_mem Record.blank s.catalog id
      · exact ⟨_, listed, slot⟩
      · rw [State.record, blank] at slot
        cases slot
  have reclaiming : s.slotReclaiming n = true ↔ ∃ r ∈ s.reclaiming, r.slot = n := by
    simp [State.slotReclaiming]
  rw [← held, ← reclaiming, State.slotFree]
  cases s.slotHeld n <;> cases s.slotReclaiming n <;> simp

theorem lowestFreeHeadSlot_spec {s : State} (c : s.Canonical) :
    let slots := min 65536 (s.partition.headBands * 65536 / s.partition.slotBlocks)
    let taken (n : Nat) : Prop := (∃ id, (s.record id).headSlot = some n) ∨ ∃ r ∈ s.reclaiming, r.slot = n
    (∀ n, s.lowestFreeHeadSlot = some n → n < slots ∧ ¬ taken n ∧ ∀ m, m < n → taken m) ∧
      (s.lowestFreeHeadSlot = none → ∀ m, m < slots → taken m) := by
  intro slots taken
  have notFree {m : Nat} (h : s.slotFree m = false) : taken m :=
    Classical.not_not.mp fun k => by simp [(State.slotFree_iff c m).mpr k] at h
  refine ⟨fun n h => ?_, fun h m hm => notFree (lowest_none h m hm)⟩
  obtain ⟨inside, free, below⟩ := lowest_some h
  exact ⟨inside, (State.slotFree_iff c n).mp free, fun m hm => notFree (below m hm)⟩

/-- Settles O26: the answers without a load, the loads begun and failed, and the choice of slot and victim. -/
theorem loadHeadTaken : Obligations.LoadHeadTaken := by
  refine ⟨loadHead_plain, fun h n s l a k named state unread free layout first online => ?_,
    fun h n s l a slot k c named state unread free layout head first offline lowest =>
      loadHead_offline h n s l a slot k c named state unread free layout head first offline lowest,
    fun s id h => evictionVictim_first h, fun s h => evictionVictim_none h, fun s c => lowestFreeHeadSlot_spec c⟩
  obtain ⟨lowest, evict⟩ := loadHead_accepted h n s l a k named state unread free layout first online
  refine ⟨fun slot found => ?_, fun victim slot none found other held => ?_⟩
  · obtain ⟨t, ht, long, begun, rest⟩ := lowest slot found
    exact ⟨t, ht, long, begun.state, begun.slot, begun.reason, begun.reads, begun.pin, begun.refs, begun.next, begun.arrived, rest⟩
  · obtain ⟨t, ht, long, begun, rest⟩ := evict victim slot none found other held
    exact ⟨t, ht, long, begun.state, begun.slot, rest⟩

/-! ### UNLOAD_HEAD -/

/-- UNLOAD_HEAD of a record that is not LOADING (R22, R41). -/
theorem unloadHead_plain (h : Header) (n : RecordName) (s : State) (k : s.Taking) :
    (s.names n = false →
      ∃ t, exec (.unloadHead h n) s = .next t ∧ TakenDone s t h .noRecord 0#32 0#32 ∧ SameStreams s t) ∧
    (s.names n = true → (s.record n.id.toNat).state = .retiring →
      ∃ t, exec (.unloadHead h n) s = .next t ∧ TakenDone s t h .sampleRetiring 0#32 0#32 ∧ SameStreams s t) ∧
    (s.names n = true → (s.record n.id.toNat).state = .resident → 0 < (s.record n.id.toNat).refs →
      ∃ t, exec (.unloadHead h n) s = .next t ∧ TakenDone s t h .busy 0#32 0#32 ∧ SameStreams s t) ∧
    (s.names n = true → (s.record n.id.toNat).state = .defined ∨ (s.record n.id.toNat).state = .stale →
      ∃ t, exec (.unloadHead h n) s = .next t ∧ TakenDone s t h .ok 0#32 0#32 ∧ SameStreams s t) ∧
    (∀ slot, s.names n = true → (s.record n.id.toNat).state = .resident → (s.record n.id.toNat).refs = 0 →
      (s.record n.id.toNat).headSlot = some slot →
      ∃ t, exec (.unloadHead h n) s = .next t ∧ TakenDone s t h .ok (BitVec.ofNat 32 slot) 1#32 ∧
        t.record n.id.toNat = { s.record n.id.toNat with state := .defined, headSlot := none } ∧
        (∀ id, id ≠ n.id.toNat → t.record id = s.record id) ∧ t.recency = s.recency.filter (· != n.id.toNat)) := by
  have refused {r : Result} (body : takeUnloadHead (s.tokenFor h) n (s.beginTake h) = (s.beginTake h).refuse (s.tokenFor h) r) :=
    taken_refused (body := .unloadHead n) k body
  refine ⟨fun unnamed => refused ?_, fun named state => refused ?_, fun named state played => refused ?_,
    fun named state => refused (r := .ok) ?_, fun slot named state unplayed held => ?_⟩
  · simp [takeUnloadHead, unnamed]
  · simp [takeUnloadHead, named, state]
  · simp [takeUnloadHead, named, state, Nat.pos_iff_ne_zero.mp played]
  · obtain state | state := state
    · simp [takeUnloadHead, named, state, State.refuse]
    · simp [takeUnloadHead, named, state, State.refuse]
  · have body : takeBody (s.tokenFor h) (.unloadHead n) (s.beginTake h) =
        ((s.beginTake h).unload n.id.toNat).complete (s.tokenFor h) .ok (BitVec.ofNat 32 slot) 1#32 := by
      simp [takeBody, takeUnloadHead, named, state, unplayed, held]
    obtain ⟨t, ht, done, posted⟩ := taken_answered k body k.settled List.prefix_rfl rfl rfl
    exact ⟨t, ht, done, (posted.record _).trans (State.unload_same _ _),
      fun id other => (posted.record _).trans (State.unload_other _ other), posted.recency⟩

/-- Two completions, the earlier request's first, are written in that order (R170). -/
theorem State.flush_two (s : State) (x y : Completion) (h : s.completions = [y, x]) (order : x.token.order < y.token.order) :
    s.flush.out = s.out ++ [.hostWrite (requestStatusAddress x.token.address) (doneBytes x.result x.word0 x.word1),
      .hostWrite (requestStatusAddress y.token.address) (doneBytes y.result y.word0 y.word1)] := by
  have sorted : sortCompletions [y, x] = [x, y] := by
    simp [sortCompletions, insertCompletion, Nat.le_of_lt order]
  have wrote (s : State) (c : Completion) : (s.writeDone c).out =
      s.out ++ [.hostWrite (requestStatusAddress c.token.address) (doneBytes c.result c.word0 c.word1)] := by
    simp only [State.writeDone]
    split <;> rfl
  rw [State.flush, h, sorted]
  simp only [List.foldl_cons, List.foldl_nil, wrote]
  simp

/-- UNLOAD_HEAD of a LOADING record (R21, R38, R41). -/
theorem unloadHead_loading (h : Header) (n : RecordName) (s : State) (l : Load) (k : s.Taking) (c : s.Canonical)
    (named : s.names n = true) (state : (s.record n.id.toNat).state = .loading) (load : (s.record n.id.toNat).load = some l)
    (held : (s.record n.id.toNat).headSlot = some l.slot) :
    ∃ t, exec (.unloadHead h n) s = .next t ∧ wroteStatus s t (doneBytes .ok (BitVec.ofNat 32 l.slot) 1#32) ∧
      (t.record n.id.toNat).state = .defined ∧ (t.record n.id.toNat).headSlot = none ∧
      (t.record n.id.toNat).load = none ∧
      (t.record n.id.toNat).loadReads = (s.record n.id.toNat).loadReads ∧
      (∀ e ∈ t.queue, e.owner ≠ .load n.id.toNat n.generation) ∧
      t.reclaiming = s.reclaiming ++
        (if 0 < (s.record n.id.toNat).loadReads then
          [{ slot := l.slot, outstanding := (s.record n.id.toNat).loadReads, id := n.id.toNat, generation := n.generation }]
        else []) ∧
      (∀ m, (s.voice m).plays n.id.toNat n.generation = true → (s.voice m).headMode = true →
        t.voice m = (s.voice m).endedWith .stale) ∧
      (∀ m, (s.voice m).plays n.id.toNat n.generation = false ∨ (s.voice m).headMode = false → t.voice m = s.voice m) ∧
      (t.record n.id.toNat).refs = (s.record n.id.toNat).refs - (s.headSlotsPlaying n.id.toNat n.generation).length ∧
      (∀ id, id ≠ n.id.toNat → t.record id = s.record id) ∧
      (l.token.order < s.takes → ∃ after, t.out = s.out ++
        [.hostWrite (requestStatusAddress l.token.address) (doneBytes .abandoned (BitVec.ofNat 32 l.arrived.length) 0#32),
          .hostWrite (requestStatusAddress s.requests.address) (doneBytes .ok (BitVec.ofNat 32 l.slot) 1#32)] ++ after) := by
  obtain ⟨notVacant, generation⟩ := State.names_iff.mp named
  let b := s.beginTake h
  have canonical : b.Canonical := c.of_same rfl rfl rfl rfl rfl
  have mem := State.mem_headSlotsPlaying c.voices n.id.toNat n.generation
  have sameGeneration : (b.record n.id.toNat).generation = n.generation := generation
  have loading : (b.record n.id.toNat).state = .loading := state
  have parted := State.abandonLoad_parted (s := b) .stale canonical load notVacant (by rw [loading]; exact nofun)
  have entries := State.abandonLoad_entries (s := b) .stale load
  rw [sameGeneration] at parted entries
  generalize hu : b.abandonLoad n.id.toNat .stale = u at parted entries
  let v := u.setRecord n.id.toNat { u.record n.id.toNat with state := .defined }
  have vRecord : v.record n.id.toNat = { u.record n.id.toNat with state := .defined } := State.record_setRecord_same _ _ _
  have vOther (id : Nat) (other : id ≠ n.id.toNat) : v.record id = u.record id := State.record_setRecord_other _ _ other
  have body : takeBody (s.tokenFor h) (.unloadHead n) (s.beginTake h) =
      v.complete (s.tokenFor h) .ok (BitVec.ofNat 32 l.slot) 1#32 := by
    simp only [v, ← hu]
    simp [takeBody, takeUnloadHead, named, state, held, State.unloadLoading]
    rfl
  have completions : (v.complete (s.tokenFor h) .ok (BitVec.ofNat 32 l.slot) 1#32).completions =
      [⟨s.tokenFor h, .ok, BitVec.ofNat 32 l.slot, 1#32⟩, ⟨l.token, .abandoned, BitVec.ofNat 32 l.arrived.length, 0#32⟩] :=
    congrArg (List.cons _) (parted.completions.trans (congrArg (_ ++ ·) k.settled))
  have out : (v.complete (s.tokenFor h) .ok (BitVec.ofNat 32 l.slot) 1#32).out = s.out := by
    show u.out = s.out
    rw [parted.kept]
    rfl
  obtain ⟨t, ht, posted, flushed, wrote, -⟩ := taken_wrote k body (out.symm ▸ List.prefix_rfl)
  have record : t.record n.id.toNat = { u.record n.id.toNat with state := .defined } :=
    (posted.record _).trans vRecord
  rw [parted.record] at record
  have own := wrote ⟨s.tokenFor h, .ok, BitVec.ofNat 32 l.slot, 1#32⟩ (by rw [completions]; exact List.mem_cons_self)
  refine ⟨t, ht, own, by rw [record], by rw [record], by rw [record], by rw [record]; rfl, fun e he => ?_, ?_,
    fun m plays mode => ?_, fun m not => ?_, by rw [record]; rfl, fun id other => ?_, fun before => ?_⟩
  · rw [posted.queue] at he
    exact entries e he
  · rw [posted.reclaiming, ← generation]
    exact parted.reclaiming
  · exact (posted.voice m).trans (parted.voices m ((mem m).mpr ⟨plays, mode⟩))
  · refine (posted.voice m).trans (parted.others m fun k => ?_)
    obtain ⟨plays, mode⟩ := (mem m).mp k
    obtain no | no := not
    · simp [plays] at no
    · simp [mode] at no
  · exact (posted.record _).trans ((vOther id other).trans (parted.records id other))
  · obtain ⟨after, e⟩ := (flushed (by simp [State.completesNow])).1
    exact ⟨after, by rw [← e, State.flush_two _ _ _ completions before, out]; rfl⟩

/-- Settles O27: the record that is not LOADING, then the load abandoned. -/
theorem unloadHeadTaken : Obligations.UnloadHeadTaken := ⟨unloadHead_plain, unloadHead_loading⟩

/-! ### CONFIGURE_MEMORY -/

theorem State.windowFree_of_empty {s t : State} (empty : s.isEmpty = true) (h : t.voices = s.voices) (w : Nat) :
    t.windowFree w = true := by
  simp only [State.isEmpty, Bool.and_eq_true, List.all_eq_true, beq_iff_eq] at empty
  simp only [State.windowFree, h, List.all_eq_true, Bool.or_eq_true, beq_iff_eq]
  exact fun e he => .inl (empty.1.2 e he)

theorem State.isEmpty_record {s : State} (empty : s.isEmpty = true) (id : Nat) : (s.record id).state = .vacant := by
  simp only [State.isEmpty, Bool.and_eq_true, List.all_eq_true, beq_iff_eq] at empty
  obtain listed | blank := Table.get_mem Record.blank s.catalog id
  · exact empty.1.1 _ listed
  · exact congrArg Record.state blank

/-- Settles O28: the refusals in their order, and the memory configured. -/
theorem configureMemoryTaken : Obligations.ConfigureMemoryTaken := by
  refine fun h p s k => ⟨fun invalid => ?_, fun x valid full => ?_, fun x valid empty busy => ?_, fun x valid empty idle => ?_⟩
  · exact taken_refusedUnstated (body := .configureMemory p) k (by simp [takeBody, takeConfigureMemory, invalid])
  · exact taken_refusedUnstated (body := .configureMemory p) k (by simp [takeBody, takeConfigureMemory, valid, full])
  · exact taken_refusedUnstated (body := .configureMemory p) k (by simp [takeBody, takeConfigureMemory, valid, empty, busy])
  · have body : takeBody (s.tokenFor h) (.configureMemory p) (s.beginTake h) =
        ({ s.beginTake h with partition := x, recency := [], windows := [] } : State).complete (s.tokenFor h) .ok
          (BitVec.ofNat 32 x.slotCount) (BitVec.ofNat 32 x.windowCount) := by
      simp [takeBody, takeConfigureMemory, valid, empty, idle]
    have set : x = { headBands := p.headBands.toNat, slotBlocks := p.slotBlocks.toNat, windowBlocks := p.windowBlocks.toNat } := by
      simp only [partitionOf] at valid
      split at valid
      · exact (Option.some.inj valid).symm
      · cases valid
    obtain ⟨t, ht, done, posted⟩ := taken_answered k body k.settled List.prefix_rfl rfl rfl
    refine ⟨t, ht, by rw [set] at done; exact done, by rw [posted.partition]; exact set, posted.record, State.window_none posted.windows,
      State.windowFree_of_empty empty posted.voices, posted.recency, by rw [posted.reclaiming]; exact idle, posted.voice,
      posted.startCount, ⟨posted.queue, posted.enqueueCount⟩, ⟨posted.die, posted.stores⟩,
      fun a => by rw [posted.dram]; rfl, posted.tunables, fun c unheld n => ?_⟩
    have canonical : ({ s.beginTake h with partition := x, recency := [], windows := [] } : State).Canonical :=
      { dram := c.dram, catalog := c.catalog, voices := c.voices, windows := rfl, places := fun _ => rfl, dies := c.dies }
    refine (State.slotFree_iff (posted.canonical canonical) n).mpr ?_
    rintro (⟨id, held⟩ | ⟨r, hr, -⟩)
    · rw [posted.record] at held
      exact absurd (held.symm.trans (unheld id (State.isEmpty_record empty id))) nofun
    · rw [posted.reclaiming] at hr
      have none : r ∈ s.reclaiming := hr
      rw [idle] at none
      cases none

end Sys2Proof.Machine
end

section
/-! PROOFS. The takes of voices (O29 to O34): what the runs given to a voice leave of it, the voice a START sets up, the steal, and
the requests that name a voice. -/

namespace Sys2Proof.Machine

/-! ### The end of an event -/

/-- Only what the end of an event writes changed: the statuses, the flags, the lists' own blocks. -/
def Closed (s t : State) : Prop :=
  s.out <+: t.out ∧ t = { s with
    out := t.out, completions := t.completions, requests := t.requests, delivery := t.delivery
    registers := { s.registers with status := t.registers.status } }

theorem Posted.closed {s t : State} (h : Posted s t) : Closed s t := by
  refine ⟨h.1, ?_⟩
  have delivery := h.delivery
  have e := h.2
  rw [← delivery] at e
  exact e

theorem Closed.trans {s t u : State} (h : Closed s t) (k : Closed t u) : Closed s u :=
  ⟨h.1.trans k.1, k.2.trans (by rw [h.2])⟩

namespace Closed

variable {s t : State} (h : Closed s t)

include h

theorem stores : t.stores = s.stores := by rw [h.2]
theorem catalog : t.catalog = s.catalog := by rw [h.2]
theorem partition : t.partition = s.partition := by rw [h.2]
theorem dram : t.dram = s.dram := by rw [h.2]
theorem pace : t.pace = s.pace := by rw [h.2]
theorem queue : t.queue = s.queue := by rw [h.2]
theorem tunables : t.tunables = s.tunables := by rw [h.2]
theorem counters : t.registers.counters = s.registers.counters := by rw [h.2]
theorem record (n : Nat) : t.record n = s.record n := State.record_congr h.catalog n
theorem voice (n : Nat) : t.voice n = s.voice n := State.voice_congr (by rw [h.2]) n
theorem window (n : Nat) : t.window n = s.window n := State.window_congr (by rw [h.2]) n
theorem die (n : Nat) : t.die n = s.die n := by
  rw [h.2]
  rfl

end Closed

/-! ### What runs leave of a voice -/

/-- What of a voice the runs given to it leave alone, beside what `VoiceStep` keeps. -/
structure Voice.RunsKeep (v w : Voice) : Prop where
  reads : w.reads = v.reads
  pendingRate : w.pendingRate = v.pendingRate
  endReason : w.endReason = v.endReason
  source : w.delivery.source = v.delivery.source
  loopedPending : w.delivery.loopedPending = v.delivery.loopedPending
  priming : v.state = .priming → w.state = .priming

theorem Voice.RunsKeep.refl (v : Voice) : v.RunsKeep v := ⟨rfl, rfl, rfl, rfl, rfl, id⟩

theorem Voice.RunsKeep.trans {u v w : Voice} (h : u.RunsKeep v) (k : v.RunsKeep w) : u.RunsKeep w :=
  ⟨k.reads.trans h.reads, k.pendingRate.trans h.pendingRate, k.endReason.trans h.endReason, k.source.trans h.source,
    k.loopedPending.trans h.loopedPending, k.priming ∘ h.priming⟩

theorem Voice.RunsKeep.reachEnd (v : Voice) : v.RunsKeep v.reachEnd :=
  ⟨rfl, rfl, rfl, rfl, rfl, fun h => by simp [Voice.reachEnd, h]⟩

theorem Voice.RunsKeep.afterRun (v moved : Voice) (l : Layout) : moved.RunsKeep (v.afterRun l moved) := by
  simp only [Voice.afterRun]
  split
  · split
    · exact ⟨rfl, rfl, rfl, rfl, rfl, id⟩
    · split
      · exact Voice.RunsKeep.reachEnd moved
      · exact Voice.RunsKeep.refl moved
  · split
    · exact Voice.RunsKeep.reachEnd moved
    · exact Voice.RunsKeep.refl moved

theorem Voice.RunsKeep.giveRun (v : Voice) (l : Layout) : v.RunsKeep (v.giveRun l) := by
  simp only [Voice.giveRun]
  split
  · refine Voice.RunsKeep.trans ?_ (Voice.RunsKeep.afterRun v _ l)
    exact ⟨rfl, rfl, rfl, rfl, rfl, id⟩
  · exact Voice.RunsKeep.reachEnd v

/-- What a START decided of a voice, and its counts, which no event that only gives runs or ends voices changes. -/
structure Voice.KeepsStart (v w : Voice) : Prop where
  generation : w.generation = v.generation
  sampleId : w.sampleId = v.sampleId
  sampleGeneration : w.sampleGeneration = v.sampleGeneration
  headMode : w.headMode = v.headMode
  window : w.window = v.window
  startOffset : w.startOffset = v.startOffset
  position : w.position = v.position
  rate : w.rate = v.rate
  priority : w.priority = v.priority
  leadClass : w.leadClass = v.leadClass
  loopFollow : w.loopFollow = v.loopFollow
  released : w.released = v.released
  cookie : w.cookie = v.cookie
  startSequence : w.startSequence = v.startSequence
  delivered : w.delivered = v.delivered
  consumed : w.consumed = v.consumed
  endPosted : w.endPosted = v.endPosted
  starved : w.starved = v.starved
  underruns : w.underruns = v.underruns

theorem VoiceStep.keepsStart {v w : Voice} (h : VoiceStep v w) : v.KeepsStart w := by
  constructor <;> rw [h.kept]

theorem State.giveRuns_keep (fuel : Nat) : ∀ (s : State) (slot : Nat),
    (s.voice slot).RunsKeep ((s.giveRuns fuel slot).voice slot) := by
  induction fuel with
  | zero => exact fun s slot => Voice.RunsKeep.refl _
  | succ fuel ih =>
    intro s slot
    rw [State.giveRuns]
    split
    · exact Voice.RunsKeep.refl _
    · rename_i l _
      split
      · refine Voice.RunsKeep.trans ?_ (ih _ slot)
        rw [State.voice_setVoice_same]
        exact Voice.RunsKeep.giveRun _ l
      · split
        · refine Voice.RunsKeep.trans ?_ (ih _ slot)
          rw [(s.giveSilent_place slot l).voice]
          exact Voice.RunsKeep.giveRun _ l
        · exact Voice.RunsKeep.refl _

theorem State.settleVoice_keep (s : State) (slot : Nat) : (s.voice slot).RunsKeep ((s.settleVoice slot).voice slot) := by
  unfold State.settleVoice
  split
  · exact Voice.RunsKeep.refl _
  · exact State.giveRuns_keep _ s slot

theorem State.layoutOf_congr {s t : State} (h : t.catalog = s.catalog) (v : Voice) : t.layoutOf v = s.layoutOf v := by
  unfold State.layoutOf
  rw [State.record_congr h]

/-- The runs that one voice was given at an event's end, seen from the event's beginning. -/
theorem State.GivenRuns.of_settleVoice {u t : State} {slot : Nat} (ready : u.resetting = false)
    (posted : Closed (u.settleVoice slot) t) (layouts : ∀ v, t.layoutOf v = u.layoutOf v) (s' : State) :
    s'.GivenRuns t slot (u.voice slot) (u.window (u.voice slot).window) := by
  intro l _ layout
  have given := State.settleVoice_runs u slot l ((layouts _).symm.trans layout) ready
  have judged := u.settleVoice_judged slot
  have kept := judged.kept
  rw [posted.voice, posted.window]
  refine given.congr ?_ ?_ (fun d => ?_) ?_
  · rw [posted.tunables, kept]
  · rw [posted.pace, kept]
  · rw [posted.die, kept]
    rfl
  · rw [posted.partition, kept]

/-! ### START refused -/

theorem State.admission_none {s : State} {priority : Nat} (full : s.tunables.voiceLimit ≤ s.soundingCount)
    (outranks : ∀ n, s.victim = some n → priority < (s.voice n).priority) : s.admission priority = none := by
  unfold State.admission
  rw [if_neg (Nat.not_lt.mpr full)]
  cases victim : s.victim with
  | none => rfl
  | some n => exact if_pos (outranks n victim)

/-- Settles O29: the refusals in the order of the checks. -/
theorem startRefused : Obligations.StartRefused := by
  intro h p s k refused r
  have refuse {x : Result} (body : takeStart (s.tokenFor h) p (s.beginTake h) = (s.beginTake h).refuse (s.tokenFor h) x) :
      refused x := taken_refused (body := .start p) k body
  refine ⟨fun invalid => refuse ?_, fun valid unnamed => refuse ?_, fun valid named state => refuse ?_,
    fun valid named state => refuse ?_, fun l valid named stale retiring layout => ⟨fun beyond => refuse ?_,
      fun inside slot => refuse ?_, fun slot inside free window => refuse ?_, fun slot w inside free window full outranks =>
      refuse ?_⟩⟩
  · simp [takeStart, invalid]
  · simp [takeStart, valid, unnamed]
  · simp [takeStart, valid, named, show (s.record p.sample.id.toNat).state = .stale from state]
  · simp [takeStart, valid, named, show (s.record p.sample.id.toNat).state = .retiring from state]
  all_goals
    have notStale : ¬ (s.record p.sample.id.toNat).state = .stale := stale
    have notRetiring : ¬ (s.record p.sample.id.toNat).state = .retiring := retiring
    have known : (s.record p.sample.id.toNat).layout = some l := layout
  · simp [takeStart, valid, named, notStale, notRetiring, known, beyond]
  · simp [takeStart, valid, named, notStale, notRetiring, known, Nat.not_le.mpr inside, slot]
  · simp [takeStart, valid, named, notStale, notRetiring, known, Nat.not_le.mpr inside, free, window]
  · simp [takeStart, valid, named, notStale, notRetiring, known, Nat.not_le.mpr inside, free, window,
      State.admission_none full outranks]

/-! ### START accepted -/

/-- An accepted START takes the slot and the window chosen, below the limit or in a victim's place (R52 to R54). -/
theorem takeStart_accepts {s : State} {p : StartParams} {l : Layout} {slot w : Nat} {victim : Option Nat} (t : Token)
    (valid : startValid p = true) (named : s.names p.sample = true) (stale : (s.record p.sample.id.toNat).state ≠ .stale)
    (retiring : (s.record p.sample.id.toNat).state ≠ .retiring) (layout : (s.record p.sample.id.toNat).layout = some l)
    (inside : p.offset.toNat < l.length) (free : s.lowestFreeSlot = some slot) (window : s.lowestFreeWindow = some w)
    (admitted : s.admission p.priority.toNat = some victim) :
    takeStart t p s = (victim.elim s s.steal).acceptStart t p l slot w := by
  cases victim <;>
    simp [takeStart, valid, named, stale, retiring, layout, Nat.not_le.mpr inside, free, window, admitted]

theorem State.startLate_eq (s : State) (p : StartParams) :
    s.startLate p = decide (s.pace.running = true ∧ p.position.toNat % 2 ^ 48 < s.pace.position) := by
  cases running : s.pace.running with
  | false => simp [State.startLate, running]
  | true =>
    simp only [State.startLate, startPosition, running, Bool.true_and, true_and]
    rfl

/-- The voice a START sets up, by its parameters (R54 to R56, R61). -/
theorem State.newVoice_eq (s : State) (p : StartParams) (r : Record) (l : Layout) (slot w : Nat) :
    s.newVoice p r l slot w =
      { state := .priming, generation := nextGeneration (s.voice slot).generation, sampleId := p.sample.id.toNat
        sampleGeneration := p.sample.generation, window := w, startOffset := p.offset.toNat
        headMode := r.state == .resident || (r.state == .loading && p.offset.toNat < l.headFrames)
        position := if s.pace.running = true ∧ p.position.toNat % 2 ^ 48 < s.pace.position then s.pace.position
          else p.position.toNat % 2 ^ 48
        rate := p.rate.toNat, pendingRate := none, priority := p.priority.toNat, leadClass := p.leadClass.toNat
        loopFollow := byteSet p.loopFollow, released := false, cookie := p.cookie, startSequence := s.startCount
        cursor := { source := p.offset.toNat, stream := 0, atEnd := false }, scheduled := 0, delivered := 0, consumed := 0
        total := match l.loop with
          | some lp => if byteSet p.loopFollow = true ∧ p.offset.toNat < lp.stop then none
            else some (l.length - p.offset.toNat)
          | none => some (l.length - p.offset.toNat)
        starved := false, underruns := 0, reads := 0, endReason := none, endPosted := false, firstDelivery := false
        delivery := { source := p.offset.toNat, latestWrap := none, loopedPending := false } } := by
  cases loop : l.loop <;>
    simp [State.newVoice, headModeFor, State.startLate_eq, startPosition, Voice.loopAhead, loop, Voice.blank]

/-- The state in which an accepted START has set up its voice, not yet judged for its runs (R54). -/
def State.startPlaced (s : State) (p : StartParams) (l : Layout) (slot w : Nat) : State :=
  { (s.setWindow w Window.blank).setVoice slot (s.newVoice p (s.record p.sample.id.toNat) l slot w) with
    startCount := s.startCount + 1 }.addReference p.sample.id.toNat

theorem State.acceptStart_eq (s : State) (t : Token) (p : StartParams) (l : Layout) (slot w : Nat) :
    s.acceptStart t p l slot w = ((s.startPlaced p l slot w).settleVoice slot).complete t
      (if s.pace.running = true ∧ p.position.toNat % 2 ^ 48 < s.pace.position then .okLate else .ok) (BitVec.ofNat 32 slot)
      ((nextGeneration (s.voice slot).generation).setWidth 32) := by
  have late : (if s.startLate p then Result.okLate else .ok) =
      if s.pace.running = true ∧ p.position.toNat % 2 ^ 48 < s.pace.position then .okLate else .ok := by
    simp only [State.startLate_eq, decide_eq_true_eq]
  rw [← late]
  rfl

theorem State.addReference_kept (s : State) (id : Nat) :
    s.addReference id = { s with catalog := (s.addReference id).catalog, recency := (s.addReference id).recency } := by
  unfold State.addReference
  dsimp only
  split <;> rfl

theorem State.addReference_same (s : State) (id : Nat) :
    (s.addReference id).record id = { s.record id with refs := (s.record id).refs + 1 } := by
  have same := State.record_setRecord_same s id { s.record id with refs := (s.record id).refs + 1 }
  unfold State.addReference
  dsimp only
  split <;> exact same

theorem State.addReference_other (s : State) {id j : Nat} (h : j ≠ id) : (s.addReference id).record j = s.record j := by
  have other := State.record_setRecord_other s { s.record id with refs := (s.record id).refs + 1 } h
  unfold State.addReference
  dsimp only
  split <;> exact other

theorem State.addReference_recency (s : State) (id : Nat) :
    (s.addReference id).recency =
      if (s.record id).state = .resident then id :: s.recency.filter (· != id) else s.recency := by
  unfold State.addReference
  dsimp only
  split <;> rfl

/-- What the set-up of a START changes: its voice, its window, the count, its record and the recency list. -/
theorem State.startPlaced_kept (s : State) (p : StartParams) (l : Layout) (slot w : Nat) :
    s.startPlaced p l slot w = { s with
      voices := (s.startPlaced p l slot w).voices, windows := (s.startPlaced p l slot w).windows
      startCount := s.startCount + 1, catalog := (s.startPlaced p l slot w).catalog
      recency := (s.startPlaced p l slot w).recency } := by
  unfold State.startPlaced
  rw [State.addReference_kept]
  rfl

theorem State.startPlaced_voices (s : State) (p : StartParams) (l : Layout) (slot w : Nat) :
    (s.startPlaced p l slot w).voices =
      (s.setVoice slot (s.newVoice p (s.record p.sample.id.toNat) l slot w)).voices := by
  unfold State.startPlaced
  rw [State.addReference_kept]
  rfl

theorem State.startPlaced_windows (s : State) (p : StartParams) (l : Layout) (slot w : Nat) :
    (s.startPlaced p l slot w).windows = (s.setWindow w Window.blank).windows := by
  unfold State.startPlaced
  rw [State.addReference_kept]
  rfl

/-- What an accepted START leaves at the end of its event, from the state in which the voice was admitted (R12, R33, R54 to R56,
R100, R102, R106). -/
structure State.Started (s t : State) (p : StartParams) (l : Layout) (slot w : Nat) : Prop where
  start : (s.newVoice p (s.record p.sample.id.toNat) l slot w).KeepsStart (t.voice slot)
  keep : (s.newVoice p (s.record p.sample.id.toNat) l slot w).RunsKeep (t.voice slot)
  count : t.startCount = s.startCount + 1
  recency : t.recency = if (s.record p.sample.id.toNat).state = .resident then
    p.sample.id.toNat :: s.recency.filter (· != p.sample.id.toNat) else s.recency
  record : t.record p.sample.id.toNat =
    { s.record p.sample.id.toNat with refs := (s.record p.sample.id.toNat).refs + 1 }
  others : ∀ n, n ≠ slot → t.voice n = s.voice n
  records : ∀ id, id ≠ p.sample.id.toNat → t.record id = s.record id
  windows : ∀ x, x ≠ w → t.window x = s.window x
  queue : t.queue = s.queue ∧ t.enqueueCount = s.enqueueCount
  dies : SameDies s t
  counters : t.registers.counters = s.registers.counters
  runs : ∀ x : State, x.GivenRuns t slot (s.newVoice p (s.record p.sample.id.toNat) l slot w) Window.blank

theorem State.Started.of_posted {s t : State} {p : StartParams} {l : Layout} {slot w : Nat} (ready : s.resetting = false)
    (posted : Posted ((s.startPlaced p l slot w).settleVoice slot) t) : s.Started t p l slot w := by
  let v := s.newVoice p (s.record p.sample.id.toNat) l slot w
  have placed := s.startPlaced_kept p l slot w
  have voices := s.startPlaced_voices p l slot w
  have windows := s.startPlaced_windows p l slot w
  have judged := (s.startPlaced p l slot w).settleVoice_judged slot
  have kept := judged.kept
  have voice : (s.startPlaced p l slot w).voice slot = v :=
    (State.voice_congr voices slot).trans (State.voice_setVoice_same s slot v)
  have other (n : Nat) (h : n ≠ slot) : (s.startPlaced p l slot w).voice n = s.voice n :=
    (State.voice_congr voices n).trans (State.voice_setVoice_other s v h)
  have catalog : t.catalog = (s.startPlaced p l slot w).catalog := by rw [posted.catalog, kept]
  have layouts (x : Voice) : t.layoutOf x = (s.startPlaced p l slot w).layoutOf x := State.layoutOf_congr catalog x
  have window : (s.startPlaced p l slot w).window w = Window.blank :=
    (State.window_congr windows w).trans (State.window_setWindow_same s w _)
  have runs (x : State) := State.GivenRuns.of_settleVoice (u := s.startPlaced p l slot w) (slot := slot) (t := t)
    (by rw [placed]; exact ready) posted.closed layouts x
  rw [voice, show v.window = w from rfl, window] at runs
  refine {
    start := ?_, keep := ?_, count := ?_, recency := ?_, record := ?_, others := fun n h => ?_, records := fun id h => ?_
    windows := fun x h => ?_, queue := ?_, dies := ⟨fun d => ?_, ?_⟩, counters := ?_, runs := runs }
  · rw [posted.voice]
    have step := (Inner.settleVoice (s.startPlaced p l slot w) slot).voices slot
    rw [voice] at step
    exact step.keepsStart
  · rw [posted.voice]
    have keep := State.settleVoice_keep (s.startPlaced p l slot w) slot
    rwa [voice] at keep
  · rw [posted.startCount, kept, placed]
  · rw [posted.recency, kept]
    exact State.addReference_recency _ _
  · rw [State.record_congr catalog]
    exact State.addReference_same _ _
  · rw [posted.voice, judged.others n h, other n h]
  · rw [State.record_congr catalog]
    exact State.addReference_other _ h
  · rw [posted.window, judged.windows x, State.window_congr windows, State.window_setWindow_other s _ h]
    rintro n rfl -
    rw [voice]
    exact h.symm
  · rw [posted.queue, posted.enqueueCount, kept, placed]
    exact ⟨rfl, rfl⟩
  · rw [posted.die, judged.kept.die, placed]
    rfl
  · rw [posted.stores, kept, placed]
  · rw [posted.registers, kept, placed]

/-- The lowest FREE slot (R51). -/
theorem lowestFreeSlot_spec {s : State} {n : Nat} (h : s.lowestFreeSlot = some n) :
    n < 1024 ∧ (s.voice n).state = .free ∧ ∀ m, m < n → (s.voice m).state ≠ .free := by
  obtain ⟨inside, free, below⟩ := lowest_some h
  exact ⟨inside, by simpa using free, fun m hm => by simpa using below m hm⟩

/-- The lowest free window (R42). -/
theorem lowestFreeWindow_spec {s : State} {w : Nat} (c : s.Canonical) (h : s.lowestFreeWindow = some w) :
    w < min 1024 ((64 - s.partition.headBands) * 65536 / s.partition.windowBlocks) ∧
      (∀ n, (s.voice n).state ≠ .free → (s.voice n).window ≠ w) ∧
      ∀ x, x < w → ∃ n, (s.voice n).state ≠ .free ∧ (s.voice n).window = x := by
  obtain ⟨inside, free, below⟩ := lowest_some h
  refine ⟨inside, (State.windowFree_iff c w).mp free, fun x hx => ?_⟩
  refine Classical.byContradiction fun none => ?_
  have unheld : s.windowFree x = true := (State.windowFree_iff c x).mpr fun n used held => none ⟨n, used, held⟩
  simp [below x hx] at unheld

theorem State.admission_below {s : State} {priority : Nat} (h : s.soundingCount < s.tunables.voiceLimit) :
    s.admission priority = some none := if_pos h

theorem State.Started.of_beginTake {s t : State} {h : Header} {p : StartParams} {l : Layout} {slot w : Nat}
    (x : (s.beginTake h).Started t p l slot w) : s.Started t p l slot w :=
  ⟨x.start, x.keep, x.count, x.recency, x.record, x.others, x.records, x.windows, x.queue, ⟨x.dies.1, x.dies.2⟩, x.counters,
    x.runs⟩

/-- START below the voice limit. -/
theorem start_accepted {h : Header} {p : StartParams} {s : State} {l : Layout} {slot w : Nat} (k : s.Taking)
    (valid : startValid p = true) (named : s.names p.sample = true) (stale : (s.record p.sample.id.toNat).state ≠ .stale)
    (retiring : (s.record p.sample.id.toNat).state ≠ .retiring) (layout : (s.record p.sample.id.toNat).layout = some l)
    (inside : p.offset.toNat < l.length) (free : s.lowestFreeSlot = some slot) (window : s.lowestFreeWindow = some w)
    (below : s.soundingCount < s.tunables.voiceLimit) :
    ∃ t, exec (.start h p) s = .next t ∧
      TakenDone s t h (if s.pace.running = true ∧ p.position.toNat % 2 ^ 48 < s.pace.position then .okLate else .ok)
        (BitVec.ofNat 32 slot) ((nextGeneration (s.voice slot).generation).setWidth 32) ∧ s.Started t p l slot w := by
  have body : takeBody (s.tokenFor h) (.start p) (s.beginTake h) =
      (((s.beginTake h).startPlaced p l slot w).settleVoice slot).complete (s.tokenFor h)
        (if s.pace.running = true ∧ p.position.toNat % 2 ^ 48 < s.pace.position then .okLate else .ok) (BitVec.ofNat 32 slot)
        ((nextGeneration (s.voice slot).generation).setWidth 32) := by
    refine (takeStart_accepts (s := s.beginTake h) (victim := none) (s.tokenFor h) valid named stale retiring layout inside free
      window (State.admission_below below)).trans ?_
    exact State.acceptStart_eq _ _ _ _ _ _
  have placed := (s.beginTake h).startPlaced_kept p l slot w
  have kept := (((s.beginTake h).startPlaced p l slot w).settleVoice_judged slot).kept
  obtain ⟨t, ht, done, posted⟩ := taken_answered k body (by rw [kept, placed]; exact k.settled)
    (by rw [kept, placed]; exact List.prefix_rfl) (by rw [kept, placed]) (by unfold State.latched; rw [kept, placed]; rfl)
  have started : (s.beginTake h).Started t p l slot w := State.Started.of_posted (State.not_resetting_of k.ready) posted
  exact ⟨t, ht, done, started.of_beginTake⟩

/-- Settles O30: the voice set up and given its runs, and the choice of slot and window. -/
theorem startAccepted : Obligations.StartAccepted := by
  refine ⟨fun h p s l slot w k valid named stale retiring layout inside free window below => ?_,
    fun s n h => lowestFreeSlot_spec h, fun s w c h => lowestFreeWindow_spec c h⟩
  obtain ⟨t, ht, done, started⟩ := start_accepted (h := h) k valid named stale retiring layout inside free window below
  obtain ⟨start, keep, count, recency, record, others, records, windows, queue, -, -, runs⟩ := started
  rw [State.newVoice_eq] at start keep runs
  exact ⟨t, ht, done, keep.priming rfl, start.generation, start.sampleId, start.sampleGeneration, start.window,
    start.startOffset, start.position, start.rate, start.priority, start.leadClass, start.loopFollow, start.cookie,
    start.startSequence, start.headMode, start.delivered, start.consumed, start.released, start.endPosted, keep.reads, keep.source,
    count, recency, record, others, records, windows, queue, runs s⟩

/-! ### START that steals -/

/-- The window of one voice that ends (R45). -/
theorem State.endVoice_window {s : State} {x : Nat} (reason : EndReason) (hs : (s.voice x).sounding = true)
    (c : (s.window (s.voice x).window).canonical) :
    s.WindowEnded x ((State.endVoice reason s x).window (s.voice x).window) := by
  have window : (State.endVoice reason s x).window (s.voice x).window =
      (s.window (s.voice x).window).endEmpty (placesOf (s.queue.filter fun e => e.ofVoice x (s.voice x).generation)) := by
    rw [State.endVoice_eq, if_pos hs, State.dropReference_kept]
    exact State.window_setWindow_same _ _ _
  rw [window]
  exact Window.endEmpty_ended s x c

theorem Voice.victimKey_before {v w : Voice} (h : keyBefore w.victimKey v.victimKey = false) :
    v.stolenBefore w := by
  simp only [Voice.victimKey, keyBefore, Bool.or_eq_false_iff, Bool.and_eq_false_iff, decide_eq_false_iff_not,
    beq_eq_false_iff_ne] at h
  unfold Voice.stolenBefore
  cases hv : v.state <;> cases hw : w.state <;> simp [hv, hw] at h ⊢ <;> omega

/-- The victim of a steal (R53). -/
theorem victim_spec {s : State} (c : s.Canonical) :
    (∀ n, s.victim = some n → (s.voice n).sounding = true ∧
      ∀ m, (s.voice m).sounding = true → (s.voice n).stolenBefore (s.voice m)) ∧
    (s.victim = none → ∀ m, (s.voice m).sounding = false) := by
  refine ⟨fun n h => ⟨State.victim_sounds c h, fun m hm => ?_⟩, fun h m => ?_⟩
  · have least := (leastBy_some _ 3 _ (fun _ _ => Voice.victimKey_length _) n h).2 m ((State.mem_soundingSlots c.voices m).mpr hm)
    exact Voice.victimKey_before least
  · have none := leastBy_none _ _ h
    cases hm : (s.voice m).sounding with
    | false => rfl
    | true =>
      have listed := (State.mem_soundingSlots c.voices m).mpr hm
      rw [none] at listed
      cases listed

theorem State.naming_one (s : State) (x id : Nat) :
    s.naming [x] id = if (s.voice x).plays id (s.record id).generation then 1 else 0 := by
  simp only [State.naming, List.filter_cons, List.filter_nil]
  split <;> rfl

/-- START at the limit, in the victim's place (R12, R45, R53, R110). -/
theorem start_steals (h : Header) (p : StartParams) (s : State) (l : Layout) (slot w victim : Nat) (k : s.Taking) (c : s.Canonical)
    (valid : startValid p = true) (named : s.names p.sample = true) (stale : (s.record p.sample.id.toNat).state ≠ .stale)
    (retiring : (s.record p.sample.id.toNat).state ≠ .retiring) (layout : (s.record p.sample.id.toNat).layout = some l)
    (inside : p.offset.toNat < l.length) (free : s.lowestFreeSlot = some slot) (window : s.lowestFreeWindow = some w)
    (full : s.tunables.voiceLimit ≤ s.soundingCount) (chosen : s.victim = some victim)
    (outranked : (s.voice victim).priority ≤ p.priority.toNat) :
    ∃ t, exec (.start h p) s = .next t ∧
      wroteStatus s t (doneBytes
        (if s.pace.running = true ∧ p.position.toNat % 2 ^ 48 < s.pace.position then .okLate else .ok)
        (BitVec.ofNat 32 slot) ((nextGeneration (s.voice slot).generation).setWidth 32)) ∧
      (s.voice victim).sounding = true ∧
      t.voice victim = { s.voice victim with state := .ending, endReason := some .stolen, pendingRate := none } ∧
      t.registers.counters.value .steal = min (s.registers.counters.value .steal + 1) 65535 ∧
      (t.voice slot).state = .priming ∧ (t.voice slot).generation = nextGeneration (s.voice slot).generation ∧
      (t.voice slot).window = w ∧ (∀ n, n ≠ slot → n ≠ victim → t.voice n = s.voice n) ∧
      t.queue = s.queueWithout (· == victim) ∧ s.WindowEnded victim (t.window (s.voice victim).window) ∧
      (∀ x, x ≠ w → x ≠ (s.voice victim).window → t.window x = s.window x) ∧ SameDies s t ∧
      let named (id : Nat) : Nat := if (s.voice victim).plays id (s.record id).generation then 1 else 0
      (∀ id, id ≠ p.sample.id.toNat → s.RecordLeft t id (named id)) ∧
        t.record p.sample.id.toNat = { s.record p.sample.id.toNat with
          refs := (s.record p.sample.id.toNat).refs - named p.sample.id.toNat + 1 } := by
  let b := s.beginTake h
  have canonical : b.Canonical := c.of_same rfl rfl rfl rfl rfl
  have sounds := State.victim_sounds c chosen
  have left : b.LeftBy (State.endVoice .stolen b victim) .stolen [victim] := b.endVoice_left .stolen victim sounds (c.places _)
  have ended : s.WindowEnded victim ((State.endVoice .stolen b victim).window (s.voice victim).window) :=
    let w := State.endVoice_window (s := b) .stolen sounds (c.places _)
    ⟨w.points, w.emptied, w.queued, w.inFlight⟩
  obtain ⟨_, slotFree, _⟩ := lowestFreeSlot_spec free
  obtain ⟨_, unheld, _⟩ := lowestFreeWindow_spec c window
  have apart : victim ≠ slot := by
    rintro rfl
    simp [Voice.sounding, slotFree] at sounds
  have windowApart : (s.voice victim).window ≠ w := unheld victim (Voice.sounding_held sounds)
  let u := b.steal victim
  have uKept : u = { State.endVoice .stolen b victim with registers :=
      { s.registers with counters := s.registers.counters.rise .steal } } := by
    have e : u = { State.endVoice .stolen b victim with registers := { (State.endVoice .stolen b victim).registers with
      counters := (State.endVoice .stolen b victim).registers.counters.rise .steal } } := rfl
    rw [e, show (State.endVoice .stolen b victim).registers = s.registers by rw [left.kept]; rfl]
  have uVoice (n : Nat) : u.voice n = (State.endVoice .stolen b victim).voice n := rfl
  have slotKept : u.voice slot = s.voice slot := left.others slot (by simpa using apart.symm)
  have admitted : b.admission p.priority.toNat = some (some victim) := by
    show s.admission _ = _
    unfold State.admission
    rw [if_neg (Nat.not_lt.mpr full), chosen]
    exact if_neg (Nat.not_lt.mpr outranked)
  have out : u.out = s.out := by
    show (State.endVoice .stolen b victim).out = s.out
    rw [left.kept]
    rfl
  have pace : u.pace = s.pace := by
    show (State.endVoice .stolen b victim).pace = s.pace
    rw [left.kept]
    rfl
  have body : takeBody (s.tokenFor h) (.start p) (s.beginTake h) =
      ((u.startPlaced p l slot w).settleVoice slot).complete (s.tokenFor h)
        (if s.pace.running = true ∧ p.position.toNat % 2 ^ 48 < s.pace.position then .okLate else .ok) (BitVec.ofNat 32 slot)
        ((nextGeneration (s.voice slot).generation).setWidth 32) := by
    refine (takeStart_accepts (s := b) (victim := some victim) (s.tokenFor h) valid named stale retiring layout inside free window
      admitted).trans ?_
    refine (State.acceptStart_eq u _ _ _ _ _).trans ?_
    rw [slotKept, pace]
  have placed := u.startPlaced_kept p l slot w
  have kept := ((u.startPlaced p l slot w).settleVoice_judged slot).kept
  obtain ⟨t, ht, posted, -, wrote, -⟩ := taken_wrote k body (by
    show s.out <+: ((u.startPlaced p l slot w).settleVoice slot).out
    rw [kept, placed]
    exact out ▸ List.prefix_rfl)
  have started := State.Started.of_posted (s := u) (p := p) (l := l) (slot := slot) (w := w)
    (State.not_resetting_of (by rw [uKept]; exact k.ready)) ((Posted.setCompletions _ _).trans posted)
  have records (id : Nat) : u.record id = Record.leftBy (b.naming [victim] id) (s.record id) := left.records id
  refine ⟨t, ht, wrote _ List.mem_cons_self, sounds, ?_, ?_, started.keep.priming rfl, ?_, ?_, fun n hs hv => ?_, ?_, ?_,
    fun x hw hv => ?_, ⟨fun d => ?_, ?_⟩, fun id other => ?_, ?_⟩
  · rw [started.others victim apart]
    exact left.voices victim (List.mem_singleton_self _)
  · rw [started.counters, uKept]
    rfl
  · exact started.start.generation.trans (congrArg (fun v : Voice => nextGeneration v.generation) slotKept)
  · exact started.start.window
  · rw [started.others n hs]
    exact left.others n (by simpa using hv)
  · rw [started.queue.1]
    exact left.queue.trans (congrArg s.queueWithout (funext fun n => by rw [Bool.eq_iff_iff]; simp))
  · rw [started.windows _ windowApart]
    exact ended
  · rw [started.windows x hw]
    exact left.otherWindows x fun n hn => by
      rw [List.mem_singleton.mp hn]
      exact hv.symm
  · rw [started.dies.1, uKept]
    show (State.endVoice .stolen b victim).die d = _
    rw [left.kept]
    rfl
  · rw [started.dies.2, uKept]
    show (State.endVoice .stolen b victim).stores = _
    rw [left.kept]
    rfl
  · have naming : b.naming [victim] id = if (s.voice victim).plays id (s.record id).generation then 1 else 0 :=
      State.naming_one b victim id
    show s.RecordLeft t id (if (s.voice victim).plays id (s.record id).generation then 1 else 0)
    rw [← naming]
    refine State.recordLeft_of ((started.records id other).trans (records id)) fun token hk hr hv => ?_
    rw [started.records id other] at hv
    obtain ⟨x, y, listed⟩ := left.written id token hk hr hv
    refine ⟨x, y, wrote ⟨token, .ok, x, y⟩ (List.mem_cons_of_mem _ ?_)⟩
    rw [kept, placed]
    exact listed
  · have naming : b.naming [victim] p.sample.id.toNat =
        if (s.voice victim).plays p.sample.id.toNat (s.record p.sample.id.toNat).generation then 1 else 0 :=
      State.naming_one b victim _
    rw [started.record, records, naming,
      Record.leftBy_counted _ _ (State.names_iff.mp named).1 (.inl retiring)]

/-- Settles O31: the steal, and the order in which voices are stolen. -/
theorem startSteals : Obligations.StartSteals :=
  ⟨fun h p s l slot w victim k c valid named stale retiring layout inside free window full chosen outranked =>
    start_steals h p s l slot w victim k c valid named stale retiring layout inside free window full chosen outranked,
    fun _ c => victim_spec c⟩

end Sys2Proof.Machine
end

section
/-! PROOFS. The takes that name a voice: RELEASE, STOP, RETUNE (O32 to O34). -/

namespace Sys2Proof.Machine

theorem State.namesVoice_valid {s : State} {n : VoiceName} (h : s.namesVoice n = true) : slotValid n = true := by
  simp only [State.namesVoice, Bool.and_eq_true] at h
  exact h.1.1

theorem slotValid_iff (n : VoiceName) : slotValid n = true ↔ n.slot.toNat < 1024 := decide_eq_true_iff

/-! ### RELEASE -/

/-- The state in which a RELEASE leaves the voice it names (R63). -/
def State.releasedVoice (s : State) (slot : Nat) : State :=
  match s.layoutOf (s.voice slot) with
  | some l => s.setVoice slot ((s.voice slot).release l)
  | none => s

theorem takeRelease_named {s : State} {n : VoiceName} (t : Token) (named : s.namesVoice n = true) :
    takeRelease t n s = (s.releasedVoice n.slot.toNat).complete t .ok
      (BitVec.ofNat 32 (((s.releasedVoice n.slot.toNat).voice n.slot.toNat).total.getD 0))
      (BitVec.ofNat 32 ((s.releasedVoice n.slot.toNat).voice n.slot.toNat).state.code) := by
  simp only [takeRelease, State.namesVoice_valid named, named, Bool.not_true, Bool.false_eq_true, if_false]
  rfl

theorem State.releasedVoice_kept (s : State) (slot : Nat) :
    s.releasedVoice slot = { s with voices := (s.releasedVoice slot).voices } := by
  unfold State.releasedVoice
  split <;> rfl

/-- A voice that RELEASE leaves as it is. -/
theorem Voice.release_done {v : Voice} (l : Layout) (h : v.state = .draining ∨ v.state = .ending ∨ v.released = true) :
    v.release l = v := by
  unfold Voice.release
  obtain h | h | h := h
  · rw [h]
  · rw [h]
  · split
    · exact if_pos h
    · exact if_pos h
    · exact if_pos h
    all_goals rfl

theorem State.releasedVoice_done {s : State} {slot : Nat}
    (h : (s.voice slot).state = .draining ∨ (s.voice slot).state = .ending ∨ (s.voice slot).released = true) (m : Nat) :
    (s.releasedVoice slot).voice m = s.voice m := by
  unfold State.releasedVoice
  split
  · rename_i l _
    rw [Voice.release_done l h]
    by_cases e : m = slot
    · rw [e, State.voice_setVoice_same]
    · exact State.voice_setVoice_other _ _ e
  · rfl

/-- A PLAYING or PRIMING voice takes the flag, its total becoming known (R61, R63). -/
theorem Voice.release_sets {v : Voice} (l : Layout) (state : v.state = .playing ∨ v.state = .priming) (clear : v.released = false) :
    v.release l = { v with
      released := true, total := some (v.total.getD (v.cursor.stream + (l.length - v.cursor.source)))
      state := if v.state = .playing then .releasing else .priming } := by
  obtain state | state := state <;> cases total : v.total <;>
    simp [Voice.release, Voice.setReleased, state, clear, total]

/-- Settles O32: the refusals, the flag set, the voice left as it is. -/
theorem releaseTaken : Obligations.ReleaseTaken := by
  refine fun h n s k => ⟨fun beyond => ?_, fun inside unnamed => ?_, fun named => ?_⟩
  · have invalid : slotValid n = false := Bool.eq_false_iff.mpr fun e => Nat.not_lt.mpr beyond ((slotValid_iff n).mp e)
    exact taken_refusedUnstated (body := .release n) k (by simp [takeBody, takeRelease, invalid])
  · exact taken_refusedUnstated (body := .release n) k
      (by simp [takeBody, takeRelease, (slotValid_iff n).mpr inside, unnamed])
  have body : takeBody (s.tokenFor h) (.release n) (s.beginTake h) = _ :=
    takeRelease_named (s := s.beginTake h) (s.tokenFor h) named
  have kept := (s.beginTake h).releasedVoice_kept n.slot.toNat
  obtain ⟨t, ht, done, posted⟩ := taken_answered k body (by rw [kept]; exact k.settled) (by rw [kept]; exact List.prefix_rfl)
    (by rw [kept]) (by rw [kept]; rfl)
  refine ⟨fun l layout state clear => ?_, fun left => ?_⟩
  · have set : (s.beginTake h).releasedVoice n.slot.toNat =
        (s.beginTake h).setVoice n.slot.toNat { s.voice n.slot.toNat with
          released := true
          total := some ((s.voice n.slot.toNat).total.getD
            ((s.voice n.slot.toNat).cursor.stream + (l.length - (s.voice n.slot.toNat).cursor.source)))
          state := if (s.voice n.slot.toNat).state = .playing then .releasing else .priming } := by
      rw [← Voice.release_sets l state clear]
      unfold State.releasedVoice
      have known : (s.beginTake h).layoutOf ((s.beginTake h).voice n.slot.toNat) = some l := layout
      rw [known]
      rfl
    rw [set] at done posted
    rw [State.voice_setVoice_same] at done
    refine ⟨t, ht, ?_, (posted.voice _).trans (State.voice_setVoice_same _ _ _),
      fun m other => (posted.voice m).trans (State.voice_setVoice_other _ _ other)⟩
    have code : (if (s.voice n.slot.toNat).state = .playing then VoiceState.releasing else .priming).code =
        if (s.voice n.slot.toNat).state = .playing then 3 else 1 := by
      split <;> rfl
    rw [← code]
    exact done
  · have voices (m : Nat) : ((s.beginTake h).releasedVoice n.slot.toNat).voice m = s.voice m :=
      State.releasedVoice_done (s := s.beginTake h) left m
    rw [voices] at done
    have streams := posted.streams
    rw [kept] at streams
    obtain ⟨dram, catalog, ⟨same, windows, starts⟩, queue, dies, tunables⟩ := streams
    exact ⟨t, ht, done, dram, catalog, ⟨fun m => (posted.voice m).trans (voices m), windows, starts⟩, queue, ⟨dies.1, dies.2⟩,
      tunables⟩

/-! ### STOP -/

theorem takeStop_named {s : State} {n : VoiceName} (t : Token) (named : s.namesVoice n = true) :
    takeStop t n s = (State.endVoice .stopped s n.slot.toNat).complete t .ok
      (BitVec.ofNat 32 (s.voice n.slot.toNat).delivered)
      (BitVec.ofNat 32 ((State.endVoice .stopped s n.slot.toNat).voice n.slot.toNat).state.code) := by
  simp only [takeStop, State.namesVoice_valid named, named, Bool.not_true, Bool.false_eq_true, if_false]
  rfl

/-- No place of a window that its voice's end has emptied is FILLED (R45). -/
theorem Window.endEmpty_unfilled {w : Window} (queued : List Nat) (c : w.canonical) (i : Nat) (r : Run) :
    (w.endEmpty queued).place i ≠ .filled r := by
  unfold Window.endEmpty Window.place
  dsimp only
  rw [Table.get_update _ _ _ _ ((Table.wf_iff _ _).mp c).1 rfl]
  split
  · split <;> nofun
  all_goals nofun

theorem State.silenced_window (s : State) (reason : EndReason) (slot : Nat) :
    (s.silenced reason slot).window (s.voice slot).window =
      (s.window (s.voice slot).window).endEmpty (placesOf (s.queue.filter fun e => e.ofVoice slot (s.voice slot).generation)) :=
  State.window_setWindow_same _ _ _

/-- The last voice of a RETIRING record lets it go, the RETIRE completing (R17, R170). -/
theorem State.dropReference_retires {s : State} {id : Nat} {k : Token} (state : (s.record id).state = .retiring)
    (refs : (s.record id).refs = 1) (reads : (s.record id).loadReads = 0) (retire : (s.record id).retire = some k) :
    s.dropReference id (s.record id).generation =
      ((s.setRecord id { s.record id with refs := 0 }).completeUnstated k .ok).toVacant id := by
  unfold State.dropReference
  rw [if_pos ⟨by rw [state]; nofun, rfl⟩, refs]
  unfold State.settleRetiring
  simp [state, reads, retire]

/-- The voice that STOP names as its end leaves it, its record not RETIRING (R12, R45, R64, R71). -/
theorem stop_ends (h : Header) (n : VoiceName) (s : State) (k : s.Taking) (c : s.Canonical) (named : s.namesVoice n = true)
    (sounds : (s.voice n.slot.toNat).sounding = true) (stays : (s.record (s.voice n.slot.toNat).sampleId).state ≠ .retiring)
    (held : (s.record (s.voice n.slot.toNat).sampleId).state ≠ .vacant)
    (generation : (s.record (s.voice n.slot.toNat).sampleId).generation = (s.voice n.slot.toNat).sampleGeneration) :
    let v := s.voice n.slot.toNat
    ∃ t, exec (.stop h n) s = .next t ∧ TakenDone s t h .ok (BitVec.ofNat 32 v.delivered) 5#32 ∧
      t.voice n.slot.toNat = { v with state := .ending, endReason := some .stopped, pendingRate := none } ∧
      (∀ m, m ≠ n.slot.toNat → t.voice m = s.voice m) ∧
      t.record v.sampleId = { s.record v.sampleId with refs := (s.record v.sampleId).refs - 1 } ∧
      (∀ id, id ≠ v.sampleId → t.record id = s.record id) ∧
      t.queue = s.queue.filter (fun e => e.owner != .voice n.slot.toNat v.generation) ∧
      (∀ i r, (t.window v.window).place i ≠ .filled r) ∧ s.WindowEnded n.slot.toNat (t.window v.window) ∧ SameDram s t := by
  intro v
  let b := s.beginTake h
  let u := State.endVoice .stopped b n.slot.toNat
  have canonical : b.Canonical := c.of_same rfl rfl rfl rfl rfl
  have plays : v.plays v.sampleId (s.record v.sampleId).generation = true := by
    simp [Voice.plays, sounds, v, generation]
  have parted : b.Parted u v.sampleId .stopped [n.slot.toNat]
      { s.record v.sampleId with refs := (s.record v.sampleId).refs - 1 } [] [] :=
    State.endVoices_parted .stopped canonical ((List.pairwise_singleton _ _))
      (fun m hm => by rw [List.mem_singleton.mp hm]; exact plays) held stays
  have voice : u.voice n.slot.toNat = v.endedWith .stopped := parted.voices _ (List.mem_singleton_self _)
  have body : takeBody (s.tokenFor h) (.stop n) b =
      u.complete (s.tokenFor h) .ok (BitVec.ofNat 32 v.delivered) (BitVec.ofNat 32 (u.voice n.slot.toNat).state.code) :=
    takeStop_named (s := b) (s.tokenFor h) named
  rw [voice] at body
  obtain ⟨t, ht, done, posted⟩ := taken_answered k body (parted.completions.trans k.settled)
    (by rw [parted.kept]; exact List.prefix_rfl) (by rw [parted.kept]) (by unfold State.latched; rw [parted.kept]; rfl)
  have silenced : u = (b.silenced .stopped n.slot.toNat).dropReference v.sampleId v.sampleGeneration := if_pos sounds
  have queue : u.queue = s.queue.filter (fun e => e.owner != .voice n.slot.toNat v.generation) := by
    rw [silenced, State.dropReference_kept]
    rfl
  have window : u.window v.window = (s.window v.window).endEmpty
      (placesOf (s.queue.filter fun e => e.ofVoice n.slot.toNat v.generation)) := by
    rw [silenced, State.dropReference_kept]
    exact State.silenced_window b .stopped n.slot.toNat
  refine ⟨t, ht, done, (posted.voice _).trans voice, fun m other => ?_, (posted.record _).trans parted.record,
    fun id other => (posted.record id).trans (parted.records id other), posted.queue.trans queue, ?_, ?_, fun a => ?_⟩
  · exact (posted.voice m).trans (parted.others m fun hm => other (List.mem_singleton.mp hm))
  · rw [posted.window, window]
    exact Window.endEmpty_unfilled _ (c.places _)
  · rw [posted.window, window]
    exact Window.endEmpty_ended s _ (c.places _)
  · rw [posted.dram, parted.kept]
    rfl

/-- The end of the last voice of a RETIRING record (R17, R71, R170). -/
theorem State.endVoice_retires {s : State} {slot : Nat} {k : Token} (reason : EndReason) (sounds : (s.voice slot).sounding = true)
    (state : (s.record (s.voice slot).sampleId).state = .retiring)
    (generation : (s.record (s.voice slot).sampleId).generation = (s.voice slot).sampleGeneration)
    (refs : (s.record (s.voice slot).sampleId).refs = 1) (reads : (s.record (s.voice slot).sampleId).loadReads = 0)
    (retire : (s.record (s.voice slot).sampleId).retire = some k) :
    (State.endVoice reason s slot).voice slot = (s.voice slot).endedWith reason ∧
      (State.endVoice reason s slot).record (s.voice slot).sampleId = Record.vacant (s.voice slot).sampleGeneration ∧
      (State.endVoice reason s slot).completions =
        ⟨k, .ok, Config.unstatedWord k.order 0, Config.unstatedWord k.order 1⟩ :: s.completions ∧
      (State.endVoice reason s slot).out = s.out := by
  rw [State.endVoice_eq, if_pos sounds, ← generation]
  have dropped := State.dropReference_retires (s := s.silenced reason slot) state refs reads retire
  rw [show (s.record (s.voice slot).sampleId).generation = ((s.silenced reason slot).record (s.voice slot).sampleId).generation
    from rfl, dropped]
  refine ⟨State.voice_setVoice_same _ slot ((s.voice slot).endedWith reason),
    (State.toVacant_same _ _).trans (congrArg Record.vacant ?_), rfl, rfl⟩
  have zeroed := congrArg Record.generation (State.record_setRecord_same (s.silenced reason slot) (s.voice slot).sampleId
    { s.record (s.voice slot).sampleId with refs := 0 })
  exact zeroed

theorem State.completesNow_complete (s : State) (t : Token) (r : Result) (x y : Word) :
    (s.complete t r x y).completesNow t = true := by
  simp [State.completesNow, State.complete]

/-- The RETIRE that a STOP of the record's last voice completes is written first (R17, R170). -/
theorem stop_retires (h : Header) (n : VoiceName) (s : State) (k : Token) (ready : s.Taking) (named : s.namesVoice n = true)
    (sounds : (s.voice n.slot.toNat).sounding = true) (state : (s.record (s.voice n.slot.toNat).sampleId).state = .retiring)
    (generation : (s.record (s.voice n.slot.toNat).sampleId).generation = (s.voice n.slot.toNat).sampleGeneration)
    (refs : (s.record (s.voice n.slot.toNat).sampleId).refs = 1)
    (reads : (s.record (s.voice n.slot.toNat).sampleId).loadReads = 0)
    (retire : (s.record (s.voice n.slot.toNat).sampleId).retire = some k) (earlier : k.order < s.takes) :
    ∃ t before after word0 word1, exec (.stop h n) s = .next t ∧
      t.out = s.out ++ before ++ [.hostWrite (requestStatusAddress k.address) (doneBytes .ok word0 word1),
        .hostWrite (requestStatusAddress s.requests.address)
          (doneBytes .ok (BitVec.ofNat 32 (s.voice n.slot.toNat).delivered) 5#32)] ++ after ∧
      (t.record (s.voice n.slot.toNat).sampleId).state = .vacant ∧
      (t.record (s.voice n.slot.toNat).sampleId).generation = (s.voice n.slot.toNat).sampleGeneration := by
  obtain ⟨voice, record, completions, out⟩ :=
    State.endVoice_retires (s := s.beginTake h) .stopped sounds state generation refs reads retire
  have body : takeBody (s.tokenFor h) (.stop n) (s.beginTake h) =
      (State.endVoice .stopped (s.beginTake h) n.slot.toNat).complete (s.tokenFor h) .ok
        (BitVec.ofNat 32 (s.voice n.slot.toNat).delivered) 5#32 := by
    refine (takeStop_named (s := s.beginTake h) (s.tokenFor h) named).trans ?_
    rw [voice]
    rfl
  generalize State.endVoice .stopped (s.beginTake h) n.slot.toNat = u at *
  have same : u.out = s.out := out
  obtain ⟨t, ht, posted, flushed, -⟩ := taken_wrote ready body (same ▸ List.prefix_rfl)
  obtain ⟨after, grown⟩ := (flushed (u.completesNow_complete _ _ _ _)).1
  have two : (u.complete (s.tokenFor h) .ok (BitVec.ofNat 32 (s.voice n.slot.toNat).delivered) 5#32).completions =
      [⟨s.tokenFor h, .ok, BitVec.ofNat 32 (s.voice n.slot.toNat).delivered, 5#32⟩,
        ⟨k, .ok, Config.unstatedWord k.order 0, Config.unstatedWord k.order 1⟩] :=
    congrArg (List.cons _) (completions.trans (congrArg (List.cons _) ready.settled))
  have vacant : t.record (s.voice n.slot.toNat).sampleId = Record.vacant (s.voice n.slot.toNat).sampleGeneration :=
    (posted.record _).trans record
  refine ⟨t, [], after, Config.unstatedWord k.order 0, Config.unstatedWord k.order 1, ht, ?_, by rw [vacant]; rfl,
    by rw [vacant]; rfl⟩
  rw [← grown, State.flush_two _ _ _ two earlier, List.append_nil, ← same]
  rfl

/-- Settles O33: the refusals, the voice left as it is, the voice ended, and the RETIRING record let go. -/
theorem stopTaken : Obligations.StopTaken := by
  refine ⟨fun h n s k c => ⟨fun beyond => ?_, fun inside unnamed => ?_, fun named => ⟨fun ending => ?_,
    fun sounds stays held generation => stop_ends h n s k c named sounds stays held generation⟩⟩,
    fun h n s token k _ named sounds state generation refs reads retire earlier =>
      stop_retires h n s token k named sounds state generation refs reads retire earlier⟩
  · have invalid : slotValid n = false := Bool.eq_false_iff.mpr fun e => Nat.not_lt.mpr beyond ((slotValid_iff n).mp e)
    exact taken_refusedUnstated (body := .stop n) k (by simp [takeBody, takeStop, invalid])
  · exact taken_refusedUnstated (body := .stop n) k (by simp [takeBody, takeStop, (slotValid_iff n).mpr inside, unnamed])
  · have left : State.endVoice .stopped (s.beginTake h) n.slot.toNat = s.beginTake h := by
      rw [State.endVoice_eq]
      exact if_neg (by simp [Voice.sounding, ending])
    refine taken_refused (body := .stop n) k ((takeStop_named (s := s.beginTake h) (s.tokenFor h) named).trans ?_)
    rw [left]
    exact congrArg (fun x : VoiceState => (s.beginTake h).complete _ _ _ (BitVec.ofNat 32 x.code)) ending

/-! ### RETUNE -/

/-- RETUNE's effect, by its presence bits (R65, R66). -/
theorem Voice.retune_eq (v : Voice) (p : RetuneParams) (running : Bool) :
    v.retune p running = { v with
      priority := if p.presence.getLsbD 1 then p.priority.toNat else v.priority
      leadClass := if p.presence.getLsbD 2 then p.leadClass.toNat else v.leadClass
      rate := if p.presence.getLsbD 0 && !running then p.rate.toNat else v.rate
      pendingRate := if p.presence.getLsbD 0 then (if running then some p.rate.toNat else none) else v.pendingRate } := by
  unfold Voice.retune retuneRate retunePriority retuneLead
  cases p.presence.getLsbD 0 <;> cases p.presence.getLsbD 1 <;> cases p.presence.getLsbD 2 <;> cases running <;> rfl

/-- A sounding voice retuned and given its runs (R65, R66, R98). -/
theorem retune_sounding (h : Header) (p : RetuneParams) (s : State) (k : s.Taking) (valid : retuneValid p = true)
    (named : s.namesVoice p.voice = true) (sounds : (s.voice p.voice.slot.toNat).sounding = true) :
    let v := s.voice p.voice.slot.toNat
    ∃ t, exec (.retune h p) s = .next t ∧
      TakenDone s t h .ok (BitVec.ofNat 32 (t.voice p.voice.slot.toNat).rate)
        (BitVec.ofNat 32 (t.voice p.voice.slot.toNat).state.code) ∧
      (v.retune p s.pace.running).KeepsStart (t.voice p.voice.slot.toNat) ∧
      (v.retune p s.pace.running).RunsKeep (t.voice p.voice.slot.toNat) ∧
      (∀ m, m ≠ p.voice.slot.toNat → t.voice m = s.voice m) ∧ SameQueue s t ∧ SameCatalog s t ∧ SameDies s t ∧
      (∀ x, x ≠ v.window → t.window x = s.window x) ∧
      s.GivenRuns t p.voice.slot.toNat (v.retune p s.pace.running) (s.window v.window) := by
  intro v
  let b := s.beginTake h
  let x := b.setVoice p.voice.slot.toNat (v.retune p s.pace.running)
  let u := x.settleVoice p.voice.slot.toNat
  have voice : x.voice p.voice.slot.toNat = v.retune p s.pace.running := State.voice_setVoice_same _ _ _
  have window : (v.retune p s.pace.running).window = v.window := (v.retune_kept p _).2
  have judged : Judged (fun n => n = p.voice.slot.toNat) x u := x.settleVoice_judged p.voice.slot.toNat
  have kept : x.KeptButRuns u := judged.kept
  have body : takeBody (s.tokenFor h) (.retune p) b = u.complete (s.tokenFor h) .ok
      (BitVec.ofNat 32 (u.voice p.voice.slot.toNat).rate) (BitVec.ofNat 32 (u.voice p.voice.slot.toNat).state.code) := by
    show takeRetune (s.tokenFor h) p b = _
    have known : b.namesVoice p.voice = true := named
    have sounding : (b.voice p.voice.slot.toNat).sounding = true := sounds
    simp only [takeRetune, valid, known, sounding, Bool.not_true, Bool.false_eq_true, if_false, if_true]
    rfl
  obtain ⟨t, ht, done, posted⟩ := taken_answered k body (by rw [kept]; exact k.settled)
    (by rw [kept]; exact List.prefix_rfl) (by rw [kept]; rfl) (by unfold State.latched; rw [kept]; rfl)
  have runs := State.GivenRuns.of_settleVoice (u := x) (slot := p.voice.slot.toNat) (t := t)
    (State.not_resetting_of k.ready) posted.closed (fun y => State.layoutOf_congr (by rw [posted.catalog, kept]) y) s
  have step := (Inner.settleVoice x p.voice.slot.toNat).voices p.voice.slot.toNat
  have keep := State.settleVoice_keep x p.voice.slot.toNat
  rw [voice] at step keep runs
  rw [window] at runs
  rw [← posted.voice] at done step keep
  refine ⟨t, ht, done, step.keepsStart, keep, fun m other => ?_, ?_, ?_, ⟨fun d => ?_, ?_⟩, fun w other => ?_, runs⟩
  · rw [posted.voice, judged.others m other]
    exact State.voice_setVoice_other _ _ other
  · rw [SameQueue, posted.queue, posted.enqueueCount, kept]
    exact ⟨rfl, rfl⟩
  · refine ⟨fun id => ?_, ?_, ?_, ?_⟩
    · rw [posted.record, kept]
      rfl
    · rw [posted.partition, kept]
      rfl
    · rw [posted.reclaiming, kept]
      rfl
    · rw [posted.recency, kept]
      rfl
  · rw [posted.die, kept.die]
    rfl
  · rw [posted.stores, kept]
    rfl
  · rw [posted.window, judged.windows w]
    · rfl
    · rintro m rfl -
      rw [voice, window]
      exact other.symm

/-- Settles O34: the refusals, the voice left as it is, and the voice retuned. -/
theorem retuneTaken : Obligations.RetuneTaken := by
  refine fun h p s k => ⟨fun invalid => ?_, fun valid unnamed => ?_, fun valid named => ⟨fun ending => ?_, fun sounds => ?_⟩⟩
  · exact taken_refusedUnstated (body := .retune p) k (by simp [takeBody, takeRetune, invalid])
  · exact taken_refusedUnstated (body := .retune p) k (by simp [takeBody, takeRetune, valid, unnamed])
  · refine taken_refused (body := .retune p) k ?_
    show takeRetune (s.tokenFor h) p (s.beginTake h) = _
    have known : (s.beginTake h).namesVoice p.voice = true := named
    have silent : ((s.beginTake h).voice p.voice.slot.toNat).sounding = false := by
      show (s.voice p.voice.slot.toNat).sounding = false
      simp [Voice.sounding, ending]
    simp only [takeRetune, valid, known, silent, Bool.not_true, Bool.false_eq_true, if_false]
    exact congrArg (fun x : VoiceState => (s.beginTake h).complete _ _ _ (BitVec.ofNat 32 x.code)) ending
  · obtain ⟨t, ht, done, start, keep, others, queue, catalog, dies, windows, runs⟩ := retune_sounding h p s k valid named sounds
    rw [Voice.retune_eq] at start runs keep
    exact ⟨t, ht, done, start.priority, start.leadClass, start.rate, keep.pendingRate, start.generation, others, queue, catalog,
      dies, windows, runs⟩

end Sys2Proof.Machine
end

section
/-! PROOFS. The takes of pace and transport, of TUNE_ENGINE, and the advance (O35 to O37, O40, O41). -/

namespace Sys2Proof.Machine

/-! ### Every voice judged, whatever windows the voices hold -/

/-- A byte lies in a silent place that was given, between two states, to the voice of one of some slots, its block on an OFFLINE
die. -/
def State.silenceGiven (s t : State) (slots : Nat → Prop) (a : Nat) : Prop :=
  ∃ n i r l b, slots n ∧ (s.voice n).sounding = true ∧ s.layoutOf (s.voice n) = some l ∧
    (t.window (s.voice n).window).place i = .filled r ∧ r.damaged = true ∧
    (s.window (s.voice n).window).place i = .empty ∧ blockAddress l.extents r.block = some b ∧
    (s.die (b % 16)).state = .offline ∧ s.inRun (s.voice n).window i r l.format a

/-- What the judging of the voices of some slots for their next runs does, whether or not two voices hold one window. -/
structure State.Judging (slots : Nat → Prop) (s t : State) : Prop where
  kept : s.KeptButRuns t
  voices : ∀ n, (t.voice n).sounding = (s.voice n).sounding ∧ (t.voice n).window = (s.voice n).window ∧
    (t.voice n).sampleId = (s.voice n).sampleId
  silent : ∀ n, (s.voice n).sounding = false → t.voice n = s.voice n
  places : ∀ w i, (t.window w).place i = (s.window w).place i ∨
    ((s.window w).place i = .empty ∧ ∃ r, (t.window w).place i = .filled r)
  bytes : ∀ a, Memory.read t.dram a = Memory.read s.dram a ∨ (Memory.read t.dram a = 0#8 ∧ s.silenceGiven t slots a)

theorem State.Judging.refl (slots : Nat → Prop) (s : State) : State.Judging slots s s :=
  ⟨rfl, fun _ => ⟨rfl, rfl, rfl⟩, fun _ _ => rfl, fun _ _ => .inl rfl, fun _ => .inl rfl⟩

theorem State.Judging.more {some more : Nat → Prop} {s t : State} (h : State.Judging some s t) (le : ∀ n, some n → more n) :
    State.Judging more s t where
  kept := h.kept
  voices := h.voices
  silent := h.silent
  places := h.places
  bytes a := by
    obtain same | ⟨zero, n, i, r, l, b, judged, rest⟩ := h.bytes a
    · exact .inl same
    · exact .inr ⟨zero, n, i, r, l, b, le n judged, rest⟩

/-- A place given in the first part stays as it was given. -/
theorem State.Judging.filled {slots : Nat → Prop} {s t : State} (h : State.Judging slots s t) {w i : Nat} {r : Run}
    (k : (s.window w).place i = .filled r) : (t.window w).place i = .filled r := by
  obtain same | ⟨empty, -⟩ := h.places w i
  · exact same.trans k
  · rw [k] at empty
    cases empty

/-- A place EMPTY after the first part was EMPTY before it. -/
theorem State.Judging.empty {slots : Nat → Prop} {s t : State} (h : State.Judging slots s t) {w i : Nat}
    (k : (t.window w).place i = .empty) : (s.window w).place i = .empty := by
  obtain same | ⟨empty, -⟩ := h.places w i
  · exact same.symm.trans k
  · exact empty

theorem State.Judging.trans {slots : Nat → Prop} {s t u : State} (h : State.Judging slots s t) (k : State.Judging slots t u) :
    State.Judging slots s u where
  kept := h.kept.trans k.kept
  voices n := by
    obtain ⟨sounding, window, id⟩ := h.voices n
    obtain ⟨sounding', window', id'⟩ := k.voices n
    exact ⟨sounding'.trans sounding, window'.trans window, id'.trans id⟩
  silent n hn := (k.silent n ((h.voices n).1.trans hn)).trans (h.silent n hn)
  places w i := by
    obtain same | ⟨empty, filled⟩ := k.places w i
    · obtain same' | ⟨empty, filled⟩ := h.places w i
      · exact .inl (same.trans same')
      · exact .inr ⟨empty, by rw [same]; exact filled⟩
    · exact .inr ⟨h.empty empty, filled⟩
  bytes a := by
    obtain same | ⟨zero, n, i, r, l, b, judged, sounds, layout, filled, damaged, empty, block, off, inside⟩ := k.bytes a
    · obtain same' | ⟨zero, n, i, r, l, b, judged, sounds, layout, filled, rest⟩ := h.bytes a
      · exact .inl (same.trans same')
      · exact .inr ⟨same.trans zero, n, i, r, l, b, judged, sounds, layout, k.filled filled, rest⟩
    · obtain ⟨sounding, window, id⟩ := h.voices n
      rw [window] at filled empty inside
      exact .inr ⟨zero, n, i, r, l, b, judged, sounding.symm.trans sounds, (h.kept.layoutOf id).symm.trans layout, filled, damaged,
        h.empty empty, block, (congrArg Die.state (h.kept.die _)).symm.trans off, (h.kept.inRun _ _ _ _ _).mp inside⟩

/-- The judging of one voice. -/
theorem State.settleVoice_judging (s : State) (slot : Nat) : State.Judging (· = slot) s (s.settleVoice slot) := by
  have judged := s.settleVoice_judged slot
  refine ⟨judged.kept, judged.voices, fun n hn => ?_, fun w i => ?_, fun a => ?_⟩
  · by_cases e : n = slot
    · rw [State.settleVoice_silent (slot := slot) (e ▸ hn)]
    · exact judged.others n e
  · obtain same | ⟨empty, n, r, l, b, -, -, -, -, filled, -⟩ := judged.places w i
    · exact .inl same
    · exact .inr ⟨empty, r, filled⟩
  · by_cases given : s.givenSilence (s.settleVoice slot) (· = slot) a
    · refine .inr ⟨(judged.dram a).1 given, ?_⟩
      obtain ⟨n, i, r, l, is, sounds, layout, filled, damaged, empty, inside⟩ := given
      obtain same | ⟨-, m, r', l', b, is', -, -, layout', filled', -, block, off⟩ := judged.places (s.voice n).window i
      · rw [empty, filled] at same
        cases same
      · obtain rfl : m = n := is'.trans is.symm
        obtain rfl : r = r' := Place.filled.inj (filled.symm.trans filled')
        obtain rfl : l = l' := Option.some.inj (layout.symm.trans layout')
        exact ⟨m, i, r, l, b, is, sounds, layout, filled, damaged, empty, block, off, inside⟩
    · exact .inl ((judged.dram a).2 given)

theorem State.settleSlots_judging (slots : List Nat) : ∀ s : State,
    State.Judging (fun _ => True) s (slots.foldl State.settleVoice s) := by
  induction slots with
  | nil => exact State.Judging.refl _
  | cons x slots ih => exact fun s => ((s.settleVoice_judging x).more fun _ _ => trivial).trans (ih _)

theorem State.settleVoices_judging (s : State) : State.Judging (fun _ => True) s s.settleVoices := State.settleSlots_judging _ s

/-- The runs that every sounding voice was given at an event's end. -/
theorem State.GivenRuns.of_settleVoices {u t : State} (ready : u.resetting = false) (wf : Table.wf Voice.blank u.voices = true)
    (once : u.SoundedOnce) (posted : Closed u.settleVoices t) (s : State) (n : Nat) (sounds : (u.voice n).sounding = true) :
    s.GivenRuns t n (u.voice n) (u.window (u.voice n).window) := by
  intro l _ layout
  have kept := u.settleVoices_judging.kept
  have layouts : t.layoutOf (u.voice n) = u.layoutOf (u.voice n) := State.layoutOf_congr (by rw [posted.catalog, kept]) _
  have given := u.settleVoices_runs wf once ready n sounds l (layouts.symm.trans layout)
  rw [posted.voice, posted.window]
  refine given.congr ?_ ?_ (fun d => ?_) ?_
  · rw [posted.tunables, kept]
  · rw [posted.pace, kept]
  · rw [posted.die, kept]
    rfl
  · rw [posted.partition, kept]

/-! ### RUN and HALT -/

theorem takeRun_eq (t : Token) (s : State) :
    takeRun t s = { s with pace := if s.pace.running then s.pace else { s.pace with running := true, frame := 0 } }.complete t .ok
      (BitVec.ofNat 32 s.pace.position) (BitVec.ofNat 32 (s.pace.position / 2 ^ 32 % 2 ^ 16)) := by
  unfold takeRun
  split <;> rfl

/-- Settles O35: RUN, and HALT in its three cases. -/
theorem runAndHaltTaken : Obligations.RunAndHaltTaken := by
  refine ⟨fun h s k => ?_, fun h s k => ⟨fun stopped => ?_, fun running pending => ?_, fun running idle => ?_⟩⟩
  · obtain ⟨t, ht, done, posted⟩ := taken_answered (body := .run) k (takeRun_eq (s.tokenFor h) (s.beginTake h)) k.settled
      List.prefix_rfl rfl rfl
    exact ⟨t, ht, done, posted.pace, posted.streams⟩
  · have body : takeBody (s.tokenFor h) .halt (s.beginTake h) = (s.beginTake h).complete (s.tokenFor h) .ok
        (BitVec.ofNat 32 s.pace.position) (BitVec.ofNat 32 (s.pace.position / 2 ^ 32 % 2 ^ 16)) := by
      simp [takeBody, takeHalt, stopped, State.completePosition, lowWord, highWord]
    obtain ⟨t, ht, done, posted⟩ := taken_answered k body k.settled List.prefix_rfl rfl rfl
    exact ⟨t, ht, done, posted.pace, posted.streams⟩
  · have body : takeBody (s.tokenFor h) .halt (s.beginTake h) = (s.beginTake h).complete (s.tokenFor h) .busy 0#32 0#32 := by
      simp [takeBody, takeHalt, running, pending, State.refuse]
    obtain ⟨t, ht, done, posted⟩ := taken_answered k body k.settled List.prefix_rfl rfl rfl
    exact ⟨t, ht, done, posted.pace, posted.streams⟩
  · have body : takeBody (s.tokenFor h) .halt (s.beginTake h) =
        { s.beginTake h with pace := { s.pace with haltPending := some (s.tokenFor h) } } := by
      simp [takeBody, takeHalt, running, idle]
    obtain ⟨t, ht, long, posted, -⟩ := takenLong_of k body k.settled List.prefix_rfl rfl rfl
    exact ⟨t, s.takes, ht, long, posted.streams, posted.pace⟩

/-! ### LOCATE -/

/-- Settles O36: the refusals, and every sounding voice ended at one event. -/
theorem locateTaken : Obligations.LocateTaken := by
  refine fun h position s k c => ⟨fun beyond => ?_, fun inside running => ?_, fun inside stopped => ?_⟩
  · have body : takeBody (s.tokenFor h) (.locate position) (s.beginTake h) =
        (s.beginTake h).complete (s.tokenFor h) .badParam 0#32 0#32 := if_pos beyond
    obtain ⟨t, ht, done, posted⟩ := taken_answered k body k.settled List.prefix_rfl rfl rfl
    exact ⟨t, ht, done, posted.pace, posted.streams⟩
  · have body : takeBody (s.tokenFor h) (.locate position) (s.beginTake h) =
        (s.beginTake h).complete (s.tokenFor h) .busy 0#32 0#32 := (if_neg (Nat.not_le.mpr inside)).trans (if_pos running)
    obtain ⟨t, ht, done, posted⟩ := taken_answered k body k.settled List.prefix_rfl rfl rfl
    exact ⟨t, ht, done, posted.pace, posted.streams⟩
  · let u : State := { s.beginTake h with pace := { s.pace with position := position.toNat } }
    have canonical : u.Canonical := c.of_same rfl rfl rfl rfl rfl
    have body : takeBody (s.tokenFor h) (.locate position) (s.beginTake h) =
        (u.endVoices .located u.soundingSlots).complete (s.tokenFor h) .ok (BitVec.ofNat 32 s.soundingCount) 0#32 :=
      (if_neg (Nat.not_le.mpr inside)).trans (if_neg (Bool.eq_false_iff.mp stopped))
    have left := u.endVoices_left .located u.soundingSlots (State.soundingSlots_nodup canonical.voices) canonical
      fun n hn => (State.mem_soundingSlots canonical.voices n).mp hn
    obtain ⟨t, ht, posted, -, wrote, -⟩ := taken_wrote k body (by
      show s.out <+: (u.endVoices .located u.soundingSlots).out
      rw [left.kept]
      exact List.prefix_rfl)
    refine ⟨t, ht, wrote _ List.mem_cons_self, ?_, ?_⟩
    · rw [posted.pace]
      show (u.endVoices .located u.soundingSlots).pace = _
      rw [left.kept]
    · obtain ⟨voices, others, queue, windows, otherWindows, records, dies, dram⟩ := State.endVoices_allEnd .located canonical
        ((Posted.setCompletions _ _).trans posted) fun x hx => wrote x (List.mem_cons_of_mem _ hx)
      refine ⟨voices, others, queue, fun once n hn => ?_, otherWindows, fun id => ?_, ⟨dies.1, dies.2⟩, dram⟩
      · obtain ⟨points, emptied, queued, inFlight⟩ := windows once n hn
        exact ⟨points, emptied, queued, inFlight⟩
      · obtain ⟨untouched, counted, retired⟩ := records id
        exact ⟨untouched, counted, retired⟩

/-! ### SET_PACE -/

/-- The pace that settings leave (R85). -/
def Pace.applied (p : Pace) (x : PaceSettings) : Pace :=
  { p with source := x.source, internalRate := x.internalRate, period := x.period
           state := paceStateFor x.source p.clockPresent, frame := 0 }

theorem paceStateFor_eq (source : PaceSource) (present : Bool) :
    paceStateFor source present = if source = .internal then .internal else if present then .externalLocked else .freewheel := by
  cases source <;> rfl

theorem paceResult_eq (source : PaceSource) (present : Bool) :
    paceResult source present = if paceStateFor source present = .freewheel then .noClock else .ok := by
  cases source <;> cases present <;> rfl

theorem State.applyPace_eq (s : State) (x : PaceSettings) (t : Token) :
    s.applyPace x t = { s with pace := s.pace.applied x }.complete t
      (if paceStateFor x.source s.pace.clockPresent = PaceState.freewheel then .noClock else .ok)
      (BitVec.ofNat 32 (paceStateFor x.source s.pace.clockPresent).code) (BitVec.ofNat 32 s.pace.index) := by
  rw [← paceResult_eq]
  rfl

/-- Settles O37: the refusals, the settings pending, and the settings applied at once. -/
theorem setPaceTaken : Obligations.SetPaceTaken := by
  refine fun h p s k => ⟨fun invalid => ?_, fun x valid pending => ?_, fun x valid none running => ?_,
    fun x valid none stopped => ?_⟩
  · have body : takeBody (s.tokenFor h) (.setPace p) (s.beginTake h) =
        (s.beginTake h).complete (s.tokenFor h) .badParam 0#32 0#32 := by
      simp [takeBody, takeSetPace, invalid, State.refuse]
    obtain ⟨t, ht, done, posted⟩ := taken_answered k body k.settled List.prefix_rfl rfl rfl
    exact ⟨t, ht, done, posted.pace, posted.streams⟩
  · have body : takeBody (s.tokenFor h) (.setPace p) (s.beginTake h) =
        (s.beginTake h).complete (s.tokenFor h) .busy 0#32 0#32 := by
      simp [takeBody, takeSetPace, valid, pending, State.refuse]
    obtain ⟨t, ht, done, posted⟩ := taken_answered k body k.settled List.prefix_rfl rfl rfl
    exact ⟨t, ht, done, posted.pace, posted.streams⟩
  · have body : takeBody (s.tokenFor h) (.setPace p) (s.beginTake h) =
        { s.beginTake h with pace := { s.pace with pending := some (x, s.tokenFor h) } } := by
      simp [takeBody, takeSetPace, valid, none, running]
    obtain ⟨t, ht, long, posted, -⟩ := takenLong_of k body k.settled List.prefix_rfl rfl rfl
    exact ⟨t, s.takes, ht, long, posted.streams, posted.pace⟩
  · intro state
    have state_eq : paceStateFor x.source s.pace.clockPresent = state := paceStateFor_eq _ _
    let u := (s.beginTake h).applyPace x (s.tokenFor h)
    have applied : u = ({ s.beginTake h with pace := s.pace.applied x } : State).complete (s.tokenFor h)
        (if state = .freewheel then .noClock else .ok) (BitVec.ofNat 32 state.code) (BitVec.ofNat 32 s.pace.index) := by
      rw [← state_eq]
      exact State.applyPace_eq _ x _
    have body : takeBody (s.tokenFor h) (.setPace p) (s.beginTake h) = u.settleVoices := by
      simp [takeBody, takeSetPace, valid, none, stopped, u]
    have judging := u.settleVoices_judging
    have kept := judging.kept
    obtain ⟨t, ht, done, posted, -⟩ := takenDone_of (r := if state = .freewheel then .noClock else .ok)
      (x := BitVec.ofNat 32 state.code) (y := BitVec.ofNat 32 s.pace.index) k body
      (by rw [kept, applied]; exact congrArg (List.cons _) k.settled) (by rw [kept, applied]; exact List.prefix_rfl)
      (by rw [kept, applied]; rfl) (by unfold State.latched; rw [kept, applied]; rfl)
    have voices (n : Nat) : u.voice n = s.voice n := by
      rw [applied]
      rfl
    have windows (w : Nat) : u.window w = s.window w := by
      rw [applied]
      rfl
    have runs := State.GivenRuns.of_settleVoices (u := u) (t := t)
      (by rw [applied]; exact State.not_resetting_of (s := s) k.ready)
    refine ⟨t, ht, done, ?_, ⟨fun id => ?_, ?_, ?_, ?_⟩, ⟨?_, ?_⟩, ⟨fun d => ?_, ?_⟩, fun n silent => ?_,
      fun c once n sounds => ?_⟩
    · rw [posted.pace, kept, applied, ← state_eq]
      rfl
    · rw [posted.record, kept, applied]
      rfl
    · rw [posted.partition, kept, applied]
      rfl
    · rw [posted.reclaiming, kept, applied]
      rfl
    · rw [posted.recency, kept, applied]
      rfl
    · rw [posted.queue, kept, applied]
      rfl
    · rw [posted.enqueueCount, kept, applied]
      rfl
    · rw [posted.die, kept, applied]
      rfl
    · rw [posted.stores, kept, applied]
      rfl
    · rw [posted.voice, judging.silent n ((congrArg Voice.sounding (voices n)).trans silent), voices]
    · have given := runs (by rw [applied]; exact c.voices) (fun m n hm hn e => by
        rw [voices] at hm hn
        rw [voices, voices] at e
        exact once.sounded m n hm hn e) posted.closed s n ((congrArg Voice.sounding (voices n)).trans sounds)
      rwa [voices, windows] at given

/-! ### TUNE_ENGINE -/

/-- The state in which an accepted TUNE_ENGINE has set its tunables and moved the horizons (R97, R98, R173). -/
def State.tunedVoices (s : State) (p : TuneParams) : State :=
  if tuneNamed p 1 then ({ s with tunables := tuned s.tunables p } : State).settleVoices
  else { s with tunables := tuned s.tunables p }

theorem State.tunedVoices_judging (s : State) (p : TuneParams) :
    State.Judging (fun _ => True) { s with tunables := tuned s.tunables p } (s.tunedVoices p) := by
  unfold State.tunedVoices
  split
  · exact State.settleVoices_judging _
  · exact State.Judging.refl _ _

/-- Settles O40: the refusals, and the tunables set with the runs that they allow. -/
theorem tuneTaken : Obligations.TuneTaken := by
  refine fun h p s k => ⟨fun invalid => ?_, fun valid named low => ?_, fun valid high => ?_⟩
  · exact taken_refused (body := .tuneEngine p) k (by simp [takeBody, takeTuneEngine, invalid, State.refuse])
  · have below : (s.beginTake h).soundingCount = s.soundingCount := rfl
    exact taken_refused (body := .tuneEngine p) k
      (by simp [takeBody, takeTuneEngine, valid, tuneNamed, named, below, low, State.refuse])
  · let b := s.beginTake h
    have fits : (tuneNamed p 0 && decide (p.voiceLimit.toNat < b.soundingCount)) = false := by
      rw [Bool.and_eq_false_iff]
      by_cases named : p.mask.getLsbD 0 = true
      · exact .inr (decide_eq_false (Nat.not_lt.mpr (high named)))
      · exact .inl (Bool.eq_false_iff.mpr named)
    have body : takeBody (s.tokenFor h) (.tuneEngine p) b =
        (b.tunedVoices p).complete (s.tokenFor h) .ok (p.mask &&& 0x7FF#32) (BitVec.ofNat 32 s.soundingCount) := by
      show takeTuneEngine _ _ _ = _
      simp only [takeTuneEngine, valid, fits, Bool.not_true, Bool.false_eq_true, if_false]
      rfl
    have judging := b.tunedVoices_judging p
    have kept := judging.kept
    obtain ⟨t, ht, done, posted⟩ := taken_answered k body (by rw [kept]; exact k.settled) (by rw [kept]; exact List.prefix_rfl)
      (by rw [kept]) (by unfold State.latched; rw [kept]; rfl)
    refine ⟨t, ht, done, ⟨fun id => ?_, ?_, ?_, ?_⟩, ⟨?_, ?_⟩, ⟨fun d => ?_, ?_⟩, fun unnamed => ?_, fun n silent => ?_,
      fun named c once n sounds => ?_, ?_⟩
    · rw [posted.record, kept]
      rfl
    · rw [posted.partition, kept]
      rfl
    · rw [posted.reclaiming, kept]
      rfl
    · rw [posted.recency, kept]
      rfl
    · rw [posted.queue, kept]
      rfl
    · rw [posted.enqueueCount, kept]
      rfl
    · rw [posted.die, kept]
      rfl
    · rw [posted.stores, kept]
      rfl
    · have plain : b.tunedVoices p = { b with tunables := tuned b.tunables p } := if_neg (Bool.eq_false_iff.mp unnamed)
      rw [plain] at posted
      exact ⟨⟨posted.voice, posted.window, posted.startCount⟩, fun a => by rw [posted.dram]; rfl⟩
    · rw [posted.voice]
      exact judging.silent n silent
    · have all : b.tunedVoices p = ({ b with tunables := tuned b.tunables p } : State).settleVoices := if_pos named
      rw [all] at posted
      exact State.GivenRuns.of_settleVoices (u := { b with tunables := tuned b.tunables p })
        (State.not_resetting_of (s := s) k.ready) c.voices once.sounded ((Posted.setCompletions _ _).trans posted).closed s n sounds
    · rw [posted.tunables, kept]
      rfl

end Sys2Proof.Machine
end

section
/-! PROOFS. What no take of a request changes, and the advance after it (O41, O42). -/

namespace Sys2Proof.Machine

/-! ### The operations of the takes -/

/-- Only the library, the voices with their windows, the Fetch Queue and the completions changed. -/
def State.TakeKept (s t : State) : Prop :=
  t = { s with
    catalog := t.catalog, reclaiming := t.reclaiming, recency := t.recency, windows := t.windows, voices := t.voices
    queue := t.queue, completions := t.completions }

theorem State.TakeKept.refl (s : State) : s.TakeKept s := rfl

theorem State.TakeKept.trans {s t u : State} (h : s.TakeKept t) (k : t.TakeKept u) : s.TakeKept u := by
  unfold State.TakeKept at h k ⊢
  rw [k, h]

theorem State.TakeKept.ite {s t u : State} {c : Prop} [Decidable c] (h : s.TakeKept t) (k : s.TakeKept u) :
    s.TakeKept (if c then t else u) := by
  split
  · exact h
  · exact k

theorem State.TakeKept.complete {s t : State} (h : s.TakeKept t) (k : Token) (r : Result) (x y : Word) :
    s.TakeKept (t.complete k r x y) := h.trans rfl

theorem State.TakeKept.endVoice (reason : EndReason) (s : State) (slot : Nat) : s.TakeKept (State.endVoice reason s slot) := by
  rw [State.endVoice_eq]
  refine State.TakeKept.ite ?_ rfl
  rw [State.dropReference_kept]
  rfl

theorem State.TakeKept.endVoices (reason : EndReason) (slots : List Nat) : ∀ s : State, s.TakeKept (s.endVoices reason slots) := by
  induction slots with
  | nil => exact State.TakeKept.refl
  | cons x slots ih => exact fun s => (State.TakeKept.endVoice reason s x).trans (ih _)

theorem State.TakeKept.loseLoad (s : State) (id : Nat) (l : Load) (reason : EndReason) (slots : List Nat) (done : Completion)
    (f : Record → Record) : s.TakeKept (s.loseLoad id l reason slots done f) := by
  unfold State.loseLoad
  rw [State.releaseSlot_eq]
  exact State.TakeKept.trans (t := s.dropLoadEntries id (s.record id).generation) rfl
    ((State.TakeKept.endVoices reason slots _).trans rfl)

theorem State.TakeKept.abandonLoad (s : State) (id : Nat) (reason : EndReason) : s.TakeKept (s.abandonLoad id reason) := by
  cases load : (s.record id).load with
  | none =>
    simp only [State.abandonLoad, load]
    rfl
  | some l =>
    rw [State.abandonLoad_eq reason load]
    exact State.TakeKept.loseLoad ..

theorem State.TakeKept.failLoad (s : State) (id : Nat) (f : LoadFailure) : s.TakeKept (s.failLoad id f) := by
  cases load : (s.record id).load with
  | none =>
    simp only [State.failLoad, load]
    rfl
  | some l =>
    rw [State.failLoad_eq f load]
    exact State.TakeKept.loseLoad ..

theorem State.TakeKept.settleLoad (s : State) (id : Nat) : s.TakeKept (s.settleLoad id) := by
  simp only [State.settleLoad]
  split
  · exact State.TakeKept.ite (State.TakeKept.failLoad s id _) rfl
  · rfl

theorem State.TakeKept.settleRetiring (s : State) (id : Nat) : s.TakeKept (s.settleRetiring id) := by
  simp only [State.settleRetiring]
  split
  · split <;> rfl
  · rfl

/-- What the judging of voices for their next runs leaves, seen from a state in which the memory had already been written. -/
theorem State.TakeKept.of_runs {s u t : State} (h : s.TakeKept u) (kept : u.KeptButRuns t) :
    ({ s with dram := t.dram } : State).TakeKept t := by
  unfold State.TakeKept at h ⊢
  unfold State.KeptButRuns at kept
  rw [kept, h]

/-- Only what the die arbiter works at changed. -/
def State.DieKept (s t : State) : Prop :=
  t = { s with
    catalog := t.catalog, voices := t.voices, queue := t.queue, dies := t.dies, stores := t.stores, out := t.out
    completions := t.completions }

theorem State.DieKept.refl (s : State) : s.DieKept s := rfl

theorem State.DieKept.trans {s t u : State} (h : s.DieKept t) (k : t.DieKept u) : s.DieKept u := by
  unfold State.DieKept at h k ⊢
  rw [k, h]

theorem State.DieKept.foldl {α : Type} (f : State → α → State) (h : ∀ (s : State) x, s.DieKept (f s x)) (l : List α) :
    ∀ s : State, s.DieKept (l.foldl f s) := by
  induction l with
  | nil => exact State.DieKept.refl
  | cons x l ih => exact fun s => (h s x).trans (ih _)

theorem State.DieKept.issueRead (s : State) (d : Nat) (e : FetchEntry) : s.DieKept (s.issueRead d e) := by
  unfold State.issueRead State.raiseReads
  cases e.owner <;> rfl

theorem State.DieKept.chooseTransfer (s : State) (d : Nat) : s.DieKept (s.chooseTransfer d) := by
  unfold State.chooseTransfer
  split
  · split
    · exact State.DieKept.issueRead ..
    · rfl
  · exact State.DieKept.issueRead ..
  · rfl
  · rfl

theorem State.DieKept.chooseReady (d : Nat) (polls : List PollRequest) : ∀ s : State, s.DieKept (State.chooseReady d polls s) := by
  induction polls with
  | nil => exact fun s => State.DieKept.chooseTransfer s d
  | cons q rest ih =>
    intro s
    unfold State.chooseReady
    split
    · refine State.DieKept.trans ?_ (ih _)
      rfl
    · rfl

/-- What the die arbiter leaves alone (R129). -/
theorem State.DieKept.arbitrate (s : State) (d : Nat) : s.DieKept (s.arbitrate d) := by
  simp only [State.arbitrate]
  split
  · rfl
  · split
    · exact State.DieKept.chooseReady d _ s
    · split <;> rfl
    all_goals rfl

/-! ### The takes, kind by kind -/

/-- The state before a take with what its kind may change, beside the library and the voices, as the take leaves it. -/
def State.allowed (s : State) (body : RequestBody) (u : State) : State :=
  match body with
  | .configureMemory _ => { s with partition := u.partition }
  | .start _ => { s with
      startCount := u.startCount, dram := u.dram, registers := { s.registers with counters := u.registers.counters } }
  | .retune _ => { s with dram := u.dram }
  | .tuneEngine _ => { s with tunables := u.tunables, dram := u.dram }
  | .setPace _ => { s with pace := u.pace, dram := u.dram }
  | .run | .halt | .locate _ => { s with pace := u.pace }
  | .store _ | .probeDie _ | .reviveDie _ => { s with stores := u.stores, dies := u.dies, out := u.out }
  | .define _ | .setPin _ _ | .retire _ _ | .loadHead _ | .unloadHead _ | .release _ | .stop _ | .badKind _ => s

theorem takeRetire_kept (t : Token) (n : RecordName) (force : Byte) (s : State) : s.TakeKept (takeRetire t n force s) := by
  simp only [takeRetire]
  refine .ite rfl (.ite rfl (.ite rfl ?_))
  have ended : s.TakeKept (if byteSet force then s.endVoices .retired (s.slotsPlaying n.id.toNat n.generation) else s) :=
    .ite (State.TakeKept.endVoices ..) rfl
  generalize (if byteSet force then s.endVoices .retired (s.slotsPlaying n.id.toNat n.generation) else s) = u at ended ⊢
  have lost : s.TakeKept (if (s.record n.id.toNat).state = .loading then u.abandonLoad n.id.toNat .retired else u) :=
    .ite (ended.trans (State.TakeKept.abandonLoad ..)) ended
  refine lost.trans (State.TakeKept.trans ?_ (State.TakeKept.settleRetiring ..))
  rfl

theorem takeLoadHead_kept (t : Token) (n : RecordName) (s : State) : s.TakeKept (takeLoadHead t n s) := by
  simp only [takeLoadHead]
  refine .ite rfl (.ite rfl (.ite rfl (.ite rfl (.ite rfl (.ite rfl ?_)))))
  split
  · rfl
  · rename_i slot evicted _
    unfold State.acceptLoad
    refine State.TakeKept.trans ?_ (State.TakeKept.settleLoad ..)
    cases evicted <;> rfl

theorem takeUnloadHead_kept (t : Token) (n : RecordName) (s : State) : s.TakeKept (takeUnloadHead t n s) := by
  simp only [takeUnloadHead]
  refine .ite rfl ?_
  split
  · rfl
  · exact .ite rfl rfl
  · exact (State.TakeKept.abandonLoad s n.id.toNat .stale).trans rfl
  all_goals rfl

theorem takeRelease_kept (t : Token) (n : VoiceName) (s : State) : s.TakeKept (takeRelease t n s) := by
  simp only [takeRelease]
  refine .ite rfl (.ite rfl ?_)
  split <;> rfl

theorem takeStop_kept (t : Token) (n : VoiceName) (s : State) : s.TakeKept (takeStop t n s) := by
  simp only [takeStop]
  exact .ite rfl (.ite rfl ((State.TakeKept.endVoice ..).trans rfl))

theorem takeRetune_kept (t : Token) (p : RetuneParams) (s : State) :
    ({ s with dram := (takeRetune t p s).dram } : State).TakeKept (takeRetune t p s) := by
  simp only [takeRetune]
  split
  · rfl
  · split
    · rfl
    · split
      · exact State.TakeKept.complete (State.TakeKept.of_runs (s := s)
          (u := s.setVoice p.voice.slot.toNat ((s.voice p.voice.slot.toNat).retune p s.pace.running)) rfl
          (State.settleVoice_judging _ _).kept) ..
      · rfl

theorem takeSetPace_kept (t : Token) (p : PaceParams) (s : State) :
    ({ s with pace := (takeSetPace t p s).pace, dram := (takeSetPace t p s).dram } : State).TakeKept (takeSetPace t p s) := by
  simp only [takeSetPace]
  split
  · rfl
  · rename_i x _
    split
    · rfl
    · split
      · rfl
      · have kept := (s.applyPace x t).settleVoices_judging.kept
        have pace : (s.applyPace x t).settleVoices.pace = s.pace.applied x := by
          rw [kept]
          rfl
        rw [pace]
        exact State.TakeKept.of_runs (s := { s with pace := s.pace.applied x }) (u := s.applyPace x t) rfl kept

theorem takeTuneEngine_kept (t : Token) (p : TuneParams) (s : State) :
    ({ s with tunables := (takeTuneEngine t p s).tunables, dram := (takeTuneEngine t p s).dram } : State).TakeKept
      (takeTuneEngine t p s) := by
  simp only [takeTuneEngine]
  split
  · rfl
  · split
    · rfl
    · have kept := (s.tunedVoices_judging p).kept
      have tunables : (s.tunedVoices p).tunables = tuned s.tunables p := by rw [kept]
      show ({ s with tunables := (s.tunedVoices p).tunables, dram := (s.tunedVoices p).dram } : State).TakeKept
        ((s.tunedVoices p).complete _ _ _ _)
      rw [tunables]
      exact State.TakeKept.complete
        (State.TakeKept.of_runs (s := { s with tunables := tuned s.tunables p }) (u := { s with tunables := tuned s.tunables p })
          rfl kept) ..

theorem takeLocate_kept (t : Token) (position : BitVec 64) (s : State) :
    ({ s with pace := (takeLocate t position s).pace } : State).TakeKept (takeLocate t position s) := by
  simp only [takeLocate]
  split
  · rfl
  · split
    · rfl
    · have kept := State.TakeKept.endVoices .located s.soundingSlots { s with pace := { s.pace with position := position.toNat } }
      have pace : (State.endVoices .located { s with pace := { s.pace with position := position.toNat } } s.soundingSlots).pace =
          { s.pace with position := position.toNat } := by
        rw [kept]
      show ({ s with pace := (State.endVoices .located { s with pace := { s.pace with position := position.toNat } }
        s.soundingSlots).pace } : State).TakeKept _
      rw [pace]
      exact kept.complete ..

/-- What an accepted START changes beside the library and the voices. -/
theorem acceptStart_kept (s : State) (t : Token) (p : StartParams) (l : Layout) (slot w : Nat) :
    ({ s with startCount := (s.acceptStart t p l slot w).startCount, dram := (s.acceptStart t p l slot w).dram } :
      State).TakeKept (s.acceptStart t p l slot w) := by
  rw [State.acceptStart_eq]
  have kept := ((s.startPlaced p l slot w).settleVoice_judging slot).kept
  have count : ((s.startPlaced p l slot w).settleVoice slot).startCount = s.startCount + 1 := by
    rw [kept, State.startPlaced_kept]
  have placed : ({ s with startCount := s.startCount + 1 } : State).TakeKept (s.startPlaced p l slot w) := by
    unfold State.TakeKept
    rw [State.startPlaced_kept]
  show ({ s with startCount := ((s.startPlaced p l slot w).settleVoice slot).startCount
                 dram := ((s.startPlaced p l slot w).settleVoice slot).dram } : State).TakeKept _
  rw [count]
  exact (placed.of_runs kept).complete ..

theorem State.steal_kept (s : State) (victim : Nat) :
    ({ s with registers := { s.registers with counters := s.registers.counters.rise .steal } } : State).TakeKept (s.steal victim) := by
  have kept := State.TakeKept.endVoice .stolen s victim
  unfold State.TakeKept at kept ⊢
  unfold State.steal State.count
  rw [kept]

/-- A START is refused, or accepted in the state it finds or in the one its steal leaves. -/
theorem takeStart_cases (t : Token) (p : StartParams) (s : State) :
    (∃ r, takeStart t p s = s.refuse t r) ∨ ∃ l slot w u, takeStart t p s = u.acceptStart t p l slot w ∧
      s.lowestFreeSlot = some slot ∧ s.lowestFreeWindow = some w ∧ (u = s ∨ ∃ victim, s.victim = some victim ∧ u = s.steal victim) := by
  simp only [takeStart]
  split
  · exact .inl ⟨_, rfl⟩
  · split
    · exact .inl ⟨_, rfl⟩
    · split
      · exact .inl ⟨_, rfl⟩
      · split
        · exact .inl ⟨_, rfl⟩
        · split
          · exact .inl ⟨_, rfl⟩
          · rename_i l _
            split
            · exact .inl ⟨_, rfl⟩
            · split
              · exact .inl ⟨_, rfl⟩
              · exact .inl ⟨_, rfl⟩
              · exact .inl ⟨_, rfl⟩
              · rename_i slot w free window admitted
                exact .inr ⟨l, slot, w, s, rfl, free, window, .inl rfl⟩
              · rename_i slot w victim free window admitted
                exact .inr ⟨l, slot, w, _, rfl, free, window, .inr ⟨victim, State.admission_victim admitted, rfl⟩⟩

theorem takeStart_kept (t : Token) (p : StartParams) (s : State) :
    (s.allowed (.start p) (takeStart t p s)).TakeKept (takeStart t p s) := by
  obtain ⟨r, h⟩ | ⟨l, slot, w, u, h, -, -, from_s⟩ := takeStart_cases t p s
  · rw [h]
    rfl
  · rw [h]
    have kept := acceptStart_kept u t p l slot w
    obtain rfl | ⟨victim, -, rfl⟩ := from_s
    · unfold State.TakeKept at kept ⊢
      unfold State.allowed
      rw [kept]
    · have stolen := s.steal_kept victim
      unfold State.TakeKept at kept stolen ⊢
      unfold State.allowed
      rw [kept, stolen]

theorem Counters.rise_other (x : Counters) {a c : CounterName} (h : c ≠ a) : (x.rise a).value c = x.value c := by
  revert h
  cases a <;> cases c <;> simp [Counters.rise, Counters.value]

/-- A START raises the steal counter or none (R53). -/
theorem takeStart_counters (t : Token) (p : StartParams) (s : State) {c : CounterName} (h : c ≠ .steal) :
    (takeStart t p s).registers.counters.value c = s.registers.counters.value c := by
  obtain ⟨r, e⟩ | ⟨l, slot, w, u, e, -, -, from_s⟩ := takeStart_cases t p s
  · rw [e]
    rfl
  · rw [e, acceptStart_kept]
    obtain rfl | ⟨victim, -, rfl⟩ := from_s
    · rfl
    · rw [State.steal_kept]
      exact Counters.rise_other _ h

theorem State.acceptStore_kept (s : State) (t : Token) (p : StoreParams) : s.DieKept (s.acceptStore t p) := by
  unfold State.acceptStore State.arbitrateRange
  refine State.DieKept.trans ?_ (State.DieKept.foldl _ State.DieKept.arbitrate _ _)
  refine State.DieKept.trans ?_ (State.DieKept.foldl State.queueProgram (fun _ _ => rfl) _ _)
  rfl

theorem State.joinPolls_kept (s : State) (d : Nat) (q : PollRequest) : s.DieKept (s.joinPolls d q) := by
  refine State.DieKept.trans ?_ (State.DieKept.arbitrate ..)
  rfl

theorem State.DieKept.take {s t : State} (h : s.DieKept t) :
    ({ s with stores := t.stores, dies := t.dies, out := t.out } : State).TakeKept t := by
  unfold State.DieKept at h
  unfold State.TakeKept
  rw [h]

theorem takeStore_kept (t : Token) (p : StoreParams) (s : State) :
    (s.allowed (.store p) (takeStore t p s)).TakeKept (takeStore t p s) := by
  simp only [takeStore]
  split
  · rfl
  · split
    · rfl
    · split
      · rfl
      · split
        · rfl
        · split
          · rfl
          · exact (s.acceptStore_kept t p).take

/-- What a take of each kind may change. -/
theorem takeBody_kept (t : Token) (body : RequestBody) (s : State) :
    (s.allowed body (takeBody t body s)).TakeKept (takeBody t body s) := by
  cases body with
  | define p =>
    simp only [takeBody, takeDefine]
    split
    · rfl
    · exact .ite rfl (.ite rfl rfl)
  | setPin n pin => exact State.TakeKept.ite (s := s) rfl rfl
  | retire n force => exact takeRetire_kept t n force s
  | loadHead n => exact takeLoadHead_kept t n s
  | unloadHead n => exact takeUnloadHead_kept t n s
  | configureMemory p =>
    simp only [takeBody, takeConfigureMemory]
    split
    · rfl
    · split
      · rfl
      · split <;> rfl
  | start p => exact takeStart_kept t p s
  | release n => exact takeRelease_kept t n s
  | stop n => exact takeStop_kept t n s
  | retune p => exact takeRetune_kept t p s
  | run =>
    simp only [takeBody, takeRun]
    split <;> rfl
  | halt =>
    simp only [takeBody, takeHalt]
    split
    · rfl
    · split <;> rfl
  | locate position => exact takeLocate_kept t position s
  | setPace p => exact takeSetPace_kept t p s
  | store p => exact takeStore_kept t p s
  | probeDie die =>
    simp only [takeBody, takeProbeDie]
    split
    · rfl
    · split
      · rfl
      · exact (s.joinPolls_kept ..).take
  | reviveDie die =>
    simp only [takeBody, takeReviveDie]
    split
    · rfl
    · split
      · rfl
      · split
        · rfl
        · exact (s.joinPolls_kept ..).take
  | tuneEngine p => exact takeTuneEngine_kept t p s
  | badKind kind => rfl

/-! ### What a take of any kind leaves -/

/-- The blocks that no take reaches. -/
theorem takeBody_shared (t : Token) (body : RequestBody) (s : State) :
    (takeBody t body s).requests = s.requests ∧ (takeBody t body s).delivery = s.delivery ∧
      (takeBody t body s).enqueueCount = s.enqueueCount ∧ (takeBody t body s).freeCount = s.freeCount ∧
      (takeBody t body s).pending = s.pending ∧
      (takeBody t body s).registers = { s.registers with counters := (takeBody t body s).registers.counters } := by
  have kept := takeBody_kept t body s
  unfold State.TakeKept at kept
  generalize takeBody t body s = u at kept
  rw [kept]
  cases body <;> exact ⟨rfl, rfl, rfl, rfl, rfl, rfl⟩

theorem takeBody_counters (t : Token) (body : RequestBody) (s : State) {c : CounterName} (h : c ≠ .steal) :
    (takeBody t body s).registers.counters.value c = s.registers.counters.value c := by
  cases body with
  | start p => exact takeStart_counters t p s h
  | _ => rw [takeBody_kept]; rfl

/-! ### The memory -/

/-- A sounding voice holds its window. -/
theorem State.windowFree_sounding {s : State} {n : Nat} (h : (s.voice n).sounding = true) :
    s.windowFree (s.voice n).window = false := by
  obtain listed | blank := Table.get_mem Voice.blank s.voices n
  · unfold State.windowFree
    rw [List.all_eq_false]
    refine ⟨_, listed, ?_⟩
    have held := Voice.sounding_held h
    change ¬ (((s.voice n).state == .free || (s.voice n).window != (s.voice n).window) = true)
    simp [held]
  · unfold State.voice at h
    rw [blank] at h
    cases h

/-- The memory as an event found it, and the windows of the voices it judges: as it found them, or taken free and EMPTY. -/
structure State.PlacesFrom (slots : Nat → Prop) (s u : State) : Prop where
  dram : u.dram = s.dram
  partition : u.partition = s.partition
  places : ∀ n, slots n → (u.voice n).sounding = true →
    ((s.voice n).sounding = true ∧ (s.voice n).window = (u.voice n).window ∧
      u.window (u.voice n).window = s.window (u.voice n).window) ∨
    (s.windowFree (u.voice n).window = true ∧ ∀ i, (u.window (u.voice n).window).place i = .empty)

theorem State.PlacesFrom.of_same {s u : State} (slots : Nat → Prop) (dram : u.dram = s.dram) (partition : u.partition = s.partition)
    (voices : ∀ n, (u.voice n).sounding = (s.voice n).sounding ∧ (u.voice n).window = (s.voice n).window)
    (windows : u.windows = s.windows) : State.PlacesFrom slots s u :=
  ⟨dram, partition, fun n _ h => .inl ⟨(voices n).1.symm.trans h, (voices n).2.symm, State.window_congr windows _⟩⟩

theorem State.PlacesFrom.empty_or_free {slots : Nat → Prop} {s u : State} (h : State.PlacesFrom slots s u) {n : Nat}
    (judged : slots n) (sounds : (u.voice n).sounding = true) (i : Nat) :
    ((s.window (u.voice n).window).place i = .empty ∨ s.windowFree (u.voice n).window = true) ↔
      ((u.window (u.voice n).window).place i = .empty ∨ u.windowFree (u.voice n).window = true) := by
  obtain ⟨held, window, same⟩ | ⟨free, empty⟩ := h.places n judged sounds
  · have heldAfter := State.windowFree_sounding sounds
    have heldBefore := State.windowFree_sounding held
    rw [window] at heldBefore
    rw [same, heldBefore, heldAfter]
  · simp [free, empty]

theorem State.PlacesFrom.inRun {slots : Nat → Prop} {s u : State} (h : State.PlacesFrom slots s u) (w i : Nat) (r : Run) (f : Format)
    (a : Nat) : s.inRun w i r f a ↔ u.inRun w i r f a := by
  unfold State.inRun State.placeBase
  rw [h.partition]

/-- The event wrote 0 in silent places that it gave, and nothing else (R44, R106). -/
theorem State.PlacesFrom.onlySilence {slots : Nat → Prop} {s u v t : State} (h : State.PlacesFrom slots s u)
    (judging : State.Judging slots u v) (posted : Closed v t) : OnlySilenceWritten s t := by
  intro a
  rw [posted.dram, ← h.dram]
  obtain same | ⟨zero, n, i, r, l, b, judged, sounds, layout, filled, damaged, empty, block, off, inside⟩ := judging.bytes a
  · exact .inl same
  · obtain ⟨sounding, window, id⟩ := judging.voices n
    refine .inr ⟨zero, n, i, r, l, b, ?_, ?_, ?_, damaged, ?_, block, ?_, ?_⟩
    · rw [posted.voice, sounding, sounds]
    · rw [posted.voice, State.layoutOf_congr posted.catalog, judging.kept.layoutOf id, layout]
    · rw [posted.voice, posted.window, window, filled]
    · rw [posted.voice, window]
      exact (h.empty_or_free judged sounds i).mpr (.inl empty)
    · rw [posted.die, judging.kept.die, off]
    · rw [posted.voice, window]
      exact (h.inRun _ _ _ _ _).mpr inside

/-- The silent places that the event gave read 0, every other byte as before (R44, R106). -/
theorem State.PlacesFrom.silence {slots : Nat → Prop} {s u v t : State} (h : State.PlacesFrom (fun _ => True) s u)
    (judged : Judged slots u v) (once : u.SoundedOnce) (posted : Closed v t) : SilenceWritten s t := by
  have written := judged.silence once
  have area (a : Nat) : silentByte s t a ↔ silentByte u v a := by
    have each (n : Nat) (i : Nat) (sounds : (v.voice n).sounding = true) :
        ((s.window (v.voice n).window).place i = .empty ∨ s.windowFree (v.voice n).window = true) ↔
          ((u.window (v.voice n).window).place i = .empty ∨ u.windowFree (v.voice n).window = true) := by
      obtain ⟨sounding, window, -⟩ := judged.voices n
      rw [window]
      exact h.empty_or_free trivial (sounding.symm.trans sounds) i
    constructor
    · rintro ⟨n, i, r, l, b, sounds, layout, filled, damaged, empty, block, off, inside⟩
      rw [posted.voice] at sounds layout filled empty inside
      rw [State.layoutOf_congr posted.catalog] at layout
      rw [posted.window] at filled
      rw [posted.die] at off
      exact ⟨n, i, r, l, b, sounds, layout, filled, damaged, (each n i sounds).mp empty, block, off, (h.inRun _ _ _ _ _).mp inside⟩
    · rintro ⟨n, i, r, l, b, sounds, layout, filled, damaged, empty, block, off, inside⟩
      refine ⟨n, i, r, l, b, ?_, ?_, ?_, damaged, ?_, block, ?_, ?_⟩
      · rw [posted.voice, sounds]
      · rw [posted.voice, State.layoutOf_congr posted.catalog, layout]
      · rw [posted.voice, posted.window, filled]
      · rw [posted.voice]
        exact (each n i sounds).mpr empty
      · rw [posted.die, off]
      · rw [posted.voice]
        exact (h.inRun _ _ _ _ _).mpr inside
  intro a
  rw [area, posted.dram, ← h.dram]
  exact written a

/-- An event's judging of voices for their runs, before which it wrote nothing in the memory. -/
def State.RunsFrom (s v : State) : Prop :=
  ∃ slots u, State.Judging slots u v ∧ (u.SoundedOnce → ∃ judged, Judged judged u v) ∧ State.PlacesFrom slots s u ∧
    (s.Canonical → s.WindowsHeldOnce → State.PlacesFrom (fun _ => True) s u)

/-- No voice judged. -/
theorem State.RunsFrom.of_same {s u : State} (dram : u.dram = s.dram) (partition : u.partition = s.partition)
    (voices : ∀ n, (u.voice n).sounding = (s.voice n).sounding ∧ (u.voice n).window = (s.voice n).window)
    (windows : u.windows = s.windows) : s.RunsFrom u :=
  ⟨fun _ => True, u, State.Judging.refl _ u, fun _ => ⟨fun _ => True, Judged.refl _ u⟩,
    .of_same _ dram partition voices windows, fun _ _ => .of_same _ dram partition voices windows⟩

theorem State.RunsFrom.refl (s : State) : s.RunsFrom s := .of_same rfl rfl (fun _ => ⟨rfl, rfl⟩) rfl

/-- One voice judged, its window and whether it sounds kept. -/
theorem State.RunsFrom.of_settleVoice {s u : State} (slot : Nat) (dram : u.dram = s.dram) (partition : u.partition = s.partition)
    (voices : ∀ n, (u.voice n).sounding = (s.voice n).sounding ∧ (u.voice n).window = (s.voice n).window)
    (windows : u.windows = s.windows) : s.RunsFrom (u.settleVoice slot) :=
  ⟨_, u, u.settleVoice_judging slot, fun _ => ⟨_, u.settleVoice_judged slot⟩, .of_same _ dram partition voices windows,
    fun _ _ => .of_same _ dram partition voices windows⟩

/-- Every voice judged, their windows and whether they sound kept. -/
theorem State.RunsFrom.of_settleVoices {s u : State} (dram : u.dram = s.dram) (partition : u.partition = s.partition)
    (voices : ∀ n, (u.voice n).sounding = (s.voice n).sounding ∧ (u.voice n).window = (s.voice n).window)
    (windows : u.windows = s.windows) : s.RunsFrom u.settleVoices :=
  ⟨_, u, u.settleVoices_judging, fun once => ⟨_, u.settleVoices_judged once⟩, .of_same _ dram partition voices windows,
    fun _ _ => .of_same _ dram partition voices windows⟩

theorem State.RunsFrom.silence {s v t : State} (h : s.RunsFrom v) (posted : Closed v t)
    (windows : s.Canonical → s.WindowsHeldOnce → v.WindowsHeldOnce) :
    OnlySilenceWritten s t ∧ (s.Canonical → s.WindowsHeldOnce → SilenceWritten s t) := by
  obtain ⟨slots, u, judging, judged, some, all⟩ := h
  refine ⟨some.onlySilence judging posted, fun c once => ?_⟩
  have sounded : u.SoundedOnce := by
    intro m n hm hn e
    obtain ⟨soundM, windowM, -⟩ := judging.voices m
    obtain ⟨soundN, windowN, -⟩ := judging.voices n
    exact (windows c once).sounded m n (soundM.trans hm) (soundN.trans hn) (windowM.trans (e.trans windowN.symm))
  obtain ⟨_, j⟩ := judged sounded
  exact (all c once).silence j sounded posted

/-- The voice that an accepted START sets up holds a window that was free, now EMPTY; the voices still sounding kept theirs. -/
theorem State.PlacesFrom.start {s u : State} (p : StartParams) (l : Layout) {slot w : Nat} (slots : Nat → Prop) (dram : u.dram = s.dram)
    (partition : u.partition = s.partition) (window : s.lowestFreeWindow = some w)
    (others : ∀ n, n ≠ slot → slots n → (u.voice n).sounding = true → u.voice n = s.voice n ∧
      u.window (s.voice n).window = s.window (s.voice n).window) :
    State.PlacesFrom slots s (u.startPlaced p l slot w) := by
  have placed := u.startPlaced_kept p l slot w
  have voices := u.startPlaced_voices p l slot w
  have windows := u.startPlaced_windows p l slot w
  have free : s.windowFree w = true := (lowest_some window).2.1
  refine ⟨by rw [placed]; exact dram, by rw [placed]; exact partition, fun n judged sounds => ?_⟩
  by_cases e : n = slot
  · refine .inr ?_
    rw [e, State.voice_congr voices, State.voice_setVoice_same, State.window_congr windows]
    refine ⟨free, fun i => ?_⟩
    rw [show (u.newVoice p (u.record p.sample.id.toNat) l slot w).window = w from rfl, State.window_setWindow_same]
    rfl
  · refine .inl ?_
    have kept := (State.voice_congr voices n).trans (State.voice_setVoice_other u _ e)
    rw [kept] at sounds ⊢
    obtain ⟨same, place⟩ := others n e judged sounds
    rw [same] at sounds ⊢
    refine ⟨sounds, rfl, ?_⟩
    have apart : (s.voice n).window ≠ w := by
      intro hw
      have held := State.windowFree_sounding sounds
      rw [hw, free] at held
      cases held
    rw [State.window_congr windows, State.window_setWindow_other _ _ apart]
    exact place

/-- What a steal leaves of the voices that still sound (R45, R53, R71). -/
theorem State.steal_others {s : State} {victim n : Nat} (c : s.Canonical) (once : s.WindowsHeldOnce) (chosen : s.victim = some victim)
    (sounds : ((s.steal victim).voice n).sounding = true) :
    (s.steal victim).voice n = s.voice n ∧ (s.steal victim).window (s.voice n).window = s.window (s.voice n).window := by
  have held := State.victim_sounds c chosen
  have left : s.LeftBy (State.endVoice .stolen s victim) .stolen [victim] := s.endVoice_left .stolen victim held (c.places _)
  have apart : n ≠ victim := by
    rintro rfl
    have ended : (s.steal n).voice n = (s.voice n).endedWith .stolen := left.voices n (List.mem_singleton_self _)
    rw [ended] at sounds
    cases sounds
  have same : (s.steal victim).voice n = s.voice n := left.others n (by simpa using apart)
  rw [same] at sounds
  refine ⟨same, left.otherWindows _ fun m hm => ?_⟩
  rw [List.mem_singleton.mp hm]
  exact once victim n apart.symm (Voice.sounding_held held) (Voice.sounding_held sounds)

/-- The runs of an accepted START (R102, R106). -/
theorem State.RunsFrom.start {s u : State} (p : StartParams) (l : Layout) {slot w : Nat} (window : s.lowestFreeWindow = some w)
    (from_s : u = s ∨ ∃ victim, s.victim = some victim ∧ u = s.steal victim) :
    s.RunsFrom ((u.startPlaced p l slot w).settleVoice slot) := by
  have kept : u.dram = s.dram ∧ u.partition = s.partition := by
    obtain rfl | ⟨victim, -, rfl⟩ := from_s
    · exact ⟨rfl, rfl⟩
    · rw [State.steal_kept]
      exact ⟨rfl, rfl⟩
  refine ⟨_, _, State.settleVoice_judging _ slot, fun _ => ⟨_, State.settleVoice_judged _ slot⟩,
    .start p l _ kept.1 kept.2 window fun n apart judged _ => absurd judged apart,
    fun c once => .start p l _ kept.1 kept.2 window fun n apart _ sounds => ?_⟩
  obtain rfl | ⟨victim, chosen, rfl⟩ := from_s
  · exact ⟨rfl, rfl⟩
  · exact State.steal_others c once chosen sounds

theorem takeStart_runs (t : Token) (p : StartParams) (s : State) : ∃ v, s.RunsFrom v ∧ Posted v (takeStart t p s) := by
  obtain ⟨r, e⟩ | ⟨l, slot, w, u, e, -, window, from_s⟩ := takeStart_cases t p s
  · exact ⟨s, .refl s, e ▸ Posted.setCompletions _ _⟩
  · refine ⟨_, .start p l (slot := slot) window from_s, ?_⟩
    rw [e, State.acceptStart_eq]
    exact Posted.setCompletions _ _

theorem takeRetune_runs (t : Token) (p : RetuneParams) (s : State) : ∃ v, s.RunsFrom v ∧ Posted v (takeRetune t p s) := by
  simp only [takeRetune]
  split
  · exact ⟨s, .refl s, Posted.setCompletions _ _⟩
  · split
    · exact ⟨s, .refl s, Posted.setCompletions _ _⟩
    · split
      · refine ⟨_, .of_settleVoice p.voice.slot.toNat ?_ ?_ (fun n => ?_) ?_, Posted.setCompletions _ _⟩
        · rfl
        · rfl
        · by_cases e : n = p.voice.slot.toNat
          · rw [e, State.voice_setVoice_same]
            obtain ⟨state, window⟩ := (s.voice p.voice.slot.toNat).retune_kept p s.pace.running
            exact ⟨by unfold Voice.sounding; rw [state], window⟩
          · rw [State.voice_setVoice_other _ _ e]
            exact ⟨rfl, rfl⟩
        · rfl
      · exact ⟨s, .refl s, Posted.setCompletions _ _⟩

theorem takeTuneEngine_runs (t : Token) (p : TuneParams) (s : State) : ∃ v, s.RunsFrom v ∧ Posted v (takeTuneEngine t p s) := by
  simp only [takeTuneEngine]
  split
  · exact ⟨s, .refl s, Posted.setCompletions _ _⟩
  · split
    · exact ⟨s, .refl s, Posted.setCompletions _ _⟩
    · refine ⟨s.tunedVoices p, ?_, Posted.setCompletions _ _⟩
      unfold State.tunedVoices
      split
      · exact .of_settleVoices rfl rfl (fun _ => ⟨rfl, rfl⟩) rfl
      · exact .of_same rfl rfl (fun _ => ⟨rfl, rfl⟩) rfl

theorem takeSetPace_runs (t : Token) (p : PaceParams) (s : State) : ∃ v, s.RunsFrom v ∧ Posted v (takeSetPace t p s) := by
  simp only [takeSetPace]
  split
  · exact ⟨s, .refl s, Posted.setCompletions _ _⟩
  · split
    · exact ⟨s, .refl s, Posted.setCompletions _ _⟩
    · split
      · refine ⟨_, ?_, Posted.refl _⟩
        exact .of_same rfl rfl (fun _ => ⟨rfl, rfl⟩) rfl
      · refine ⟨_, ?_, Posted.refl _⟩
        exact .of_settleVoices rfl rfl (fun _ => ⟨rfl, rfl⟩) rfl

/-! ### The end of a take -/

theorem State.writeDone_latched (s : State) (c : Completion) {f : Flag} (h : s.latched f = true) : (s.writeDone c).latched f = true := by
  simp only [State.writeDone]
  split
  · exact State.latched_latch _ f .requestDone h
  · exact h

theorem State.flush_latched (s : State) {f : Flag} (h : s.latched f = true) : s.flush.latched f = true := by
  have each (l : List Completion) : ∀ u : State, u.latched f = true → (l.foldl State.writeDone u).latched f = true := by
    induction l with
    | nil => exact fun _ h => h
    | cons c l ih => exact fun u h => ih _ (u.writeDone_latched c h)
  exact each _ _ h

theorem State.writeStatuses_latched (s : State) (t : Token) {f : Flag} (h : s.latched f = true) :
    (s.writeStatuses t).latched f = true := by
  unfold State.writeStatuses
  split
  · exact s.flush_latched h
  · exact s.flush_latched h

/-- No flag is cleared by a take. -/
theorem taken_latched {s : State} {h : Header} {body : RequestBody} {f : Flag} (set : s.latched f = true) :
    (sendMessage s (s.takeRequest ⟨h, body⟩).flush).latched f = true := by
  rw [State.latched_sendMessage]
  refine State.flush_latched _ (State.advanceRequests_latched _ _ f (State.writeStatuses_latched _ _ ?_))
  obtain ⟨-, -, -, -, -, registers⟩ := takeBody_shared (s.tokenFor h) body (s.beginTake h)
  unfold State.latched
  rw [registers]
  exact set

theorem exec_take {s : State} (h : Header) (body : RequestBody) : exec (Request.arrival ⟨h, body⟩) s = event (arrival h body) s := by
  cases body <;> rfl

theorem takeBody_windows {s : State} {h : Header} {body : RequestBody} (c : s.Canonical) (once : s.WindowsHeldOnce) :
    (takeBody (s.tokenFor h) body (s.beginTake h)).WindowsHeldOnce :=
  (Orderly.takeBody (s.tokenFor h) body (s.beginTake h)).windows (c.of_same rfl rfl rfl rfl rfl) once

/-- What a take that may give runs writes in the memory (R44, R106). -/
theorem taken_silence {s t : State} {h : Header} {body : RequestBody}
    (runs : ∃ v, (s.beginTake h).RunsFrom v ∧ Posted v (takeBody (s.tokenFor h) body (s.beginTake h)))
    (posted : Posted (takeBody (s.tokenFor h) body (s.beginTake h)) t) :
    OnlySilenceWritten s t ∧ (s.Canonical → s.WindowsHeldOnce → SilenceWritten s t) := by
  obtain ⟨v, given, before⟩ := runs
  have written := given.silence (before.trans posted).closed fun c once m n => by
    have held := takeBody_windows (h := h) (body := body) (c.of_same rfl rfl rfl rfl rfl : s.Canonical) once m n
    rwa [before.voice, before.voice] at held
  exact ⟨written.1, fun c => written.2 (c.of_same rfl rfl rfl rfl rfl)⟩

/-- Settles O42: the blocks that no take reaches, and kind by kind what a take may change. -/
theorem takeFrame : Obligations.TakeFrame := by
  intro h body s t k done
  rw [exec_take, exec_arrival k] at done
  obtain rfl := Host.Outcome.next.inj done
  have flags := fun f => taken_latched (s := s) (h := h) (body := body) (f := f)
  have completions : (sendMessage s (s.takeRequest ⟨h, body⟩).flush).completions = [] := by
    rw [sendMessage_kept]
    exact State.flush_completions _
  have posted : Posted (takeBody (s.tokenFor h) body (s.beginTake h)) (sendMessage s (s.takeRequest ⟨h, body⟩).flush) :=
    (Posted.takeRequest s ⟨h, body⟩).trans ((Posted.flush _).trans (Posted.sendMessage _ _))
  generalize sendMessage s (s.takeRequest ⟨h, body⟩).flush = t at *
  obtain ⟨-, delivery, enqueueCount, freeCount, pending, registers⟩ := takeBody_shared (s.tokenFor h) body (s.beginTake h)
  have kept := takeBody_kept (s.tokenFor h) body (s.beginTake h)
  have after := posted.registers
  rw [registers] at after
  refine ⟨posted.delivery.trans delivery, by rw [after]; rfl, by rw [after]; rfl, by rw [after]; rfl, by rw [after]; rfl,
    by rw [after]; rfl, by rw [after]; rfl, by rw [after]; rfl, posted.enqueueCount.trans enqueueCount,
    ⟨posted.freeCount.trans freeCount, posted.pending.trans pending, completions.trans k.settled.symm⟩, flags,
    fun c other => ?_, ?_, ?_, ?_, ?_, ?_, ?_⟩
  · rw [posted.registers]
    exact takeBody_counters _ body _ other
  · cases body with
    | start p => exact taken_silence (body := .start p) (takeStart_runs ..) posted
    | retune p => exact taken_silence (body := .retune p) (takeRetune_runs ..) posted
    | tuneEngine p => exact taken_silence (body := .tuneEngine p) (takeTuneEngine_runs ..) posted
    | setPace p => exact taken_silence (body := .setPace p) (takeSetPace_runs ..) posted
    | _ => exact fun a => by rw [posted.dram, kept]; rfl
  · cases body with
    | run | halt | locate _ | setPace _ => trivial
    | _ => rw [posted.pace, kept]; rfl
  · cases body with
    | tuneEngine _ => trivial
    | _ => rw [posted.tunables, kept]; rfl
  · cases body with
    | configureMemory _ => trivial
    | _ => rw [posted.partition, kept]; rfl
  · cases body with
    | start _ => trivial
    | _ => exact ⟨by rw [posted.startCount, kept]; rfl, by rw [posted.registers, kept]; rfl⟩
  · cases body with
    | store _ | probeDie _ | reviveDie _ => trivial
    | _ => rw [posted.stores, kept]; rfl

/-! ### BAD_KIND and the advance -/

theorem State.flush_requests (s : State) : ∃ tag, s.flush.requests = { s.requests with lastTag := tag } := by
  have each (l : List Completion) : ∀ u : State, ∃ tag, (l.foldl State.writeDone u).requests = { u.requests with lastTag := tag } := by
    induction l with
    | nil => exact fun u => ⟨u.requests.lastTag, rfl⟩
    | cons c l ih =>
      intro u
      obtain ⟨tag, h⟩ := ih (u.writeDone c)
      exact ⟨tag, h.trans (by rw [State.writeDone_lastTag])⟩
  exact each _ _

/-- The Request Processor as the statuses of a take leave it for the advance (R169, R170). -/
theorem State.writeStatuses_requests (s : State) (t : Token) : ∃ tag, (s.writeStatuses t).requests = { s.requests with lastTag := tag } := by
  unfold State.writeStatuses
  split
  · exact s.flush_requests
  · exact s.flush_requests

theorem State.writeStatuses_completions (s : State) (t : Token) : (s.writeStatuses t).completions = [] := by
  unfold State.writeStatuses
  split
  · exact s.flush_completions
  · exact s.flush_completions

/-- The state from which a take advances, and what the advance leaves at the end of the event (R167, R169, R170). -/
theorem taken_advance {s : State} (k : s.Taking) (h : Header) (body : RequestBody) :
    ∃ (u : State) (tag : _), exec (Request.arrival ⟨h, body⟩) s = .next (sendMessage s (u.advanceRequests h.next)) ∧ u.resetting = false ∧
      u.requests = { s.requests with
        takenCount := s.requests.takenCount + 1#32, heldNext := some h.next, read := .none, held := none, lastTag := tag } := by
  let b := takeBody (s.tokenFor h) body (s.beginTake h)
  obtain ⟨requests, -, -, -, -, registers⟩ := takeBody_shared (s.tokenFor h) body (s.beginTake h)
  obtain ⟨tag, tagged⟩ := b.writeStatuses_requests (s.tokenFor h)
  have posted : Posted b (b.writeStatuses (s.tokenFor h)) := Posted.writeStatuses _ _
  refine ⟨b.writeStatuses (s.tokenFor h), tag, ?_, ?_, ?_⟩
  · rw [exec_take, exec_arrival k]
    have settled : (s.takeRequest ⟨h, body⟩).completions = [] :=
      (State.advanceRequests_completions _ _).trans (State.writeStatuses_completions _ _)
    rw [State.flush_settled _ settled]
    rfl
  · refine State.not_resetting_of ?_
    rw [posted.registers, registers]
    exact k.ready
  · rw [tagged, requests]
    simp [State.beginTake, k.begun]

/-- The advance after a take (R167, R187). -/
theorem advance_taken (h : Header) (body : RequestBody) (s : State) (k : s.Taking) :
    ∃ t, exec (Request.arrival ⟨h, body⟩) s = .next t ∧ t.requests.takenCount = s.requests.takenCount + 1#32 ∧
      (h.next ≠ 0#64 → requestAligned h.next = true →
        t.requests.state = .fetching ∧ t.requests.waiting = false ∧ t.requests.address = h.next ∧
          t.requests.read = .descriptor ∧ .hostRead h.next 256 ∈ t.out) ∧
      (h.next ≠ 0#64 → requestAligned h.next = false →
        t.requests.state = .parked ∧ t.requests.parkReason = some .linkError ∧ t.requests.address = h.next ∧
          t.latched .portError = true) ∧
      (h.next = 0#64 → s.requests.resumePending = false →
        t.requests.state = .parked ∧ t.requests.parkReason = some .endOfList ∧
          t.requests.address = s.requests.address) ∧
      (h.next = 0#64 → s.requests.resumePending = true →
        t.requests.state = .fetching ∧ t.requests.read = .nextAtAdvance ∧ t.requests.resumePending = false ∧
          t.requests.address = s.requests.address ∧ .hostRead s.requests.address 8 ∈ t.out) := by
  obtain ⟨u, tag, ht, ready, requests⟩ := taken_advance k h body
  refine ⟨_, ht, ?_, fun other aligned => ?_, fun other misaligned => ?_, fun zero none => ?_, fun zero pending => ?_⟩
  · rw [sendMessage_kept]
    exact (State.advanceRequests_counts u h.next).1.trans (by rw [requests])
  · have began : u.advanceRequests h.next = u.fetchRequest h.next := if_pos other
    have out : .hostRead h.next 256 ∈ (u.advanceRequests h.next).out := by
      rw [began, State.fetchRequest_begins ready aligned]
      exact List.mem_append_right _ (List.mem_singleton_self _)
    rw [sendMessage_kept]
    refine ⟨?_, ?_, ?_, ?_, (Posted.sendMessage s (u.advanceRequests h.next)).1.subset out⟩
    all_goals rw [began, State.fetchRequest_begins ready aligned]
    · rfl
    · exact ready
    · rfl
    · rfl
  · have parked : u.advanceRequests h.next = u.parkRequestsLinkError h.next false := by
      simp [State.advanceRequests, other, State.fetchRequest, ready, misaligned]
    rw [State.latched_sendMessage, sendMessage_kept, parked]
    exact ⟨rfl, rfl, rfl, State.latched_same _ _⟩
  · have idle : u.requests.resumePending = false := by rw [requests]; exact none
    have parked : u.advanceRequests h.next = u.parkRequestsEnd := by
      simp [State.advanceRequests, zero, idle]
    rw [sendMessage_kept, parked]
    exact ⟨rfl, rfl, by simp [State.parkRequestsEnd, requests]⟩
  · have asked : u.requests.resumePending = true := by rw [requests]; exact pending
    have address : u.requests.address = s.requests.address := by rw [requests]
    have reread : u.advanceRequests h.next = u.rereadAtAdvance := by
      simp [State.advanceRequests, zero, asked]
    have out : .hostRead s.requests.address 8 ∈ (u.advanceRequests h.next).out := by
      rw [reread, ← address]
      simp [State.rereadAtAdvance, State.rereadFetching, ready, State.emit]
    rw [sendMessage_kept]
    refine ⟨?_, ?_, ?_, ?_, (Posted.sendMessage s (u.advanceRequests h.next)).1.subset out⟩
    all_goals rw [reread]; simp [State.rereadAtAdvance, State.rereadFetching, ready, State.emit, address]

/-- Settles O41: the kind refused, then the advance. -/
theorem badKindAndAdvance : Obligations.BadKindAndAdvance := by
  refine ⟨fun h kind s k => ?_, fun h body s k => advance_taken h body s k⟩
  obtain ⟨t, ht, done, posted⟩ := taken_answered (body := .badKind kind) k (u := s.beginTake h) rfl k.settled List.prefix_rfl rfl rfl
  exact ⟨t, ht, ⟨_, _, done⟩, posted.streams, posted.pace, posted.delivery⟩

end Sys2Proof.Machine
end

section
/-! PROOFS. The takes of the Die Controllers' requests: PROBE_DIE, REVIVE_DIE and STORE (O38, O39). -/

namespace Sys2Proof.Machine

/-! ### PROBE_DIE and REVIVE_DIE -/

/-- The request body of a PROBE_DIE or a REVIVE_DIE. -/
def pollBody (die : Byte) (revive : Bool) : RequestBody := if revive then .reviveDie die else .probeDie die

theorem exec_pollBody (h : Header) (die : Byte) (revive : Bool) (s : State) :
    exec (if revive then .reviveDie h die else .probeDie h die) s = event (arrival h (pollBody die revive)) s := by
  cases revive <;> rfl

theorem dieValid_iff (die : Byte) : dieValid die = true ↔ die.toNat < 16 := decide_eq_true_iff

theorem State.dieOffline_iff (s : State) (d : Nat) : s.dieOffline d = true ↔ (s.die d).state = .offline := beq_iff_eq

theorem takePoll_invalid {die : Byte} (t : Token) (revive : Bool) (s : State) (h : 16 ≤ die.toNat) :
    takeBody t (pollBody die revive) s = s.refuse t .badParam := by
  have invalid : dieValid die = false := decide_eq_false (Nat.not_lt.mpr h)
  cases revive <;> simp [pollBody, takeBody, takeProbeDie, takeReviveDie, invalid]

/-- A request of a die that may be polled: refused where the list is full, else at its end (R127, R128). -/
theorem takePoll_valid {die : Byte} {revive : Bool} {s : State} (t : Token) (h : die.toNat < 16)
    (off : revive = true → (s.die die.toNat).state = .offline) :
    takeBody t (pollBody die revive) s =
      if 4 ≤ (s.die die.toNat).polls.length then s.refuse t .busy else s.joinPolls die.toNat { revive := revive, token := t } := by
  have valid : dieValid die = true := (dieValid_iff die).mpr h
  have full : s.pollsFull die.toNat = decide (4 ≤ (s.die die.toNat).polls.length) := rfl
  cases revive with
  | false => simp [pollBody, takeBody, takeProbeDie, valid, full]
  | true =>
    have offline : s.dieOffline die.toNat = true := (s.dieOffline_iff _).mpr (off rfl)
    simp [pollBody, takeBody, takeReviveDie, valid, full, offline]

/-- A die at work keeps its operation when a request joins its list (R127). -/
theorem State.joinPolls_busy {s : State} {d : Nat} (q : PollRequest) (h : (s.die d).operation.isSome = true) :
    s.joinPolls d q = s.setDie d { s.die d with polls := (s.die d).polls ++ [q] } := by
  unfold State.joinPolls State.arbitrate
  rw [State.die_setDie_same]
  simp [h]

/-- An idle die begins the POLL at once (R127, R129). -/
theorem State.joinPolls_idle {s : State} {d : Nat} (q : PollRequest) (ready : s.resetting = false)
    (idle : (s.die d).operation = none)
    (state : (s.die d).state = .offline ∨ ((s.die d).state = .ready ∧ (s.die d).polls = [] ∧ q.revive = false)) :
    s.joinPolls d q = (s.setDie d { s.die d with polls := (s.die d).polls ++ [q] }).issuePoll d := by
  have kept : (s.setDie d { s.die d with polls := (s.die d).polls ++ [q] }).resetting = false := ready
  unfold State.joinPolls State.arbitrate
  rw [State.die_setDie_same, kept]
  obtain off | ⟨idleState, none, probe⟩ := state
  · simp [idle, off]
  · simp [idle, idleState, none, State.chooseReady, probe]

/-- Settles O39: the refusals, and the request joined to the die's list. -/
theorem probeAndRevive : Obligations.ProbeAndRevive := by
  intro h die revive s c k command
  rw [command, exec_pollBody]
  refine ⟨fun beyond => ?_, fun inside isRevive serving => ?_, fun inside off => ⟨fun full => ?_, fun room idle state => ?_,
    fun room busy => ?_⟩⟩
  · exact taken_refused k (takePoll_invalid _ revive _ beyond)
  · refine taken_refused k ?_
    have valid : dieValid die = true := (dieValid_iff die).mpr inside
    have online : (s.beginTake h).dieOffline die.toNat = false :=
      Bool.eq_false_iff.mpr fun e => serving ((State.dieOffline_iff _ _).mp e)
    simp [pollBody, isRevive, takeBody, takeReviveDie, valid, online]
  · exact taken_refused k ((takePoll_valid (s := s.beginTake h) _ inside off).trans (if_pos full))
  · let x := s.die die.toNat
    let q : PollRequest := { revive := revive, token := s.tokenFor h }
    let u := (s.beginTake h).setDie die.toNat { x with polls := x.polls ++ [q] }
    have probe : x.state = .offline ∨ (x.state = .ready ∧ x.polls = [] ∧ q.revive = false) := by
      obtain off' | ⟨ready, none⟩ := state
      · exact .inl off'
      · refine .inr ⟨ready, none, Bool.eq_false_iff.mpr fun e => ?_⟩
        rw [off e] at ready
        cases ready
    have body : takeBody (s.tokenFor h) (pollBody die revive) (s.beginTake h) = u.issuePoll die.toNat :=
      ((takePoll_valid (s := s.beginTake h) _ inside off).trans (if_neg (Nat.not_le.mpr room))).trans
        (State.joinPolls_idle (s := s.beginTake h) q (State.not_resetting_of k.ready) idle probe)
    obtain ⟨t, ht, long, posted, -⟩ := takenLong_of k body k.settled ⟨[.diePoll die.toNat], rfl⟩ rfl rfl
    refine ⟨t, s.takes, ht, long, fun d other => ?_, ?_, ?_⟩
    · rw [posted.die]
      exact (State.die_setDie_other _ _ other).trans (State.die_setDie_other _ _ other)
    · rw [posted.die]
      refine (State.die_setDie_same _ _ _).trans ?_
      have same : u.die die.toNat = { x with polls := x.polls ++ [q] } := State.die_setDie_same _ _ _
      rw [same]
      rfl
    · exact posted.1.subset (List.mem_append_right _ (List.mem_singleton_self _))
  · have body : takeBody (s.tokenFor h) (pollBody die revive) (s.beginTake h) =
        (s.beginTake h).setDie die.toNat { s.die die.toNat with
          polls := (s.die die.toNat).polls ++ [{ revive := revive, token := s.tokenFor h }] } :=
      ((takePoll_valid (s := s.beginTake h) _ inside off).trans (if_neg (Nat.not_le.mpr room))).trans
        (State.joinPolls_busy (s := s.beginTake h) _ busy)
    obtain ⟨t, ht, long, posted, -⟩ := takenLong_of k body k.settled List.prefix_rfl rfl rfl
    refine ⟨t, s.takes, ht, long, fun d other => ?_, ?_⟩
    · rw [posted.die]
      exact State.die_setDie_other _ _ other
    · rw [posted.die]
      exact State.die_setDie_same _ _ _

/-! ### STORE refused -/

/-- The refusals of STORE, in the order of its checks (R131). -/
theorem store_refused (h : Header) (p : StoreParams) (s : State) (k : s.Taking) :
    let refused (r : Result) : Prop := ∃ t, exec (.store h p) s = .next t ∧ TakenDone s t h r 0#32 0#32 ∧ SameStreams s t
    let first := p.first.toNat
    let count := p.count.toNat
    (storeValid p = false → refused .badParam) ∧
    (storeValid p = true → 4 ≤ s.stores.length → refused .busy) ∧
    (storeValid p = true → s.stores.length < 4 →
      (s.recordForbids first count = true → refused .claimed) ∧
      (s.recordForbids first count = false → s.storeClaims [{ start := first, count := count }] = true →
        refused .claimed) ∧
      (s.recordForbids first count = false → s.storeClaims [{ start := first, count := count }] = false →
        s.rangeOffline first count = true → refused .dieOffline)) := by
  intro refused first count
  have refuse {x : Result} (body : takeStore (s.tokenFor h) p (s.beginTake h) = (s.beginTake h).refuse (s.tokenFor h) x) :
      refused x := taken_refused (body := .store p) k body
  refine ⟨fun invalid => refuse ?_, fun valid full => refuse ?_, fun valid room => ⟨fun forbids => refuse ?_,
    fun allows claims => refuse ?_, fun allows unclaimed offline => refuse ?_⟩⟩
  · simp [takeStore, invalid]
  · have many : Config.storeLimit ≤ s.stores.length := full
    simp [takeStore, valid, many]
  all_goals
    have few : ¬ Config.storeLimit ≤ s.stores.length := Nat.not_le.mpr room
  · have known : (s.beginTake h).recordForbids p.first.toNat p.count.toNat = true := forbids
    simp [takeStore, valid, few, known]
  · have known : (s.beginTake h).recordForbids p.first.toNat p.count.toNat = false := allows
    have claimed : (s.beginTake h).storeClaims [{ start := p.first.toNat, count := p.count.toNat }] = true := claims
    simp [takeStore, valid, few, known, claimed]
  · have known : (s.beginTake h).recordForbids p.first.toNat p.count.toNat = false := allows
    have free : (s.beginTake h).storeClaims [{ start := p.first.toNat, count := p.count.toNat }] = false := unclaimed
    have off : (s.beginTake h).rangeOffline p.first.toNat p.count.toNat = true := offline
    simp [takeStore, valid, few, known, free, off]

/-! ### The programs of an accepted STORE -/

theorem mem_rangeBlocks {first count a : Nat} : a ∈ rangeBlocks first count ↔ first ≤ a ∧ a < first + count := by
  simp only [rangeBlocks, List.mem_map, List.mem_range]
  constructor
  · rintro ⟨i, hi, rfl⟩
    omega
  · exact fun ⟨low, high⟩ => ⟨a - first, by omega, by omega⟩

theorem mem_rangeDies {first count d : Nat} : d ∈ rangeDies first count ↔ ∃ a, first ≤ a ∧ a < first + count ∧ a % 16 = d := by
  simp only [rangeDies, List.mem_filter, List.mem_range, List.any_eq_true, beq_iff_eq, mem_rangeBlocks]
  constructor
  · rintro ⟨-, a, ⟨low, high⟩, e⟩
    exact ⟨a, low, high, e⟩
  · rintro ⟨a, low, high, e⟩
    exact ⟨e ▸ Nat.mod_lt a (by decide), a, ⟨low, high⟩, e⟩

/-- Program entries queued change the program queues alone (R132). -/
theorem State.queuePrograms_kept (ps : List ProgramEntry) : ∀ s : State,
    ps.foldl State.queueProgram s = { s with dies := (ps.foldl State.queueProgram s).dies } := by
  induction ps with
  | nil => exact fun s => rfl
  | cons p ps ih =>
    intro s
    rw [List.foldl_cons, ih (s.queueProgram p)]
    rfl

theorem State.queuePrograms_die (ps : List ProgramEntry) (d : Nat) : ∀ s : State,
    (ps.foldl State.queueProgram s).die d =
      { s.die d with programs := (s.die d).programs ++ ps.filter fun p => dieOf p.address == d } := by
  induction ps with
  | nil => exact fun s => by simp
  | cons p ps ih =>
    intro s
    rw [List.foldl_cons, ih (s.queueProgram p), List.filter_cons]
    by_cases e : dieOf p.address = d
    · subst e
      have one : (s.queueProgram p).die (dieOf p.address) =
          { s.die (dieOf p.address) with programs := (s.die (dieOf p.address)).programs ++ [p] } := State.die_setDie_same _ _ _
      rw [one, if_pos (beq_self_eq_true _)]
      simp
    · have same : (s.queueProgram p).die d = s.die d := State.die_setDie_other _ _ fun k => e k.symm
      rw [same, if_neg (by simpa using e)]

/-- A program entry waits at a die or is the one it works at. -/
def State.stands (s : State) (d : Nat) (e : ProgramEntry) : Prop :=
  e ∈ (s.die d).programs ∨ (s.die d).operation.map Operation.work = some (.program e)

/-- Of some dies none is OFFLINE, and none idle has anything waiting but programs. -/
def State.onlyPrograms (s : State) (dies : List Nat) : Prop :=
  ∀ d ∈ dies, (s.die d).state ≠ .offline ∧ ((s.die d).operation = none → s.subQueue d = [] ∧ (s.die d).polls = [])

/-- A STORE's entry, its counts of programs apart. -/
def StoreEntry.counted (x y : StoreEntry) : Prop := y = { x with queued := y.queued, inFlight := y.inFlight }

/-- What the arbiters of some dies do where only programs wait (R129, R133). -/
structure State.ProgramsBegun (dies : List Nat) (s t : State) : Prop where
  kept : t = { s with dies := t.dies, stores := t.stores, out := t.out }
  out : s.out <+: t.out
  others : ∀ d, d ∉ dies → t.die d = s.die d
  stands : ∀ d e, s.stands d e → t.stands d e
  length : t.stores.length = s.stores.length
  stores : ∀ x ∈ s.stores, ∃ y ∈ t.stores, x.counted y
  waiting : ∀ l, s.onlyPrograms l → t.onlyPrograms l

theorem State.ProgramsBegun.refl (dies : List Nat) (s : State) : State.ProgramsBegun dies s s :=
  ⟨rfl, List.prefix_rfl, fun _ _ => rfl, fun _ _ => id, rfl, fun x hx => ⟨x, hx, rfl⟩, fun _ => id⟩

theorem State.ProgramsBegun.trans {dies : List Nat} {s t u : State} (h : State.ProgramsBegun dies s t)
    (k : State.ProgramsBegun dies t u) : State.ProgramsBegun dies s u where
  kept := by
    have e := k.kept
    rw [h.kept] at e
    exact e
  out := h.out.trans k.out
  others d hd := (k.others d hd).trans (h.others d hd)
  stands d e he := k.stands d e (h.stands d e he)
  length := k.length.trans h.length
  stores x hx := by
    obtain ⟨y, hy, first⟩ := h.stores x hx
    obtain ⟨z, hz, second⟩ := k.stores y hy
    unfold StoreEntry.counted at first second
    exact ⟨z, hz, by unfold StoreEntry.counted; rw [second, first]⟩
  waiting l hl := k.waiting l (h.waiting l hl)

/-- An idle die begins the head of its program queue (R133). -/
theorem State.issueProgram_begun {s : State} {d : Nat} {p : ProgramEntry} {rest : List ProgramEntry} {dies : List Nat}
    (listed : d ∈ dies) (idle : (s.die d).operation = none) (waiting : (s.die d).programs = p :: rest) :
    State.ProgramsBegun dies s (s.issueProgram d p rest) := by
  have set (x : Nat) : (s.issueProgram d p rest).die x = (s.setDie d { s.die d with
      state := .addressing, programs := rest
      operation := some { work := .program p, attempt := 1, discard := false, pollInterval := s.tunables.pollInterval
                          timeout := s.tunables.programTimeout } }).die x := rfl
  have same := (set d).trans (State.die_setDie_same _ _ _)
  have other (x : Nat) (hx : x ≠ d) : (s.issueProgram d p rest).die x = s.die x :=
    (set x).trans (State.die_setDie_other _ _ hx)
  refine ⟨rfl, List.prefix_append _ _, fun x hx => other x fun e => hx (e ▸ listed), fun x e he => ?_, List.length_map _,
    fun x hx => ⟨_, List.mem_map_of_mem hx, ?_⟩, fun l hl x hx => ?_⟩
  · unfold State.stands at he ⊢
    by_cases hd : x = d
    · subst hd
      rw [same]
      rw [idle, waiting] at he
      obtain he | he := he
      · obtain rfl | he := List.mem_cons.mp he
        · exact .inr rfl
        · exact .inl he
      · cases he
    · rw [other x hd]
      exact he
  · unfold StoreEntry.counted
    split <;> rfl
  · obtain ⟨online, empty⟩ := hl x hx
    by_cases hd : x = d
    · subst hd
      rw [same]
      exact ⟨nofun, nofun⟩
    · rw [other x hd]
      exact ⟨online, empty⟩

/-- The arbiter of a die where only programs wait. -/
theorem State.arbitrate_begun {s : State} {d : Nat} {dies : List Nat} (ready : s.resetting = false) (listed : d ∈ dies)
    (waits : s.onlyPrograms dies) : State.ProgramsBegun dies s (s.arbitrate d) := by
  obtain ⟨online, empty⟩ := waits d listed
  unfold State.arbitrate
  cases working : (s.die d).operation with
  | some o =>
    simp only [working, ready, Option.isSome_some, Bool.or_true, if_true]
    exact .refl _ s
  | none =>
    obtain ⟨noReads, noPolls⟩ := empty working
    simp only [working, ready, Option.isSome_none, Bool.or_self, Bool.false_eq_true, if_false]
    cases state : (s.die d).state with
    | offline => exact absurd state online
    | ready =>
      simp only [noPolls, State.chooseReady, State.chooseTransfer, noReads]
      split
      · contradiction
      · contradiction
      · rename_i p rest _ waiting
        exact State.issueProgram_begun listed working waiting
      · exact .refl _ s
    | addressing | polling | transferring => exact .refl _ s

theorem State.arbitrateAll_begun {dies : List Nat} (l : List Nat) : ∀ s : State, s.resetting = false → (∀ d ∈ l, d ∈ dies) →
    s.onlyPrograms dies → State.ProgramsBegun dies s (l.foldl State.arbitrate s) := by
  induction l with
  | nil => exact fun s _ _ _ => .refl _ s
  | cons d l ih =>
    intro s ready listed waits
    have first := State.arbitrate_begun ready (listed d List.mem_cons_self) waits
    refine first.trans (ih _ ?_ (fun x hx => listed x (List.mem_cons_of_mem _ hx)) (first.waiting _ waits))
    unfold State.resetting
    rw [first.kept]
    exact ready

/-! ### STORE accepted -/

/-- The state in which a STORE has marked its records and entered the table (R24, R132). -/
def State.storeEntered (s : State) (t : Token) (p : StoreParams) : State :=
  { s with
    catalog := Table.update Record.blank (fun _ r => r.overwrite p.first.toNat p.count.toNat) s.catalog
    stores := s.stores ++ [{ place := s.freeStorePlace, token := t, first := p.first.toNat, count := p.count.toNat, host := p.host
                             programmed := 0, queued := p.count.toNat, inFlight := 0, failure := none }] }

/-- The program entries of a STORE (R132). -/
def State.storePrograms (s : State) (p : StoreParams) : List ProgramEntry :=
  (rangeBlocks p.first.toNat p.count.toNat).map (programFor s.freeStorePlace p.host p.first.toNat)

theorem State.acceptStore_eq (s : State) (t : Token) (p : StoreParams) :
    s.acceptStore t p = (rangeDies p.first.toNat p.count.toNat).foldl State.arbitrate
      ((s.storePrograms p).foldl State.queueProgram (s.storeEntered t p)) := rfl

theorem Record.overwrite_eq (first count : Nat) (r : Record) :
    r.overwrite first count = if r.meets first count = true ∧ (r.state = .defined ∨ r.state = .stale) then
      { r with state := .stale, staleReason := .overwritten } else r := by
  unfold Record.overwrite
  by_cases meets : r.meets first count = true
  · rw [if_pos meets]
    cases state : r.state <;> simp [meets]
  · rw [if_neg meets, if_neg fun k => meets k.1]

theorem Record.overwrite_blank (first count : Nat) : Record.blank.overwrite first count = Record.blank := by
  rw [Record.overwrite_eq]
  exact if_neg fun k => nomatch k.2

/-- Where a program entry of the STORE stands. -/
theorem State.storePrograms_stand {s u : State} {p : StoreParams} {a : Nat} (low : p.first.toNat ≤ a)
    (high : a < p.first.toNat + p.count.toNat) :
    ((s.storePrograms p).foldl State.queueProgram u).stands (a % 16) (programFor s.freeStorePlace p.host p.first.toNat a) := by
  refine .inl ?_
  rw [State.queuePrograms_die]
  refine List.mem_append_right _ (List.mem_filter.mpr ⟨List.mem_map_of_mem (mem_rangeBlocks.mpr ⟨low, high⟩), ?_⟩)
  exact beq_self_eq_true (a % 16)

/-- A die that holds no block of the range is given no program. -/
theorem State.storePrograms_other {s u : State} {p : StoreParams} {d : Nat}
    (h : ∀ a, p.first.toNat ≤ a → a < p.first.toNat + p.count.toNat → a % 16 ≠ d) :
    ((s.storePrograms p).foldl State.queueProgram u).die d = u.die d := by
  rw [State.queuePrograms_die]
  have none : (s.storePrograms p).filter (fun e => dieOf e.address == d) = [] := by
    rw [List.filter_eq_nil_iff]
    intro e he
    obtain ⟨a, ha, rfl⟩ := List.mem_map.mp he
    obtain ⟨low, high⟩ := mem_rangeBlocks.mp ha
    have apart : a % 16 ≠ d := h a low high
    simpa [programFor, dieOf, Config.dies] using apart
  rw [none, List.append_nil]

/-- STORE accepted (R24, R129, R132). -/
theorem store_accepted (h : Header) (p : StoreParams) (s : State) (k : s.Taking) (c : s.Canonical) (valid : storeValid p = true)
    (room : s.stores.length < 4) (allows : s.recordForbids p.first.toNat p.count.toNat = false)
    (unclaimed : s.storeClaims [{ start := p.first.toNat, count := p.count.toNat }] = false)
    (online : s.rangeOffline p.first.toNat p.count.toNat = false)
    (empty : ∀ a, p.first.toNat ≤ a → a < p.first.toNat + p.count.toNat → (s.die (a % 16)).operation = none →
      s.subQueue (a % 16) = [] ∧ (s.die (a % 16)).polls = []) :
    ∃ t, exec (.store h p) s = .next t ∧ TakenLong s t ∧
      (∀ d, (∀ a, p.first.toNat ≤ a → a < p.first.toNat + p.count.toNat → a % 16 ≠ d) → t.die d = s.die d) ∧
      (∀ id, t.record id =
        if (s.record id).meets p.first.toNat p.count.toNat = true ∧
            ((s.record id).state = .defined ∨ (s.record id).state = .stale) then
          { s.record id with state := .stale, staleReason := .overwritten }
        else s.record id) ∧
      t.stores.length = s.stores.length + 1 ∧
      (∃ x ∈ t.stores, x.place = s.freeStorePlace ∧ x.first = p.first.toNat ∧ x.count = p.count.toNat ∧
        x.host = p.host ∧ x.programmed = 0 ∧ x.failure = none ∧ x.token.address = s.requests.address ∧
        x.token.tag = h.tag) ∧
      ∀ a, p.first.toNat ≤ a → a < p.first.toNat + p.count.toNat →
        ∃ e : ProgramEntry, e.place = s.freeStorePlace ∧ e.address = a ∧
          e.host = p.host + BitVec.ofNat 64 ((a - p.first.toNat) * 4096) ∧
          (e ∈ (t.die (a % 16)).programs ∨ (t.die (a % 16)).operation.map Operation.work = some (.program e)) := by
  let b := s.beginTake h
  let entered := b.storeEntered (s.tokenFor h) p
  let queued := (s.storePrograms p).foldl State.queueProgram entered
  have queuedKept : queued = { entered with dies := queued.dies } := State.queuePrograms_kept _ _
  have body : takeBody (s.tokenFor h) (.store p) b = (rangeDies p.first.toNat p.count.toNat).foldl State.arbitrate queued := by
    have allows' : b.recordForbids p.first.toNat p.count.toNat = false := allows
    have unclaimed' : b.storeClaims [{ start := p.first.toNat, count := p.count.toNat }] = false := unclaimed
    have online' : b.rangeOffline p.first.toNat p.count.toNat = false := online
    have few : ¬ Config.storeLimit ≤ b.stores.length := Nat.not_le.mpr room
    show takeStore (s.tokenFor h) p b = _
    simp only [takeStore, valid, allows', unclaimed', online', few, Bool.not_true, Bool.false_eq_true, if_false]
    rfl
  have waits : queued.onlyPrograms (rangeDies p.first.toNat p.count.toNat) := by
    intro d hd
    obtain ⟨a, low, high, rfl⟩ := mem_rangeDies.mp hd
    have die : queued.die (a % 16) = { s.die (a % 16) with programs := (queued.die (a % 16)).programs } := by
      show (List.foldl _ _ _ : State).die _ = _
      rw [State.queuePrograms_die]
      rfl
    have queue : queued.subQueue (a % 16) = s.subQueue (a % 16) := by
      unfold State.subQueue
      rw [queuedKept]
      rfl
    rw [queue, die]
    refine ⟨fun off => ?_, empty a low high⟩
    have some : s.rangeOffline p.first.toNat p.count.toNat = true :=
      List.any_eq_true.mpr ⟨a, mem_rangeBlocks.mpr ⟨low, high⟩, (s.dieOffline_iff _).mpr off⟩
    rw [online] at some
    cases some
  have begun := State.arbitrateAll_begun (rangeDies p.first.toNat p.count.toNat) queued
    (by rw [queuedKept]; exact State.not_resetting_of (s := s) k.ready) (fun _ => id) waits
  rw [← body] at begun
  have kept := begun.kept
  obtain ⟨t, ht, long, posted, -⟩ := takenLong_of k rfl (by rw [kept, queuedKept]; exact k.settled)
    ((by rw [queuedKept]; rfl : queued.out = s.out) ▸ begun.out) (by rw [kept, queuedKept]; rfl)
    (by unfold State.latched; rw [kept, queuedKept]; rfl)
  refine ⟨t, ht, long, fun d apart => ?_, fun id => ?_, ?_, ?_, fun a low high => ?_⟩
  · rw [posted.die, begun.others d fun hd => ?_]
    · exact State.storePrograms_other apart
    · obtain ⟨a, low, high, e⟩ := mem_rangeDies.mp hd
      exact apart a low high e
  · rw [posted.record, ← Record.overwrite_eq]
    have catalog : (takeBody (s.tokenFor h) (.store p) b).catalog = entered.catalog := by rw [kept, queuedKept]
    rw [State.record_congr catalog]
    exact State.record_update c rfl (fun _ => Record.overwrite_blank _ _) id
  · rw [posted.stores, begun.length, queuedKept]
    exact List.length_append
  · obtain ⟨y, hy, counted⟩ := begun.stores
      { place := s.freeStorePlace, token := s.tokenFor h, first := p.first.toNat, count := p.count.toNat, host := p.host
        programmed := 0, queued := p.count.toNat, inFlight := 0, failure := none }
      (by rw [queuedKept]; exact List.mem_append_right _ (List.mem_singleton_self _))
    refine ⟨y, posted.stores ▸ hy, ?_⟩
    rw [counted]
    exact ⟨rfl, rfl, rfl, rfl, rfl, rfl, rfl, rfl⟩
  · refine ⟨programFor s.freeStorePlace p.host p.first.toNat a, rfl, rfl, rfl, ?_⟩
    rw [posted.die]
    exact begun.stands _ _ (State.storePrograms_stand low high)

/-- Settles O38: the refusals, and the STORE in the table with its programs queued or begun. -/
theorem storeTaken : Obligations.StoreTaken :=
  ⟨store_refused, fun h p s k c valid room allows unclaimed online empty =>
    store_accepted h p s k c valid room allows unclaimed online empty⟩

end Sys2Proof.Machine
end

section
/-! PROOFS. The period expiry and the frames (O43 to O46): the Pace Timer's steps, the voices' steps, the lead monitor. -/

namespace Sys2Proof.Machine

/-! ### The Pace Timer's steps -/

/-- The pace after the steps of an expiry (R82, R85, R87, R90). -/
def Pace.afterExpiry (p : Pace) : Pace :=
  let position := if p.running then p.position + p.period else p.position
  let p1 : Pace := { p with frame := 0, index := p.index + 1, position := position }
  let p2 : Pace := match p.pending with
    | none => p1
    | some (x, _) => { p1 with
        source := x.source, internalRate := x.internalRate, period := x.period, pending := none
        state := if x.source = .internal then .internal else if p.clockPresent then .externalLocked else .freewheel }
  if p.haltPending.isSome then { p2 with running := false, haltPending := none } else p2

/-- The state after the Pace Timer's steps. -/
def State.expiryPaced (s : State) : State := ({ s with pace := s.pace.expire }.applyPending).completeHalt

theorem State.expiryPaced_pace (s : State) : s.expiryPaced.pace = s.pace.afterExpiry := by
  unfold State.expiryPaced State.applyPending State.completeHalt Pace.expire Pace.afterExpiry
  cases s.pace.pending with
  | none => cases s.pace.haltPending <;> simp [State.complete]
  | some x =>
    obtain ⟨x, k⟩ := x
    cases s.pace.haltPending <;> simp [State.complete, State.applyPace, paceStateFor_eq]

theorem State.expiryPaced_kept (s : State) :
    s.expiryPaced = { s with pace := s.expiryPaced.pace, completions := s.expiryPaced.completions } := by
  unfold State.expiryPaced State.applyPending State.completeHalt
  split <;> split <;> rfl

/-- A pending HALT completes with the position reached (R90). -/
theorem State.expiryPaced_halt {s : State} {k : Token} (h : s.pace.haltPending = some k) :
    let position := if s.pace.running then s.pace.position + s.pace.period else s.pace.position
    ⟨k, .ok, BitVec.ofNat 32 position, BitVec.ofNat 32 (position / 2 ^ 32 % 2 ^ 16)⟩ ∈ s.expiryPaced.completions := by
  intro position
  unfold State.expiryPaced State.applyPending State.completeHalt Pace.expire
  cases s.pace.pending with
  | none => simp [h, State.complete, lowWord, highWord, position]
  | some x =>
    obtain ⟨x, k⟩ := x
    simp [h, State.complete, State.applyPace, lowWord, highWord, position]

/-- Pending settings complete as they are applied (R85, R87). -/
theorem State.expiryPaced_settings {s : State} {x : PaceSettings} {k : Token} (h : s.pace.pending = some (x, k)) :
    let state : PaceState := if x.source = .internal then .internal else if s.pace.clockPresent then .externalLocked else .freewheel
    ⟨k, if state = .freewheel then .noClock else .ok, BitVec.ofNat 32 state.code, BitVec.ofNat 32 (s.pace.index + 1)⟩ ∈
      s.expiryPaced.completions := by
  intro state
  unfold State.expiryPaced State.applyPending State.completeHalt Pace.expire
  cases s.pace.haltPending <;>
    simp [h, State.complete, State.applyPace, lowWord, paceResult_eq, paceStateFor_eq, state]

theorem State.expiryPaced_grows (s : State) : ∀ c ∈ s.completions, c ∈ s.expiryPaced.completions := by
  intro c hc
  unfold State.expiryPaced State.applyPending State.completeHalt
  split <;> split <;> simp [State.complete, State.applyPace, hc]

/-! ### The voices' steps -/

/-- The voices consume and leave PRIMING (R67, R68). -/
def State.expiryConsumed (s : State) : State :=
  { s.expiryPaced with
    voices := Table.update Voice.blank (fun _ v => v.advance s.pace.position s.expiryPaced.pace.position) s.expiryPaced.voices }

/-- The lead monitor has tested them (R113). -/
def State.expiryTested (s : State) : State := s.leadTested.foldl State.leadTest s.expiryConsumed

/-- The exhausted ones have ended (R69). -/
def State.expiryEnded (s : State) : State := s.expiryTested.soundingSlots.foldl State.naturalEnd s.expiryTested

theorem State.expiry_eq (s : State) :
    s.expiry = (if s.pace.running then s.expiryEnded.settleVoices else s.expiryPaced).noticeAge := rfl

theorem State.noticeAge_closed (s : State) : Closed s s.noticeAge := by
  have posted : Closed s s.postNotice := ⟨List.prefix_rfl, rfl⟩
  have same : Closed s s := ⟨List.prefix_rfl, rfl⟩
  unfold State.noticeAge
  split
  · split
    · exact posted
    · exact same
  · exact same

theorem State.noticeAge_completions (s : State) : s.noticeAge.completions = s.completions := by
  unfold State.noticeAge
  split
  · split <;> rfl
  · rfl

/-- The voices and the dies as the steps of an expiry leave them, before the notice age is judged. -/
def State.expiryWork (s : State) : State := if s.pace.running then s.expiryEnded.settleVoices else s.expiryPaced

/-- What the end of an event leaves of the flags: none but REQUEST_DONE is set by a DONE write. -/
theorem State.flush_otherFlags (s : State) {f : Flag} (h : f ≠ .requestDone) : s.flush.latched f = s.latched f := by
  have each (l : List Completion) : ∀ u : State, (l.foldl State.writeDone u).latched f = u.latched f := by
    induction l with
    | nil => exact fun _ => rfl
    | cons c l ih =>
      intro u
      refine (ih _).trans ?_
      simp only [State.writeDone]
      split
      · exact State.latched_other _ h
      · rfl
  exact each _ _

theorem State.noticeAge_otherFlags (s : State) {f : Flag} (h : f ≠ .delivery) : s.noticeAge.latched f = s.latched f := by
  unfold State.noticeAge
  split
  · split
    · exact State.latched_other _ h
    · rfl
  · rfl

/-- What the end of an expiry leaves. -/
theorem exec_periodExpiry (s : State) : ∃ t, exec .periodExpiry s = .next t ∧ Closed s.expiryWork t ∧
    (∀ c ∈ s.expiryWork.completions, wroteAt s t c.token.address (doneBytes c.result c.word0 c.word1)) ∧
    ∀ f : Flag, f ≠ .requestDone → f ≠ .delivery → t.latched f = s.expiryWork.latched f := by
  have posted : Posted s.expiry.flush (sendMessage s s.expiry.flush) := Posted.sendMessage _ _
  refine ⟨sendMessage s s.expiry.flush, rfl, (State.noticeAge_closed _).trans ((Posted.flush _).trans posted).closed,
    fun c hc => ?_, fun f done notice => ?_⟩
  · have listed : c ∈ s.expiry.completions := by
      rw [State.expiry_eq, State.noticeAge_completions]
      exact hc
    exact ((s.expiry.flush_wrote c listed).from (Orderly.expiry s).out).mono posted.1
  · rw [State.latched_sendMessage, State.flush_otherFlags _ done]
    exact State.noticeAge_otherFlags _ notice

/-! ### The lead monitor -/

/-- A voice as the lead monitor leaves it (R113 to R115). -/
def Voice.monitored (s : State) (v : Voice) : Voice :=
  { v with starved := s.leadLow v, underruns := if v.behind then satInc 255 v.underruns else v.underruns }

theorem State.starvedTest_same (s : State) (n : Nat) :
    (s.starvedTest n).voice n = { s.voice n with starved := s.leadLow (s.voice n) } := by
  unfold State.starvedTest
  dsimp only
  split
  · exact State.voice_setVoice_same _ _ _
  · exact State.voice_setVoice_same _ _ _

theorem State.underrunTest_same (s : State) (n : Nat) : (s.underrunTest n).voice n =
    { s.voice n with underruns := if (s.voice n).behind then satInc 255 (s.voice n).underruns else (s.voice n).underruns } := by
  unfold State.underrunTest
  dsimp only
  split
  · exact State.voice_setVoice_same _ _ _
  · rfl

theorem State.leadTest_same (s : State) (n : Nat) : (s.leadTest n).voice n = (s.voice n).monitored s := by
  refine (State.underrunTest_same _ n).trans ?_
  rw [s.starvedTest_same n]
  rfl

theorem State.leadTest_other (s : State) {n m : Nat} (h : m ≠ n) : (s.leadTest n).voice m = s.voice m := by
  have starved : (s.starvedTest n).voice m = s.voice m := by
    unfold State.starvedTest
    dsimp only
    split
    · exact State.voice_setVoice_other _ _ h
    · exact State.voice_setVoice_other _ _ h
  unfold State.leadTest State.underrunTest
  dsimp only
  split
  · exact (State.voice_setVoice_other _ _ h).trans starved
  · exact starved

/-- Only the voices, the flags and the counters changed. -/
def State.MonitorKept (s t : State) : Prop :=
  t = { s with
    voices := t.voices
    registers := { s.registers with status := t.registers.status, counters := t.registers.counters } }

theorem State.MonitorKept.trans {s t u : State} (h : s.MonitorKept t) (k : t.MonitorKept u) : s.MonitorKept u := by
  unfold State.MonitorKept at h k ⊢
  rw [k, h]

theorem State.leadTest_kept (s : State) (n : Nat) : s.MonitorKept (s.leadTest n) := by
  unfold State.leadTest State.underrunTest State.starvedTest
  dsimp only
  split <;> split <;> rfl

theorem State.leadTests_kept (l : List Nat) : ∀ s : State, s.MonitorKept (l.foldl State.leadTest s) := by
  induction l with
  | nil => exact fun _ => rfl
  | cons n l ih => exact fun s => (s.leadTest_kept n).trans (ih _)

theorem State.leadLow_leadTest (s : State) (n : Nat) (v : Voice) : (s.leadTest n).leadLow v = s.leadLow v := by
  rw [s.leadTest_kept n]
  rfl

theorem State.leadTests_voice (l : List Nat) (m : Nat) : ∀ s : State, l.Nodup →
    (l.foldl State.leadTest s).voice m = if m ∈ l then (s.voice m).monitored s else s.voice m := by
  induction l with
  | nil => exact fun _ _ => rfl
  | cons n l ih =>
    intro s nodup
    obtain ⟨apart, rest⟩ := List.nodup_cons.mp nodup
    have congr (v : Voice) : v.monitored (s.leadTest n) = v.monitored s := by
      unfold Voice.monitored
      rw [s.leadLow_leadTest n]
    rw [List.foldl_cons, ih _ rest, congr]
    by_cases e : m = n
    · subst e
      rw [if_neg apart, if_pos List.mem_cons_self]
      exact s.leadTest_same m
    · rw [s.leadTest_other e]
      simp only [List.mem_cons, e, false_or]

/-- A voice is newly starved (R114). -/
def State.newlyStarved (s : State) (v : Voice) : Bool := s.leadLow v && !v.starved

/-- No counter is above its top (R183). -/
def State.countersBounded (s : State) : Prop := ∀ c, s.registers.counters.value c ≤ 65535

/-- What the tests of some voices leave of the flags and the counters (R114, R115). -/
structure State.TestsCounted (s t : State) (starving behind : List Nat) : Prop where
  lowKept : s.latched .leadLow = true → t.latched .leadLow = true
  underrunKept : s.latched .underrun = true → t.latched .underrun = true
  lowFlag : starving = [] → t.latched .leadLow = s.latched .leadLow
  lowLatched : starving ≠ [] → t.latched .leadLow = true
  underrunFlag : behind = [] → t.latched .underrun = s.latched .underrun
  underrunLatched : behind ≠ [] → t.latched .underrun = true
  starve : s.countersBounded →
    t.registers.counters.value .starve = min 65535 (s.registers.counters.value .starve + starving.length)
  underrun : s.countersBounded →
    t.registers.counters.value .underrun = min 65535 (s.registers.counters.value .underrun + behind.length)
  others : ∀ c, c ≠ .starve → c ≠ .underrun → t.registers.counters.value c = s.registers.counters.value c

theorem State.countersBounded.none {s : State} (h : s.countersBounded) (c : CounterName) :
    s.registers.counters.value c = min 65535 (s.registers.counters.value c + 0) := (Nat.min_eq_right (a := 65535) (h c)).symm

theorem State.TestsCounted.refl (s : State) : s.TestsCounted s [] [] :=
  ⟨id, id, fun _ => rfl, fun h => absurd rfl h, fun _ => rfl, fun h => absurd rfl h, fun b => b.none _, fun b => b.none _,
    fun _ _ _ => rfl⟩

theorem State.starvedTest_counted (s : State) (n : Nat) :
    s.TestsCounted (s.starvedTest n) (if s.newlyStarved (s.voice n) then [n] else []) [] := by
  unfold State.starvedTest
  cases newly : s.newlyStarved (s.voice n) with
  | false =>
    rw [if_neg (by rw [show (s.leadLow (s.voice n) && !(s.voice n).starved) = false from newly]; nofun)]
    exact ⟨id, id, fun _ => rfl, fun h => absurd rfl h, fun _ => rfl, fun h => absurd rfl h, fun b => b.none _, fun b => b.none _,
      fun _ _ _ => rfl⟩
  | true =>
    rw [if_pos (show (s.leadLow (s.voice n) && !(s.voice n).starved) = true from newly)]
    exact ⟨State.latched_latch _ _ _, State.latched_latch _ _ _, nofun, fun _ => State.latched_same _ _,
      fun _ => State.latched_other _ nofun, fun h => absurd rfl h, fun _ => Nat.min_comm _ _,
      fun b => (Counters.rise_other (a := .starve) (c := .underrun) _ nofun).trans (b.none .underrun), fun c starve _ => Counters.rise_other _ starve⟩

theorem State.underrunTest_counted (s : State) (n : Nat) :
    s.TestsCounted (s.underrunTest n) [] (if (s.voice n).behind then [n] else []) := by
  unfold State.underrunTest
  dsimp only
  split
  · exact ⟨State.latched_latch _ _ _, State.latched_latch _ _ _, fun _ => State.latched_other _ nofun, fun h => absurd rfl h,
      nofun, fun _ => State.latched_same _ _,
      fun b => (Counters.rise_other (a := .underrun) (c := .starve) _ nofun).trans (b.none .starve), fun _ => Nat.min_comm _ _,
      fun c _ underrun => Counters.rise_other _ underrun⟩
  · exact State.TestsCounted.refl s

theorem State.TestsCounted.bounded {s t : State} {a b : List Nat} (h : s.TestsCounted t a b) (bounded : s.countersBounded) :
    t.countersBounded := by
  intro c
  by_cases starve : c = .starve
  · rw [starve, h.starve bounded]
    exact Nat.min_le_left _ _
  · by_cases underrun : c = .underrun
    · rw [underrun, h.underrun bounded]
      exact Nat.min_le_left _ _
    · rw [h.others c starve underrun]
      exact bounded c

theorem State.TestsCounted.trans {s t u : State} {a b c d : List Nat} (h : s.TestsCounted t a b) (k : t.TestsCounted u c d) :
    s.TestsCounted u (a ++ c) (b ++ d) where
  lowKept := k.lowKept ∘ h.lowKept
  underrunKept := k.underrunKept ∘ h.underrunKept
  lowFlag e := by
    obtain ⟨ea, ec⟩ := List.append_eq_nil_iff.mp e
    exact (k.lowFlag ec).trans (h.lowFlag ea)
  lowLatched e := by
    by_cases ec : c = []
    · exact k.lowKept (h.lowLatched fun ea => e (by rw [ea, ec]; rfl))
    · exact k.lowLatched ec
  underrunFlag e := by
    obtain ⟨eb, ed⟩ := List.append_eq_nil_iff.mp e
    exact (k.underrunFlag ed).trans (h.underrunFlag eb)
  underrunLatched e := by
    by_cases ed : d = []
    · exact k.underrunKept (h.underrunLatched fun eb => e (by rw [eb, ed]; rfl))
    · exact k.underrunLatched ed
  starve bounded := by
    rw [k.starve (h.bounded bounded), h.starve bounded, List.length_append]
    omega
  underrun bounded := by
    rw [k.underrun (h.bounded bounded), h.underrun bounded, List.length_append]
    omega
  others x starve underrun := (k.others x starve underrun).trans (h.others x starve underrun)

theorem State.TestsCounted.congr {s t u v : State} {a b : List Nat} (h : u.TestsCounted v a b)
    (before : ∀ f, u.latched f = s.latched f) (counters : u.registers.counters = s.registers.counters)
    (low : t.latched .leadLow = v.latched .leadLow) (under : t.latched .underrun = v.latched .underrun)
    (after : t.registers.counters = v.registers.counters) : s.TestsCounted t a b := by
  obtain ⟨lowKept, underrunKept, lowFlag, lowLatched, underrunFlag, underrunLatched, starve, underrun, others⟩ := h
  unfold State.countersBounded at starve underrun
  rw [before, ← low] at lowKept lowFlag
  rw [before, ← under] at underrunKept underrunFlag
  rw [← low] at lowLatched
  rw [← under] at underrunLatched
  rw [counters, ← after] at starve underrun others
  exact ⟨lowKept, underrunKept, lowFlag, lowLatched, underrunFlag, underrunLatched, starve, underrun, others⟩

theorem State.leadTest_counted (s : State) (n : Nat) :
    s.TestsCounted (s.leadTest n) (if s.newlyStarved (s.voice n) then [n] else []) (if (s.voice n).behind then [n] else []) := by
  have second := State.underrunTest_counted (s.starvedTest n) n
  have behind : ((s.starvedTest n).voice n).behind = (s.voice n).behind := by
    rw [s.starvedTest_same n]
    rfl
  rw [behind] at second
  have both := (s.starvedTest_counted n).trans second
  rwa [List.append_nil, List.nil_append] at both

/-- The tests of some voices, at the counters and the flags (R114, R115). -/
theorem State.leadTests_counted (l : List Nat) : ∀ s : State, l.Nodup →
    s.TestsCounted (l.foldl State.leadTest s) (l.filter fun n => s.newlyStarved (s.voice n))
      (l.filter fun n => (s.voice n).behind) := by
  induction l with
  | nil => exact fun s _ => State.TestsCounted.refl s
  | cons n l ih =>
    intro s nodup
    obtain ⟨apart, rest⟩ := List.nodup_cons.mp nodup
    have second := ih (s.leadTest n) rest
    have other (m : Nat) (hm : m ∈ l) : (s.leadTest n).voice m = s.voice m :=
      s.leadTest_other fun e => apart (e ▸ hm)
    have starving : (l.filter fun m => (s.leadTest n).newlyStarved ((s.leadTest n).voice m)) =
        l.filter fun m => s.newlyStarved (s.voice m) := by
      refine List.filter_congr fun m hm => ?_
      unfold State.newlyStarved
      rw [other m hm, s.leadLow_leadTest n]
    have behind : (l.filter fun m => ((s.leadTest n).voice m).behind) = l.filter fun m => (s.voice m).behind :=
      List.filter_congr fun m hm => by rw [other m hm]
    rw [starving, behind] at second
    have both := (s.leadTest_counted n).trans second
    have cons (p : Nat → Bool) : (if p n then [n] else []) ++ l.filter p = (n :: l).filter p := by
      rw [List.filter_cons]
      split <;> rfl
    rwa [cons fun m => s.newlyStarved (s.voice m), cons fun m => (s.voice m).behind] at both

/-! ### The NATURAL ends -/

theorem State.endVoice_other (reason : EndReason) (s : State) {n m : Nat} (h : m ≠ n) :
    (State.endVoice reason s n).voice m = s.voice m := by
  rw [State.endVoice_eq]
  split
  · rw [State.dropReference_kept]
    exact (State.voice_congr (s := s.silenced reason n) rfl m).trans (State.voice_setVoice_other _ _ h)
  · rfl

/-- The voices that meet R69's condition end as one. -/
theorem State.naturalEnds_eq (l : List Nat) : ∀ s : State, l.Nodup →
    l.foldl State.naturalEnd s = s.endVoices .natural (l.filter fun n => (s.voice n).exhausted) := by
  induction l with
  | nil => exact fun _ _ => rfl
  | cons n l ih =>
    intro s nodup
    obtain ⟨apart, rest⟩ := List.nodup_cons.mp nodup
    rw [List.foldl_cons, ih _ rest, List.filter_cons]
    have same : (l.filter fun m => ((s.naturalEnd n).voice m).exhausted) = l.filter fun m => (s.voice m).exhausted := by
      refine List.filter_congr fun m hm => ?_
      unfold State.naturalEnd
      split
      · rw [State.endVoice_other .natural s (n := n) (m := m) fun e => apart (e ▸ hm)]
      · rfl
    rw [same]
    unfold State.naturalEnd
    split
    · rfl
    · rfl

/-! ### What runs do to a voice's state -/

/-- How the runs given to a voice move its state: to DRAINING from PLAYING or RELEASING, where they bring its cursor to the end. -/
structure Voice.RunsMove (v w : Voice) : Prop where
  ended : v.cursor.atEnd = true → w.cursor.atEnd = true ∧ w.state = v.state
  moves : v.cursor.atEnd = false →
    w.state = if w.cursor.atEnd = true ∧ (v.state = .playing ∨ v.state = .releasing) then .draining else v.state

theorem Voice.RunsMove.refl (v : Voice) : v.RunsMove v :=
  ⟨fun h => ⟨h, rfl⟩, fun h => (if_neg fun k => by rw [h] at k; exact nomatch k.1).symm⟩

theorem Voice.RunsMove.trans {u v w : Voice} (h : u.RunsMove v) (k : v.RunsMove w) : u.RunsMove w where
  ended e := by
    obtain ⟨end1, state1⟩ := h.ended e
    obtain ⟨end2, state2⟩ := k.ended end1
    exact ⟨end2, state2.trans state1⟩
  moves e := by
    have first := h.moves e
    cases atEnd : v.cursor.atEnd with
    | false =>
      rw [atEnd] at first
      have same : v.state = u.state := first.trans (if_neg fun k => nomatch k.1)
      rw [← same]
      exact k.moves atEnd
    | true =>
      obtain ⟨end2, state2⟩ := k.ended atEnd
      rw [state2, first, atEnd, end2]

theorem Voice.RunsMove.reachEnd {v : Voice} (h : v.cursor.atEnd = false) : v.RunsMove v.reachEnd := by
  refine ⟨fun k => (by rw [h] at k; cases k), fun _ => ?_⟩
  unfold Voice.reachEnd
  cases v.state <;> simp

theorem Voice.RunsMove.giveRun {v : Voice} (l : Layout) (h : v.cursor.atEnd = false) : v.RunsMove (v.giveRun l) := by
  have kept (c : Cursor) (x : Nat) (d : DeliveryRecord) (hc : c.atEnd = false) :
      v.RunsMove { v with cursor := c, scheduled := x, delivery := d } :=
    ⟨fun k => (by rw [h] at k; cases k), fun _ => (if_neg fun k => by rw [hc] at k; exact nomatch k.1).symm⟩
  unfold Voice.giveRun
  split
  · unfold Voice.afterRun
    split
    · split
      · exact kept _ _ _ h
      · split
        · refine Voice.RunsMove.trans ?_ (Voice.RunsMove.reachEnd ?_)
          · exact kept _ _ _ h
          · exact h
        · exact kept _ _ _ h
    · split
      · refine Voice.RunsMove.trans ?_ (Voice.RunsMove.reachEnd ?_)
        · exact kept _ _ _ h
        · exact h
      · exact kept _ _ _ h
  · exact Voice.RunsMove.reachEnd h

theorem State.runDue_running {s : State} {v : Voice} (h : s.runDue v = true) : v.cursor.atEnd = false := by
  simp only [State.runDue, Bool.and_eq_true, Bool.not_eq_true'] at h
  exact h.1.2

theorem State.giveRuns_move (fuel : Nat) : ∀ (s : State) (slot : Nat),
    (s.voice slot).RunsMove ((s.giveRuns fuel slot).voice slot) := by
  induction fuel with
  | zero => exact fun s slot => Voice.RunsMove.refl _
  | succ fuel ih =>
    intro s slot
    rw [State.giveRuns]
    split
    · exact Voice.RunsMove.refl _
    · rename_i l _
      split
      · rename_i due
        simp only [State.headRunDue, Bool.and_eq_true] at due
        refine Voice.RunsMove.trans ?_ (ih _ slot)
        rw [State.voice_setVoice_same]
        exact Voice.RunsMove.giveRun l (State.runDue_running due.1)
      · split
        · rename_i due
          simp only [State.candidate, Bool.and_eq_true] at due
          refine Voice.RunsMove.trans ?_ (ih _ slot)
          rw [(s.giveSilent_place slot l).voice]
          exact Voice.RunsMove.giveRun l (State.runDue_running due.1.1.1)
        · exact Voice.RunsMove.refl _

/-- What the judging of voices leaves of each of them. -/
structure Voice.Judged (v w : Voice) : Prop where
  start : v.KeepsStart w
  keep : v.RunsKeep w
  move : v.RunsMove w

theorem Voice.Judged.refl (v : Voice) : v.Judged v :=
  ⟨(VoiceStep.refl v).keepsStart, .refl v, .refl v⟩

theorem State.settleVoice_each (s : State) (slot n : Nat) : (s.voice n).Judged ((s.settleVoice slot).voice n) := by
  by_cases e : n = slot
  · subst e
    refine ⟨((Inner.settleVoice s n).voices n).keepsStart, s.settleVoice_keep n, ?_⟩
    unfold State.settleVoice
    split
    · exact Voice.RunsMove.refl _
    · exact State.giveRuns_move _ s n
  · rw [(s.settleVoice_judged slot).others n e]
    exact Voice.Judged.refl _

/-- Every voice judged, one by one. -/
theorem State.settleVoices_each (s : State) (n : Nat) : (s.voice n).Judged (s.settleVoices.voice n) := by
  have each (l : List Nat) : ∀ u : State, (u.voice n).RunsKeep ((l.foldl State.settleVoice u).voice n) ∧
      (u.voice n).RunsMove ((l.foldl State.settleVoice u).voice n) := by
    induction l with
    | nil => exact fun u => ⟨.refl _, .refl _⟩
    | cons x l ih =>
      intro u
      have first := u.settleVoice_each x n
      obtain ⟨keep, move⟩ := ih (u.settleVoice x)
      exact ⟨first.keep.trans keep, first.move.trans move⟩
  obtain ⟨keep, move⟩ := each (Table.keys s.voices) s
  exact ⟨((Inner.settleVoices s).voices n).keepsStart, keep, move⟩

/-! ### The voices at an advancing expiry -/

/-- The slots whose voices end NATURAL at an expiry (R69). -/
def State.naturalSlots (s : State) : List Nat :=
  s.expiryTested.soundingSlots.filter fun n => (s.expiryTested.voice n).exhausted

theorem State.expiryConsumed_canonical {s : State} (c : s.Canonical) : s.expiryConsumed.Canonical := by
  have kept := s.expiryPaced_kept
  refine (Orderly.updateVoices s.expiryPaced (fun _ v => v.advance s.pace.position s.expiryPaced.pace.position) (fun _ => rfl)
    fun _ => Voice.Tame.advance _ _).canonical ?_
  rw [kept]
  exact c.of_same rfl rfl rfl rfl rfl

theorem State.expiryTested_canonical {s : State} (c : s.Canonical) : s.expiryTested.Canonical :=
  (Orderly.foldl _ Orderly.leadTest s.leadTested s.expiryConsumed).canonical (s.expiryConsumed_canonical c)

/-- Between the Pace Timer's steps and the NATURAL ends only the voices, the flags and the counters changed. -/
theorem State.expiryTested_kept (s : State) : s.expiryPaced.MonitorKept s.expiryTested :=
  State.MonitorKept.trans (t := s.expiryConsumed) rfl (State.leadTests_kept _ _)

theorem State.leadTested_nodup {s : State} (c : s.Canonical) : s.leadTested.Nodup :=
  State.slotsWhere_nodup c.voices fun v => v.state == .playing || v.state == .releasing

theorem State.mem_leadTested {s : State} (c : s.Canonical) (n : Nat) :
    n ∈ s.leadTested ↔ (s.voice n).state = .playing ∨ (s.voice n).state = .releasing := by
  refine (State.mem_slotsWhere c.voices (p := fun v => v.state == .playing || v.state == .releasing) rfl n).trans ?_
  simp

theorem State.expiryConsumed_voice {s : State} (c : s.Canonical) (n : Nat) :
    s.expiryConsumed.voice n = (s.voice n).advance s.pace.position s.expiryPaced.pace.position := by
  have paced : s.expiryPaced.Canonical := by
    rw [s.expiryPaced_kept]
    exact c.of_same rfl rfl rfl rfl rfl
  refine (State.voice_update paced (f := fun _ v => v.advance s.pace.position s.expiryPaced.pace.position) rfl
    (fun _ => rfl) n).trans ?_
  rw [s.expiryPaced_kept]
  rfl

/-- A voice as the tests find and leave it. -/
theorem State.expiryTested_voice {s : State} (c : s.Canonical) (n : Nat) :
    s.expiryTested.voice n = if (s.voice n).state = .playing ∨ (s.voice n).state = .releasing then
      ((s.voice n).advance s.pace.position s.expiryPaced.pace.position).monitored s.expiryConsumed
      else (s.voice n).advance s.pace.position s.expiryPaced.pace.position := by
  unfold State.expiryTested
  rw [State.leadTests_voice _ _ _ (State.leadTested_nodup c), State.expiryConsumed_voice c]
  simp only [State.mem_leadTested c]

theorem State.naturalSlots_nodup {s : State} (c : s.Canonical) : s.naturalSlots.Nodup :=
  (State.soundingSlots_nodup (s.expiryTested_canonical c).voices).filter _

theorem Voice.exhausted_sounds {v : Voice} (h : v.exhausted = true) : v.sounding = true := by
  unfold Voice.exhausted at h
  split at h
  · simp only [Bool.and_eq_true] at h
    exact h.1.1
  · cases h

theorem State.mem_naturalSlots {s : State} (c : s.Canonical) (n : Nat) :
    n ∈ s.naturalSlots ↔ (s.expiryTested.voice n).exhausted = true := by
  unfold State.naturalSlots
  rw [List.mem_filter, State.mem_soundingSlots (s.expiryTested_canonical c).voices]
  exact ⟨And.right, fun h => ⟨Voice.exhausted_sounds h, h⟩⟩

/-- What the NATURAL ends do. -/
theorem State.expiryEnded_left {s : State} (c : s.Canonical) : s.expiryTested.LeftBy s.expiryEnded .natural s.naturalSlots := by
  have canonical := s.expiryTested_canonical c
  have ended : s.expiryEnded = s.expiryTested.endVoices .natural s.naturalSlots :=
    State.naturalEnds_eq _ _ (State.soundingSlots_nodup canonical.voices)
  rw [ended]
  exact State.endVoices_left _ _ _ (s.naturalSlots_nodup c) canonical fun n hn =>
    Voice.exhausted_sounds ((s.mem_naturalSlots c n).mp hn)

/-! ### The Pace Timer at an expiry -/

theorem Inner.naturalEnd (s : State) (n : Nat) : Inner s (s.naturalEnd n) := Inner.ite (Inner.endVoice _ s n) (Inner.refl s)

theorem State.expiryWork_pace (s : State) : s.expiryWork.pace = s.pace.afterExpiry := by
  rw [← s.expiryPaced_pace]
  unfold State.expiryWork
  split
  · rw [s.expiryEnded.settleVoices_judging.kept]
    have ended : s.expiryEnded.pace = s.expiryTested.pace := (Inner.foldl _ Inner.naturalEnd _ _).pace
    have tested : s.expiryTested.pace = s.expiryPaced.pace := by rw [s.expiryTested_kept]
    exact ended.trans tested
  · rfl

theorem State.naturalEnd_grows (s : State) (n : Nat) : ∀ c ∈ s.completions, c ∈ (s.naturalEnd n).completions := by
  intro c hc
  unfold State.naturalEnd
  split
  · rw [State.endVoice_eq]
    split
    · unfold State.dropReference State.settleRetiring
      dsimp only
      split
      · split
        · split
          · exact List.mem_cons_of_mem _ hc
          · exact hc
        · exact hc
      · exact hc
    · exact hc
  · exact hc

/-- What the Pace Timer's steps complete is written at the end of the event. -/
theorem State.expiryWork_grows (s : State) : ∀ c ∈ s.expiryPaced.completions, c ∈ s.expiryWork.completions := by
  intro c hc
  unfold State.expiryWork
  split
  · rw [s.expiryEnded.settleVoices_judging.kept]
    have each (l : List Nat) : ∀ u : State, c ∈ u.completions → c ∈ (l.foldl State.naturalEnd u).completions := by
      induction l with
      | nil => exact fun _ h => h
      | cons n l ih => exact fun u h => ih _ (u.naturalEnd_grows n c h)
    refine each _ _ ?_
    rw [s.expiryTested_kept]
    exact hc
  · exact hc

/-- Settles O43: the Pace Timer's five steps and the statuses they complete. -/
theorem expiryOfPace : Obligations.ExpiryOfPace := by
  intro s position p1 p2 p3
  obtain ⟨t, ht, closed, wrote, -⟩ := exec_periodExpiry s
  refine ⟨t, ht, closed.pace.trans s.expiryWork_pace, fun k halt => ?_, fun x k pending => ?_⟩
  · exact wrote _ (s.expiryWork_grows _ (State.expiryPaced_halt halt))
  · have state : p2.state = if x.source = .internal then .internal else if s.pace.clockPresent then .externalLocked
        else .freewheel := by
      simp only [p2, pending]
    rw [state]
    exact wrote _ (s.expiryWork_grows _ (State.expiryPaced_settings pending))

/-! ### One voice at an advancing expiry -/

/-- The state in which an advancing expiry leaves a sounding voice before the runs (R68). -/
def Voice.leftPriming (v : Voice) (new : Nat) : VoiceState :=
  if v.state = .priming ∧ v.position < new then if v.cursor.atEnd then .draining else if v.released then .releasing else .playing
  else v.state

/-- The C of a sounding voice after an advancing expiry (R67). -/
def Voice.consumedTo (v : Voice) (old new : Nat) : Nat :=
  if v.position ≤ new then min (2 ^ 48 - 1) (v.consumed + (new - max v.position old) * v.pendingRate.getD v.rate) else v.consumed

theorem Voice.advance_eq {v : Voice} (old new : Nat) (h : v.sounding = true) :
    v.advance old new = { v with
      rate := v.pendingRate.getD v.rate, pendingRate := none, consumed := v.consumedTo old new, state := v.leftPriming new } := by
  unfold Voice.advance Voice.leavePriming Voice.consume Voice.leftPriming Voice.consumedTo
  rw [if_pos h]
  dsimp only
  split <;> rfl

theorem Voice.leftPriming_sounds {v w : Voice} {new : Nat} (h : v.sounding = true) (state : w.state = v.leftPriming new) :
    w.sounding = true := by
  unfold Voice.leftPriming at state
  split at state
  · unfold Voice.sounding
    rw [state]
    cases v.cursor.atEnd <;> cases v.released <;> rfl
  · unfold Voice.sounding at h ⊢
    rw [state]
    exact h

theorem State.expiry_position {s : State} (running : s.pace.running = true) :
    s.expiryPaced.pace.position = s.pace.position + s.pace.period := by
  rw [s.expiryPaced_pace]
  unfold Pace.afterExpiry
  cases s.pace.pending <;> cases s.pace.haltPending <;> simp [running]

/-- A sounding voice as the tests leave it. -/
theorem State.expiryTested_sounding {s : State} {n : Nat} (c : s.Canonical) (running : s.pace.running = true)
    (sounds : (s.voice n).sounding = true) :
    ∃ starved underruns, s.expiryTested.voice n = { s.voice n with
      rate := (s.voice n).pendingRate.getD (s.voice n).rate, pendingRate := none
      consumed := (s.voice n).consumedTo s.pace.position (s.pace.position + s.pace.period)
      state := (s.voice n).leftPriming (s.pace.position + s.pace.period), starved := starved, underruns := underruns } := by
  rw [s.expiryTested_voice c, s.expiry_position running, Voice.advance_eq _ _ sounds]
  split
  · exact ⟨_, _, rfl⟩
  · exact ⟨_, _, rfl⟩

/-- A voice that is not sounding stays as it is until the runs. -/
theorem State.expiryTested_silent {s : State} {n : Nat} (c : s.Canonical) (silent : (s.voice n).sounding = false) :
    s.expiryTested.voice n = s.voice n := by
  have same (old new : Nat) : (s.voice n).advance old new = s.voice n := if_neg (Bool.eq_false_iff.mp silent)
  rw [s.expiryTested_voice c, same, if_neg]
  rintro (state | state)
  · simp [Voice.sounding, state] at silent
  · simp [Voice.sounding, state] at silent

theorem State.expiryTested_sounds {s : State} (c : s.Canonical) (running : s.pace.running = true) (n : Nat) :
    (s.expiryTested.voice n).sounding = (s.voice n).sounding := by
  cases sounds : (s.voice n).sounding with
  | false => rw [s.expiryTested_silent c sounds, sounds]
  | true =>
    obtain ⟨a, b, e⟩ := s.expiryTested_sounding c running sounds
    rw [e]
    exact Voice.leftPriming_sounds sounds rfl

/-- R69's condition. -/
theorem Voice.exhausted_iff {v : Voice} (sounds : v.sounding = true) :
    v.exhausted = true ↔ v.total = some v.delivered ∧ v.delivered * 65536 ≤ v.consumed := by
  unfold Voice.exhausted
  cases total : v.total with
  | none => simp
  | some n =>
    simp only [sounds, Bool.true_and, Bool.and_eq_true, beq_iff_eq, Option.some.injEq, frameUnits]
    constructor
    · rintro ⟨rfl, h⟩
      exact ⟨rfl, of_decide_eq_true h⟩
    · rintro ⟨rfl, h⟩
      exact ⟨rfl, decide_eq_true h⟩

/-- What an advancing expiry leaves of the voice of each slot: ended NATURAL, or judged for its runs. -/
theorem State.expiryVoice (s : State) (c : s.Canonical) (n : Nat) :
    (s.expiryEnded.voice n = if (s.expiryTested.voice n).exhausted then (s.expiryTested.voice n).endedWith .natural
      else s.expiryTested.voice n) ∧
    (s.expiryEnded.voice n).Judged (s.expiryEnded.settleVoices.voice n) ∧
    ((s.expiryEnded.voice n).sounding = false → s.expiryEnded.settleVoices.voice n = s.expiryEnded.voice n) := by
  refine ⟨?_, s.expiryEnded.settleVoices_each n, s.expiryEnded.settleVoices_judging.silent n⟩
  split
  · rename_i exhausted
    exact (s.expiryEnded_left c).voices n ((s.mem_naturalSlots c n).mpr exhausted)
  · rename_i lasts
    exact (s.expiryEnded_left c).others n fun h => lasts ((s.mem_naturalSlots c n).mp h)

/-- The voice of a slot at the end of an advancing expiry, seen from the tests (R66 to R69, R98). -/
structure Voice.Expired (v w : Voice) : Prop where
  start : v.KeepsStart w
  pendingRate : w.pendingRate = none
  ended : v.exhausted = true → w = v.endedWith .natural
  lasts : v.exhausted = false → v.Judged w ∧ w.sounding = true

theorem State.expiryVoice_sounding {s : State} (c : s.Canonical) (running : s.pace.running = true) {n : Nat}
    (sounds : (s.voice n).sounding = true) : (s.expiryTested.voice n).Expired (s.expiryEnded.settleVoices.voice n) := by
  obtain ⟨voice, judged, silent⟩ := s.expiryVoice c n
  have tested : (s.expiryTested.voice n).sounding = true := (s.expiryTested_sounds c running n).trans sounds
  obtain ⟨a, b, e⟩ := s.expiryTested_sounding c running sounds
  have none : (s.expiryTested.voice n).pendingRate = none := by rw [e]
  cases exhausted : (s.expiryTested.voice n).exhausted with
  | true =>
    rw [if_pos exhausted] at voice
    have same := (silent (by rw [voice]; rfl)).trans voice
    rw [same]
    exact ⟨by constructor <;> rfl, rfl, fun _ => rfl, fun h => absurd (exhausted.symm.trans h) nofun⟩
  | false =>
    rw [if_neg (Bool.eq_false_iff.mp exhausted)] at voice
    have sounding := (s.expiryEnded.settleVoices_judging.voices n).1
    rw [voice] at judged sounding
    exact ⟨judged.start, judged.keep.pendingRate.trans none, fun h => absurd (exhausted.symm.trans h) nofun,
      fun _ => ⟨judged, sounding.trans tested⟩⟩

theorem Voice.Expired.ending_iff {v w : Voice} (h : v.Expired w) : w.state = .ending ↔ v.exhausted = true := by
  constructor
  · intro state
    cases exhausted : v.exhausted with
    | true => rfl
    | false =>
      have sounds := (h.lasts exhausted).2
      simp [Voice.sounding, state] at sounds
  · intro exhausted
    rw [h.ended exhausted]
    rfl

/-- The slots that end at an advancing expiry are those exhausted (R69). -/
theorem State.ended_iff {s : State} (c : s.Canonical) (running : s.pace.running = true) (n : Nat) :
    ((s.voice n).sounding && (s.expiryEnded.settleVoices.voice n).state == .ending) = true ↔ n ∈ s.naturalSlots := by
  rw [s.mem_naturalSlots c, Bool.and_eq_true, beq_iff_eq]
  constructor
  · rintro ⟨sounds, ending⟩
    exact (s.expiryVoice_sounding c running sounds).ending_iff.mp ending
  · intro exhausted
    have sounds := (s.expiryTested_sounds c running n).symm.trans (Voice.exhausted_sounds exhausted)
    exact ⟨sounds, (s.expiryVoice_sounding c running sounds).ending_iff.mpr exhausted⟩

/-- Two lists without repetition of the same members are equally long. -/
theorem length_eq_of_mem_iff {l m : List Nat} (hl : l.Nodup) (hm : m.Nodup) (h : ∀ n, n ∈ l ↔ n ∈ m) : l.length = m.length :=
  ((List.perm_ext_iff_of_nodup hl hm).mpr h).length_eq

/-- What the voices' steps of an expiry leave of the rest of the part. -/
theorem State.expiryEnded_kept {s : State} (c : s.Canonical) :
    s.expiryEnded = { s with
      pace := s.expiryPaced.pace, completions := s.expiryEnded.completions, voices := s.expiryEnded.voices
      windows := s.expiryEnded.windows, queue := s.expiryEnded.queue, catalog := s.expiryEnded.catalog
      recency := s.expiryEnded.recency
      registers := { s.registers with
        status := s.expiryEnded.registers.status, counters := s.expiryEnded.registers.counters } } := by
  have ended := (s.expiryEnded_left c).kept
  have tested := s.expiryTested_kept
  have paced := s.expiryPaced_kept
  unfold State.MonitorKept at tested
  generalize s.expiryEnded = u at *
  rw [ended, tested, paced]

/-- The tests find the queue, the windows and the records as the expiry does, and its voices' names. -/
theorem State.expiryTested_same {s : State} (c : s.Canonical) (running : s.pace.running = true) :
    s.expiryTested.queue = s.queue ∧ s.expiryTested.windows = s.windows ∧ s.expiryTested.catalog = s.catalog ∧
      s.expiryTested.dram = s.dram ∧ s.expiryTested.partition = s.partition ∧
      ∀ n, (s.expiryTested.voice n).generation = (s.voice n).generation ∧
        (s.expiryTested.voice n).window = (s.voice n).window ∧
        ∀ id g, (s.expiryTested.voice n).plays id g = (s.voice n).plays id g := by
  have tested := s.expiryTested_kept
  unfold State.MonitorKept at tested
  refine ⟨by rw [tested, s.expiryPaced_kept], by rw [tested, s.expiryPaced_kept], by rw [tested, s.expiryPaced_kept],
    by rw [tested, s.expiryPaced_kept], by rw [tested, s.expiryPaced_kept], fun n => ?_⟩
  have sounds := s.expiryTested_sounds c running n
  cases sounding : (s.voice n).sounding with
  | false =>
    rw [s.expiryTested_silent c sounding]
    exact ⟨rfl, rfl, fun _ _ => rfl⟩
  | true =>
    obtain ⟨a, b, e⟩ := s.expiryTested_sounding c running sounding
    refine ⟨by rw [e], by rw [e], fun id g => ?_⟩
    unfold Voice.plays
    rw [sounds, e]

theorem Voice.RunsMove.unprimed {v w : Voice} (h : v.RunsMove w) (left : v.state ≠ .priming) : w.state ≠ .priming := by
  cases atEnd : v.cursor.atEnd with
  | true => rwa [(h.ended atEnd).2]
  | false =>
    rw [h.moves atEnd]
    split
    · nofun
    · exact left

/-- The state of a voice that was PRIMING when the expiry came (R68), after its runs. -/
theorem Voice.RunsMove.fromPriming {u v w : Voice} {new : Nat} (h : v.RunsMove w) (priming : u.state = .priming)
    (state : v.state = u.leftPriming new) (cursor : v.cursor = u.cursor) :
    w.state = if u.position < new then if w.cursor.atEnd then .draining else if u.released then .releasing else .playing
      else .priming := by
  unfold Voice.leftPriming at state
  simp only [priming, true_and] at state
  by_cases moved : u.position < new
  · rw [if_pos moved] at state ⊢
    cases atEnd : v.cursor.atEnd with
    | true =>
      obtain ⟨ended, same⟩ := h.ended atEnd
      rw [← cursor, atEnd, if_pos rfl] at state
      rw [same, state, ended, if_pos rfl]
    | false =>
      rw [← cursor, atEnd, if_neg nofun] at state
      rw [h.moves atEnd, state]
      cases w.cursor.atEnd <;> cases u.released <;> simp
  · rw [if_neg moved] at state ⊢
    cases atEnd : v.cursor.atEnd with
    | true => rw [(h.ended atEnd).2, state]
    | false =>
      rw [h.moves atEnd, state]
      simp

/-- Every sounding voice at an advancing expiry (R66 to R69). -/
theorem expiry_sounding {s : State} (c : s.Canonical) (running : s.pace.running = true) {n : Nat}
    (sounds : (s.voice n).sounding = true) :
    let w := s.expiryEnded.settleVoices.voice n
    let new := s.pace.position + s.pace.period
    let v := s.voice n
    let rate := v.pendingRate.getD v.rate
    w.rate = rate ∧ w.pendingRate = none ∧
      w.consumed = (if v.position ≤ new then
        min (2 ^ 48 - 1) (v.consumed + (new - max v.position s.pace.position) * rate) else v.consumed) ∧
      w.delivered = v.delivered ∧ w.generation = v.generation ∧
      (v.position < new → w.state ≠ .priming) ∧
      (w.state = .ending → v.total = some v.delivered ∧ v.delivered * 65536 ≤ w.consumed ∧ w.endReason = some .natural) ∧
      (v.state = .priming → w.state ≠ .ending →
        w.state = if v.position < new then if w.cursor.atEnd then .draining else if v.released then .releasing else .playing
          else .priming) := by
  intro w new v rate
  have expired : (s.expiryTested.voice n).Expired w := s.expiryVoice_sounding c running sounds
  have tested := (s.expiryTested_sounds c running n).trans sounds
  obtain ⟨a, b, e⟩ := s.expiryTested_sounding c running sounds
  have start := expired.start
  have state : (s.expiryTested.voice n).state = v.leftPriming new := by rw [e]
  have atEnd : (s.expiryTested.voice n).cursor = v.cursor := by rw [e]
  have consumed : w.consumed = v.consumedTo s.pace.position new := start.consumed.trans (by rw [e])
  have left (moved : v.position < new) : v.leftPriming new ≠ .priming := by
    unfold Voice.leftPriming
    split
    · cases v.cursor.atEnd <;> cases v.released <;> nofun
    · rename_i stays
      exact fun priming => stays ⟨priming, moved⟩
  have moves (lasts : (s.expiryTested.voice n).exhausted = false) := (expired.lasts lasts).1.move
  refine ⟨start.rate.trans (by rw [e]), expired.pendingRate, consumed, start.delivered.trans (by rw [e]),
    start.generation.trans (by rw [e]), fun moved => ?_, fun ending => ?_, fun priming lasts => ?_⟩
  · cases exhausted : (s.expiryTested.voice n).exhausted with
    | true =>
      rw [expired.ended exhausted]
      nofun
    | false => exact (moves exhausted).unprimed (by rw [state]; exact left moved)
  · have exhausted := expired.ending_iff.mp ending
    obtain ⟨total, line⟩ := (Voice.exhausted_iff tested).mp exhausted
    refine ⟨?_, ?_, ?_⟩
    · rw [e] at total
      exact total
    · rw [consumed]
      rw [e] at line
      exact line
    · rw [expired.ended exhausted]
      rfl
  · have exhausted : (s.expiryTested.voice n).exhausted = false :=
      Bool.eq_false_iff.mpr fun k => lasts (expired.ending_iff.mpr k)
    exact (moves exhausted).fromPriming priming state atEnd

/-- The queue and the records at an advancing expiry (R12, R110). -/
theorem expiry_leaves {s t : State} (c : s.Canonical) (running : s.pace.running = true) (closed : Closed s.expiryEnded.settleVoices t)
    (wrote : ∀ c ∈ s.expiryEnded.settleVoices.completions, wroteAt s t c.token.address (doneBytes c.result c.word0 c.word1)) :
    let ended (n : Nat) : Bool := (s.voice n).sounding && (t.voice n).state == .ending
    t.queue = s.queueWithout ended ∧
      ∀ id, s.RecordLeft t id ((s.slotsPlaying id (s.record id).generation).filter ended).length := by
  intro ended
  have left := s.expiryEnded_left c
  have kept := s.expiryEnded.settleVoices_judging.kept
  obtain ⟨queue, -, catalog, -, -, voices⟩ := s.expiryTested_same c running
  have ends (n : Nat) : ended n = true ↔ n ∈ s.naturalSlots := by
    show ((s.voice n).sounding && (t.voice n).state == .ending) = true ↔ _
    rw [closed.voice]
    exact s.ended_iff c running n
  have records (id : Nat) : t.record id = s.expiryEnded.record id := by
    rw [closed.record, kept]
    rfl
  refine ⟨?_, fun id => ?_⟩
  · rw [closed.queue, kept]
    show s.expiryEnded.queue = _
    rw [left.queue]
    unfold State.queueWithout
    rw [queue]
    refine List.filter_congr fun e _ => ?_
    cases e.owner with
    | load _ _ => rfl
    | voice n g =>
      have same : s.naturalSlots.contains n = ended n := by
        rw [Bool.eq_iff_iff, ends]
        exact List.contains_iff_mem
      simp only [same, (voices n).1]
  · have record : s.expiryTested.record id = s.record id := State.record_congr catalog id
    have naming : s.expiryTested.naming s.naturalSlots id =
        ((s.slotsPlaying id (s.record id).generation).filter ended).length := by
      refine length_eq_of_mem_iff ((s.naturalSlots_nodup c).filter _) ((State.slotsPlaying_nodup c.voices _ _).filter _) fun n => ?_
      rw [List.mem_filter, List.mem_filter, State.mem_slotsPlaying c.voices, ends, record, (voices n).2.2, and_comm]
    rw [← naming]
    refine State.recordLeft_of ((records id).trans ((left.records id).trans (by rw [record]))) fun k retire state vacant => ?_
    rw [records] at vacant
    obtain ⟨x, y, listed⟩ := left.written id k (by rw [record]; exact retire) (by rw [record]; exact state) vacant
    refine ⟨x, y, wrote ⟨k, .ok, x, y⟩ ?_⟩
    rw [kept]
    exact listed

/-- No window is held by two of the voices that the tests find sounding. -/
theorem State.expiryTested_once {s : State} (c : s.Canonical) (running : s.pace.running = true) (once : s.WindowsHeldOnce) :
    s.expiryTested.SoundedOnce := by
  obtain ⟨-, -, -, -, -, voices⟩ := s.expiryTested_same c running
  intro m n hm hn e
  rw [s.expiryTested_sounds c running] at hm hn
  rw [(voices m).2.1, (voices n).2.1] at e
  exact once.sounded m n hm hn e

/-- The voices still sounding after the NATURAL ends, as the expiry found them. -/
theorem State.expiryEnded_lasts {s : State} (c : s.Canonical) (running : s.pace.running = true) {n : Nat}
    (sounds : (s.expiryEnded.voice n).sounding = true) :
    n ∉ s.naturalSlots ∧ s.expiryEnded.voice n = s.expiryTested.voice n ∧ (s.voice n).sounding = true := by
  have left := s.expiryEnded_left c
  have lasts : n ∉ s.naturalSlots := by
    intro ends
    rw [left.voices n ends] at sounds
    cases sounds
  rw [left.others n lasts, s.expiryTested_sounds c running] at sounds
  exact ⟨lasts, left.others n lasts, sounds⟩

theorem State.expiryEnded_once {s : State} (c : s.Canonical) (running : s.pace.running = true) (once : s.WindowsHeldOnce) :
    s.expiryEnded.SoundedOnce := by
  intro m n hm hn e
  obtain ⟨-, sameM, -⟩ := s.expiryEnded_lasts c running hm
  obtain ⟨-, sameN, -⟩ := s.expiryEnded_lasts c running hn
  rw [sameM] at hm e
  rw [sameN] at hn e
  exact s.expiryTested_once c running once m n hm hn e

/-- The window of a voice still sounding after the NATURAL ends is as the expiry found it. -/
theorem State.expiryEnded_window {s : State} (c : s.Canonical) (running : s.pace.running = true) (once : s.WindowsHeldOnce) {n : Nat}
    (sounds : (s.expiryEnded.voice n).sounding = true) :
    (s.expiryEnded.voice n).window = (s.voice n).window ∧ s.expiryEnded.window (s.voice n).window = s.window (s.voice n).window := by
  obtain ⟨-, windows, -, -, -, voices⟩ := s.expiryTested_same c running
  obtain ⟨lasts, same, held⟩ := s.expiryEnded_lasts c running sounds
  refine ⟨by rw [same, (voices n).2.1], ?_⟩
  refine ((s.expiryEnded_left c).otherWindows _ fun m ends shared => lasts ?_).trans (State.window_congr windows _)
  have exhausted := Voice.exhausted_sounds ((s.mem_naturalSlots c m).mp ends)
  rw [s.expiryTested_sounds c running] at exhausted
  rw [(voices m).2.1] at shared
  rwa [← once.sounded m n exhausted held shared]

/-- The window of a voice that ended NATURAL (R45). -/
theorem expiry_windows {s t : State} (c : s.Canonical) (running : s.pace.running = true) (once : s.WindowsHeldOnce)
    (closed : Closed s.expiryEnded.settleVoices t) {n : Nat} (ends : n ∈ s.naturalSlots) :
    s.WindowEnded n (t.window (s.voice n).window) := by
  obtain ⟨queue, windows, -, -, -, voices⟩ := s.expiryTested_same c running
  have left := s.expiryEnded_left c
  have judged := s.expiryEnded.settleVoices_judged (s.expiryEnded_once c running once)
  have sounds : (s.voice n).sounding = true :=
    (s.expiryTested_sounds c running n).symm.trans (Voice.exhausted_sounds ((s.mem_naturalSlots c n).mp ends))
  have untouched : t.window (s.voice n).window = s.expiryEnded.window (s.voice n).window := by
    rw [closed.window]
    refine judged.windows _ fun m _ held shared => ?_
    obtain ⟨lasts, same, heldBefore⟩ := s.expiryEnded_lasts c running held
    rw [same, (voices m).2.1] at shared
    exact lasts (once.sounded m n heldBefore sounds shared ▸ ends)
  have ended := left.windows (s.expiryTested_once c running once) n ends
  rw [(voices n).2.1] at ended
  rw [untouched]
  obtain ⟨points, emptied, queued, inFlight⟩ := ended
  rw [(voices n).2.1, State.window_congr windows] at points emptied inFlight
  rw [queue, (voices n).1] at inFlight
  rw [queue, (voices n).1, (voices n).2.1] at queued
  exact ⟨points, emptied, queued, inFlight⟩

/-- The memory and the runs at an advancing expiry of a READY part (R98, R100, R106). -/
theorem expiry_runs {s t : State} (c : s.Canonical) (running : s.pace.running = true) (once : s.WindowsHeldOnce)
    (ready : s.registers.engine = .ready) (closed : Closed s.expiryEnded.settleVoices t) :
    SilenceWritten s t ∧ ∀ n, (s.voice n).sounding = true → (t.voice n).state ≠ .ending →
      let v := s.voice n
      s.GivenRuns t n
        { v with
          rate := v.pendingRate.getD v.rate, pendingRate := none, consumed := (t.voice n).consumed
          starved := (t.voice n).starved, underruns := (t.voice n).underruns
          state := if v.state = .priming ∧ v.position < s.pace.position + s.pace.period then
              if v.cursor.atEnd then .draining else if v.released then .releasing else .playing
            else v.state }
        (s.window v.window) := by
  have kept := s.expiryEnded_kept c
  have sounded := s.expiryEnded_once c running once
  have places : State.PlacesFrom (fun _ => True) s s.expiryEnded := by
    refine ⟨by rw [kept], by rw [kept], fun n _ sounds => .inl ?_⟩
    obtain ⟨-, -, held⟩ := s.expiryEnded_lasts c running sounds
    obtain ⟨window, same⟩ := s.expiryEnded_window c running once sounds
    rw [window]
    exact ⟨held, rfl, same⟩
  refine ⟨places.silence (s.expiryEnded.settleVoices_judged sounded) sounded closed, fun n sounds lasts => ?_⟩
  intro v
  have expired := s.expiryVoice_sounding c running sounds
  have notEnded : n ∉ s.naturalSlots := fun ends => lasts (by
    rw [closed.voice]
    exact expired.ending_iff.mpr ((s.mem_naturalSlots c n).mp ends))
  have same := (s.expiryEnded_left c).others n notEnded
  obtain ⟨a, b, e⟩ := s.expiryTested_sounding c running sounds
  have held : (s.expiryEnded.voice n).sounding = true := by
    rw [same, s.expiryTested_sounds c running, sounds]
  have canonical : s.expiryEnded.Canonical :=
    (Orderly.foldl _ Orderly.naturalEnd _ s.expiryTested).canonical (s.expiryTested_canonical c)
  have runs := State.GivenRuns.of_settleVoices
    (State.not_resetting_of (by rw [kept]; exact ready)) canonical.voices sounded closed s n held
  obtain ⟨window, place⟩ := s.expiryEnded_window c running once held
  rw [window, place, same, e] at runs
  have start := expired.start
  have consumed : (t.voice n).consumed = v.consumedTo s.pace.position (s.pace.position + s.pace.period) := by
    rw [closed.voice, start.consumed, e]
  have starved : (t.voice n).starved = a := by rw [closed.voice, start.starved, e]
  have underruns : (t.voice n).underruns = b := by rw [closed.voice, start.underruns, e]
  rw [consumed, starved, underruns]
  exact runs

theorem Closed.dies {s t : State} (h : Closed s t) : SameDies s t := ⟨h.die, h.stores⟩

/-- Settles O44: the voices at an advancing expiry, one by one, and what their NATURAL ends leave. -/
theorem expiryOfVoices : Obligations.ExpiryOfVoices := by
  refine ⟨fun s c => ⟨fun running => ?_, fun stopped => ?_⟩, fun s n total c running sounds known delivered => ?_⟩
  · obtain ⟨t, ht, closed, wrote, -⟩ := exec_periodExpiry s
    have work : s.expiryWork = s.expiryEnded.settleVoices := if_pos running
    rw [work] at closed wrote
    have kept := s.expiryEnded.settleVoices_judging.kept
    obtain ⟨queue, records⟩ := expiry_leaves c running closed wrote
    refine ⟨t, ht, fun n sounds => ?_, fun n silent => ?_, ⟨fun d => ?_, ?_⟩, queue, records,
      fun once n ended => ?_, fun ready once => expiry_runs c running once ready closed⟩
    · rw [closed.voice]
      exact expiry_sounding c running sounds
    · obtain ⟨voice, -, same⟩ := s.expiryVoice c n
      have tested := s.expiryTested_silent c silent
      have lasts : (s.voice n).exhausted ≠ true := fun k => by simp [Voice.exhausted_sounds k] at silent
      rw [tested, if_neg lasts] at voice
      rw [closed.voice, same (by rw [voice]; exact silent), voice]
    · rw [closed.die, kept.die, s.expiryEnded_kept c]
      rfl
    · rw [closed.stores, kept, s.expiryEnded_kept c]
    · have ends : ((s.voice n).sounding && (t.voice n).state == .ending) = true := ended
      rw [closed.voice] at ends
      exact expiry_windows c running once closed ((s.ended_iff c running n).mp ends)
  · obtain ⟨t, ht, closed, -, -⟩ := exec_periodExpiry s
    have work : s.expiryWork = s.expiryPaced := if_neg (Bool.eq_false_iff.mp stopped)
    rw [work, s.expiryPaced_kept] at closed
    refine ⟨t, ht, fun a => by rw [closed.dram], ⟨closed.record, closed.partition, ?_, ?_⟩, ⟨closed.voice, closed.window, ?_⟩,
      ⟨closed.queue, ?_⟩, ⟨closed.die, closed.stores⟩, closed.tunables⟩
    all_goals rw [closed.2]
  · obtain ⟨t, ht, closed, -, -⟩ := exec_periodExpiry s
    have work : s.expiryWork = s.expiryEnded.settleVoices := if_pos running
    rw [work] at closed
    refine ⟨t, ht, fun line => ?_⟩
    have expired := s.expiryVoice_sounding c running sounds
    obtain ⟨a, b, e⟩ := s.expiryTested_sounding c running sounds
    have exhausted : (s.expiryTested.voice n).exhausted = true := by
      refine (Voice.exhausted_iff ((s.expiryTested_sounds c running n).trans sounds)).mpr ?_
      rw [closed.voice, expired.start.consumed] at line
      refine ⟨?_, ?_⟩
      · rw [e]
        exact known.trans (congrArg some delivered.symm)
      · have same : (s.expiryTested.voice n).delivered = total := by rw [e]; exact delivered
        rw [same]
        exact line
    rw [closed.voice, expired.ended exhausted]
    exact ⟨rfl, rfl⟩

/-! ### The lead monitor at an advancing expiry -/

/-- The voices newly starved, and those behind (R114, R115). -/
def State.starvingSlots (s : State) : List Nat :=
  s.leadTested.filter fun n => s.expiryConsumed.newlyStarved (s.expiryConsumed.voice n)

def State.behindSlots (s : State) : List Nat := s.leadTested.filter fun n => (s.expiryConsumed.voice n).behind

/-- The flags and the counters at an advancing expiry (R114, R115). -/
theorem expiry_counted {s t : State} (c : s.Canonical) (running : s.pace.running = true)
    (closed : Closed s.expiryWork t) (flags : ∀ f : Flag, f ≠ .requestDone → f ≠ .delivery → t.latched f = s.expiryWork.latched f) :
    s.TestsCounted t s.starvingSlots s.behindSlots := by
  have work : s.expiryWork = s.expiryEnded.settleVoices := if_pos running
  have registers : s.expiryWork.registers = s.expiryTested.registers := by
    rw [work, s.expiryEnded.settleVoices_judging.kept]
    show s.expiryEnded.registers = _
    rw [(s.expiryEnded_left c).kept]
  have first : s.expiryConsumed.registers = s.registers := by
    show s.expiryPaced.registers = _
    rw [s.expiryPaced_kept]
  have counted : s.expiryConsumed.TestsCounted s.expiryTested s.starvingSlots s.behindSlots :=
    State.leadTests_counted _ _ (State.leadTested_nodup c)
  have flag (f : Flag) (done : f ≠ .requestDone) (notice : f ≠ .delivery) : t.latched f = s.expiryTested.latched f := by
    rw [flags f done notice]
    unfold State.latched
    rw [registers]
  have counters : t.registers.counters = s.expiryTested.registers.counters := by rw [closed.counters, registers]
  have before (f : Flag) : s.expiryConsumed.latched f = s.latched f := by
    unfold State.latched
    rw [first]
  exact counted.congr before (by rw [first]) (flag _ nofun nofun) (flag _ nofun nofun) counters

/-- The flag, the counts and the C of every voice at an advancing expiry (R67, R114, R115). -/
theorem State.expiry_monitored {s : State} (c : s.Canonical) (running : s.pace.running = true) (n : Nat) :
    (s.expiryEnded.settleVoices.voice n).starved = (s.expiryTested.voice n).starved ∧
      (s.expiryEnded.settleVoices.voice n).underruns = (s.expiryTested.voice n).underruns ∧
      (s.expiryEnded.settleVoices.voice n).consumed = (s.expiryTested.voice n).consumed ∧
      (s.expiryEnded.settleVoices.voice n).rate = (s.expiryTested.voice n).rate := by
  cases sounds : (s.voice n).sounding with
  | true =>
    have start := (s.expiryVoice_sounding c running sounds).start
    exact ⟨start.starved, start.underruns, start.consumed, start.rate⟩
  | false =>
    obtain ⟨voice, -, same⟩ := s.expiryVoice c n
    have lasts : (s.voice n).exhausted ≠ true := fun k => by simp [Voice.exhausted_sounds k] at sounds
    rw [s.expiryTested_silent c sounds, if_neg lasts] at voice
    rw [same (by rw [voice]; exact sounds), voice, s.expiryTested_silent c sounds]
    exact ⟨rfl, rfl, rfl, rfl⟩

/-- A voice as the tests find it keeps what they do not read (R67, R68). -/
theorem State.expiryConsumed_counts {s : State} (c : s.Canonical) (n : Nat) :
    (s.expiryConsumed.voice n).delivered = (s.voice n).delivered ∧ (s.expiryConsumed.voice n).starved = (s.voice n).starved ∧
      (s.expiryConsumed.voice n).underruns = (s.voice n).underruns ∧
      (s.expiryConsumed.voice n).leadClass = (s.voice n).leadClass := by
  rw [s.expiryConsumed_voice c]
  cases sounds : (s.voice n).sounding with
  | true =>
    rw [Voice.advance_eq _ _ sounds]
    exact ⟨rfl, rfl, rfl, rfl⟩
  | false =>
    have same (old new : Nat) : (s.voice n).advance old new = s.voice n := if_neg (Bool.eq_false_iff.mp sounds)
    rw [same]
    exact ⟨rfl, rfl, rfl, rfl⟩

/-- The tests of one voice, seen from the end of the expiry (R113 to R115). -/
theorem expiry_tests {s t : State} (c : s.Canonical) (running : s.pace.running = true) (closed : Closed s.expiryWork t) {n : Nat}
    (tested : (s.voice n).state = .playing ∨ (s.voice n).state = .releasing) :
    (s.expiryConsumed.leadLow (s.expiryConsumed.voice n) = true ↔ (s.voice n).delivered * 65536 <
      (t.voice n).consumed + ((s.leadClass (s.voice n)).target - (s.leadClass (s.voice n)).tolerance) * t.pace.period *
        (t.voice n).rate) ∧
    ((s.expiryConsumed.voice n).behind = true ↔ (s.voice n).delivered * 65536 < (t.voice n).consumed) ∧
    (t.voice n).starved = s.expiryConsumed.leadLow (s.expiryConsumed.voice n) ∧
    (t.voice n).underruns = if (s.expiryConsumed.voice n).behind then min ((s.voice n).underruns + 1) 255
      else (s.voice n).underruns := by
  have work : s.expiryWork = s.expiryEnded.settleVoices := if_pos running
  have pace : t.pace = s.expiryPaced.pace := by rw [closed.pace, s.expiryWork_pace, s.expiryPaced_pace]
  rw [work] at closed
  obtain ⟨starved, underruns, consumed, rate⟩ := s.expiry_monitored c running n
  obtain ⟨delivered, -, count, leadClass⟩ := s.expiryConsumed_counts c n
  have voice : s.expiryTested.voice n = (s.expiryConsumed.voice n).monitored s.expiryConsumed := by
    rw [s.expiryTested_voice c, if_pos tested, s.expiryConsumed_voice c]
  have classes : s.expiryConsumed.leadClass (s.expiryConsumed.voice n) = s.leadClass (s.voice n) := by
    have tunables : s.expiryConsumed.tunables = s.tunables := by
      show s.expiryPaced.tunables = _
      rw [s.expiryPaced_kept]
    unfold State.leadClass
    rw [leadClass, tunables]
  rw [voice] at starved underruns consumed rate
  rw [closed.voice, consumed, rate, starved, underruns, pace, ← delivered, ← classes, ← count]
  refine ⟨decide_eq_true_iff, decide_eq_true_iff, rfl, rfl⟩

theorem State.mem_starvingSlots {s t : State} (c : s.Canonical) (running : s.pace.running = true) (closed : Closed s.expiryWork t)
    (n : Nat) : n ∈ s.starvingSlots ↔ ((s.voice n).state = .playing ∨ (s.voice n).state = .releasing) ∧
      (s.voice n).starved = false ∧ (t.voice n).starved = true := by
  unfold State.starvingSlots State.newlyStarved
  rw [List.mem_filter, State.mem_leadTested c, and_congr_right_iff]
  intro tested
  obtain ⟨-, -, starved, -⟩ := expiry_tests c running closed tested
  rw [starved, (s.expiryConsumed_counts c n).2.1]
  simp [and_comm]

theorem State.mem_behindSlots {s t : State} (c : s.Canonical) (running : s.pace.running = true) (closed : Closed s.expiryWork t)
    (n : Nat) : n ∈ s.behindSlots ↔ ((s.voice n).state = .playing ∨ (s.voice n).state = .releasing) ∧
      (s.voice n).delivered * 65536 < (t.voice n).consumed := by
  unfold State.behindSlots
  rw [List.mem_filter, State.mem_leadTested c, and_congr_right_iff]
  intro tested
  obtain ⟨-, behind, -, -⟩ := expiry_tests c running closed tested
  exact behind

/-- Settles O45: one tested voice, then the counts over all of them. -/
theorem leadMonitor : Obligations.LeadMonitor := by
  refine ⟨fun s n c running tested => ?_, fun s c running bounded => ?_⟩
  · obtain ⟨t, ht, closed, -, flags⟩ := exec_periodExpiry s
    have counted := expiry_counted c running closed flags
    obtain ⟨low, behind, starved, underruns⟩ := expiry_tests c running closed tested
    refine ⟨t, ht, fun isLow => ⟨starved.trans (low.mpr isLow), fun fresh => ?_⟩, fun notLow => ?_, fun isBehind => ⟨?_, ?_⟩,
      fun ahead => ?_⟩
    · refine counted.lowLatched (List.ne_nil_of_mem ((State.mem_starvingSlots c running closed n).mpr ⟨tested, fresh, ?_⟩))
      exact starved.trans (low.mpr isLow)
    · exact starved.trans (Bool.eq_false_iff.mpr fun k => notLow (low.mp k))
    · exact underruns.trans (if_pos (behind.mpr isBehind))
    · exact counted.underrunLatched
        (List.ne_nil_of_mem ((State.mem_behindSlots c running closed n).mpr ⟨tested, isBehind⟩))
    · exact underruns.trans (if_neg fun k => ahead (behind.mp k))
  · obtain ⟨t, ht, closed, -, flags⟩ := exec_periodExpiry s
    have counted := expiry_counted c running closed flags
    have nodup := State.leadTested_nodup c
    refine ⟨t, ht, fun m untested => ?_,
      ⟨s.starvingSlots, nodup.filter _, State.mem_starvingSlots c running closed, counted.lowFlag, counted.starve bounded⟩,
      ⟨s.behindSlots, nodup.filter _, State.mem_behindSlots c running closed, counted.underrunFlag, counted.underrun bounded⟩,
      counted.others⟩
    have work : s.expiryWork = s.expiryEnded.settleVoices := if_pos running
    rw [work] at closed
    obtain ⟨starved, underruns, -, -⟩ := s.expiry_monitored c running m
    obtain ⟨-, sameStarved, sameUnderruns, -⟩ := s.expiryConsumed_counts c m
    have voice : s.expiryTested.voice m = s.expiryConsumed.voice m := by
      rw [s.expiryTested_voice c, if_neg untested, s.expiryConsumed_voice c]
    rw [closed.voice, starved, underruns, voice]
    exact ⟨sameStarved, sameUnderruns⟩

/-! ### Frames and the word clock -/

/-- A frame that is not the period's last leaves the period expiry out (R79, R82). -/
theorem State.countFrame_within {s : State} (h : s.pace.frame + 1 < s.pace.period) :
    s.countFrame = { s with pace := { s.pace with frame := s.pace.frame + 1 } } :=
  if_neg (Nat.not_le.mpr h)

theorem State.countFrame_last {s : State} (h : s.pace.period ≤ s.pace.frame + 1) : s.countFrame = s.expiry :=
  if_pos h

theorem step_idle {s : State} (h : s.pending = []) : step s = tick s := by
  unfold step
  rw [h]

/-- An event depends on the work at its state alone. -/
theorem event_congr {f g : State → State} {s : State} (h : f s = g s) : event f s = event g s := by
  unfold event
  rw [h]

/-- An event with no completion and no change of a register sends no message (R182). -/
theorem event_silent {f : State → State} {s t : State} (h : f s = t) (k : t.completions = []) (r : t.registers = s.registers) :
    event f s = .next t := by
  rw [event_settled f s (by rw [h]; exact k), h, sendMessage_same (by rw [r]) (by rw [r]) (by rw [r])]

/-- Settles O46: one count by the oscillator, one by the word clock's edge, and the clock's loss. -/
theorem framesAndClock : Obligations.FramesAndClock := by
  intro s settled
  refine ⟨fun idle internal within => ?_, fun idle internal last => ?_, fun idle external => ?_, fun internal => ?_,
    fun external within => ?_, fun external last => ?_, fun internal => ?_, fun external => ?_⟩
  · have work : s.countInternalFrame = _ := (if_neg internal).trans (State.countFrame_within within)
    exact (step_idle idle).trans (event_silent work settled rfl)
  · have work : s.countInternalFrame = s.expiry := (if_neg internal).trans (State.countFrame_last last)
    exact (step_idle idle).trans (event_congr work)
  · have work : s.countInternalFrame = s := if_pos external
    exact (step_idle idle).trans (event_silent work settled rfl)
  · have work : s.clockEdge = _ := if_neg internal
    exact exec_silent (c := .wordClockEdge) work settled rfl
  · have work : s.clockEdge = _ := (if_pos external).trans (State.countFrame_within within)
    exact exec_silent (c := .wordClockEdge) work settled rfl
  · have work : s.clockEdge = _ := (if_pos external).trans (State.countFrame_last last)
    rw [exec_work, exec_work]
    exact event_congr (g := fun s => State.expiry { s with pace := { s.pace with clockPresent := true } }) work
  · have work : s.clockLost = _ := if_neg internal
    exact exec_silent (c := .clockLoss) work settled rfl
  · have work : s.clockLost = _ := if_pos external
    have ends := exec_settled (c := .clockLoss) work settled
    refine ⟨_, ends, ?_, fun f other => ?_, sendMessage_oneMessage rfl, ?_⟩
    · rw [State.latched_sendMessage]
      exact State.latched_same _ _
    · rw [State.latched_sendMessage]
      exact State.latched_other _ other
    · rw [sendMessage_kept]
      exact ⟨rfl, ⟨fun _ => rfl, ⟨fun _ => rfl, rfl, rfl, rfl⟩, ⟨fun _ => rfl, fun _ => rfl, rfl⟩, ⟨rfl, rfl⟩, ⟨fun _ => rfl, rfl⟩, rfl⟩,
      rfl, rfl⟩

end Sys2Proof.Machine
end

section
/-! PROOFS. The ends of a die's operation: its phases, its ends on a die that stays in service, the retries, and a POLL's end. The
event of such an end is the arbiter's choice on the state after the end, so that each of the statements below reads off what the
end itself did and hands the rest to `Arbitrated`. -/

namespace Sys2Proof.Machine

/-! ### The event of a die's answer -/

/-- Nothing but the last operation's end completes an engine reset (R179). -/
theorem State.finishEngineReset_ready {s : State} (h : s.resetting = false) : s.finishEngineReset = s := by
  simp [State.finishEngineReset, h]

theorem State.noOperation_busy {s : State} {d : Nat} (h : (s.die d).operation.isSome = true) : s.noOperation = false := by
  obtain listed | blank := Table.get_mem Die.blank s.dies d
  · refine Bool.eq_false_iff.mpr fun none => ?_
    have gone := List.all_eq_true.mp none _ listed
    rw [show (Table.get Die.blank s.dies d).operation.isNone = (s.die d).operation.isNone from rfl,
      Option.isNone_iff_eq_none] at gone
    rw [gone] at h
    cases h
  · rw [show s.die d = Die.blank from blank] at h
    cases h

theorem State.finishEngineReset_busy {s : State} {d : Nat} (h : (s.die d).operation.isSome = true) :
    s.finishEngineReset = s := by
  simp [State.finishEngineReset, State.noOperation_busy h]

/-- The event of an end that is not the last of an engine reset. -/
theorem exec_dieEnd {c : Instr} {s t : State} (h : work c s = t.finishEngineReset) (goesOn : t.finishEngineReset = t) :
    exec c s = .next (sendMessage s t.flush) := by
  rw [exec_work]
  exact congrArg (fun u : State => Host.Outcome.next (sendMessage s u.flush)) (h.trans goesOn)

/-! ### The phases of a read and of a program -/

section
variable {s : State} {d : Nat} {o : Operation}

theorem State.pollInterval_polling (operation : (s.die d).operation = some o) (state : (s.die d).state = .polling)
    (work : o.work ≠ .poll) : s.pollInterval d = s.emit (.diePoll d) := by
  unfold State.pollInterval
  rw [operation, state]
  cases h : o.work with
  | read f => simp [h]
  | program p => simp [h]
  | poll => exact absurd h work

theorem State.addressAck_read {f : FetchEntry} (operation : (s.die d).operation = some o) (work : o.work = .read f)
    (state : (s.die d).state = .addressing) : s.addressAck d = s.setDie d { s.die d with state := .polling } := by
  simp [State.addressAck, operation, work, state]

theorem State.addressAck_program {p : ProgramEntry} (operation : (s.die d).operation = some o) (work : o.work = .program p)
    (state : (s.die d).state = .addressing) :
    s.addressAck d = (s.setDie d { s.die d with state := .transferring }).emit (.hostRead p.host Config.blockBytes) := by
  simp [State.addressAck, operation, work, state]

theorem State.readyAnswer_read {f : FetchEntry} (operation : (s.die d).operation = some o) (work : o.work = .read f)
    (state : (s.die d).state = .polling) (n : Nat) :
    s.readyAnswer d n = s.setDie d { s.die d with state := .transferring } := by
  simp [State.readyAnswer, operation, work, state]

theorem State.readyAnswer_program {p : ProgramEntry} (operation : (s.die d).operation = some o) (work : o.work = .program p)
    (state : (s.die d).state = .polling) (n : Nat) : s.readyAnswer d n = s.endProgram d p o.discard := by
  simp [State.readyAnswer, operation, work, state]

theorem State.readyAnswer_poll (operation : (s.die d).operation = some o) (work : o.work = .poll) (n : Nat) :
    s.readyAnswer d n = s.endPoll d o .ready n := by
  simp [State.readyAnswer, operation, work]

theorem State.busyAnswer_transfer (operation : (s.die d).operation = some o) (work : o.work ≠ .poll) (n : Nat) :
    s.busyAnswer d n = s := by
  unfold State.busyAnswer
  rw [operation]
  cases h : o.work with
  | read f => simp [h]
  | program p => simp [h]
  | poll => exact absurd h work

theorem State.busyAnswer_poll (operation : (s.die d).operation = some o) (work : o.work = .poll) (n : Nat) :
    s.busyAnswer d n = s.endPoll d o .busy n := by
  simp [State.busyAnswer, operation, work]

theorem State.pollTimesOut_poll (operation : (s.die d).operation = some o) (work : o.work = .poll) :
    s.pollTimesOut d = s.endPoll d o .silent (o.timeout * 100) := by
  simp [State.pollTimesOut, operation, work]

theorem State.dataPhaseEnds_program {p : ProgramEntry} (operation : (s.die d).operation = some o) (work : o.work = .program p)
    (state : (s.die d).state = .transferring) (data : List Byte) :
    s.dataPhaseEnds d data = (s.setDie d { s.die d with state := .polling }).emit (.dieProgram d (withBlockCrc data)) := by
  simp [State.dataPhaseEnds, operation, work, state]

theorem State.addressRefused_read {f : FetchEntry} (operation : (s.die d).operation = some o) (work : o.work = .read f)
    (state : (s.die d).state = .addressing) : s.addressRefused d = s.endAttempt d f o := by
  simp [State.addressRefused, operation, work, state]

theorem State.addressRefused_program {p : ProgramEntry} (operation : (s.die d).operation = some o) (work : o.work = .program p)
    (state : (s.die d).state = .addressing) : s.addressRefused d = s.failProgram d p o.discard := by
  simp [State.addressRefused, operation, work, state]

theorem State.dmaFails_program {p : ProgramEntry} (operation : (s.die d).operation = some o) (work : o.work = .program p)
    (state : (s.die d).state = .transferring) : s.dmaFails d = (s.latch .portError).failProgram d p o.discard := by
  simp [State.dmaFails, operation, work, state]

theorem State.readTimesOut_read {f : FetchEntry} (operation : (s.die d).operation = some o) (work : o.work = .read f) :
    s.readTimesOut d = s.goOffline d o := by
  simp [State.readTimesOut, operation, work]

theorem State.programTimesOut_program {p : ProgramEntry} (operation : (s.die d).operation = some o)
    (work : o.work = .program p) : s.programTimesOut d = s.goOffline d o := by
  simp [State.programTimesOut, operation, work]

/-- The CRC that the die gave up is that of the data (R123). -/
theorem State.transferEnd_good {f : FetchEntry} (operation : (s.die d).operation = some o) (work : o.work = .read f)
    (state : (s.die d).state = .transferring) (data : List Byte) :
    s.transferEnd d data (leBytes 4 (crc32 data).toNat) =
      (s.holdTransfer d (data ++ leBytes 4 (crc32 data).toNat)).endRead d f o.discard (.good data) := by
  simp [State.transferEnd, operation, work, state, transferCrc_leBytes]

theorem State.transferEnd_mismatch {f : FetchEntry} (operation : (s.die d).operation = some o) (work : o.work = .read f)
    (state : (s.die d).state = .transferring) {data stored : List Byte} (h : leField stored 0 4 ≠ (crc32 data).toNat) :
    s.transferEnd d data stored = (s.holdTransfer d (data ++ stored)).crcMismatch d f o := by
  have other : crc32 data ≠ transferCrc stored := fun e => h ((transferCrc_eq stored _).mp e)
  simp [State.transferEnd, operation, work, state, other]

end

/-- A program's DMA read begins and its address is acknowledged in one step; a die's phase changes nothing but the die. -/
theorem exec_setDie {c : Instr} {s : State} {d : Nat} {x : Die} (h : work c s = s.setDie d x) (settled : s.completions = []) :
    exec c s = .next (s.setDie d x) :=
  exec_silent h settled rfl

/-- A die's phase that also puts something on the link. -/
theorem exec_setDie_emit {c : Instr} {s : State} {d : Nat} {x : Die} {output : Output}
    (h : work c s = (s.setDie d x).emit output) (settled : s.completions = []) :
    ∃ t, exec c s = .next t ∧ t.die d = x ∧ t.out = s.out ++ [output] :=
  ⟨_, exec_silent h settled rfl, State.die_setDie_same s d x, rfl⟩

/-- Settles O53: each phase of a read, then of a program. -/
theorem diePhases : Obligations.DiePhases := by
  intro s d o operation settled
  have busy : (s.die d.val).operation.isSome = true := by rw [operation]; rfl
  refine ⟨fun e work => ⟨fun addressing => ?_, fun polling => ⟨fun n => ?_, fun n => ?_, ?_⟩⟩,
    fun p work => ⟨fun addressing => ?_, fun transferring data => ?_, fun polling => ⟨fun n => ?_, ?_⟩⟩⟩
  · exact exec_setDie (c := .dieAddressAck d) (State.addressAck_read operation work addressing) settled
  · refine exec_setDie (c := .dieReadyAnswer d n) (?_ : (s.readyAnswer d.val n.toNat).finishEngineReset = _) settled
    rw [State.readyAnswer_read operation work polling, State.finishEngineReset_busy (d := d.val)]
    rw [State.die_setDie_same]
    exact busy
  · refine exec_silent (c := .dieBusyAnswer d n) (?_ : (s.busyAnswer d.val n.toNat).finishEngineReset = _) settled rfl
    rw [State.busyAnswer_transfer operation (by rw [work]; nofun), State.finishEngineReset_busy busy]
  · exact exec_silent (c := .diePollInterval d) (State.pollInterval_polling operation polling (by rw [work]; nofun)) settled rfl
  · exact exec_setDie_emit (c := .dieAddressAck d) (State.addressAck_program operation work addressing) settled
  · exact exec_setDie_emit (c := .programDataPhaseEnd d data) (State.dataPhaseEnds_program operation work transferring data)
      settled
  · refine exec_silent (c := .dieBusyAnswer d n) (?_ : (s.busyAnswer d.val n.toNat).finishEngineReset = _) settled rfl
    rw [State.busyAnswer_transfer operation (by rw [work]; nofun), State.finishEngineReset_busy busy]
  · exact exec_silent (c := .diePollInterval d) (State.pollInterval_polling operation polling (by rw [work]; nofun)) settled rfl

/-! ### A retry -/

/-- A die as a read's next attempt finds it (R124). -/
def State.retried (s : State) (d : Nat) (o : Operation) : Die :=
  { s.die d with
    state := .addressing, retries := (s.die d).retries + 1, buffer := []
    operation := some { o with
      attempt := o.attempt + 1, pollInterval := s.tunables.pollInterval, timeout := s.tunables.readTimeout } }

theorem State.endAttempt_retry {s : State} {d : Nat} {o : Operation} (f : FetchEntry) (unmarked : o.discard = false)
    (below : (s.die d).retries < s.tunables.retryLimit) :
    s.endAttempt d f o = (s.setDie d (s.retried d o)).emit (.dieAddress d (f.address / 16)) :=
  (if_neg (by simp [unmarked])).trans (if_pos below)

/-- A retry at a CRC mismatch: the transfer buffer is empty again. -/
theorem State.crcMismatch_retry {s : State} {d : Nat} {o : Operation} (f : FetchEntry) (given : List Byte)
    (unmarked : o.discard = false) (below : (s.die d).retries < s.tunables.retryLimit) :
    (s.holdTransfer d given).crcMismatch d f o =
      (((s.holdTransfer d given).count .blockCheck).setDie d (s.retried d o)).emit (.dieAddress d (f.address / 16)) := by
  have held : (s.holdTransfer d given).die d = { s.die d with buffer := given } := State.die_setDie_same s d _
  have counted : ((s.holdTransfer d given).count .blockCheck).die d = { s.die d with buffer := given } := held
  have again : ((s.holdTransfer d given).count .blockCheck).retried d o = s.retried d o := by
    unfold State.retried
    rw [counted]
    rfl
  simp only [State.crcMismatch, unmarked, Bool.false_eq_true, if_false]
  rw [State.endAttempt_retry f unmarked (by rw [counted]; exact below), again]

theorem readRetries_below (s : State) (d : Fin 16) (o : Operation) (f : FetchEntry) (ready : s.registers.engine = .ready)
    (operation : (s.die d.val).operation = some o) (read : o.work = .read f) (unmarked : o.discard = false)
    (below : (s.die d.val).retries < s.tunables.retryLimit) (settled : s.completions = []) :
    ((s.die d.val).state = .transferring → ∀ data stored : List Byte, leField stored 0 4 ≠ (crc32 data).toNat →
      ∃ t, exec (.dieTransferEnd d data stored) s = .next t ∧ t.die d.val = s.retried d.val o ∧
        t.out = s.out ++ [.dieAddress d.val (f.address / 16)] ∧
        t.registers.counters = s.registers.counters.rise .blockCheck ∧
        t.registers.status = s.registers.status ∧ SameVoices s t ∧ SameCatalog s t ∧ SameDram s t) ∧
    ((s.die d.val).state = .addressing →
      ∃ t, exec (.dieAddressRefused d) s = .next t ∧ t.die d.val = s.retried d.val o ∧
        t.out = s.out ++ [.dieAddress d.val (f.address / 16)] ∧ t.registers = s.registers ∧ SameVoices s t ∧
        SameCatalog s t ∧ SameDram s t) := by
  have calm := State.not_resetting_of ready
  refine ⟨fun transferring data stored differ => ?_, fun addressing => ?_⟩
  · have work : work (.dieTransferEnd d data stored) s = _ := (congrArg State.finishEngineReset
      ((State.transferEnd_mismatch operation read transferring differ).trans
        (State.crcMismatch_retry f (data ++ stored) unmarked below))).trans (State.finishEngineReset_ready calm)
    have ends := (exec_settled work settled).trans (congrArg _ (sendMessage_same rfl rfl rfl))
    exact ⟨_, ends, State.die_setDie_same ((s.holdTransfer d.val (data ++ stored)).count .blockCheck) d.val (s.retried d.val o), rfl, rfl, rfl, ⟨fun _ => rfl, fun _ => rfl, rfl⟩,
      ⟨fun _ => rfl, rfl, rfl, rfl⟩, fun _ => rfl⟩
  · have work : work (.dieAddressRefused d) s = _ := (congrArg State.finishEngineReset
      ((State.addressRefused_read operation read addressing).trans (State.endAttempt_retry f unmarked below))).trans
        (State.finishEngineReset_ready calm)
    have ends := exec_silent work settled rfl
    exact ⟨_, ends, State.die_setDie_same s d.val (s.retried d.val o), rfl, rfl, ⟨fun _ => rfl, fun _ => rfl, rfl⟩,
      ⟨fun _ => rfl, rfl, rfl, rfl⟩, fun _ => rfl⟩

/-! ### The end of a marked operation -/

theorem State.arbitrate_nothing {s : State} {d : Nat} (h : nothingWaits s d) : s.arbitrate d = s := by
  obtain ⟨entries, programs, polls⟩ := h
  simp only [State.arbitrate, polls]
  split
  · rfl
  · cases (s.die d).state with
    | ready => simp [State.chooseReady, State.chooseTransfer, entries, programs]
    | offline => simp
    | addressing | polling | transferring => rfl

/-- The part after a marked operation's end, before the arbiter's choice: the die alone has changed, and the flag of a failed DMA
read is latched. -/
structure State.MarkedIdle (s t : State) (d : Nat) (after : DieState) (c : Instr) : Prop where
  kept : t = { s with registers := { s.registers with status := t.registers.status }, dies := t.dies }
  die : t.die d = (s.die d).ended after
  others : ∀ x, x ≠ d → t.die x = s.die x
  flags : ∀ f : Flag, f ≠ .portError → t.latched f = s.latched f
  silent : (∀ e : Fin 16, e.val = d → c ≠ .programDmaFailed e) → t.registers = s.registers

theorem State.MarkedIdle.setDie (s : State) (d : Nat) (after : DieState) (c : Instr) :
    s.MarkedIdle (s.setDie d ((s.die d).ended after)) d after c :=
  ⟨rfl, State.die_setDie_same s d _, fun _ h => State.die_setDie_other s _ h, fun _ _ => rfl, fun _ => rfl⟩

theorem State.MarkedIdle.held (s : State) (d : Nat) (given : List Byte) (c : Instr) :
    s.MarkedIdle ((s.holdTransfer d given).dieIdle d) d .ready c where
  kept := rfl
  die := by
    have held : (s.holdTransfer d given).die d = { s.die d with buffer := given } := State.die_setDie_same s d _
    have idle := State.die_setDie_same (s.holdTransfer d given) d
      { (s.holdTransfer d given).die d with state := .ready, operation := none, retries := 0, buffer := [] }
    rw [held] at idle
    unfold State.dieIdle
    rw [held]
    exact idle
  others x h := (State.die_setDie_other (s.holdTransfer d given) _ h).trans (State.die_setDie_other s _ h)
  flags _ _ := rfl
  silent _ := rfl

/-- The arbiter then chooses, unless the die is lost to a timeout. -/
theorem marked_work {s : State} {d : Fin 16} {o : Operation} {after : DieState} {c : Instr}
    (operation : (s.die d.val).operation = some o) (marked : o.discard = true) (ends : endsWork s d o after c) :
    ((c = .readTimeout d ∨ c = .programTimeout d) ∧ after = .offline ∧
      work c s = (s.goOffline d.val o).finishEngineReset) ∨
    (¬ (c = .readTimeout d ∨ c = .programTimeout d) ∧ ∃ u, s.MarkedIdle u d.val after c ∧
      work c s = (u.arbitrate d.val).finishEngineReset) := by
  have idle (c : Instr) : s.MarkedIdle (s.dieIdle d.val) d.val .ready c := State.MarkedIdle.setDie s d.val .ready c
  cases w : o.work with
  | read f =>
    simp only [endsWork, w] at ends
    obtain ⟨state, rfl, rfl⟩ | ⟨state, ⟨data, stored, rfl⟩, rfl⟩ | ⟨rfl, rfl⟩ := ends
    · refine Or.inr ⟨by simp, s.dieIdle d.val, idle _, congrArg State.finishEngineReset ?_⟩
      rw [State.addressRefused_read operation w state]
      simp [State.endAttempt, State.endRead, marked]
    · refine Or.inr ⟨by simp, (s.holdTransfer d.val (data ++ stored)).dieIdle d.val, State.MarkedIdle.held s d.val _ _,
        congrArg State.finishEngineReset ?_⟩
      simp [State.transferEnd, operation, state, w, State.crcMismatch, State.endAttempt, State.endRead, marked]
    · exact Or.inl ⟨Or.inl rfl, rfl, congrArg State.finishEngineReset (State.readTimesOut_read operation w)⟩
  | program p =>
    simp only [endsWork, w] at ends
    obtain ⟨state, rfl, rfl⟩ | ⟨state, rfl, rfl⟩ | ⟨state, ⟨n, rfl⟩, rfl⟩ | ⟨rfl, rfl⟩ := ends
    · refine Or.inr ⟨by simp, s.dieIdle d.val, idle _, congrArg State.finishEngineReset ?_⟩
      rw [State.addressRefused_program operation w state]
      simp [State.failProgram, marked]
    · refine Or.inr ⟨by simp, (s.latch .portError).dieIdle d.val, ?_, congrArg State.finishEngineReset ?_⟩
      · exact ⟨rfl, State.die_setDie_same _ _ _, fun _ h => State.die_setDie_other _ _ h,
          fun f other => State.latched_other s other, fun none => absurd rfl (none d rfl)⟩
      · rw [State.dmaFails_program operation w state]
        simp [State.failProgram, marked]
    · refine Or.inr ⟨by simp, s.dieIdle d.val, idle _, congrArg State.finishEngineReset ?_⟩
      rw [State.readyAnswer_program operation w state]
      simp [State.endProgram, marked]
    · exact Or.inl ⟨Or.inr rfl, rfl, congrArg State.finishEngineReset (State.programTimesOut_program operation w)⟩
  | poll =>
    simp only [endsWork, w] at ends
    have polled (answer : PollAnswer) (n : Nat) :
        s.endPoll d.val o answer n = (s.setDie d.val ((s.die d.val).ended after)).arbitrate d.val := by
      rw [ends.2, ← stateAfterPoll_marked]
      simp only [State.endPoll, marked]
      rfl
    have idle := State.MarkedIdle.setDie s d.val after c
    obtain ⟨⟨n, rfl⟩ | ⟨n, rfl⟩ | rfl, -⟩ := ends
    · exact Or.inr ⟨by simp, _, idle,
        congrArg State.finishEngineReset ((State.readyAnswer_poll operation w _).trans (polled _ _))⟩
    · exact Or.inr ⟨by simp, _, idle,
        congrArg State.finishEngineReset ((State.busyAnswer_poll operation w _).trans (polled _ _))⟩
    · exact Or.inr ⟨by simp, _, idle,
        congrArg State.finishEngineReset ((State.pollTimesOut_poll operation w).trans (polled _ _))⟩

/-! ### The end of the event -/

/-- What the writes and the message of an event add to the state that its work has left. -/
structure State.Ended (s t : State) : Prop where
  posted : Posted s t
  wrote : ∀ done ∈ s.completions, wroteAt s t done.token.address (doneBytes done.result done.word0 done.word1)
  latched : ∀ f, s.latched f = true → t.latched f = true
  flags : ∀ f : Flag, f ≠ .requestDone → t.latched f = s.latched f
  notified : ∀ done ∈ s.completions, done.token.notify = true → t.latched .requestDone = true
  tag : ∀ done, s.completions = [done] → t.requests.lastTag = done.token.tag

theorem State.writeDone_notified (s : State) {c : Completion} (h : c.token.notify = true) :
    (s.writeDone c).latched .requestDone = true := by
  unfold State.writeDone
  simp only [h, if_true]
  exact State.latched_same _ _

theorem State.flush_notified (s : State) {c : Completion} (listed : c ∈ s.completions) (h : c.token.notify = true) :
    s.flush.latched .requestDone = true := by
  have kept (l : List Completion) : ∀ u : State, u.latched .requestDone = true →
      (l.foldl State.writeDone u).latched .requestDone = true := by
    induction l with
    | nil => exact fun _ k => k
    | cons x l ih => exact fun u k => ih _ (u.writeDone_latched x k)
  have each (l : List Completion) : c ∈ l → ∀ u : State, (l.foldl State.writeDone u).latched .requestDone = true := by
    induction l with
    | nil => exact nofun
    | cons x l ih =>
      intro listed u
      obtain rfl | later := List.mem_cons.mp listed
      · exact kept l _ (u.writeDone_notified h)
      · exact ih later _
  exact each _ ((mem_sortCompletions c _).mpr listed) _

theorem State.Ended.event (b s : State) : s.Ended (sendMessage b s.flush) where
  posted := (Posted.flush s).trans (Posted.sendMessage b _)
  wrote done listed := (s.flush_wrote done listed).mono (Posted.sendMessage b _).1
  latched f h := (State.latched_sendMessage b _ f).trans (s.flush_latched h)
  flags f h := (State.latched_sendMessage b _ f).trans (s.flush_otherFlags h)
  notified done listed h := (State.latched_sendMessage b _ _).trans (s.flush_notified listed h)
  tag done only := by
    rw [sendMessage_requests, State.flush_one s done only]
    exact congrArg RequestProcessor.lastTag (State.writeDone_lastTag _ done)

theorem exec_dieEnded {c : Instr} {s t : State} (h : work c s = t.finishEngineReset) (ready : t.resetting = false) :
    ∃ u, exec c s = .next u ∧ t.Ended u :=
  ⟨_, exec_dieEnd h (State.finishEngineReset_ready ready), State.Ended.event s t⟩

theorem State.arbitrate_registers (s : State) (d : Nat) : (s.arbitrate d).registers = s.registers := by
  have kept := State.DieKept.arbitrate s d
  rw [kept]

/-- The event of an end that the arbiter's choice follows. -/
theorem exec_arbitrated {c : Instr} {s u : State} {d : Nat} (h : work c s = (u.arbitrate d).finishEngineReset)
    (ready : u.resetting = false) : ∃ t, exec c s = .next t ∧ (u.arbitrate d).Ended t :=
  exec_dieEnded h (by unfold State.resetting; rw [State.arbitrate_registers]; exact ready)

/-- An end that leaves a die READY gives it its next operation (R129). -/
theorem State.Ended.arbitrates {u idle t : State} {d : Nat} (h : (u.arbitrate d).Ended t)
    (like : u = { idle with registers := u.registers, dies := u.dies, completions := u.completions })
    (die : ∀ x, u.die x = idle.die x) (ready : u.resetting = false) (none : (idle.die d).operation = none)
    (state : (idle.die d).state = .ready) :
    idle.Arbitrated t d ∧ idle.revivesWritten t d ∧
      ∀ done ∈ u.completions, wroteAt idle t done.token.address (doneBytes done.result done.word0 done.word1) := by
  obtain ⟨arbitrated, out, completions, revives⟩ :=
    u.arbitrate_arbitrated d ready (by rw [die]; exact none) (by rw [die]; exact state)
  have same : u.out = idle.out := by rw [like]
  rw [same] at out
  refine ⟨(arbitrated.posted h.posted).congr die (by rw [like]) (by rw [like]) (by rw [like]) (by rw [like])
    (fun n => by rw [like]; rfl) (fun n => by rw [like]; rfl), fun q listed => ?_, fun done listed => ?_⟩
  · rw [← die] at listed
    exact (h.wrote _ (revives q listed)).from out
  · exact (h.wrote done (completions done listed)).from out

/-- The part as a die has gone OFFLINE, before anything of its entries is judged (R126). -/
def State.wentOffline (s : State) (d : Nat) : State :=
  { (s.setDie d { (s.die d).ended .offline with programs := [] }).latch .dieFault with
    queue := s.queue.filter fun e => dieOf e.address != d }

theorem State.wentOffline_kept (s : State) (d : Nat) : s.wentOffline d = { s with
    registers := { s.registers with status := (s.wentOffline d).registers.status }, dies := (s.wentOffline d).dies
    queue := s.queue.filter fun e => dieOf e.address != d } := rfl

theorem State.wentOffline_die (s : State) (d : Nat) :
    (s.wentOffline d).die d = { (s.die d).ended .offline with programs := [] } :=
  State.die_setDie_same s d { (s.die d).ended .offline with programs := [] }

theorem State.wentOffline_other (s : State) {d x : Nat} (h : x ≠ d) : (s.wentOffline d).die x = s.die x :=
  State.die_setDie_other s { (s.die d).ended .offline with programs := [] } h

theorem State.wentOffline_fault (s : State) (d : Nat) : (s.wentOffline d).latched .dieFault = true :=
  State.latched_same (s.setDie d { (s.die d).ended .offline with programs := [] }) _

theorem State.wentOffline_flag (s : State) (d : Nat) {f : Flag} (h : f ≠ .dieFault) :
    (s.wentOffline d).latched f = s.latched f :=
  State.latched_other (s.setDie d { (s.die d).ended .offline with programs := [] }) h

/-- A die goes OFFLINE during an engine reset: its entries leave without outcome (R139). -/
theorem State.goOffline_resetting {s : State} (h : s.resetting = true) (d : Nat) (o : Operation) :
    s.goOffline d o = s.wentOffline d := by
  simp only [State.goOffline, h, if_true]
  rfl

/-- The end of a marked operation whose die nothing is then given to. -/
theorem marked_idles {s : State} {d : Fin 16} {o : Operation} {after : DieState} {c : Instr} (settled : s.completions = [])
    (operation : (s.die d.val).operation = some o) (marked : o.discard = true) (ends : endsWork s d o after c)
    (quiet : (s.registers.engine = .ready ∧ nothingWaits s d.val ∧ ¬ (c = .readTimeout d ∨ c = .programTimeout d)) ∨
      (s.registers.engine = .resetting ∧ ∃ x, x ≠ d.val ∧ (s.die x).operation.isSome = true)) :
    (¬ (c = .readTimeout d ∨ c = .programTimeout d) ∧ ∃ u, s.MarkedIdle u d.val after c ∧
      exec c s = .next (sendMessage s u)) ∨
    ((c = .readTimeout d ∨ c = .programTimeout d) ∧ after = .offline ∧
      exec c s = .next (sendMessage s (s.wentOffline d.val))) := by
  obtain ⟨late, rfl, work⟩ | ⟨intime, u, idle, work⟩ := marked_work operation marked ends
  · obtain ⟨-, -, notLate⟩ | ⟨resetting, x, other, busy⟩ := quiet
    · exact absurd late notLate
    · have gone := State.goOffline_resetting (State.resetting_of resetting) d.val o
      have goesOn : (s.goOffline d.val o).finishEngineReset = s.goOffline d.val o := by
        refine State.finishEngineReset_busy (d := x) ?_
        rw [gone, State.wentOffline_other s other]
        exact busy
      exact Or.inr ⟨late, rfl, exec_settled (work.trans (goesOn.trans gone)) settled⟩
  · refine Or.inl ⟨intime, u, idle, ?_⟩
    have kept := idle.kept
    have same : u.completions = s.completions := by rw [kept]
    have engine : u.registers.engine = s.registers.engine := by rw [kept]
    obtain ⟨ready, ⟨entries, programs, polls⟩, -⟩ | ⟨resetting, x, other, busy⟩ := quiet
    · have nothing : u.arbitrate d.val = u := by
        refine State.arbitrate_nothing ⟨?_, ?_, ?_⟩
        · rw [← entries]
          unfold State.subQueue
          rw [kept]
        · rw [idle.die]
          exact programs
        · rw [idle.die]
          exact polls
      rw [nothing, State.finishEngineReset_ready (State.not_resetting_of (engine.trans ready))] at work
      exact exec_settled work (same.trans settled)
    · rw [State.arbitrate_resetting (State.resetting_of (engine.trans resetting)), State.finishEngineReset_busy (d := x)] at work
      · exact exec_settled work (same.trans settled)
      · rw [idle.others x other]
        exact busy

/-- Settles O55: the retry; a marked end that the arbiter follows; a marked end that nothing follows. -/
theorem readRetries : Obligations.ReadRetries := by
  refine ⟨fun s d o f ready operation read unmarked below settled =>
      readRetries_below s d o f ready operation read unmarked below settled,
    fun s d o c ready operation marked ends => ?_, fun s d o after c settled operation marked ends quiet => ?_⟩
  · obtain ⟨-, offline, -⟩ | ⟨-, u, idle, work⟩ := marked_work operation marked ends
    · cases offline
    · have kept := idle.kept
      have engine : u.registers.engine = s.registers.engine := by rw [kept]
      have same : (s.setDie d.val ((s.die d.val).ended .ready)).die d.val = _ := State.die_setDie_same s d.val _
      have dies (x : Nat) : u.die x = (s.setDie d.val ((s.die d.val).ended .ready)).die x := by
        by_cases hx : x = d.val
        · rw [hx, idle.die, same]
        · rw [idle.others x hx, State.die_setDie_other s _ hx]
      have calm := State.not_resetting_of (engine.trans ready)
      obtain ⟨t, ht, ended⟩ := exec_arbitrated work calm
      obtain ⟨arbitrated, revives, -⟩ := ended.arbitrates (idle := s.setDie d.val ((s.die d.val).ended .ready))
        (by rw [kept]; rfl) dies calm (by rw [same]; rfl) (by rw [same]; rfl)
      exact ⟨t, ht, arbitrated, revives⟩
  · obtain ⟨intime, u, idle, runs⟩ | ⟨late, rfl, runs⟩ := marked_idles settled operation marked ends quiet
    · have kept := idle.kept
      have sent := sendMessage_kept s u
      generalize sendMessage s u = t at sent runs
      have rest : t.queue = s.queue ∧ t.enqueueCount = s.enqueueCount ∧ t.stores = s.stores ∧ t.requests = s.requests ∧
          t.delivery = s.delivery ∧ t.pace = s.pace ∧ t.registers = { s.registers with status := t.registers.status } ∧
          SameVoices s t ∧ SameCatalog s t ∧ SameDram s t := by
        rw [sent, kept]
        exact ⟨rfl, rfl, rfl, rfl, rfl, rfl, rfl, ⟨fun _ => rfl, fun _ => rfl, rfl⟩, ⟨fun _ => rfl, rfl, rfl, rfl⟩, fun _ => rfl⟩
      have dies (x : Nat) : t.die x = u.die x := by
        rw [sent]
        rfl
      have registers : t.registers = u.registers := by rw [sent]
      have latched (f : Flag) : t.latched f = u.latched f := by
        unfold State.latched
        rw [registers]
      obtain ⟨queue, count, stores, requests, delivery, pace, window, voices, catalog, dram⟩ := rest
      refine ⟨t, runs, fun _ => ⟨(dies _).trans idle.die, queue, count⟩, fun late => absurd late intime,
        fun x hx => (dies x).trans (idle.others x hx), stores, requests, delivery, pace, window,
        fun f _ other => (latched f).trans (idle.flags f other), fun _ => (latched _).trans (idle.flags _ nofun), fun other => ?_,
        voices, catalog, dram⟩
      have silent := idle.silent fun e he => by rwa [Fin.ext he]
      unfold State.latched
      rw [registers, silent]
    · have sent := sendMessage_kept s (s.wentOffline d.val)
      generalize sendMessage s (s.wentOffline d.val) = t at sent runs
      rw [State.wentOffline_kept] at sent
      have dies (x : Nat) : t.die x = (s.wentOffline d.val).die x := by
        rw [sent]
        rfl
      have latched (f : Flag) : t.latched f = (s.wentOffline d.val).latched f := by
        rw [sent]
        rfl
      refine ⟨t, runs, fun intime => absurd late intime,
        fun _ => ⟨(dies _).trans (s.wentOffline_die _), by rw [sent], by rw [sent], (latched _).trans (s.wentOffline_fault _)⟩,
        fun x hx => (dies x).trans (s.wentOffline_other hx), by rw [sent], by rw [sent], by rw [sent], by rw [sent], by rw [sent],
        fun f other _ => (latched f).trans (s.wentOffline_flag _ other), fun intime => absurd late intime,
        fun _ => (latched _).trans (s.wentOffline_flag _ nofun), ?_⟩
      rw [sent]
      exact ⟨⟨fun _ => rfl, fun _ => rfl, rfl⟩, ⟨fun _ => rfl, rfl, rfl, rfl⟩, fun _ => rfl⟩

/-! ### The end of a program -/

/-- A STORE whose program has ended on a die that stays in service: the table is as `storesAfter` says, its completion is written,
and the die is given its next operation. -/
theorem exec_programEnds {c : Instr} {s b : State} {d : Fin 16} {x : StoreEntry} {f : StoreEntry → StoreEntry}
    (work : work c s = (((b.updateStore x.place f).judgeStore x.place).arbitrate d.val).finishEngineReset)
    (listed : x ∈ b.stores) (once : ∀ z ∈ b.stores, z.place = x.place → z = x) (place : (f x).place = x.place)
    (token : (f x).token = x.token) (ready : b.resetting = false) (none : (b.die d.val).operation = none)
    (state : (b.die d.val).state = .ready) :
    let idle : State := { b with stores := b.storesAfter x (f x) }
    ∃ t, exec c s = .next t ∧ idle.Arbitrated t d.val ∧ idle.revivesWritten t d.val ∧
      ((f x).queued = 0 → (f x).inFlight = 0 → wroteAt b t x.token.address (f x).doneStatus) ∧
      t.registers.counters = b.registers.counters ∧ SameDram b t ∧ (∀ f, b.latched f = true → t.latched f = true) ∧
      (nothingWaits b d.val → SameCatalog b t ∧ SameVoices b t ∧ SameQueue b t) := by
  intro idle
  have judged := State.judgeStore_updateStore listed once place
  generalize (b.updateStore x.place f).judgeStore x.place = u at judged work
  obtain ⟨kept, -, done⟩ := judged
  have registers : u.registers = b.registers := by rw [kept]
  have calm : u.resetting = false := by
    unfold State.resetting
    rw [registers]
    exact ready
  obtain ⟨t, ht, ended⟩ := exec_arbitrated work calm
  obtain ⟨arbitrated, revives, wrote⟩ := ended.arbitrates (idle := idle) (by rw [kept]) (fun x => by rw [kept]; rfl) calm none state
  have dieKept := State.DieKept.arbitrate u d.val
  refine ⟨t, ht, arbitrated, revives, fun queued inFlight => ?_, ?_, fun a => ?_, fun f h => ?_, fun nothing => ?_⟩
  · obtain ⟨completion, member, named, bytes⟩ := done queued inFlight
    have written := wrote completion member
    rwa [bytes, named, token] at written
  · rw [ended.posted.registers, State.arbitrate_registers, registers]
  · rw [ended.posted.dram, dieKept, kept]
  · refine ended.latched f ?_
    unfold State.latched
    rw [State.arbitrate_registers, registers]
    exact h
  · have still : u.arbitrate d.val = u := State.arbitrate_nothing (by rw [kept]; exact nothing)
    rw [still] at ended
    obtain ⟨-, ⟨records, catalog⟩, ⟨voices, windows, starts⟩, queue, -⟩ := ended.posted.streams
    rw [kept] at records catalog voices windows starts queue
    exact ⟨⟨records, catalog⟩, ⟨voices, windows, starts⟩, queue⟩

theorem State.dieIdle_die (s : State) (d : Nat) : (s.dieIdle d).die d = (s.die d).ended .ready := State.die_setDie_same s d _

theorem State.dieIdle_other (s : State) {d x : Nat} (h : x ≠ d) : (s.dieIdle d).die x = s.die x :=
  State.die_setDie_other s _ h

/-- The dies as a program's failure leaves them: a first failure takes the STORE's queued entries from each (R134). -/
theorem State.programFails_dies {s : State} (c : Table.wf Die.blank s.dies = true) (x : StoreEntry) (d : Nat) :
    (if x.failure.isSome then s else s.dropPrograms x.place).die d =
      { s.die d with programs := (s.die d).programs.filter fun q => x.failure.isSome || q.place != x.place } := by
  cases h : x.failure.isSome with
  | true =>
    have all : (s.die d).programs.filter (fun q => true || q.place != x.place) = (s.die d).programs :=
      List.filter_eq_self.mpr fun _ _ => rfl
    rw [all, if_pos rfl]
  | false => simpa using State.die_dropPrograms c x.place d

/-- A program that fails on a die that stays in service, the flag of a failed DMA read latched before it or not. -/
theorem exec_programFails {c : Instr} {s b : State} {d : Fin 16} {o : Operation} {p : ProgramEntry} {x : StoreEntry}
    (work : work c s = (b.failProgram d.val p o.discard).finishEngineReset) (unmarked : o.discard = false)
    (canonical : Table.wf Die.blank b.dies = true) (ready : b.resetting = false) (listed : x ∈ b.stores)
    (once : ∀ z ∈ b.stores, z.place = x.place → z = x) (place : x.place = p.place) :
    let y := x.afterFailure p.address
    let kept (q : ProgramEntry) : Bool := x.failure.isSome || q.place != x.place
    ∃ idle t : State, exec c s = .next t ∧ idle = { b with dies := idle.dies, stores := b.storesAfter x y } ∧
      idle.die d.val = { (b.die d.val).ended .ready with programs := (b.die d.val).programs.filter kept } ∧
      (∀ j, j ≠ d.val → idle.die j = { b.die j with programs := (b.die j).programs.filter kept }) ∧
      idle.Arbitrated t d.val ∧ idle.revivesWritten t d.val ∧
      (y.queued = 0 → y.inFlight = 0 → wroteAt b t x.token.address y.doneStatus) ∧
      (∀ f, b.latched f = true → t.latched f = true) ∧ t.registers.counters = b.registers.counters ∧
      SameDram b t ∧ (nothingWaits b d.val → SameCatalog b t ∧ SameVoices b t ∧ SameQueue b t) := by
  intro y kept
  have token : y.token = x.token := by
    show (x.afterFailure p.address).token = x.token
    unfold StoreEntry.afterFailure
    split <;> rfl
  have same : y.place = x.place := by
    show (x.afterFailure p.address).place = x.place
    unfold StoreEntry.afterFailure
    split <;> rfl
  have wf : Table.wf Die.blank (b.dieIdle d.val).dies = true := Table.wf_set _ _ _ _ canonical
  have fails := State.programFails_eq (s := b.dieIdle d.val) listed once place
  have dies := State.programFails_dies wf x
  have base : (if x.failure.isSome then b.dieIdle d.val else (b.dieIdle d.val).dropPrograms x.place) =
      { b with dies := (if x.failure.isSome then b.dieIdle d.val else (b.dieIdle d.val).dropPrograms x.place).dies } := by
    split <;> rfl
  generalize (if x.failure.isSome then b.dieIdle d.val else (b.dieIdle d.val).dropPrograms x.place) = u at fails dies base
  have here : u.die d.val = { (b.die d.val).ended .ready with programs := (b.die d.val).programs.filter kept } := by
    rw [dies, State.dieIdle_die]
    rfl
  have chooses : Machine.work c s = (((u.updateStore x.place fun _ => y).judgeStore x.place).arbitrate d.val).finishEngineReset := by
    rw [work, ← fails, State.failProgram, unmarked, place]
    rfl
  obtain ⟨t, ht, arbitrated, revives, wrote, counters, dram, latched, nothing⟩ := exec_programEnds chooses
    (by rw [base]; exact listed) (by rw [base]; exact once) same token (by rw [base]; exact ready) (by rw [here]; rfl) (by rw [here]; rfl)
  refine ⟨{ u with stores := u.storesAfter x y }, t, ht, by rw [base]; rfl, here, fun j hj => ?_, arbitrated, revives, ?_, ?_, ?_, ?_,
    fun waits => ?_⟩
  · exact (dies j).trans (by rw [State.dieIdle_other b hj])
  · rw [base] at wrote
    exact wrote
  · rw [base] at latched
    exact latched
  · rw [base] at counters
    exact counters
  · rw [base] at dram
    exact dram
  · obtain ⟨entries, programs, polls⟩ := waits
    have still : nothingWaits u d.val := by
      refine ⟨?_, by rw [here, programs]; rfl, by rw [here]; exact polls⟩
      rw [base]
      exact entries
    have rest := nothing still
    rw [base] at rest
    exact rest

/-- Settles O58: the end that counts the block, then the two that fail it. -/
theorem programsEnd : Obligations.ProgramsEnd := by
  refine ⟨fun s d o p x n ready operation work unmarked polling listed once place => ?_,
    fun s d o p x c canonical ready operation work unmarked how listed once place => ?_⟩
  · have ends : Machine.work (.dieReadyAnswer d n) s = (((s.dieIdle d.val).updateStore x.place fun z =>
        { z with inFlight := z.inFlight - 1, programmed := z.programmed + 1 }).judgeStore x.place |>.arbitrate
          d.val).finishEngineReset := by
      refine congrArg State.finishEngineReset ?_
      rw [State.readyAnswer_program operation work polling, State.endProgram, unmarked, place]
      rfl
    obtain ⟨t, ht, arbitrated, revives, wrote, counters, dram, -, nothing⟩ := exec_programEnds ends listed once rfl rfl
      (State.not_resetting_of ready) (by rw [State.dieIdle_die]; rfl) (by rw [State.dieIdle_die]; rfl)
    refine ⟨t, ht, arbitrated, revives, wrote, counters, dram, fun ⟨entries, programs, polls⟩ => nothing ⟨entries, ?_, ?_⟩⟩
    · rw [State.dieIdle_die]
      exact programs
    · rw [State.dieIdle_die]
      exact polls
  · have calm := State.not_resetting_of ready
    obtain ⟨state, rfl⟩ | ⟨state, rfl⟩ := how
    · have ends : Machine.work (.dieAddressRefused d) s = _ :=
        congrArg State.finishEngineReset (State.addressRefused_program operation work state)
      obtain ⟨idle, t, ht, made, here, others, arbitrated, revives, wrote, -, counters, dram, nothing⟩ :=
        exec_programFails ends unmarked canonical.dies calm listed once place
      exact ⟨idle, t, ht, made, here, others, arbitrated, revives, wrote, nofun, counters, dram, nothing⟩
    · have ends : Machine.work (.programDmaFailed d) s = _ :=
        congrArg State.finishEngineReset (State.dmaFails_program operation work state)
      obtain ⟨idle, t, ht, made, here, others, arbitrated, revives, wrote, latched, counters, dram, nothing⟩ :=
        exec_programFails ends unmarked canonical.dies calm listed once place
      have congr := arbitrated.congr (s := { idle with registers := s.registers }) (fun _ => rfl) rfl rfl rfl rfl (fun _ => rfl)
        fun _ => rfl
      exact ⟨{ idle with registers := s.registers }, t, ht, by rw [made]; rfl, here, others, congr, revives, wrote,
        fun _ => latched _ (State.latched_same s _), counters, dram, nothing⟩

/-! ### The end of a POLL -/

/-- The arbiter leaves the completions of the event among those it adds (R128). -/
theorem State.chooseReady_completions (d : Nat) (polls : List PollRequest) : ∀ s : State, ∀ c ∈ s.completions,
    c ∈ (State.chooseReady d polls s).completions := by
  induction polls with
  | nil =>
    intro s c listed
    have kept : (s.chooseTransfer d).completions = s.completions := by
      unfold State.chooseTransfer
      split
      · split
        · exact (State.raiseReads_kept _ _).2.2.2.2
        · rfl
      · exact (State.raiseReads_kept _ _).2.2.2.2
      · rfl
      · rfl
    exact kept.symm ▸ listed
  | cons q rest ih =>
    intro s c listed
    unfold State.chooseReady
    split
    · exact ih _ c (List.mem_cons_of_mem _ listed)
    · exact listed

theorem State.arbitrate_completions (s : State) (d : Nat) : ∀ c ∈ s.completions, c ∈ (s.arbitrate d).completions := by
  intro c listed
  simp only [State.arbitrate]
  split
  · exact listed
  · split
    · exact State.chooseReady_completions d _ s c listed
    · split <;> exact listed
    all_goals exact listed

/-- The part after a POLL of the head request, before the arbiter's choice. -/
def State.polled (s : State) (d : Nat) (q : PollRequest) (rest : List PollRequest) (after : DieState) (result : Result)
    (elapsed : Nat) : State :=
  (s.setDie d { (s.die d).ended after with polls := rest }).complete q.token result (BitVec.ofNat 32 after.code)
    (BitVec.ofNat 32 (max 1 elapsed))

theorem State.endPoll_polled {s : State} {d : Nat} {o : Operation} {q : PollRequest} {rest : List PollRequest}
    (unmarked : o.discard = false) (polls : (s.die d).polls = q :: rest) (answer : PollAnswer) (elapsed : Nat) :
    s.endPoll d o answer elapsed = (s.polled d q rest (stateAfterPoll (s.die d).state (q.revive && answer == .ready))
      (if q.revive then (if answer = .ready then .ok else .dieOffline) else answer.probeResult) elapsed).arbitrate d := by
  simp only [State.endPoll, unmarked, polls]
  rfl

/-- The command that ends a POLL, by what it answers (R127). -/
theorem poll_work {s : State} {d : Fin 16} {o : Operation} {q : PollRequest} {rest : List PollRequest} {c : Instr}
    {result : Result} {ready : Bool} {elapsed : Nat} (operation : (s.die d.val).operation = some o) (work : o.work = .poll)
    (unmarked : o.discard = false) (polls : (s.die d.val).polls = q :: rest)
    (how : (∃ n : Word, c = .dieReadyAnswer d n ∧ elapsed = n.toNat ∧ ready = true ∧
        result = if q.revive then .ok else .ready) ∨
      (∃ n : Word, c = .dieBusyAnswer d n ∧ elapsed = n.toNat ∧ ready = false ∧
        result = if q.revive then .dieOffline else .busy) ∨
      (c = .pollTimeout d ∧ elapsed = o.timeout * 100 ∧ ready = false ∧
        result = if q.revive then .dieOffline else .absent)) :
    Machine.work c s = ((s.polled d.val q rest (stateAfterPoll (s.die d.val).state (q.revive && ready)) result elapsed).arbitrate
      d.val).finishEngineReset := by
  obtain ⟨n, rfl, rfl, rfl, rfl⟩ | ⟨n, rfl, rfl, rfl, rfl⟩ | ⟨rfl, rfl, rfl, rfl⟩ := how
  · exact congrArg State.finishEngineReset ((State.readyAnswer_poll operation work _).trans
      (State.endPoll_polled unmarked polls .ready _))
  · exact congrArg State.finishEngineReset ((State.busyAnswer_poll operation work _).trans
      (State.endPoll_polled unmarked polls .busy _))
  · exact congrArg State.finishEngineReset ((State.pollTimesOut_poll operation work).trans
      (State.endPoll_polled unmarked polls .silent _))

/-- Settles O59: the request's DONE write, and the choice on the state after it. -/
theorem pollEnds : Obligations.PollEnds := by
  intro s d o q rest c result ready elapsed engine operation poll unmarked polls _ settled how after idle
  have work := poll_work operation poll unmarked polls how
  have state : stateAfterPoll (s.die d.val).state (q.revive && ready) = after := by
    show stateAfterPoll _ _ = if _ then _ else _
    simp [stateAfterPoll]
  rw [state] at work
  have here : (s.polled d.val q rest after result elapsed).die d.val = { (s.die d.val).ended after with polls := rest } :=
    State.die_setDie_same s d.val { (s.die d.val).ended after with polls := rest }
  have completions : (s.polled d.val q rest after result elapsed).completions =
      [⟨q.token, result, BitVec.ofNat 32 after.code, BitVec.ofNat 32 (max 1 elapsed)⟩] :=
    congrArg (List.cons _) settled
  have same : s.polled d.val q rest after result elapsed = { idle with
      registers := idle.registers, completions := (s.polled d.val q rest after result elapsed).completions } := rfl
  generalize s.polled d.val q rest after result elapsed = u at work here completions same
  have dies (x : Nat) : u.die x = idle.die x := by
    rw [same]
    rfl
  have calm : u.resetting = false := by
    rw [same]
    exact State.not_resetting_of engine
  obtain ⟨t, ht, ended⟩ := exec_arbitrated work calm
  have listed : ⟨q.token, result, BitVec.ofNat 32 after.code, BitVec.ofNat 32 (max 1 elapsed)⟩ ∈ (u.arbitrate d.val).completions :=
    u.arbitrate_completions d.val _ (by rw [completions]; exact List.mem_singleton_self _)
  have out : s.out <+: (u.arbitrate d.val).out := by
    have grows := (Inner.arbitrate u d.val).out
    rw [same] at grows ⊢
    exact grows
  refine ⟨t, ht, (ended.wrote _ listed).from out, ended.notified _ listed, ?_, fun none programs entries => ?_, fun isReady => ?_,
    fun isOffline some => ?_⟩
  · rw [ended.posted.registers, State.arbitrate_registers, same]
    rfl
  · have still : u.arbitrate d.val = u := by
      refine State.arbitrate_nothing ⟨?_, by rw [here]; exact programs, by rw [here]; exact none⟩
      rw [same]
      exact entries
    rw [still] at ended
    obtain ⟨dram, ⟨records, catalog⟩, ⟨voices, windows, starts⟩, queue, -⟩ := ended.posted.streams
    have die := ended.posted.die d.val
    have tag := ended.tag _ completions
    rw [dies] at die
    rw [same] at dram records catalog voices windows starts queue
    exact ⟨die, tag, ⟨records, catalog⟩, ⟨voices, windows, starts⟩, queue, dram⟩
  · obtain ⟨arbitrated, revives, -⟩ := ended.arbitrates (idle := idle) (by rw [same]) dies calm
      (by rw [← dies, here]; rfl) (by rw [← dies, here]; exact isReady)
    exact ⟨arbitrated, revives⟩
  · have polls : u.arbitrate d.val = u.issuePoll d.val := by
      have nonempty : rest.isEmpty = false := by simpa using some
      simp [State.arbitrate, calm, here, Die.ended, isOffline, nonempty]
    have asked : (u.issuePoll d.val).die d.val = { idle.die d.val with operation := Option.some (s.begun .poll) } := by
      have begins := State.die_setDie_same u d.val { u.die d.val with
        state := if (u.die d.val).state = .offline then .offline else .polling
        operation := Option.some { work := .poll, attempt := 1, discard := false, pollInterval := u.tunables.pollInterval
                                   timeout := u.tunables.readTimeout } }
      have offline : (u.die d.val).state = .offline := by
        rw [here]
        exact isOffline
      have tunables : u.tunables = s.tunables := by rw [same]; rfl
      rw [if_pos offline, ← offline, dies, tunables] at begins
      refine Eq.trans ?_ begins
      show (u.setDie d.val _).die d.val = _
      rw [if_pos offline, ← offline, dies, tunables]
    rw [polls] at ended
    have spoken : .diePoll d.val ∈ t.out := ended.posted.1.subset (List.mem_append_right _ (List.mem_singleton_self _))
    obtain ⟨dram, ⟨records, catalog⟩, ⟨voices, windows, starts⟩, queue, -⟩ := ended.posted.streams
    have die := (ended.posted.die d.val).trans asked
    have kept : u.issuePoll d.val = { idle with
        registers := idle.registers, completions := u.completions, dies := (u.issuePoll d.val).dies, out := (u.issuePoll d.val).out } := by
      rw [State.issuePoll, same]
      rfl
    rw [kept] at dram records catalog voices windows starts queue
    exact ⟨die, spoken, ⟨records, catalog⟩, ⟨voices, windows, starts⟩, queue, dram⟩

end Sys2Proof.Machine
end

section
/-! PROOFS. The outcome of a read on a die that stays in service, handed to the voice or the load it was for (R37, R44, R45, R125):
what the place, the slot and the record become, and that the arbiter adds nothing where nothing waits for the die. -/

namespace Sys2Proof.Machine

/-! ### A read's end, before its outcome is handed over -/

/-- The die's read has ended: the die is READY, and nothing but its counters and flags has changed beside it. -/
structure State.ReadIdle (s t : State) (d : Nat) : Prop where
  kept : t = { s with registers := t.registers, dies := t.dies }
  engine : t.registers.engine = s.registers.engine
  die : t.die d = (s.die d).ended .ready
  others : ∀ x, x ≠ d → t.die x = s.die x
  canonical : s.Canonical → t.Canonical

namespace State.ReadIdle
variable {s t : State} {d : Nat} (h : s.ReadIdle t d)

include h

theorem voice (n : Nat) : t.voice n = s.voice n := by
  rw [h.kept]
  rfl

theorem window (w : Nat) : t.window w = s.window w := by
  rw [h.kept]
  rfl

theorem record (id : Nat) : t.record id = s.record id := by
  rw [h.kept]
  rfl

theorem dram : t.dram = s.dram := by rw [h.kept]

theorem completions : t.completions = s.completions := by rw [h.kept]

theorem calm (ready : s.registers.engine = .ready) : t.resetting = false := State.not_resetting_of (h.engine.trans ready)

theorem waits (quiet : nothingWaits s d) : nothingWaits t d := by
  obtain ⟨entries, programs, polls⟩ := quiet
  refine ⟨?_, ?_, ?_⟩
  · rw [h.kept]
    exact entries
  · rw [h.die]
    exact programs
  · rw [h.die]
    exact polls

theorem dieChoice : t.dieChoice d = s.dieChoice d := by
  unfold State.dieChoice
  rw [h.die, h.kept]
  rfl

end State.ReadIdle

theorem Inner.holdTransfer (s : State) (d : Nat) (given : List Byte) : Inner s (s.holdTransfer d given) :=
  Inner.setDie s d _ (by exact List.Sublist.refl _)

theorem State.MarkedIdle.readIdle {s t : State} {d : Nat} {c : Instr} (h : s.MarkedIdle t d .ready c)
    (canonical : s.Canonical → t.Canonical) : s.ReadIdle t d where
  kept := by
    have kept := h.kept
    rw [kept]
  engine := by rw [h.kept]
  die := h.die
  others := h.others
  canonical := canonical

/-- The end of an attempt with the CRC of its data (R123). -/
theorem good_work {s : State} {d : Fin 16} {o : Operation} {f : FetchEntry} (operation : (s.die d.val).operation = some o)
    (read : o.work = .read f) (unmarked : o.discard = false) (state : (s.die d.val).state = .transferring) (data : List Byte) :
    ∃ b, s.ReadIdle b d.val ∧ b.registers = s.registers ∧ work (.dieTransferEnd d data (leBytes 4 (crc32 data).toNat)) s =
      ((b.handOver f (.good data)).arbitrate d.val).finishEngineReset := by
  refine ⟨(s.holdTransfer d.val (data ++ leBytes 4 (crc32 data).toNat)).dieIdle d.val,
    (State.MarkedIdle.held s d.val _ .powerOn).readIdle ((Inner.holdTransfer s d.val _).trans (Inner.dieIdle _ _)).canonical, rfl,
    congrArg State.finishEngineReset ((State.transferEnd_good operation read state data).trans ?_)⟩
  rw [unmarked]
  rfl

/-- The end of an attempt at the retry limit: UNRECOVERED (R124). -/
theorem unrecovered_work {s : State} {d : Fin 16} {o : Operation} {f : FetchEntry} {c : Instr} {counters : Counters}
    (operation : (s.die d.val).operation = some o) (read : o.work = .read f) (unmarked : o.discard = false)
    (ends : endsUnrecovered s d c counters) :
    ∃ b, s.ReadIdle b d.val ∧ b.registers.counters = counters ∧ b.latched .blockFault = true ∧
      work c s = ((b.handOver f .unrecovered).arbitrate d.val).finishEngineReset := by
  obtain ⟨limit, ⟨state, rfl, rfl⟩ | ⟨state, ⟨data, stored, differ, rfl⟩, rfl⟩⟩ := ends
  · refine ⟨((s.count .unrecovered).latch .blockFault).dieIdle d.val,
      ⟨rfl, rfl, State.dieIdle_die ((s.count .unrecovered).latch .blockFault) d.val,
        fun _ h => State.dieIdle_other ((s.count .unrecovered).latch .blockFault) h,
        (((Inner.count s _).trans (Inner.latch _ _)).trans (Inner.dieIdle _ _)).canonical⟩,
      rfl, State.latched_same (s.count .unrecovered) _, congrArg State.finishEngineReset ?_⟩
    rw [State.addressRefused_read operation read state, State.endAttempt, unmarked]
    exact (if_neg nofun).trans (if_neg (Nat.not_lt.mpr limit))
  · let held := (s.holdTransfer d.val (data ++ stored)).count .blockCheck
    have here : held.die d.val = { s.die d.val with buffer := data ++ stored } := State.die_setDie_same s d.val _
    refine ⟨((held.count .unrecovered).latch .blockFault).dieIdle d.val, ⟨rfl, rfl, ?_, fun x h => ?_,
      (((((Inner.holdTransfer s d.val _).trans (Inner.count _ _)).trans (Inner.count _ _)).trans (Inner.latch _ _)).trans
        (Inner.dieIdle _ _)).canonical⟩, rfl, State.latched_same (held.count .unrecovered) _, congrArg State.finishEngineReset ?_⟩
    · refine (State.dieIdle_die ((held.count .unrecovered).latch .blockFault) d.val).trans ?_
      have same : ((held.count .unrecovered).latch .blockFault).die d.val = held.die d.val := rfl
      rw [same, here]
      rfl
    · refine (State.dieIdle_other ((held.count .unrecovered).latch .blockFault) h).trans ?_
      exact State.die_setDie_other s _ h
    · rw [State.transferEnd_mismatch operation read state differ, State.crcMismatch, unmarked, State.endAttempt, unmarked]
      refine (if_neg nofun).trans (if_neg ?_)
      show ¬ (held.die d.val).retries < _
      rw [here]
      exact Nat.not_lt.mpr limit

theorem State.handOver_voice (s : State) {f : FetchEntry} {slot w i : Nat} {g : Generation} (owner : f.owner = .voice slot g)
    (destination : f.destination = .place w i) (e : ReadEnd) : s.handOver f e = s.endVoiceRead slot g w i e := by
  simp [State.handOver, owner, destination]

theorem State.handOver_load (s : State) {f : FetchEntry} {id slot k : Nat} {g : Generation} (owner : f.owner = .load id g)
    (destination : f.destination = .headBlock slot k) (e : ReadEnd) : s.handOver f e = s.endLoadRead id g slot k e := by
  simp [State.handOver, owner, destination]

/-! ### A voice's place -/

/-- One AWAITED place has become FILLED, the DRAM having been written. -/
structure State.PlaceFilled (s t : State) (w i : Nat) (r : Run) : Prop where
  kept : t = { s with windows := t.windows, dram := t.dram }
  place : (t.window w).place i = .filled r
  places : ∀ j, j ≠ i → (t.window w).place j = (s.window w).place j
  windows : ∀ j, j ≠ w → t.window j = s.window j

theorem State.PlaceFilled.set {s t : State} (h : t = { s with dram := t.dram }) (w i : Nat) (r : Run) :
    s.PlaceFilled (t.setWindow w ((s.window w).setPlace i (.filled r))) w i r where
  kept := by
    rw [h]
    rfl
  place := (congrArg (fun x : Window => x.place i) (State.window_setWindow_same t w _)).trans (Window.place_setPlace_same _ _ _)
  places j hj := (congrArg (fun x : Window => x.place j) (State.window_setWindow_same t w _)).trans
    (Window.place_setPlace_other _ _ hj)
  windows j hj := (State.window_setWindow_other t _ hj).trans (by rw [h]; rfl)

section
variable {s : State} {w i : Nat} {r : Run}

theorem State.fillAwaited_good (h : (s.window w).place i = .awaited r) (l : Layout) (data : List Byte) :
    s.fillAwaited w i l (.good data) = ({ s with dram := Memory.write s.dram (s.placeBase w i) data } : State).setWindow w
      ((s.window w).setPlace i (.filled r)) := by
  simp [State.fillAwaited, h]

theorem State.fillAwaited_lost (h : (s.window w).place i = .awaited r) (l : Layout) {e : ReadEnd} (lost : ∀ data, e ≠ .good data) :
    s.fillAwaited w i l e = (s.zeroRun w i { r with damaged := true } l.format).setWindow w
      ((s.window w).setPlace i (.filled { r with damaged := true })) := by
  cases e with
  | good data => exact absurd rfl (lost data)
  | unrecovered => simp [State.fillAwaited, h]
  | offline => simp [State.fillAwaited, h]

theorem State.fillAwaited_other (h : ∀ r, (s.window w).place i ≠ .awaited r) (l : Layout) (e : ReadEnd) :
    s.fillAwaited w i l e = s := by
  unfold State.fillAwaited
  split
  · exact absurd ‹_› (h _)
  · rfl
  · rfl

end

/-- A voice as one of its reads has ended (R73). -/
def Voice.readEnded (v : Voice) : Voice := { v with reads := v.reads - 1 }

/-- A sounding voice's read ends: its count falls and its place is filled (R44, R125). -/
theorem State.endVoiceRead_sounding {s : State} {slot : Nat} {l : Layout} (sounding : (s.voice slot).sounding = true)
    (layout : s.layoutOf (s.voice slot) = some l) (w i : Nat) (e : ReadEnd) :
    s.endVoiceRead slot (s.voice slot).generation w i e =
      (s.setVoice slot (s.voice slot).readEnded).fillAwaited w i l e := by
  have held : (s.voice slot).state ≠ .free := Voice.sounding_held sounding
  simp [State.endVoiceRead, held, sounding, layout, Voice.readEnded]

/-- An ENDING voice's read ends: its place is EMPTY, and the voice becomes FREE with its last read (R45, R73). -/
theorem State.endVoiceRead_ending {s : State} {slot : Nat} (ending : (s.voice slot).state = .ending) (w i : Nat) (e : ReadEnd) :
    s.endVoiceRead slot (s.voice slot).generation w i e =
      ((s.setVoice slot (s.voice slot).readEnded).setWindow w ((s.window w).setPlace i .empty)).settleFree slot := by
  have silent : (s.voice slot).sounding = false := by simp [Voice.sounding, ending]
  simp [State.endVoiceRead, ending, silent, Voice.readEnded]

/-- A sounding voice whose read has filled its place. -/
structure State.VoiceRead (s t : State) (slot w i : Nat) (r : Run) : Prop where
  kept : t = { s with voices := t.voices, windows := t.windows, dram := t.dram }
  voice : t.voice slot = (s.voice slot).readEnded
  others : ∀ n, n ≠ slot → t.voice n = s.voice n
  place : (t.window w).place i = .filled r
  places : ∀ j, j ≠ i → (t.window w).place j = (s.window w).place j
  windows : ∀ j, j ≠ w → t.window j = s.window j

theorem State.VoiceRead.of_filled {s t : State} {slot w i : Nat} {r : Run}
    (h : (s.setVoice slot (s.voice slot).readEnded).PlaceFilled t w i r) : s.VoiceRead t slot w i r where
  kept := by
    rw [h.kept]
    rfl
  voice := by
    rw [h.kept]
    exact State.voice_setVoice_same s _ _
  others n hn := by
    rw [h.kept]
    exact State.voice_setVoice_other s _ hn
  place := h.place
  places := h.places
  windows := h.windows

theorem State.voiceRead_good {s : State} {slot w i : Nat} {l : Layout} {r : Run} (sounding : (s.voice slot).sounding = true)
    (layout : s.layoutOf (s.voice slot) = some l) (awaited : (s.window w).place i = .awaited r) (data : List Byte) :
    ∃ t, s.endVoiceRead slot (s.voice slot).generation w i (.good data) = t ∧ s.VoiceRead t slot w i r ∧
      t.dram = Memory.write s.dram (s.placeBase w i) data := by
  have fills := State.fillAwaited_good (s := s.setVoice slot (s.voice slot).readEnded) awaited l data
  refine ⟨_, (State.endVoiceRead_sounding sounding layout w i _).trans fills, State.VoiceRead.of_filled ?_, rfl⟩
  exact State.PlaceFilled.set (s := s.setVoice slot (s.voice slot).readEnded) rfl w i r

theorem State.voiceRead_lost {s : State} {slot w i : Nat} {l : Layout} {r : Run} (sounding : (s.voice slot).sounding = true)
    (layout : s.layoutOf (s.voice slot) = some l) (awaited : (s.window w).place i = .awaited r) {e : ReadEnd}
    (lost : ∀ data, e ≠ .good data) :
    ∃ t, s.endVoiceRead slot (s.voice slot).generation w i e = t ∧ s.VoiceRead t slot w i { r with damaged := true } ∧
      t.dram = (s.zeroRun w i { r with damaged := true } l.format).dram := by
  have fills := State.fillAwaited_lost (s := s.setVoice slot (s.voice slot).readEnded) awaited l lost
  refine ⟨_, (State.endVoiceRead_sounding sounding layout w i _).trans fills, State.VoiceRead.of_filled ?_, rfl⟩
  exact State.PlaceFilled.set (s := s.setVoice slot (s.voice slot).readEnded) rfl w i _

/-- An ENDING voice whose read has ended (R45, R73, R125). -/
structure State.EndingRead (s t : State) (slot w i : Nat) : Prop where
  kept : t = { s with voices := t.voices, windows := t.windows }
  place : (t.window w).place i = .empty
  others : ∀ n, n ≠ slot → t.voice n = s.voice n
  last : (s.voice slot).endPosted = true ∧ (s.voice slot).reads ≤ 1 →
    t.voice slot = { s.voice slot with state := .free, reads := 0 } ∧ ∀ j, (t.window (s.voice slot).window).place j = .empty
  more : (s.voice slot).endPosted = false ∨ 1 < (s.voice slot).reads → t.voice slot = (s.voice slot).readEnded ∧
    (∀ j, j ≠ i → (t.window w).place j = (s.window w).place j) ∧ ∀ j, j ≠ w → t.window j = s.window j

theorem State.voiceRead_ending {s : State} {slot : Nat} (ending : (s.voice slot).state = .ending) (w i : Nat) (e : ReadEnd) :
    ∃ t, s.endVoiceRead slot (s.voice slot).generation w i e = t ∧ s.EndingRead t slot w i := by
  let u := (s.setVoice slot (s.voice slot).readEnded).setWindow w ((s.window w).setPlace i .empty)
  have voice : u.voice slot = (s.voice slot).readEnded := State.voice_setVoice_same s slot _
  have others (n : Nat) (hn : n ≠ slot) : u.voice n = s.voice n := State.voice_setVoice_other s _ hn
  have window : u.window w = (s.window w).setPlace i .empty :=
    State.window_setWindow_same (s.setVoice slot (s.voice slot).readEnded) w _
  have windows (j : Nat) (hj : j ≠ w) : u.window j = s.window j :=
    State.window_setWindow_other (s.setVoice slot (s.voice slot).readEnded) _ hj
  have place : (u.window w).place i = .empty := by
    rw [window]
    exact Window.place_setPlace_same _ _ _
  refine ⟨_, State.endVoiceRead_ending ending w i e, ?_⟩
  by_cases last : (s.voice slot).endPosted = true ∧ (s.voice slot).reads ≤ 1
  · have none : (s.voice slot).readEnded.reads = 0 := Nat.sub_eq_zero_of_le last.2
    have frees : u.settleFree slot =
        (u.setWindow (s.voice slot).window Window.blank).setVoice slot { (s.voice slot).readEnded with state := .free } := by
      unfold State.settleFree
      rw [voice]
      exact if_pos ⟨ending, last.1, none⟩
    have blank (j : Nat) : Window.blank.place j = .empty := rfl
    have freed : ((u.setWindow (s.voice slot).window Window.blank).window (s.voice slot).window) = Window.blank :=
      State.window_setWindow_same u _ _
    have same : (u.settleFree slot).window = (u.setWindow (s.voice slot).window Window.blank).window := by
      rw [frees]
      rfl
    refine ⟨?_, ?_, fun n hn => ?_, fun _ => ⟨?_, fun j => ?_⟩, fun more => ?_⟩
    · show u.settleFree slot = _
      rw [frees]
      rfl
    · show ((u.settleFree slot).window w).place i = _
      rw [same]
      by_cases hw : w = (s.voice slot).window
      · rw [hw, freed]
        exact blank i
      · rw [State.window_setWindow_other u _ hw]
        exact place
    · show (u.settleFree slot).voice n = _
      rw [frees]
      exact (State.voice_setVoice_other (u.setWindow (s.voice slot).window Window.blank) _ hn).trans (others n hn)
    · show (u.settleFree slot).voice slot = _
      rw [frees]
      refine (State.voice_setVoice_same (u.setWindow (s.voice slot).window Window.blank) slot _).trans ?_
      rw [← none]
      rfl
    · show ((u.settleFree slot).window _).place j = _
      rw [same, freed]
      exact blank j
    · obtain posted | reads := more
      · rw [posted] at last
        exact absurd last.1 nofun
      · exact absurd last.2 (Nat.not_le.mpr reads)
  · have stays : u.settleFree slot = u := by
      unfold State.settleFree
      rw [voice]
      refine if_neg fun free => last ⟨free.2.1, ?_⟩
      exact Nat.sub_eq_zero_iff_le.mp free.2.2
    have result : s.EndingRead u slot w i := by
      refine ⟨rfl, place, others, fun free => absurd free last, fun _ => ⟨voice, fun j hj => ?_, windows⟩⟩
      rw [window]
      exact Window.place_setPlace_other _ _ hj
    rw [← stays] at result
    exact result

/-! ### The events of a voice's read -/

/-- The work of an end whose die nothing waits for. -/
theorem exec_quietEnd {c : Instr} {s u : State} {d : Nat} (work : work c s = (u.arbitrate d).finishEngineReset)
    (ready : u.resetting = false) (quiet : nothingWaits u d) : ∃ t, exec c s = .next t ∧ u.Ended t := by
  rw [State.arbitrate_nothing quiet] at work
  exact exec_dieEnded work ready

theorem voiceReadGood_quiet (s : State) (d : Fin 16) (o : Operation) (f : FetchEntry) (slot w i : Nat) (l : Layout) (r : Run)
    (data : List Byte) (ready : s.registers.engine = .ready) (operation : (s.die d.val).operation = some o)
    (read : o.work = .read f) (unmarked : o.discard = false) (state : (s.die d.val).state = .transferring)
    (quiet : nothingWaits s d.val) (owner : f.owner = .voice slot (s.voice slot).generation)
    (destination : f.destination = .place w i) (sounding : (s.voice slot).sounding = true)
    (layout : s.layoutOf (s.voice slot) = some l) (awaited : (s.window w).place i = .awaited r) (settled : s.completions = []) :
    ∃ t, exec (.dieTransferEnd d data (leBytes 4 (crc32 data).toNat)) s = .next t ∧
      t.die d.val = (s.die d.val).ended .ready ∧ (t.window w).place i = .filled r ∧
      (∀ j, j ≠ i → (t.window w).place j = (s.window w).place j) ∧ (∀ j, j ≠ w → t.window j = s.window j) ∧
      t.voice slot = (s.voice slot).readEnded ∧ (∀ n, n ≠ slot → t.voice n = s.voice n) ∧
      t.dram = Memory.write s.dram (s.placeBase w i) data ∧
      SameCatalog s t ∧ SameQueue s t ∧ t.stores = s.stores ∧ (∀ x, x ≠ d.val → t.die x = s.die x) ∧
      t.registers = s.registers := by
  obtain ⟨b, idle, registers, work⟩ := good_work operation read unmarked state data
  rw [State.handOver_voice b owner destination, ← idle.voice] at work
  obtain ⟨u, hands, filled, dram⟩ := State.voiceRead_good (s := b) (slot := slot) (w := w) (i := i) (l := l) (r := r)
    (by rw [idle.voice]; exact sounding) (by rw [idle.voice, idle.kept]; exact layout) (by rw [idle.window]; exact awaited) data
  rw [hands] at work
  have kept := filled.kept
  rw [idle.kept] at kept
  have still : u.arbitrate d.val = u := by
    refine State.arbitrate_nothing ?_
    rw [filled.kept]
    exact idle.waits quiet
  have calm : u.resetting = false := by
    rw [filled.kept]
    exact idle.calm ready
  rw [still, State.finishEngineReset_ready calm] at work
  have dies (x : Nat) : u.die x = b.die x := by
    rw [filled.kept]
    rfl
  have base : b.placeBase w i = s.placeBase w i := by
    rw [idle.kept]
    rfl
  refine ⟨u, exec_silent work (by rw [kept]; exact settled) (by rw [kept]; exact registers), (dies _).trans idle.die, filled.place,
    fun j hj => (filled.places j hj).trans (by rw [idle.window]), fun j hj => (filled.windows j hj).trans (idle.window j),
    filled.voice.trans (by rw [idle.voice]), fun n hn => (filled.others n hn).trans (idle.voice n), by rw [dram, idle.dram, base],
    ?_, ?_, by rw [kept], fun x hx => (dies x).trans (idle.others x hx), by rw [kept]; exact registers⟩
  all_goals rw [kept]
  · exact ⟨fun _ => rfl, rfl, rfl, rfl⟩
  · exact ⟨rfl, rfl⟩

theorem voiceReadGood_chooses (s : State) (d : Fin 16) (o : Operation) (f : FetchEntry) (slot w i : Nat) (l : Layout) (r : Run)
    (data : List Byte) (ready : s.registers.engine = .ready) (operation : (s.die d.val).operation = some o)
    (read : o.work = .read f) (unmarked : o.discard = false) (state : (s.die d.val).state = .transferring)
    (owner : f.owner = .voice slot (s.voice slot).generation)
    (destination : f.destination = .place w i) (sounding : (s.voice slot).sounding = true)
    (layout : s.layoutOf (s.voice slot) = some l) (awaited : (s.window w).place i = .awaited r) :
    ∃ t, exec (.dieTransferEnd d data (leBytes 4 (crc32 data).toNat)) s = .next t ∧ (t.window w).place i = .filled r ∧
      (t.die d.val).operation = (s.dieChoice d.val).map s.begun ∧
      (t.voice slot).reads = (s.voice slot).reads - 1 + s.readsBegun d.val (Owner.isVoice slot) := by
  obtain ⟨b, idle, -, work⟩ := good_work operation read unmarked state data
  rw [State.handOver_voice b owner destination, ← idle.voice] at work
  obtain ⟨u, hands, filled, -⟩ := State.voiceRead_good (s := b) (slot := slot) (w := w) (i := i) (l := l) (r := r)
    (by rw [idle.voice]; exact sounding) (by rw [idle.voice, idle.kept]; exact layout) (by rw [idle.window]; exact awaited) data
  rw [hands] at work
  have kept := filled.kept
  have calm : u.resetting = false := by
    rw [kept]
    exact idle.calm ready
  have here : u.die d.val = (s.die d.val).ended .ready := by
    rw [kept]
    exact idle.die
  obtain ⟨t, ht, ended⟩ := exec_arbitrated work calm
  obtain ⟨arbitrated, -, -⟩ := ended.arbitrates (idle := u) rfl (fun _ => rfl) calm (by rw [here]; rfl) (by rw [here]; rfl)
  have choice : u.dieChoice d.val = s.dieChoice d.val := by
    rw [← idle.dieChoice, kept]
    rfl
  have begun : u.begun = s.begun := by
    rw [kept, idle.kept]
    rfl
  have reads : u.readsBegun d.val (Owner.isVoice slot) = s.readsBegun d.val (Owner.isVoice slot) := by
    unfold State.readsBegun
    rw [choice]
  refine ⟨t, ht, ?_, ?_, ?_⟩
  · have window : t.window w = u.window w := by
      rw [ended.posted.window, State.DieKept.arbitrate u d.val]
      rfl
    rw [window]
    exact filled.place
  · rw [arbitrated.die, choice, begun]
    cases s.dieChoice d.val with
    | none => rfl
    | some x => cases x <;> rfl
  · rw [arbitrated.voice, reads, filled.voice, idle.voice]
    rfl

/-- Settles O54: the place FILLED with nothing waiting, with the arbiter's choice after it, and the place of an ENDING voice. -/
theorem voiceReadEndsWell : Obligations.VoiceReadEndsWell := by
  refine ⟨fun s d o f slot w i l r data ready operation read unmarked state quiet owner destination sounding layout awaited settled =>
      ?_, voiceReadGood_chooses,
    fun s d o f slot w i data ready operation read unmarked state quiet owner destination ending settled => ?_⟩
  · obtain ⟨t, ht, die, place, places, windows, voice, others, dram, rest⟩ := voiceReadGood_quiet s d o f slot w i l r data ready
      operation read unmarked state quiet owner destination sounding layout awaited settled
    refine ⟨t, ht, die, place, places, windows, voice, others, fun k hk => ?_, fun a ha => ?_, rest⟩
    · rw [dram]
      exact Memory.read_write_in _ _ _ _ hk
    · rw [dram]
      exact Memory.read_write_out _ _ _ _ ha
  · intro v
    obtain ⟨b, idle, registers, work⟩ := good_work operation read unmarked state data
    rw [State.handOver_voice b owner destination, ← idle.voice] at work
    obtain ⟨u, hands, ended⟩ := State.voiceRead_ending (s := b) (slot := slot) (by rw [idle.voice]; exact ending) w i (.good data)
    rw [hands] at work
    have kept := ended.kept
    rw [idle.kept] at kept
    have still : u.arbitrate d.val = u := by
      refine State.arbitrate_nothing ?_
      rw [ended.kept]
      exact idle.waits quiet
    have calm : u.resetting = false := by
      rw [ended.kept]
      exact idle.calm ready
    rw [still, State.finishEngineReset_ready calm] at work
    have die : u.die d.val = (s.die d.val).ended .ready := by
      rw [ended.kept]
      exact idle.die
    have last := ended.last
    have more := ended.more
    rw [idle.voice] at last more
    refine ⟨u, exec_silent work (by rw [kept]; exact settled) (by rw [kept]; exact registers), die, ended.place, ?_, ?_, ?_,
      fun n hn => (ended.others n hn).trans (idle.voice n), last, fun stays => ?_⟩
    · rw [kept]
      exact fun _ => rfl
    · rw [kept]
      exact ⟨fun _ => rfl, rfl, rfl, rfl⟩
    · rw [kept]
      exact ⟨rfl, rfl⟩
    · obtain ⟨voice, places, windows⟩ := more stays
      exact ⟨voice, fun j hj => (places j hj).trans (by rw [idle.window]), fun j hj => (windows j hj).trans (idle.window j)⟩

/-- A voice's read that ends UNRECOVERED, with nothing waiting for the die (R44, R124). -/
theorem voiceReadUnrecovered (s : State) (d : Fin 16) (o : Operation) (f : FetchEntry) (slot w i : Nat) (l : Layout) (r : Run)
    (c : Instr) (counters : Counters) (ready : s.registers.engine = .ready) (operation : (s.die d.val).operation = some o)
    (read : o.work = .read f) (unmarked : o.discard = false) (ends : endsUnrecovered s d c counters)
    (quiet : nothingWaits s d.val) (owner : f.owner = .voice slot (s.voice slot).generation)
    (destination : f.destination = .place w i) (sounding : (s.voice slot).sounding = true)
    (layout : s.layoutOf (s.voice slot) = some l) (awaited : (s.window w).place i = .awaited r) :
    ∃ t, exec c s = .next t ∧ t.die d.val = (s.die d.val).ended .ready ∧
      (t.window w).place i = .filled { r with damaged := true } ∧ t.registers.counters = counters ∧
      t.latched .blockFault = true ∧ t.voice slot = (s.voice slot).readEnded ∧
      t.dram = (s.zeroRun w i { r with damaged := true } l.format).dram := by
  obtain ⟨b, idle, counted, fault, work⟩ := unrecovered_work operation read unmarked ends
  rw [State.handOver_voice b owner destination, ← idle.voice] at work
  obtain ⟨u, hands, filled, dram⟩ := State.voiceRead_lost (s := b) (slot := slot) (w := w) (i := i) (l := l) (r := r)
    (e := .unrecovered) (by rw [idle.voice]; exact sounding) (by rw [idle.voice, idle.kept]; exact layout)
    (by rw [idle.window]; exact awaited) (fun _ => nofun)
  rw [hands] at work
  have kept := filled.kept
  have calm : u.resetting = false := by
    rw [kept]
    exact idle.calm ready
  obtain ⟨t, ht, ended⟩ := exec_quietEnd work calm (by rw [kept]; exact idle.waits quiet)
  have registers : u.registers = b.registers := by rw [kept]
  refine ⟨t, ht, ?_, ?_, ?_, ended.latched _ ?_, ?_, ?_⟩
  · rw [ended.posted.die, kept]
    exact idle.die
  · rw [ended.posted.window]
    exact filled.place
  · rw [ended.posted.registers, registers]
    exact counted
  · unfold State.latched
    rw [registers]
    exact fault
  · rw [ended.posted.voice, filled.voice, idle.voice]
  · rw [ended.posted.dram, dram, idle.kept]
    rfl

end Sys2Proof.Machine
end

section
/-! PROOFS. The end of a load's read (R37 to R40, R125): its block in the slot, the record it makes RESIDENT or STALE, and the counts
of a load that is no more (R7, R17, R32). -/

namespace Sys2Proof.Machine

/-! ### The slots that wait for their reads -/

theorem lowerReclaim_append (slot id : Nat) (g : Generation) (xs ys : List Reclaim) :
    lowerReclaim slot id g (xs ++ ys) = lowerReclaim slot id g xs ++ lowerReclaim slot id g ys :=
  List.filterMap_append

/-- The reads of other slots count for nothing (R32). -/
theorem lowerReclaim_others {slot : Nat} (id : Nat) (g : Generation) {rs : List Reclaim} (h : ∀ r ∈ rs, r.slot ≠ slot) :
    lowerReclaim slot id g rs = rs := by
  induction rs with
  | nil => rfl
  | cons r rs ih =>
    have skip : ¬ (r.slot = slot ∧ r.id = id ∧ r.generation = g) := fun k => h r List.mem_cons_self k.1
    have rest := ih fun q hq => h q (List.mem_cons_of_mem _ hq)
    unfold lowerReclaim at rest ⊢
    rw [List.filterMap_cons, if_neg skip, rest]

theorem lowerReclaim_one (r : Reclaim) :
    lowerReclaim r.slot r.id r.generation [r] =
      if r.outstanding ≤ 1 then [] else [{ r with outstanding := r.outstanding - 1 }] := by
  unfold lowerReclaim
  rw [List.filterMap_cons, if_pos ⟨rfl, rfl, rfl⟩]
  split <;> rename_i h
  all_goals
    split at h
    · simp_all
    · simp_all

/-! ### The counts of a load's read -/

/-- A record as one of its load's reads has ended (R7). -/
def Record.readEnded (r : Record) : Record := { r with loadReads := r.loadReads - 1 }

/-- The counts of a load's read fall (R7, R32). -/
structure State.Lowered (s t : State) (id slot : Nat) (g : Generation) (after : Record) : Prop where
  kept : t = { s with catalog := t.catalog, reclaiming := lowerReclaim slot id g s.reclaiming }
  record : t.record id = after
  records : ∀ j, j ≠ id → t.record j = s.record j

theorem State.lowerLoadReads_held {s : State} {id : Nat} {g : Generation} (slot : Nat) (held : (s.record id).state ≠ .vacant)
    (named : (s.record id).generation = g) : s.Lowered (s.lowerLoadReads id g slot) id slot g (s.record id).readEnded := by
  have lowers : s.lowerLoadReads id g slot =
      ({ s with reclaiming := lowerReclaim slot id g s.reclaiming } : State).setRecord id (s.record id).readEnded :=
    if_pos ⟨held, named⟩
  rw [lowers]
  exact ⟨rfl, State.record_setRecord_same _ _ _, fun j hj => State.record_setRecord_other
    ({ s with reclaiming := lowerReclaim slot id g s.reclaiming } : State) _ hj⟩

theorem State.lowerLoadReads_gone {s : State} {id : Nat} {g : Generation} (slot : Nat)
    (gone : (s.record id).state = .vacant ∨ (s.record id).generation ≠ g) :
    s.lowerLoadReads id g slot = { s with reclaiming := lowerReclaim slot id g s.reclaiming } := by
  refine if_neg fun ⟨held, named⟩ => ?_
  obtain vacant | other := gone
  · exact held vacant
  · exact other named

theorem State.Lowered.canonical {s t : State} {id slot : Nat} {g : Generation} (h : t = s.lowerLoadReads id g slot)
    (c : s.Canonical) : t.Canonical := by
  rw [h]
  exact (Inner.lowerLoadReads s id g slot).canonical c

/-! ### A block that arrives -/

/-- A load as one of its head blocks has arrived (R37). -/
def Load.withBlock (l : Load) (k : Nat) : Load := { l with arrived := k :: l.arrived }

/-- The state as a head block has arrived: its bytes in the slot, and the load's count of it. -/
def State.headArrived (s : State) (id k : Nat) (l : Load) (data : List Byte) : State :=
  ({ s with dram := Memory.write s.dram (s.slotBase l.slot + k * Config.blockBytes) data } : State).setRecord id
    { s.record id with load := some (l.withBlock k) }

section
variable {s : State} {id k : Nat} {l : Load} {y : Layout}

theorem State.arriveHead_eq (load : (s.record id).load = some l) (layout : (s.record id).layout = some y) (data : List Byte) :
    s.arriveHead id k data = if l.arrived.length + 1 = y.headBlocks then
      (s.headArrived id k l data).judgeLoad id y (l.withBlock k) else s.headArrived id k l data := by
  simp only [State.arriveHead, load, layout]
  rw [← layout]
  rfl

theorem State.headArrived_record (s : State) (id k : Nat) (l : Load) (data : List Byte) :
    (s.headArrived id k l data).record id = { s.record id with load := some (l.withBlock k) } :=
  State.record_setRecord_same _ _ _

/-- Without a signature or with a matching one the load is good (R37, R40). -/
theorem State.judgeLoad_good (h : ∀ g, y.signature = some g → s.signatureCrc l.slot y g = g.expected) :
    s.judgeLoad id y l = s.finishLoad id l := by
  unfold State.judgeLoad
  cases signature : y.signature with
  | none => rfl
  | some g => exact if_pos (h g signature)

theorem State.judgeLoad_mismatch {g : Signature} (signature : y.signature = some g)
    (h : s.signatureCrc l.slot y g ≠ g.expected) :
    s.judgeLoad id y l = s.failLoad id (.mismatch (s.signatureCrc l.slot y g) g.expected) := by
  unfold State.judgeLoad
  rw [signature]
  exact if_neg h

theorem State.signatureCrc_congr {s t : State} (dram : t.dram = s.dram) (partition : t.partition = s.partition) (slot : Nat)
    (y : Layout) (g : Signature) : t.signatureCrc slot y g = s.signatureCrc slot y g := by
  unfold State.signatureCrc State.slotBase
  rw [dram, partition]

end

/-! ### A load that fails, whatever its voices -/

/-- A record that is not RETIRING loses references alone as voices end (R12). -/
theorem State.endVoices_reads (reason : EndReason) (id : Nat) (slots : List Nat) : ∀ s : State, (s.record id).state ≠ .retiring →
    ((s.endVoices reason slots).record id).loadReads = (s.record id).loadReads := by
  have one (s : State) (slot : Nat) (stays : (s.record id).state ≠ .retiring) :
      ((State.endVoice reason s slot).record id).loadReads = (s.record id).loadReads ∧
        ((State.endVoice reason s slot).record id).state = (s.record id).state := by
    rw [State.endVoice_eq]
    split
    · simp only [State.dropReference]
      split
      · by_cases same : id = (s.voice slot).sampleId
        · rw [State.settleRetiring_other, ← same, State.record_setRecord_same]
          · exact ⟨rfl, rfl⟩
          · rw [State.record_setRecord_same, ← same]
            exact stays
        · have other (u : State) (j : Nat) (h : id ≠ j) : (u.settleRetiring j).record id = u.record id := by
            simp only [State.settleRetiring]
            split
            · split
              · exact State.toVacant_other _ h
              · exact State.toVacant_other _ h
            · rfl
          rw [other _ _ same, State.record_setRecord_other _ _ same]
          exact ⟨rfl, rfl⟩
      · exact ⟨rfl, rfl⟩
    · exact ⟨rfl, rfl⟩
  induction slots with
  | nil => exact fun _ _ => rfl
  | cons x slots ih =>
    intro s stays
    obtain ⟨reads, state⟩ := one s x stays
    exact (ih _ (by rw [state]; exact stays)).trans reads

theorem State.releaseSlot_record (s : State) (slot reads id : Nat) (g : Generation) (j : Nat) :
    (s.releaseSlot slot reads id g).record j = s.record j := by
  rw [State.releaseSlot_eq]
  rfl

theorem State.loseLoad_record (s : State) (id : Nat) (l : Load) (reason : EndReason) (slots : List Nat) (done : Completion)
    (f : Record → Record) : (s.loseLoad id l reason slots done f).record id =
      f (((s.dropLoadEntries id (s.record id).generation).endVoices reason slots).record id) := by
  rw [State.loseLoad, State.releaseSlot_record]
  exact State.record_setRecord_same _ _ _

/-- What a failed load leaves whatever its voices: its completion, its record's reads and no further queue entry. -/
structure State.LoadFailed (s t : State) (id : Nat) (done : Completion) : Prop where
  kept : s.TakeKept t
  queue : t.queue.Sublist s.queue
  reads : (t.record id).loadReads = (s.record id).loadReads
  done : done ∈ t.completions

theorem State.failLoad_failed {s : State} {id : Nat} {l : Load} (f : LoadFailure) (load : (s.record id).load = some l)
    (stays : (s.record id).state ≠ .retiring) : s.LoadFailed (s.failLoad id f) id (f.completion l) := by
  refine ⟨State.TakeKept.failLoad s id f, ?_, ?_, ?_⟩
  all_goals rw [State.failLoad_eq f load]
  · rw [State.loseLoad, State.releaseSlot_eq]
    exact (State.endVoices_queue _ _ _).trans List.filter_sublist
  · rw [State.loseLoad_record]
    exact State.endVoices_reads .stale id _ (s.dropLoadEntries id (s.record id).generation) stays
  · rw [State.loseLoad, State.releaseSlot_eq]
    exact List.mem_cons_self

/-- The record of a load that fails with no voice naming it. -/
theorem State.failLoad_alone {s : State} {id : Nat} {l : Load} (f : LoadFailure) (load : (s.record id).load = some l)
    (alone : s.slotsPlaying id (s.record id).generation = []) : (s.failLoad id f).record id = (s.record id).failed f := by
  rw [State.failLoad_eq f load, alone, State.loseLoad_record]
  rfl

/-! ### A load's read that ends well -/

/-- What the arrival of a head block leaves: its bytes, and the load's count, its end or its failure. -/
structure State.HeadRead (s t : State) (id k : Nat) (l : Load) (y : Layout) (data : List Byte) : Prop where
  kept : ({ s with dram := Memory.write s.dram (s.slotBase l.slot + k * 4096) data } : State).TakeKept t
  queue : t.queue.Sublist s.queue
  reads : (t.record id).loadReads = (s.record id).loadReads
  more : l.arrived.length + 1 ≠ y.headBlocks →
    (t.record id).state = (s.record id).state ∧ (t.record id).load = some { l with arrived := k :: l.arrived }
  good : l.arrived.length + 1 = y.headBlocks → (∀ g, y.signature = some g → t.signatureCrc l.slot y g = g.expected) →
    (t.record id).state = .resident ∧ (t.record id).load = none ∧ t.recency = id :: s.recency.filter (· != id) ∧
      ⟨l.token, .ok, BitVec.ofNat 32 l.slot, evictedWord l.evicted⟩ ∈ t.completions
  mismatch : l.arrived.length + 1 = y.headBlocks → ∀ g, y.signature = some g → t.signatureCrc l.slot y g ≠ g.expected →
    ⟨l.token, .signatureMismatch, t.signatureCrc l.slot y g, g.expected⟩ ∈ t.completions ∧
      (s.slotsPlaying id (s.record id).generation = [] → (t.record id).state = .stale ∧ (t.record id).staleReason = .mismatch ∧
        (t.record id).headSlot = none ∧ (t.record id).load = none)

theorem State.arriveHead_read {s : State} {id k : Nat} {l : Load} {y : Layout} (load : (s.record id).load = some l)
    (layout : (s.record id).layout = some y) (stays : (s.record id).state ≠ .retiring) (data : List Byte) :
    s.HeadRead (s.arriveHead id k data) id k l y data := by
  let u := s.headArrived id k l data
  have record : u.record id = { s.record id with load := some (l.withBlock k) } := s.headArrived_record id k l data
  have kept : ({ s with dram := Memory.write s.dram (s.slotBase l.slot + k * 4096) data } : State).TakeKept u := rfl
  rw [State.arriveHead_eq load layout]
  by_cases last : l.arrived.length + 1 = y.headBlocks
  · rw [if_pos last]
    by_cases good : ∀ g, y.signature = some g → u.signatureCrc l.slot y g = g.expected
    · have ends : u.judgeLoad id y (l.withBlock k) = u.finishLoad id (l.withBlock k) := State.judgeLoad_good good
      rw [ends]
      let v := u.setRecord id { u.record id with state := .resident, load := none }
      have finished : v.record id = { u.record id with state := .resident, load := none } := State.record_setRecord_same u id _
      refine ⟨rfl, List.Sublist.refl _, ?_, fun more => absurd last more, fun _ _ => ⟨?_, ?_, rfl, List.mem_cons_self⟩,
        fun _ g signature differs => absurd (good g signature) differs⟩
      · show (v.record id).loadReads = _
        rw [finished, record]
      · show (v.record id).state = _
        rw [finished]
      · show (v.record id).load = _
        rw [finished]
    · have bad : ∃ g, y.signature = some g ∧ u.signatureCrc l.slot y g ≠ g.expected :=
        Classical.byContradiction fun none => good fun g signature =>
          Classical.byContradiction fun differs => none ⟨g, signature, differs⟩
      obtain ⟨g, signature, differs⟩ := bad
      have ends : u.judgeLoad id y (l.withBlock k) = u.failLoad id (.mismatch (u.signatureCrc l.slot y g) g.expected) :=
        State.judgeLoad_mismatch (l := l.withBlock k) signature differs
      have loading : (u.record id).load = some (l.withBlock k) := by rw [record]
      have failed := State.failLoad_failed (.mismatch (u.signatureCrc l.slot y g) g.expected) loading (by rw [record]; exact stays)
      have same (h : Signature) : (u.failLoad id (.mismatch (u.signatureCrc l.slot y g) g.expected)).signatureCrc l.slot y h =
          u.signatureCrc l.slot y h := by
        have takes := failed.kept
        exact State.signatureCrc_congr (by rw [takes]) (by rw [takes]) l.slot y h
      rw [ends]
      refine ⟨kept.trans failed.kept, failed.queue, failed.reads.trans (by rw [record]), fun more => absurd last more,
        fun _ matching => absurd ((same g).symm.trans (matching g signature)) differs, fun _ h sign other => ⟨?_, fun alone => ?_⟩⟩
      · have one : h = g := Option.some.inj (sign.symm.trans signature)
        rw [same, one]
        exact failed.done
      · have named : u.slotsPlaying id (u.record id).generation = [] := by
          rw [record]
          exact alone
        rw [State.failLoad_alone _ loading named]
        exact ⟨rfl, rfl, rfl, rfl⟩
  · rw [if_neg last]
    have result : s.HeadRead u id k l y data :=
      ⟨kept, List.Sublist.refl _, by rw [record], fun _ => by rw [record]; exact ⟨rfl, rfl⟩, fun done => absurd done last,
        fun done => absurd done last⟩
    exact result

theorem State.loadRunning_iff {s : State} {id : Nat} {g : Generation} :
    s.loadRunning id g = true ↔ (s.record id).generation = g ∧ (s.record id).load.isSome = true := by
  simp [State.loadRunning]

theorem nothingWaits.of_queue {s t : State} {d : Nat} (h : nothingWaits s d) (queue : t.queue.Sublist s.queue)
    (die : t.die d = s.die d) : nothingWaits t d := by
  obtain ⟨entries, programs, polls⟩ := h
  refine ⟨?_, by rw [die]; exact programs, by rw [die]; exact polls⟩
  have fewer : (t.subQueue d).Sublist (s.subQueue d) := queue.filter _
  rw [entries] at fewer
  exact List.sublist_nil.mp fewer

/-- A load's read ends well with nothing waiting for its die: the counts fall and the block arrives. -/
theorem exec_headRead (s : State) (d : Fin 16) (o : Operation) (f : FetchEntry) (id k : Nat) (l : Load) (y : Layout)
    (data : List Byte) (ready : s.registers.engine = .ready) (operation : (s.die d.val).operation = some o)
    (read : o.work = .read f) (unmarked : o.discard = false) (state : (s.die d.val).state = .transferring)
    (quiet : nothingWaits s d.val) (owner : f.owner = .load id (s.record id).generation)
    (destination : f.destination = .headBlock l.slot k) (loading : (s.record id).state = .loading)
    (load : (s.record id).load = some l) (layout : (s.record id).layout = some y) :
    ∃ v u t : State, exec (.dieTransferEnd d data (leBytes 4 (crc32 data).toNat)) s = .next t ∧ u.Ended t ∧
      v = { s with registers := v.registers, dies := v.dies, catalog := v.catalog, reclaiming := v.reclaiming } ∧
      v.record id = (s.record id).readEnded ∧ v.HeadRead u id k l y data := by
  obtain ⟨b, idle, -, work⟩ := good_work operation read unmarked state data
  have record := idle.record id
  have held : (b.record id).state ≠ .vacant := by
    rw [record, loading]
    nofun
  have lowered := State.lowerLoadReads_held (s := b) (id := id) l.slot held (by rw [record])
  have running : b.loadRunning id (s.record id).generation = true := by
    rw [State.loadRunning_iff, record, load]
    exact ⟨rfl, rfl⟩
  have ends : b.endLoadRead id (s.record id).generation l.slot k (.good data) =
      (b.lowerLoadReads id (s.record id).generation l.slot).arriveHead id k data := by
    simp only [State.endLoadRead, running, if_true]
  rw [State.handOver_load b owner destination, ends] at work
  generalize b.lowerLoadReads id (s.record id).generation l.slot = v at lowered work
  have after := lowered.record
  rw [record] at after
  have arrives := State.arriveHead_read (s := v) (id := id) (k := k) (l := l) (y := y) (by rw [after]; exact load)
    (by rw [after]; exact layout) (by rw [after]; show (s.record id).state ≠ _; rw [loading]; nofun) data
  have kept := arrives.kept
  have calm : (v.arriveHead id k data).resetting = false := by
    rw [kept, lowered.kept]
    exact idle.calm ready
  have still : nothingWaits (v.arriveHead id k data) d.val := by
    refine (idle.waits quiet).of_queue ?_ ?_
    · have fewer := arrives.queue
      rw [lowered.kept] at fewer
      rw [lowered.kept]
      exact fewer
    · rw [kept, lowered.kept]
      rfl
  obtain ⟨t, ht, ended⟩ := exec_quietEnd work calm still
  refine ⟨v, _, t, ht, ended, ?_, after, arrives⟩
  have low := lowered.kept
  rw [idle.kept] at low
  rw [low]

theorem loadReadGood (s : State) (d : Fin 16) (o : Operation) (f : FetchEntry) (id k : Nat) (l : Load) (y : Layout)
    (data : List Byte) (ready : s.registers.engine = .ready) (operation : (s.die d.val).operation = some o)
    (read : o.work = .read f) (unmarked : o.discard = false) (state : (s.die d.val).state = .transferring)
    (quiet : nothingWaits s d.val) (owner : f.owner = .load id (s.record id).generation)
    (destination : f.destination = .headBlock l.slot k) (loading : (s.record id).state = .loading)
    (load : (s.record id).load = some l) (layout : (s.record id).layout = some y) (_ : s.completions = []) :
    ∃ t, exec (.dieTransferEnd d data (leBytes 4 (crc32 data).toNat)) s = .next t ∧
      (∀ j, j < data.length → Memory.read t.dram (s.slotBase l.slot + k * 4096 + j) = data.getD j 0#8) ∧
      (∀ a, a < s.slotBase l.slot + k * 4096 ∨ s.slotBase l.slot + k * 4096 + data.length ≤ a →
        Memory.read t.dram a = Memory.read s.dram a) ∧
      (t.record id).loadReads = (s.record id).loadReads - 1 ∧
      (l.arrived.length + 1 ≠ y.headBlocks →
        (t.record id).state = .loading ∧ (t.record id).load = some { l with arrived := k :: l.arrived }) ∧
      (l.arrived.length + 1 = y.headBlocks →
        (∀ g, y.signature = some g → t.signatureCrc l.slot y g = g.expected) →
        (t.record id).state = .resident ∧ (t.record id).load = none ∧
          t.recency = id :: s.recency.filter (· != id) ∧
          wroteAt s t l.token.address (doneBytes .ok (BitVec.ofNat 32 l.slot) (evictedWord l.evicted))) := by
  obtain ⟨v, u, t, ht, ended, base, after, head⟩ := exec_headRead s d o f id k l y data ready operation read unmarked state quiet
    owner destination loading load layout
  have kept := head.kept
  have dram : t.dram = Memory.write s.dram (s.slotBase l.slot + k * 4096) data := by
    rw [ended.posted.dram, kept, base]
    rfl
  have record := ended.posted.record id
  have crc (g : Signature) : t.signatureCrc l.slot y g = u.signatureCrc l.slot y g :=
    State.signatureCrc_congr ended.posted.dram ended.posted.partition l.slot y g
  refine ⟨t, ht, fun j hj => ?_, fun a ha => ?_, ?_, fun more => ?_, fun last matching => ?_⟩
  · rw [dram]
    exact Memory.read_write_in _ _ _ _ hj
  · rw [dram]
    exact Memory.read_write_out _ _ _ _ ha
  · rw [record, head.reads, after]
    rfl
  · obtain ⟨stays, counts⟩ := head.more more
    rw [record]
    exact ⟨stays.trans (by rw [after]; exact loading), counts⟩
  · obtain ⟨resident, none, recency, done⟩ := head.good last fun g signature => (crc g).symm.trans (matching g signature)
    have out : u.out = s.out := by rw [kept, base]
    have written := ended.wrote _ done
    unfold wroteAt at written ⊢
    rw [out] at written
    rw [record, ended.posted.recency]
    refine ⟨resident, none, recency.trans ?_, written⟩
    rw [base]

theorem loadReadMismatch (s : State) (d : Fin 16) (o : Operation) (f : FetchEntry) (id k : Nat) (l : Load) (y : Layout)
    (g : Signature) (data : List Byte) (ready : s.registers.engine = .ready) (operation : (s.die d.val).operation = some o)
    (read : o.work = .read f) (unmarked : o.discard = false) (state : (s.die d.val).state = .transferring)
    (quiet : nothingWaits s d.val) (owner : f.owner = .load id (s.record id).generation)
    (destination : f.destination = .headBlock l.slot k) (loading : (s.record id).state = .loading)
    (load : (s.record id).load = some l) (layout : (s.record id).layout = some y) (signature : y.signature = some g)
    (last : l.arrived.length + 1 = y.headBlocks) (alone : s.slotsPlaying id (s.record id).generation = [])
    (_ : s.completions = []) :
    ∃ t, exec (.dieTransferEnd d data (leBytes 4 (crc32 data).toNat)) s = .next t ∧
      (t.signatureCrc l.slot y g ≠ g.expected →
        (t.record id).state = .stale ∧ (t.record id).staleReason = .mismatch ∧ (t.record id).headSlot = none ∧
          (t.record id).load = none ∧
          wroteAt s t l.token.address (doneBytes .signatureMismatch (t.signatureCrc l.slot y g) g.expected)) := by
  obtain ⟨v, u, t, ht, ended, base, after, head⟩ := exec_headRead s d o f id k l y data ready operation read unmarked state quiet
    owner destination loading load layout
  refine ⟨t, ht, fun differs => ?_⟩
  have crc : t.signatureCrc l.slot y g = u.signatureCrc l.slot y g :=
    State.signatureCrc_congr ended.posted.dram ended.posted.partition l.slot y g
  rw [crc] at differs ⊢
  obtain ⟨done, stale⟩ := head.mismatch last g signature differs
  have nobody : v.slotsPlaying id (v.record id).generation = [] := by
    rw [after, base]
    exact alone
  have out : u.out = s.out := by rw [head.kept, base]
  have written := ended.wrote _ done
  unfold wroteAt at written ⊢
  rw [out] at written
  obtain ⟨state, reason, slot, none⟩ := stale nobody
  rw [ended.posted.record]
  exact ⟨state, reason, slot, none, written⟩

/-! ### A load's read that ends UNRECOVERED -/

theorem loadReadUnrecovered (s : State) (d : Fin 16) (o : Operation) (f : FetchEntry) (id k : Nat) (l : Load) (c : Instr)
    (counters : Counters) (canonical : s.Canonical) (ready : s.registers.engine = .ready)
    (operation : (s.die d.val).operation = some o) (read : o.work = .read f) (unmarked : o.discard = false)
    (ends : endsUnrecovered s d c counters) (quiet : nothingWaits s d.val)
    (owner : f.owner = .load id (s.record id).generation) (destination : f.destination = .headBlock l.slot k)
    (loading : (s.record id).state = .loading) (load : (s.record id).load = some l)
    (others : ∀ r ∈ s.reclaiming, r.slot ≠ l.slot) (_ : s.completions = []) :
    ∃ t, exec c s = .next t ∧ t.latched .blockFault = true ∧ t.registers.counters = counters ∧
      t.die d.val = (s.die d.val).ended .ready ∧ SameDram s t ∧
      (t.record id).state = .stale ∧ (t.record id).staleReason = .blockError ∧ (t.record id).headSlot = none ∧
      (t.record id).load = none ∧ (t.record id).loadReads = (s.record id).loadReads - 1 ∧
      (∀ j, j ≠ id → t.record j = s.record j) ∧ (∀ e ∈ t.queue, e.owner ≠ .load id (s.record id).generation) ∧
      (∀ m, (s.voice m).plays id (s.record id).generation = true → t.voice m = (s.voice m).endedWith .stale) ∧
      (∀ m, (s.voice m).plays id (s.record id).generation = false → t.voice m = s.voice m) ∧
      t.reclaiming = s.reclaiming ++
        (if 1 < (s.record id).loadReads then
          [{ slot := l.slot, outstanding := (s.record id).loadReads - 1, id := id
             generation := (s.record id).generation }]
        else []) ∧
      wroteAt s t l.token.address
        (doneBytes .blockError (BitVec.ofNat 32 k) (BitVec.ofNat 32 l.arrived.length)) := by
  obtain ⟨b, idle, counted, fault, work⟩ := unrecovered_work operation read unmarked ends
  have record := idle.record id
  have held : (b.record id).state ≠ .vacant := by
    rw [record, loading]
    nofun
  have lowered := State.lowerLoadReads_held (s := b) (id := id) l.slot held (by rw [record])
  have running : b.loadRunning id (s.record id).generation = true := by
    rw [State.loadRunning_iff, record, load]
    exact ⟨rfl, rfl⟩
  have fails : b.endLoadRead id (s.record id).generation l.slot k .unrecovered =
      (b.lowerLoadReads id (s.record id).generation l.slot).failLoad id (.blockError k) := by
    simp only [State.endLoadRead, running, if_true]
  rw [State.handOver_load b owner destination, fails] at work
  have wf : (b.lowerLoadReads id (s.record id).generation l.slot).Canonical :=
    (Inner.lowerLoadReads b id _ _).canonical (idle.canonical canonical)
  generalize b.lowerLoadReads id (s.record id).generation l.slot = v at lowered work wf
  have after := lowered.record
  rw [record] at after
  have vacant : (v.record id).state = .loading := by
    rw [after]
    exact loading
  have loads : (v.record id).load = some l := by
    rw [after]
    exact load
  have parted := State.failLoad_parted (.blockError k) wf loads (by rw [vacant]; nofun) (by rw [vacant]; nofun)
  have entries := State.failLoad_entries (.blockError k) loads
  have slots := State.mem_slotsPlaying wf.voices id (v.record id).generation
  generalize v.failLoad id (.blockError k) = u at parted entries work
  have kept := parted.kept
  have registers : u.registers = b.registers := by rw [kept, lowered.kept]
  have die : u.die d.val = b.die d.val := by
    rw [kept, lowered.kept]
    rfl
  have queue : u.queue.Sublist b.queue := by
    have fewer := parted.queue
    rw [lowered.kept] at fewer
    exact fewer
  have calm : u.resetting = false := by
    unfold State.resetting
    rw [registers]
    exact idle.calm ready
  obtain ⟨t, ht, ended⟩ := exec_quietEnd work calm ((idle.waits quiet).of_queue queue die)
  have voice (n : Nat) : v.voice n = s.voice n := by
    rw [lowered.kept]
    exact idle.voice n
  have plays (m : Nat) : m ∈ v.slotsPlaying id (v.record id).generation ↔
      (s.voice m).plays id (s.record id).generation = true := by
    rw [slots, voice, after]
    rfl
  have same := ended.posted.record
  refine ⟨t, ht, ended.latched _ ?_, ?_, ?_, fun a => ?_, ?_, ?_, ?_, ?_, ?_, fun j hj => ?_, fun e he => ?_, fun m hm => ?_,
    fun m hm => ?_, ?_, ?_⟩
  · unfold State.latched
    rw [registers]
    exact fault
  · rw [ended.posted.registers, registers]
    exact counted
  · rw [ended.posted.die, die]
    exact idle.die
  · rw [ended.posted.dram, kept, lowered.kept, idle.dram]
  · rw [same, parted.record]
  · rw [same, parted.record]
    rfl
  · rw [same, parted.record]
  · rw [same, parted.record]
  · rw [same, parted.record, after]
    rfl
  · rw [same, parted.records j hj, lowered.records j hj, idle.record]
  · rw [ended.posted.queue] at he
    have gone := entries e he
    rw [after] at gone
    exact gone
  · rw [ended.posted.voice, parted.voices m ((plays m).mpr hm), voice]
  · rw [ended.posted.voice, parted.others m fun member => ?_, voice]
    rw [(plays m).mp member] at hm
    cases hm
  · have same : v.reclaiming = s.reclaiming := by
      rw [lowered.kept]
      show lowerReclaim _ _ _ b.reclaiming = _
      rw [idle.kept]
      exact lowerReclaim_others id _ others
    rw [ended.posted.reclaiming, parted.reclaiming, same, after]
    refine congrArg (s.reclaiming ++ ·) ?_
    show (if 0 < (s.record id).loadReads - 1 then _ else _) = _
    simp only [Nat.sub_pos_iff_lt]
    rfl
  · have out : u.out = s.out := by rw [kept, lowered.kept, idle.kept]
    have written := ended.wrote ((LoadFailure.blockError k).completion l) (by rw [parted.completions]; exact List.mem_cons_self)
    unfold wroteAt at written ⊢
    rw [out] at written
    exact written

/-! ### A read of a load that is no more -/

/-- What the judging of a record for VACANT can do to it (R17). -/
structure State.RetireJudged (s t : State) (id : Nat) : Prop where
  kept : t = { s with catalog := t.catalog, recency := t.recency, completions := t.completions }
  records : ∀ j, j ≠ id → t.record j = s.record j
  stays : (s.record id).state ≠ .retiring ∨ 0 < (s.record id).refs ∨ 0 < (s.record id).loadReads → t.record id = s.record id
  retired : (s.record id).state = .retiring → (s.record id).refs = 0 → (s.record id).loadReads = 0 →
    ∀ token, (s.record id).retire = some token → (t.record id).state = .vacant ∧
      (t.record id).generation = (s.record id).generation ∧ ∃ word0 word1, ⟨token, .ok, word0, word1⟩ ∈ t.completions

theorem State.settleRetiring_judged (s : State) (id : Nat) : s.RetireJudged (s.settleRetiring id) id := by
  simp only [State.settleRetiring]
  by_cases left : (s.record id).state = .retiring ∧ (s.record id).refs = 0 ∧ (s.record id).loadReads = 0
  · rw [if_pos left]
    obtain ⟨state, refs, reads⟩ := left
    have not : ¬ ((s.record id).state ≠ .retiring ∨ 0 < (s.record id).refs ∨ 0 < (s.record id).loadReads) := by
      rw [state, refs, reads]
      simp
    cases retire : (s.record id).retire with
    | none =>
      exact ⟨rfl, fun j hj => State.toVacant_other s hj, fun stays => absurd stays not, fun _ _ _ token some =>
        absurd (retire.symm.trans some) nofun⟩
    | some k =>
      have vacant := State.toVacant_same (s.completeUnstated k .ok) id
      refine ⟨rfl, fun j hj => State.toVacant_other (s.completeUnstated k .ok) hj, fun stays => absurd stays not,
        fun _ _ _ token some => ⟨by rw [vacant]; rfl, by rw [vacant]; rfl, ?_⟩⟩
      obtain rfl := Option.some.inj (retire.symm.trans some)
      exact ⟨_, _, List.mem_cons_self⟩
  · rw [if_neg left]
    exact ⟨rfl, fun _ _ => rfl, fun _ => rfl, fun state refs reads => absurd ⟨state, refs, reads⟩ left⟩

theorem loadReadGone (s : State) (d : Fin 16) (o : Operation) (f : FetchEntry) (id slot k : Nat) (g : Generation)
    (before after : List Reclaim) (r : Reclaim) (data : List Byte) (ready : s.registers.engine = .ready)
    (operation : (s.die d.val).operation = some o) (read : o.work = .read f) (unmarked : o.discard = false)
    (state : (s.die d.val).state = .transferring) (quiet : nothingWaits s d.val) (owner : f.owner = .load id g)
    (destination : f.destination = .headBlock slot k) (gone : (s.record id).load = none ∨ (s.record id).generation ≠ g)
    (reclaiming : s.reclaiming = before ++ r :: after) (named : r.slot = slot) (ofRecord : r.id = id) (ofLoad : r.generation = g)
    (others : ∀ q ∈ before ++ after, q.slot ≠ slot) (_ : s.completions = []) :
    ∃ t, exec (.dieTransferEnd d data (leBytes 4 (crc32 data).toNat)) s = .next t ∧ SameDram s t ∧ SameVoices s t ∧ SameQueue s t ∧
      t.reclaiming = before ++ (if r.outstanding ≤ 1 then [] else [{ r with outstanding := r.outstanding - 1 }]) ++ after ∧
      (∀ j, j ≠ id → t.record j = s.record j) ∧
      ((s.record id).state = .vacant ∨ (s.record id).generation ≠ g → (s.record id).state ≠ .retiring →
        t.record id = s.record id) ∧
      ((s.record id).state ≠ .vacant → (s.record id).generation = g →
        (s.record id).state ≠ .retiring ∨ 0 < (s.record id).refs ∨ 1 < (s.record id).loadReads →
        t.record id = { s.record id with loadReads := (s.record id).loadReads - 1 }) ∧
      (∀ token, (s.record id).state = .retiring → (s.record id).generation = g → (s.record id).refs = 0 →
        (s.record id).loadReads ≤ 1 → (s.record id).retire = some token →
        (t.record id).state = .vacant ∧ (t.record id).generation = g ∧
          ∃ word0 word1, wroteAt s t token.address (doneBytes .ok word0 word1)) := by
  obtain ⟨b, idle, -, work⟩ := good_work operation read unmarked state data
  have record := idle.record id
  have gives : b.loadRunning id g = false := by
    refine Bool.eq_false_iff.mpr fun running => ?_
    obtain ⟨same, runs⟩ := State.loadRunning_iff.mp running
    rw [record] at same runs
    obtain none | other := gone
    · rw [none] at runs
      cases runs
    · exact other same
  have ends : b.endLoadRead id g slot k (.good data) = (b.lowerLoadReads id g slot).settleRetiring id := by
    simp only [State.endLoadRead, gives]
    rfl
  rw [State.handOver_load b owner destination, ends] at work
  have lowered : ∃ x, b.Lowered (b.lowerLoadReads id g slot) id slot g x ∧
      (x = s.record id ∧ ((s.record id).state = .vacant ∨ (s.record id).generation ≠ g) ∨
        x = (s.record id).readEnded ∧ (s.record id).state ≠ .vacant ∧ (s.record id).generation = g) := by
    by_cases held : (s.record id).state ≠ .vacant ∧ (s.record id).generation = g
    · refine ⟨_, State.lowerLoadReads_held slot (by rw [record]; exact held.1) (by rw [record]; exact held.2), Or.inr ⟨?_, held⟩⟩
      rw [record]
    · have lost : (s.record id).state = .vacant ∨ (s.record id).generation ≠ g := by
        by_cases vacant : (s.record id).state = .vacant
        · exact .inl vacant
        · exact .inr fun same => held ⟨vacant, same⟩
      refine ⟨_, ?_, Or.inl ⟨rfl, lost⟩⟩
      rw [State.lowerLoadReads_gone slot (by rw [record]; exact lost)]
      exact ⟨rfl, record, fun _ _ => rfl⟩
  obtain ⟨x, lowered, which⟩ := lowered
  have judged := State.settleRetiring_judged (b.lowerLoadReads id g slot) id
  generalize b.lowerLoadReads id g slot = v at lowered judged work
  generalize v.settleRetiring id = u at judged work
  have kept := judged.kept
  rw [lowered.kept] at kept
  have calm : u.resetting = false := by
    rw [kept]
    exact idle.calm ready
  obtain ⟨t, ht, ended⟩ := exec_quietEnd work calm (by rw [kept]; exact idle.waits quiet)
  have base := idle.kept
  have same := ended.posted.record
  have here := lowered.record
  have stays := judged.stays
  have retired := judged.retired
  rw [here] at stays retired
  refine ⟨t, ht, fun a => ?_, ⟨fun n => ?_, fun w => ?_, ?_⟩, ⟨?_, ?_⟩, ?_, fun j hj => ?_, fun lost notRetiring => ?_,
    fun held named more => ?_, fun token retiring named unreferenced last retire => ?_⟩
  · rw [ended.posted.dram, kept, base]
  · rw [ended.posted.voice, kept, base]
    rfl
  · rw [ended.posted.window, kept, base]
    rfl
  · rw [ended.posted.startCount, kept, base]
  · rw [ended.posted.queue, kept, base]
  · rw [ended.posted.enqueueCount, kept, base]
  · rw [ended.posted.reclaiming, kept]
    show lowerReclaim slot id g b.reclaiming = _
    have one : lowerReclaim slot id g [r] =
        if r.outstanding ≤ 1 then [] else [{ r with outstanding := r.outstanding - 1 }] := by
      rw [← named, ← ofRecord, ← ofLoad]
      exact lowerReclaim_one r
    rw [base, reclaiming, List.append_cons, lowerReclaim_append, lowerReclaim_append, one,
      lowerReclaim_others id g fun q hq => others q (List.mem_append_left _ hq),
      lowerReclaim_others id g fun q hq => others q (List.mem_append_right _ hq)]
  · rw [same, judged.records j hj, lowered.records j hj, idle.record]
  · obtain ⟨rfl, -⟩ | ⟨-, held, ours⟩ := which
    · rw [same, stays (.inl notRetiring)]
    · obtain vacant | other := lost
      · exact absurd vacant held
      · exact absurd ours other
  · obtain ⟨-, lost⟩ | ⟨rfl, -, -⟩ := which
    · obtain vacant | other := lost
      · exact absurd vacant held
      · exact absurd named other
    · rw [same, stays]
      · rfl
      · obtain other | refs | reads := more
        · exact .inl other
        · exact .inr (.inl refs)
        · exact .inr (.inr (Nat.sub_pos_of_lt reads))
  · obtain ⟨-, lost⟩ | ⟨rfl, -, -⟩ := which
    · obtain vacant | other := lost
      · rw [vacant] at retiring
        cases retiring
      · exact absurd named other
    · obtain ⟨vacant, generation, word0, word1, done⟩ := retired retiring unreferenced (Nat.sub_eq_zero_of_le last) token retire
      have out : u.out = s.out := by rw [kept, base]
      have written := ended.wrote _ done
      unfold wroteAt at written ⊢
      rw [out] at written
      rw [same]
      exact ⟨vacant, generation.trans named, word0, word1, written⟩

/-- Settles O57: the block that arrives, the signature that differs, the read that is lost, the load that is no more. -/
theorem loadReadsEnd : Obligations.LoadReadsEnd :=
  ⟨loadReadGood, loadReadMismatch, loadReadUnrecovered, loadReadGone⟩

end Sys2Proof.Machine
end

section
/-! PROOFS. The deliveries of the Delivery Engine (R147 to R159): the arbiter's choice, the advance after a delivery, an END
delivery and the notices. -/

namespace Sys2Proof.Machine

/-- Any event's end: the writes and the message added to its work. -/
theorem exec_ended (c : Instr) (s : State) : ∃ t, exec c s = .next t ∧ (work c s).Ended t :=
  ⟨_, exec_work c s, State.Ended.event s _⟩

/-! ### The advance after a delivery -/

/-- What the engine shows after it has left the descriptor it used (R153, R187). -/
structure State.Advances (s t : State) (next : HostAddr) : Prop where
  holding : t.delivery.holding = false
  begins : next ≠ 0#64 → bufferAligned next = true → t.delivery.state = .active ∧ t.delivery.address = next ∧
    t.delivery.read = .descriptor ∧ .hostRead next 24 ∈ t.out
  misaligned : next ≠ 0#64 → bufferAligned next = false → t.delivery.state = .parked ∧
    t.delivery.parkReason = some .linkError ∧ t.delivery.usedMark = false ∧ t.delivery.address = next ∧
    t.delivery.resumePending = false ∧ t.latched .portError = true ∧ t.latched .bufferParked = true
  ends : next = 0#64 → s.delivery.resumePending = false → t.delivery.state = .parked ∧
    t.delivery.parkReason = some .endOfList ∧ t.delivery.address = s.delivery.address ∧ t.latched .bufferParked = true
  again : next = 0#64 → s.delivery.resumePending = true → s.delivery.state = .active → t.delivery.state = .active ∧
    t.delivery.read = .next ∧ t.delivery.resumePending = false ∧ t.delivery.address = s.delivery.address ∧
    .hostRead s.delivery.address 8 ∈ t.out

theorem State.advanceBuffer_advances {s : State} (ready : s.resetting = false) (next : HostAddr) :
    s.Advances (s.advanceBuffer next) next := by
  let u : State := { s with delivery := { s.delivery with holding := false, heldNext := none, heldBuffer := none } }
  by_cases zero : next = 0#64
  · have advances : s.advanceBuffer next = u.endOfBuffers := if_pos zero
    have last : .hostRead s.delivery.address 8 ∈ s.out ++ [.hostRead s.delivery.address 8] :=
      List.mem_append_right _ (List.mem_singleton_self _)
    rw [advances]
    cases pending : s.delivery.resumePending with
    | true =>
      have reads : u.endOfBuffers = ({ u with delivery := { u.delivery with resumePending := false } } : State).rereadBuffer :=
        if_pos pending
      rw [reads]
      exact ⟨rfl, fun nonzero => absurd zero nonzero, fun nonzero => absurd zero nonzero, fun _ none => (nomatch pending.symm.trans none),
        fun _ _ active => ⟨active, rfl, rfl, rfl, last⟩⟩
    | false =>
      have parks : u.endOfBuffers = u.parkBuffer .endOfList s.delivery.address false := if_neg (by simp [u, pending])
      obtain ⟨parked, why, -, place, flag, -⟩ := u.parkBuffer_parked .endOfList s.delivery.address false
      rw [parks]
      exact ⟨rfl, fun nonzero => absurd zero nonzero, fun nonzero => absurd zero nonzero, fun _ _ => ⟨parked, why, place, flag⟩,
        fun _ some => (nomatch pending.symm.trans some)⟩
  · have advances : s.advanceBuffer next = u.fetchBuffer next := if_neg zero
    rw [advances]
    cases aligned : bufferAligned next with
    | true =>
      rw [State.fetchBuffer_begins (s := u) ready aligned]
      exact ⟨rfl, fun _ _ => ⟨rfl, rfl, rfl, List.mem_append_right _ (List.mem_singleton_self _)⟩,
        fun _ odd => (nomatch aligned.symm.trans odd), fun none => absurd none zero, fun none => absurd none zero⟩
    | false =>
      have parks : u.fetchBuffer next = ({ u with delivery := u.delivery.leave } : State).parkBuffer .linkError next false := by
        have calm : u.resetting = false := ready
        simp [State.fetchBuffer, calm, aligned]
      obtain ⟨parked, why, mark, place, flag, link⟩ :=
        ({ u with delivery := u.delivery.leave } : State).parkBuffer_parked .linkError next false
      obtain ⟨pending, port⟩ := link rfl
      rw [parks]
      refine ⟨?_, fun _ even => (nomatch aligned.symm.trans even), fun _ _ => ⟨parked, why, mark, place, pending, port, flag⟩,
        fun none => absurd none zero, fun none => absurd none zero⟩
      rw [State.parkBuffer_linkError]
      rfl

/-- The end of the event keeps what the advance did. -/
theorem State.Advances.ended {s u t : State} {next : HostAddr} (h : s.Advances u next) (k : u.Ended t) : s.Advances t next := by
  have delivery := k.posted.delivery
  have out := k.posted.1
  refine ⟨by rw [delivery]; exact h.holding, fun a b => ?_, fun a b => ?_, fun a b => ?_, fun a b c => ?_⟩
  all_goals rw [delivery]
  · obtain ⟨state, address, read, spoken⟩ := h.begins a b
    exact ⟨state, address, read, out.subset spoken⟩
  · obtain ⟨state, reason, mark, address, pending, port, parked⟩ := h.misaligned a b
    exact ⟨state, reason, mark, address, pending, k.latched _ port, k.latched _ parked⟩
  · obtain ⟨state, reason, address, parked⟩ := h.ends a b
    exact ⟨state, reason, address, k.latched _ parked⟩
  · obtain ⟨state, read, pending, address, spoken⟩ := h.again a b c
    exact ⟨state, read, pending, address, out.subset spoken⟩

/-! ### The arbiter's choice -/

theorem State.canDeliver_iff {s : State} :
    s.canDeliver = true ↔ s.delivery.state = .active ∧ s.delivery.holding = true ∧ s.registers.engine = .ready := by
  have engine : (!s.resetting) = true ↔ s.registers.engine = .ready := by
    cases e : s.registers.engine <;> simp [State.resetting, e]
  unfold State.canDeliver
  rw [Bool.and_eq_true, Bool.and_eq_true, engine, and_assoc]
  simp

theorem State.endChoice_canDeliver {s : State} {n : Nat} (h : s.endChoice = some n) : s.canDeliver = true ∧ s.endSlots.head? = some n := by
  unfold State.endChoice at h
  split at h
  · exact ⟨‹_›, h⟩
  · cases h

theorem State.dataChoice_canDeliver {s : State} {n : Nat} (h : s.dataChoice = some n) : s.canDeliver = true ∧ s.endSlots = [] ∧
    leastBy (fun n => [s.deadline (s.voice n) (s.voice n).delivered, 15 - (s.voice n).priority, n]) s.dataSlots = some n := by
  unfold State.dataChoice at h
  split at h
  · rename_i can
    rw [Bool.and_eq_true, List.isEmpty_iff] at can
    exact ⟨can.1, can.2, h⟩
  · cases h

theorem Voice.endReady_iff (v : Voice) : v.endReady = true ↔ v.state = .ending ∧ v.endPosted = false := by
  simp [Voice.endReady]

theorem State.mem_endSlots {s : State} (c : s.Canonical) (n : Nat) :
    n ∈ s.endSlots ↔ (s.voice n).state = .ending ∧ (s.voice n).endPosted = false := by
  rw [← Voice.endReady_iff]
  exact State.mem_slotsWhere c.voices (p := Voice.endReady) rfl n

theorem State.endSlots_sorted {s : State} (c : s.Canonical) : s.endSlots.Pairwise (· < ·) :=
  List.pairwise_map.mpr (((Table.wf_iff _ _).mp c.voices).1.filter _)

/-- The END chosen is that of the lowest slot (R150). -/
theorem State.endSlots_head {s : State} (c : s.Canonical) (slot : Nat) : s.endSlots.head? = some slot ↔
    (s.voice slot).state = .ending ∧ (s.voice slot).endPosted = false ∧
      ∀ n, n < slot → (s.voice n).state = .ending → (s.voice n).endPosted = true := by
  have sorted := State.endSlots_sorted c
  have members := State.mem_endSlots c
  generalize s.endSlots = l at sorted members
  cases l with
  | nil =>
    refine ⟨nofun, fun ⟨ending, unposted, _⟩ => ?_⟩
    exact absurd ((members slot).mpr ⟨ending, unposted⟩) List.not_mem_nil
  | cons x l =>
    obtain ⟨first, -⟩ := List.pairwise_cons.mp sorted
    obtain ⟨ending, unposted⟩ := (members x).mp List.mem_cons_self
    constructor
    · rintro h
      obtain rfl := Option.some.inj h
      refine ⟨ending, unposted, fun n below other => ?_⟩
      cases posted : (s.voice n).endPosted with
      | true => rfl
      | false =>
        obtain rfl | later := List.mem_cons.mp ((members n).mpr ⟨other, posted⟩)
        · exact absurd below (Nat.lt_irrefl _)
        · exact absurd (first n later) (Nat.lt_asymm below)
    · rintro ⟨ends, free, lowest⟩
      obtain rfl | later := List.mem_cons.mp ((members slot).mpr ⟨ends, free⟩)
      · rfl
      · have posted := lowest x (first slot later) ending
        rw [unposted] at posted
        cases posted

/-! ### The count of a delivery -/

/-- What the count of a delivery does (R151, R158): Delivery Count, the notice counter and its stamp, and DELIVERY at the coalescing
count. -/
structure State.DeliveryCounted (s t : State) : Prop where
  count : t.delivery.count = s.delivery.count + 1#32
  full : s.tunables.coalescingCount ≤ s.delivery.noticeCount + 1 →
    t.latched .delivery = true ∧ t.delivery.noticeCount = 0 ∧ t.delivery.noticeStamp = none
  below : s.delivery.noticeCount + 1 < s.tunables.coalescingCount → t.latched .delivery = s.latched .delivery ∧
    t.delivery.noticeCount = s.delivery.noticeCount + 1 ∧
    t.delivery.noticeStamp = if s.delivery.noticeCount = 0 then some s.pace.index else s.delivery.noticeStamp

theorem State.countDelivery_counted (s : State) : s.DeliveryCounted s.countDelivery := by
  unfold State.countDelivery
  dsimp only
  split
  · rename_i full
    exact ⟨rfl, fun _ => ⟨State.latched_same _ _, rfl, rfl⟩, fun below => absurd below (Nat.not_lt.mpr full)⟩
  · rename_i below
    exact ⟨rfl, fun full => absurd full below, fun _ => ⟨rfl, rfl, rfl⟩⟩

/-- A count of a delivery moves the engine's counts and DELIVERY alone. -/
theorem State.countDelivery_kept (s : State) : s.countDelivery = { s with
    registers := { s.registers with status := s.countDelivery.registers.status }
    delivery := { s.delivery with
      count := s.countDelivery.delivery.count, noticeCount := s.countDelivery.delivery.noticeCount
      noticeStamp := s.countDelivery.delivery.noticeStamp } } := by
  unfold State.countDelivery
  dsimp only
  split <;> rfl

theorem State.countDelivery_flag (s : State) {f : Flag} (h : f ≠ .delivery) : s.countDelivery.latched f = s.latched f := by
  unfold State.countDelivery
  dsimp only
  split
  · exact State.latched_other _ h
  · rfl

/-- What changes nothing of the counts and of DELIVERY after them. -/
theorem State.DeliveryCounted.of_same {s t u : State} (h : s.DeliveryCounted t)
    (counts : u.delivery.count = t.delivery.count ∧ u.delivery.noticeCount = t.delivery.noticeCount ∧
      u.delivery.noticeStamp = t.delivery.noticeStamp) (flag : u.latched .delivery = t.latched .delivery) :
    s.DeliveryCounted u := by
  obtain ⟨count, notices, stamp⟩ := counts
  refine ⟨count.trans h.count, fun full => ?_, fun below => ?_⟩
  · obtain ⟨latched, none, unstamped⟩ := h.full full
    exact ⟨flag.trans latched, notices.trans none, stamp.trans unstamped⟩
  · obtain ⟨latched, some, stamped⟩ := h.below below
    exact ⟨flag.trans latched, notices.trans some, stamp.trans stamped⟩

theorem State.DeliveryCounted.before {s t u : State} (h : t.DeliveryCounted u) (delivery : t.delivery = s.delivery)
    (tunables : t.tunables = s.tunables) (pace : t.pace = s.pace) (registers : t.registers = s.registers) :
    s.DeliveryCounted u := by
  obtain ⟨count, full, below⟩ := h
  have latched : t.latched .delivery = s.latched .delivery := by
    unfold State.latched
    rw [registers]
  rw [delivery, tunables] at full
  rw [delivery, tunables, pace, latched] at below
  rw [delivery] at count
  exact ⟨count, full, below⟩

/-- The advance and the end of the event leave the counts and the flags of the notices. -/
theorem State.Ended.notices {u t : State} {next : HostAddr} (k : (u.advanceBuffer next).Ended t) :
    (t.delivery.count = u.delivery.count ∧ t.delivery.noticeCount = u.delivery.noticeCount ∧
      t.delivery.noticeStamp = u.delivery.noticeStamp) ∧
    ∀ f : Flag, f ≠ .portError → f ≠ .bufferParked → f ≠ .requestDone → t.latched f = u.latched f := by
  have listed := Listed.advanceBuffer u next
  rw [k.posted.delivery]
  exact ⟨listed.counts, fun f port parked done => (k.flags f done).trans (listed.flags f port parked)⟩

/-! ### An END delivery -/

/-- The status of an END delivery written and its voice marked, before the count (R152). -/
def State.endPosted (s : State) (slot : Nat) : State :=
  (s.writeDelivery (endStatus slot (s.voice slot))).setVoice slot { s.voice slot with endPosted := true }

theorem work_endDelivery {s : State} {slot : Nat} {next : HostAddr} (chosen : s.endChoice = some slot)
    (held : s.delivery.heldNext = some next) :
    work .endDelivery s = ((s.endPosted slot).countDelivery.settleFree slot).advanceBuffer next := by
  show s.deliverEnd = _
  simp only [State.deliverEnd, chosen, held]
  rfl

/-- A voice that becomes FREE changes nothing but its slot and its window (R73). -/
theorem State.settleFree_kept (s : State) (slot : Nat) :
    s.settleFree slot = { s with voices := (s.settleFree slot).voices, windows := (s.settleFree slot).windows } := by
  simp only [State.settleFree]
  split <;> rfl

/-- What an END delivery leaves before the advance. -/
structure State.EndMade (s t : State) (slot : Nat) : Prop where
  kept : t = { s with
    registers := { s.registers with status := t.registers.status }, out := t.out, voices := t.voices, windows := t.windows
    delivery := { s.delivery with
      count := t.delivery.count, noticeCount := t.delivery.noticeCount, noticeStamp := t.delivery.noticeStamp } }
  out : t.out = s.out ++ [.hostWrite (s.delivery.address + 0x10#64) (deliveryStatusBytes (endStatus slot (s.voice slot)))]
  counted : s.DeliveryCounted t
  flag : ∀ f : Flag, f ≠ .delivery → t.latched f = s.latched f
  last : (s.voice slot).state = .ending → (s.voice slot).reads = 0 →
    t.voice slot = { s.voice slot with state := .free, endPosted := true } ∧
      ∀ i, (t.window (s.voice slot).window).place i = .empty
  more : 0 < (s.voice slot).reads → t.voice slot = { s.voice slot with endPosted := true }
  others : ∀ n, n ≠ slot → t.voice n = s.voice n

theorem State.endDelivery_made (s : State) (slot : Nat) : s.EndMade ((s.endPosted slot).countDelivery.settleFree slot) slot := by
  have counts := (s.endPosted slot).countDelivery_kept
  have counted := (s.endPosted slot).countDelivery_counted.before (s := s) rfl rfl rfl rfl
  have flag (f : Flag) (h : f ≠ .delivery) : (s.endPosted slot).countDelivery.latched f = s.latched f :=
    (s.endPosted slot).countDelivery_flag h
  generalize (s.endPosted slot).countDelivery = u at counts counted flag
  have voices (n : Nat) : u.voice n = (s.endPosted slot).voice n := by
    rw [counts]
    rfl
  have here : u.voice slot = { s.voice slot with endPosted := true } :=
    (voices slot).trans (State.voice_setVoice_same (s.writeDelivery (endStatus slot (s.voice slot))) slot _)
  have others (n : Nat) (hn : n ≠ slot) : u.voice n = s.voice n :=
    (voices n).trans (State.voice_setVoice_other (s.writeDelivery (endStatus slot (s.voice slot))) _ hn)
  have free := u.settleFree_kept slot
  have frees (ending : (s.voice slot).state = .ending) (none : (s.voice slot).reads = 0) : u.settleFree slot =
      (u.setWindow (s.voice slot).window Window.blank).setVoice slot { s.voice slot with state := .free, endPosted := true } := by
    unfold State.settleFree
    rw [here]
    exact if_pos ⟨ending, rfl, none⟩
  have stays (some : 0 < (s.voice slot).reads) : u.settleFree slot = u := by
    unfold State.settleFree
    rw [here]
    exact if_neg fun h => absurd h.2.2 (Nat.pos_iff_ne_zero.mp some)
  have other (n : Nat) (hn : n ≠ slot) : (u.settleFree slot).voice n = u.voice n := by
    unfold State.settleFree
    dsimp only
    split
    · exact State.voice_setVoice_other (u.setWindow (u.voice slot).window Window.blank) _ hn
    · rfl
  refine ⟨?_, ?_, counted.of_same ?_ ?_, fun f h => ?_, fun ending none => ?_, fun some => ?_,
    fun n hn => (other n hn).trans (others n hn)⟩
  · rw [free, counts]
    rfl
  · rw [free, counts]
    rfl
  · rw [free]
    exact ⟨rfl, rfl, rfl⟩
  · rw [free]
    rfl
  · rw [← flag f h, free]
    rfl
  · rw [frees ending none]
    refine ⟨State.voice_setVoice_same (u.setWindow (s.voice slot).window Window.blank) slot _, fun i => ?_⟩
    have blank := State.window_setWindow_same u (s.voice slot).window Window.blank
    exact congrArg (fun x : Window => x.place i) blank
  · rw [stays some]
    exact here

theorem endDeliveryMade_chosen (s : State) (slot : Nat) (next : HostAddr) (c : s.Canonical) (active : s.delivery.state = .active)
    (holding : s.delivery.holding = true) (ready : s.registers.engine = .ready) (held : s.delivery.heldNext = some next)
    (nonzero : next ≠ 0#64) (aligned : bufferAligned next = true) (ending : (s.voice slot).state = .ending)
    (unposted : (s.voice slot).endPosted = false)
    (lowest : ∀ n, n < slot → (s.voice n).state = .ending → (s.voice n).endPosted = true) (_ : s.completions = []) :
    let v := s.voice slot
    s.dataChoice = none ∧
    ∃ t after, exec .endDelivery s = .next t ∧
      t.out = s.out ++ [.hostWrite (s.delivery.address + 0x10#64) (deliveryStatusBytes
        { kind := 2, flags := 0, endReason := endReasonCode v.endReason, slot := slot, generation := v.generation
          cookie := v.cookie, sampleId := v.sampleId, sampleGeneration := v.sampleGeneration, stream := v.delivered
          source := v.delivery.source, frames := 0, byteOffset := 0 })] ++ after ∧
      (v.reads = 0 → t.voice slot = { v with state := .free, endPosted := true } ∧
        ∀ i, (t.window v.window).place i = .empty) ∧
      (0 < v.reads → t.voice slot = { v with endPosted := true }) ∧
      (∀ n, n ≠ slot → t.voice n = s.voice n) ∧ t.delivery.count = s.delivery.count + 1#32 ∧
      t.delivery.state = .active ∧ t.delivery.address = next ∧ t.delivery.read = .descriptor ∧
      SameCatalog s t ∧ SameQueue s t ∧ SameDies s t ∧ SameDram s t := by
  intro v
  have can := State.canDeliver_iff.mpr ⟨active, holding, ready⟩
  have head := (State.endSlots_head c slot).mpr ⟨ending, unposted, lowest⟩
  have chosen : s.endChoice = some slot := (if_pos can).trans head
  refine ⟨?_, ?_⟩
  · have some : s.endSlots.isEmpty = false := by
      cases slots : s.endSlots with
      | nil =>
        rw [slots] at head
        cases head
      | cons x l => rfl
    exact if_neg (by simp [some])
  obtain ⟨t, ht, ended⟩ := exec_ended .endDelivery s
  rw [work_endDelivery chosen held] at ended
  have made := s.endDelivery_made slot
  generalize (s.endPosted slot).countDelivery.settleFree slot = u at ended made
  have kept := made.kept
  have calm : u.resetting = false := by
    rw [kept]
    exact State.not_resetting_of ready
  have advances := (State.advanceBuffer_advances calm next).ended ended
  have listed := Listed.advanceBuffer u next
  obtain ⟨⟨count, -⟩, -⟩ := ended.notices
  obtain ⟨after, out⟩ := listed.out.trans ended.posted.1
  have closed : t.voices = u.voices ∧ t.windows = u.windows := by
    rw [ended.posted.voices, ended.posted.windows, listed.kept]
    exact ⟨rfl, rfl⟩
  obtain ⟨voices, windows⟩ := closed
  have voice (n : Nat) : t.voice n = u.voice n := State.voice_congr voices n
  have window (w : Nat) : t.window w = u.window w := State.window_congr windows w
  obtain ⟨state, address, read, -⟩ := advances.begins nonzero aligned
  have streams : SameCatalog u t ∧ SameQueue u t ∧ SameDies u t ∧ SameDram u t := by
    obtain ⟨dram, catalog, -, queue, dies, -⟩ := ended.posted.streams
    rw [listed.kept] at dram catalog queue dies
    exact ⟨catalog, queue, dies, dram⟩
  refine ⟨t, after, ht, ?_, fun none => ?_, fun some => (voice slot).trans (made.more some),
    fun n hn => (voice n).trans (made.others n hn), count.trans made.counted.count, state, address, read, ?_⟩
  · rw [← out, made.out]
    rfl
  · obtain ⟨free, empty⟩ := made.last ending none
    exact ⟨(voice slot).trans free, fun i => by rw [window]; exact empty i⟩
  · rw [kept] at streams
    exact streams

/-! ### A DATA delivery -/

/-- The place at a voice's delivery point is taken, where the run at D is not head-sourced (R44). -/
def State.placeTaken (s : State) (slot : Nat) (l : Layout) : State :=
  if (s.voice slot).headDelivery l then s else s.takePlace (s.voice slot).window

/-- The writes of a DATA delivery made, its place taken and its voice moved on, before the count (R148, R151). -/
def State.dataPosted (s : State) (slot : Nat) (l : Layout) (buffer : HostAddr) : State :=
  let v := s.voice slot
  let s1 := s.emit (.hostWrite (buffer + BitVec.ofNat 64 (v.deliveryOffset l)) (s.deliveryBytes v l))
  let s2 := s1.writeDelivery (s.dataStatus slot v l)
  (if v.headDelivery l then s2 else s2.takePlace v.window).setVoice slot (v.deliver l)

/-- The priority notice of a first delivery (R159). -/
def State.noticePriority (s : State) (v : Voice) : State :=
  if v.delivered = 0 ∧ s.tunables.priorityThreshold ≤ v.priority then s.latch .priorityDelivery else s

theorem work_dataDelivery {s : State} {slot : Nat} {l : Layout} {next buffer : HostAddr} (chosen : s.dataChoice = some slot)
    (layout : s.layoutOf (s.voice slot) = some l) (held : s.delivery.heldNext = some next)
    (into : s.delivery.heldBuffer = some buffer) :
    work .dataDelivery s = ((((s.dataPosted slot l buffer).countDelivery.noticePriority (s.voice slot)).naturalEnd slot).settleVoice
      slot).advanceBuffer next := by
  show s.deliverData = _
  simp only [State.deliverData, chosen, layout, held, into]
  have tunables : (s.dataPosted slot l buffer).countDelivery.tunables = s.tunables := by
    rw [State.countDelivery_kept]
    unfold State.dataPosted
    dsimp only
    split <;> rfl
  unfold State.noticePriority
  rw [tunables]
  rfl

/-- What a DATA delivery leaves before its voice is judged. -/
structure State.DataMade (s t : State) (slot : Nat) (l : Layout) (buffer : HostAddr) : Prop where
  kept : t = { s with
    registers := { s.registers with status := t.registers.status }, out := t.out, voices := t.voices, windows := t.windows
    delivery := { s.delivery with
      count := t.delivery.count, noticeCount := t.delivery.noticeCount, noticeStamp := t.delivery.noticeStamp } }
  out : t.out = s.out ++ [.hostWrite (buffer + BitVec.ofNat 64 ((s.voice slot).deliveryOffset l)) (s.deliveryBytes (s.voice slot) l),
    .hostWrite (s.delivery.address + 0x10#64) (deliveryStatusBytes (s.dataStatus slot (s.voice slot) l))]
  counted : s.DeliveryCounted t
  notice : (s.voice slot).delivered = 0 → s.tunables.priorityThreshold ≤ (s.voice slot).priority → t.latched .priorityDelivery = true
  noNotice : (s.voice slot).delivered ≠ 0 ∨ (s.voice slot).priority < s.tunables.priorityThreshold →
    t.latched .priorityDelivery = s.latched .priorityDelivery
  flag : ∀ f : Flag, f ≠ .delivery → f ≠ .priorityDelivery → t.latched f = s.latched f
  voice : t.voice slot = (s.voice slot).deliver l
  others : ∀ n, n ≠ slot → t.voice n = s.voice n
  windows : t.windows = (s.placeTaken slot l).windows
  canonical : s.Canonical → t.Canonical

theorem State.dataPosted_kept (s : State) (slot : Nat) (l : Layout) (buffer : HostAddr) :
    s.dataPosted slot l buffer = { s with
      out := s.out ++ [.hostWrite (buffer + BitVec.ofNat 64 ((s.voice slot).deliveryOffset l)) (s.deliveryBytes (s.voice slot) l),
        .hostWrite (s.delivery.address + 0x10#64) (deliveryStatusBytes (s.dataStatus slot (s.voice slot) l))]
      windows := (s.placeTaken slot l).windows
      voices := Table.set Voice.blank s.voices slot ((s.voice slot).deliver l) } := by
  have twice (a b : Output) : s.out ++ [a] ++ [b] = s.out ++ [a, b] := List.append_assoc _ _ _
  unfold State.dataPosted State.placeTaken
  dsimp only
  rw [← twice]
  split <;> rfl

theorem State.noticePriority_kept (s : State) (v : Voice) :
    s.noticePriority v = { s with registers := { s.registers with status := (s.noticePriority v).registers.status } } := by
  unfold State.noticePriority
  split <;> rfl

theorem State.noticePriority_flag (s : State) (v : Voice) {f : Flag} (h : f ≠ .priorityDelivery) :
    (s.noticePriority v).latched f = s.latched f := by
  unfold State.noticePriority
  split
  · exact State.latched_other _ h
  · rfl

theorem Orderly.dataPosted (s : State) (slot : Nat) (l : Layout) (buffer : HostAddr) : Orderly s (s.dataPosted slot l buffer) := by
  have written := (Orderly.emit s (.hostWrite (buffer + BitVec.ofNat 64 ((s.voice slot).deliveryOffset l))
    (s.deliveryBytes (s.voice slot) l))).trans (Orderly.emit _ (.hostWrite (deliveryStatusAddress s.delivery.address)
      (deliveryStatusBytes (s.dataStatus slot (s.voice slot) l))))
  refine Orderly.trans (written.trans (Orderly.ite (Orderly.refl _) (Orderly.takePlace _ _))) (Orderly.setVoice _ slot _ ?_)
  split <;> exact Voice.Tame.of_kept rfl rfl

theorem State.dataDelivery_made (s : State) (slot : Nat) (l : Layout) (buffer : HostAddr) :
    s.DataMade ((s.dataPosted slot l buffer).countDelivery.noticePriority (s.voice slot)) slot l buffer := by
  have posted := s.dataPosted_kept slot l buffer
  have canonical : s.Canonical → ((s.dataPosted slot l buffer).countDelivery.noticePriority (s.voice slot)).Canonical :=
    (((Orderly.dataPosted s slot l buffer).trans (Orderly.countDelivery _)).trans
      (Orderly.ite (Orderly.latch _ _) (Orderly.refl _))).canonical
  generalize s.dataPosted slot l buffer = p at posted canonical
  have counts := p.countDelivery_kept
  have counted := p.countDelivery_counted.before (s := s) (by rw [posted]) (by rw [posted]) (by rw [posted]) (by rw [posted])
  have flag (f : Flag) (h : f ≠ .delivery) : p.countDelivery.latched f = s.latched f := by
    rw [p.countDelivery_flag h, posted]
    rfl
  generalize p.countDelivery = u at counts counted flag canonical
  rw [posted] at counts
  have kept := u.noticePriority_kept (s.voice slot)
  have tunables : u.tunables = s.tunables := by rw [counts]
  have flags (f : Flag) (h : f ≠ .priorityDelivery) := u.noticePriority_flag (s.voice slot) h
  refine ⟨?_, ?_, counted.of_same ?_ (flags _ nofun), fun first above => ?_, fun never => ?_,
    fun f other unlike => (flags f unlike).trans (flag f other), ?_, fun n hn => ?_, ?_,
    canonical⟩
  · rw [kept, counts]
  · rw [kept, counts]
  · rw [kept]
    exact ⟨rfl, rfl, rfl⟩
  · have notices : u.noticePriority (s.voice slot) = u.latch .priorityDelivery := if_pos ⟨first, by rw [tunables]; exact above⟩
    rw [notices]
    exact State.latched_same _ _
  · have silent : u.noticePriority (s.voice slot) = u := by
      refine if_neg fun ⟨first, above⟩ => ?_
      rw [tunables] at above
      obtain later | under := never
      · exact later first
      · exact absurd above (Nat.not_le.mpr under)
    rw [silent]
    exact flag _ nofun
  · rw [kept, counts]
    exact State.voice_setVoice_same s slot _
  · rw [kept, counts]
    exact State.voice_setVoice_other s _ hn
  · rw [kept, counts]

/-- The judging of a delivery's voice: for its NATURAL end, then for its next runs (R69, R102). -/
def State.voiceJudged (s : State) (slot : Nat) : State := (s.naturalEnd slot).settleVoice slot

theorem State.naturalEnd_kept (s : State) (slot : Nat) : s.TakeKept (s.naturalEnd slot) :=
  State.TakeKept.ite (State.TakeKept.endVoice _ s slot) rfl

theorem State.voiceJudged_kept (s : State) (slot : Nat) :
    ({ s with dram := (s.voiceJudged slot).dram } : State).TakeKept (s.voiceJudged slot) :=
  State.TakeKept.of_runs (s.naturalEnd_kept slot) ((s.naturalEnd slot).settleVoice_judging slot).kept

/-- The event of a DATA delivery. -/
theorem exec_dataDelivery {s : State} {slot : Nat} {l : Layout} {next buffer : HostAddr} (chosen : s.dataChoice = some slot)
    (layout : s.layoutOf (s.voice slot) = some l) (held : s.delivery.heldNext = some next)
    (into : s.delivery.heldBuffer = some buffer) :
    ∃ u t, exec .dataDelivery s = .next t ∧ s.DataMade u slot l buffer ∧ ((u.voiceJudged slot).advanceBuffer next).Ended t := by
  obtain ⟨t, ht, ended⟩ := exec_ended .dataDelivery s
  rw [work_dataDelivery chosen layout held into] at ended
  exact ⟨_, t, ht, s.dataDelivery_made slot l buffer, ended⟩

/-! ### The notices and the advance of a delivery -/

/-- What the judging of the voice leaves of the delivery's counts, flags and engine. -/
theorem State.voiceJudged_engine (s : State) (slot : Nat) : (s.voiceJudged slot).delivery = s.delivery ∧
    (s.voiceJudged slot).registers = s.registers ∧ (s.voiceJudged slot).out = s.out := by
  have kept := s.voiceJudged_kept slot
  rw [kept]
  exact ⟨rfl, rfl, rfl⟩

theorem dataNotices (s : State) (slot : Nat) (l : Layout) (next buffer : HostAddr) (chosen : s.dataChoice = some slot)
    (layout : s.layoutOf (s.voice slot) = some l) (held : s.delivery.heldNext = some next)
    (into : s.delivery.heldBuffer = some buffer) :
    ∃ t, exec .dataDelivery s = .next t ∧ s.DeliveryCounted t ∧
      ((s.voice slot).delivered = 0 → s.tunables.priorityThreshold ≤ (s.voice slot).priority →
        t.latched .priorityDelivery = true) ∧
      ((s.voice slot).delivered ≠ 0 ∨ (s.voice slot).priority < s.tunables.priorityThreshold →
        t.latched .priorityDelivery = s.latched .priorityDelivery) := by
  obtain ⟨u, t, ht, made, ended⟩ := exec_dataDelivery chosen layout held into
  obtain ⟨counts, flags⟩ := ended.notices
  obtain ⟨delivery, registers, -⟩ := u.voiceJudged_engine slot
  have latched (f : Flag) : (u.voiceJudged slot).latched f = u.latched f := by
    unfold State.latched
    rw [registers]
  rw [delivery] at counts
  have priority := (flags .priorityDelivery nofun nofun nofun).trans (latched _)
  refine ⟨t, ht, made.counted.of_same counts ((flags .delivery nofun nofun nofun).trans (latched _)), fun first above => ?_,
    fun never => ?_⟩
  · exact priority.trans (made.notice first above)
  · exact priority.trans (made.noNotice never)

theorem endNotices (s : State) (next : HostAddr) (chosen : s.endChoice.isSome = true) (held : s.delivery.heldNext = some next) :
    ∃ t, exec .endDelivery s = .next t ∧ s.DeliveryCounted t ∧ t.latched .priorityDelivery = s.latched .priorityDelivery := by
  obtain ⟨slot, chosen⟩ := Option.isSome_iff_exists.mp chosen
  obtain ⟨t, ht, ended⟩ := exec_ended .endDelivery s
  rw [work_endDelivery chosen held] at ended
  have made := s.endDelivery_made slot
  obtain ⟨counts, flags⟩ := ended.notices
  exact ⟨t, ht, made.counted.of_same counts (flags _ nofun nofun nofun),
    (flags .priorityDelivery nofun nofun nofun).trans (made.flag _ nofun)⟩

/-- What the steps of an expiry before the notice age leave of the notices (R82, R158). -/
theorem State.expiryWork_notices (s : State) : s.expiryWork.delivery = s.delivery ∧ s.expiryWork.tunables = s.tunables ∧
    s.expiryWork.latched .delivery = s.latched .delivery := by
  have paced : s.expiryPaced.delivery = s.delivery ∧ s.expiryPaced.tunables = s.tunables ∧
      s.expiryPaced.latched .delivery = s.latched .delivery := by
    rw [s.expiryPaced_kept]
    exact ⟨rfl, rfl, rfl⟩
  have tests (l : List Nat) : ∀ u : State, (l.foldl State.leadTest u).latched .delivery = u.latched .delivery := by
    induction l with
    | nil => exact fun _ => rfl
    | cons n l ih =>
      intro u
      refine (ih _).trans ?_
      unfold State.leadTest State.underrunTest State.starvedTest
      dsimp only
      split <;> split
      · exact (State.latched_other (f := .delivery) (g := .underrun) _ nofun).trans (State.latched_other _ nofun)
      · exact State.latched_other _ nofun
      · exact State.latched_other _ nofun
      · rfl
  have ends (l : List Nat) : ∀ u : State, u.TakeKept (l.foldl State.naturalEnd u) := by
    induction l with
    | nil => exact fun _ => rfl
    | cons n l ih => exact fun u => (u.naturalEnd_kept n).trans (ih _)
  unfold State.expiryWork
  split
  · have kept := s.expiryEnded.settleVoices_judging.kept
    have ended : s.expiryTested.TakeKept s.expiryEnded := ends _ _
    have tested := s.expiryTested_kept
    have latched : s.expiryTested.latched .delivery = s.expiryPaced.latched .delivery := tests _ _
    obtain ⟨delivery, tunables, flag⟩ := paced
    refine ⟨?_, ?_, ?_⟩
    · rw [kept, ended, tested]
      exact delivery
    · rw [kept, ended, tested]
      exact tunables
    · rw [← flag, ← latched, kept, ended]
      rfl
  · exact paced

theorem Pace.afterExpiry_index (p : Pace) : p.afterExpiry.index = p.index + 1 := by
  unfold Pace.afterExpiry
  dsimp only
  split <;> split <;> rfl

/-- The age of the notice counter at an expiry (R158). -/
theorem expiryNotices (s : State) : ∃ t, exec .periodExpiry s = .next t ∧
    (∀ stamp, s.delivery.noticeStamp = some stamp → 0 < s.delivery.noticeCount →
      s.tunables.ageLimit < s.pace.index + 1 - stamp →
      t.latched .delivery = true ∧ t.delivery = { s.delivery with noticeCount := 0, noticeStamp := none }) ∧
    ((∀ stamp, s.delivery.noticeStamp = some stamp →
      s.delivery.noticeCount = 0 ∨ s.pace.index + 1 - stamp ≤ s.tunables.ageLimit) →
      t.delivery = s.delivery ∧ t.latched .delivery = s.latched .delivery) := by
  obtain ⟨t, ht, ended⟩ := exec_ended .periodExpiry s
  have expires : work .periodExpiry s = s.expiryWork.noticeAge := s.expiry_eq
  rw [expires] at ended
  obtain ⟨delivery, tunables, flag⟩ := s.expiryWork_notices
  have index : s.expiryWork.pace.index = s.pace.index + 1 := by rw [s.expiryWork_pace, Pace.afterExpiry_index]
  refine ⟨t, ht, fun stamp stamped some old => ?_, fun young => ?_⟩
  · have posts : s.expiryWork.noticeAge = s.expiryWork.postNotice := by
      unfold State.noticeAge
      rw [delivery, stamped, tunables, index]
      exact if_pos ⟨some, old⟩
    rw [posts] at ended
    refine ⟨ended.latched _ (State.latched_same _ _), ?_⟩
    rw [ended.posted.delivery, ← delivery]
    rfl
  · have keeps : s.expiryWork.noticeAge = s.expiryWork := by
      unfold State.noticeAge
      rw [delivery, tunables, index]
      split
      · rename_i stamp stamped
        refine if_neg fun ⟨counts, old⟩ => ?_
        obtain none | fresh := young stamp stamped
        · exact absurd counts (by rw [none]; exact Nat.lt_irrefl 0)
        · exact absurd old (Nat.not_lt.mpr fresh)
      · rfl
    rw [keeps] at ended
    exact ⟨ended.posted.delivery.trans delivery, (ended.flags .delivery nofun).trans flag⟩

/-- Settles O50: a DATA delivery, an END delivery, an expiry. -/
theorem notices : Obligations.Notices := by
  refine ⟨fun s slot l next buffer chosen layout held into => ?_, fun s next chosen held => ?_, expiryNotices⟩
  · obtain ⟨t, ht, counted, notice, none⟩ := dataNotices s slot l next buffer chosen layout held into
    exact ⟨t, ht, notice, none, counted.full, counted.below⟩
  · obtain ⟨t, ht, counted, none⟩ := endNotices s next chosen held
    exact ⟨t, ht, none, counted.full, counted.below⟩

/-- Both deliveries advance the engine alike (R153). -/
theorem delivery_advances (s : State) (c : Instr) (next : HostAddr) (held : s.delivery.heldNext = some next)
    (made : (c = .dataDelivery ∧ s.delivery.heldBuffer.isSome = true ∧
        ∃ slot l, s.dataChoice = some slot ∧ s.layoutOf (s.voice slot) = some l) ∨
      (c = .endDelivery ∧ s.endChoice.isSome = true)) :
    ∃ t, exec c s = .next t ∧ t.delivery.count = s.delivery.count + 1#32 ∧ s.Advances t next ∧ s.delivery.state = .active := by
  have congr {u t : State} (h : u.Advances t next) (pending : u.delivery.resumePending = s.delivery.resumePending)
      (address : u.delivery.address = s.delivery.address) (state : u.delivery.state = s.delivery.state) : s.Advances t next := by
    obtain ⟨holding, begins, misaligned, ends, again⟩ := h
    rw [pending, address] at ends
    rw [pending, address, state] at again
    exact ⟨holding, begins, misaligned, ends, again⟩
  obtain ⟨rfl, some, slot, l, chosen, layout⟩ | ⟨rfl, chosen⟩ := made
  · obtain ⟨buffer, into⟩ := Option.isSome_iff_exists.mp some
    obtain ⟨active, -, ready⟩ := State.canDeliver_iff.mp (State.dataChoice_canDeliver chosen).1
    obtain ⟨u, t, ht, made, ended⟩ := exec_dataDelivery chosen layout held into
    obtain ⟨⟨count, -⟩, -⟩ := ended.notices
    obtain ⟨delivery, registers, -⟩ := u.voiceJudged_engine slot
    have kept := made.kept
    have calm : (u.voiceJudged slot).resetting = false := by
      unfold State.resetting
      rw [registers, kept]
      exact State.not_resetting_of ready
    have advances := (State.advanceBuffer_advances calm next).ended ended
    rw [delivery] at count
    refine ⟨t, ht, count.trans made.counted.count, congr advances ?_ ?_ ?_, active⟩
    all_goals rw [delivery, kept]
  · obtain ⟨slot, chosen⟩ := Option.isSome_iff_exists.mp chosen
    obtain ⟨active, -, ready⟩ := State.canDeliver_iff.mp (State.endChoice_canDeliver chosen).1
    obtain ⟨t, ht, ended⟩ := exec_ended .endDelivery s
    rw [work_endDelivery chosen held] at ended
    have made := s.endDelivery_made slot
    generalize (s.endPosted slot).countDelivery.settleFree slot = u at ended made
    have kept := made.kept
    obtain ⟨⟨count, -⟩, -⟩ := ended.notices
    have calm : u.resetting = false := by
      rw [kept]
      exact State.not_resetting_of ready
    have advances := (State.advanceBuffer_advances calm next).ended ended
    refine ⟨t, ht, count.trans made.counted.count, congr advances ?_ ?_ ?_, active⟩
    all_goals rw [kept]

/-- With no delivery chosen nothing changes (log 37). -/
theorem exec_dataDelivery_none {s : State} (none : s.dataChoice = none) (settled : s.completions = []) :
    exec .dataDelivery s = .next s :=
  exec_silent (by show s.deliverData = s; simp only [State.deliverData, none]) settled rfl

theorem exec_endDelivery_none {s : State} (none : s.endChoice = none) (settled : s.completions = []) :
    exec .endDelivery s = .next s :=
  exec_silent (by show s.deliverEnd = s; simp only [State.deliverEnd, none]) settled rfl

/-- Settles O51: the END made, none made, the choice, the engine that may not write, and the advance. -/
theorem endDeliveryMade : Obligations.EndDeliveryMade := by
  refine ⟨endDeliveryMade_chosen, fun s none settled => exec_endDelivery_none none settled, fun s slot chosen => ?_,
    fun s c kind settled idle => ?_, fun s c next held made => ?_⟩
  · obtain ⟨can, head⟩ := State.endChoice_canDeliver chosen
    obtain ⟨active, holding, ready⟩ := State.canDeliver_iff.mp can
    exact ⟨active, holding, ready, fun c => (State.endSlots_head c slot).mp head⟩
  · have cannot : s.canDeliver = false := by
      refine Bool.eq_false_iff.mpr fun can => ?_
      obtain ⟨active, holding, ready⟩ := State.canDeliver_iff.mp can
      obtain inactive | empty | resetting := idle
      · exact inactive active
      · exact absurd (empty.symm.trans holding) nofun
      · exact absurd (resetting.symm.trans ready) nofun
    obtain rfl | rfl := kind
    · refine exec_dataDelivery_none ?_ settled
      simp [State.dataChoice, cannot]
    · refine exec_endDelivery_none ?_ settled
      simp [State.endChoice, cannot]
  · obtain ⟨t, ht, count, advances, active⟩ := delivery_advances s c next held made
    exact ⟨t, ht, count, advances.holding, advances.begins, advances.misaligned, advances.ends,
      fun zero pending => advances.again zero pending active⟩

end Sys2Proof.Machine
end

section
/-! PROOFS. A DATA delivery (R44, R69, R147 to R155): what its voice, the voice's window and record, and the memory become, its bytes,
and the voice that the arbiter chooses. -/

namespace Sys2Proof.Machine

/-! ### The bytes -/

theorem Memory.readRange_length (m : List Host.Cell) (n : Nat) : ∀ a, (Memory.readRange m a n).length = n := by
  induction n with
  | zero => exact fun _ => rfl
  | succ n ih => exact fun a => congrArg (· + 1) (ih (a + 1))

theorem Memory.readRange_getD (m : List Host.Cell) (n : Nat) : ∀ a i, i < n →
    (Memory.readRange m a n).getD i 0#8 = Memory.read m (a + i) := by
  induction n with
  | zero => exact fun _ _ h => absurd h (Nat.not_lt_zero _)
  | succ n ih =>
    intro a i h
    cases i with
    | zero => rfl
    | succ i =>
      refine (ih (a + 1) i (Nat.lt_of_succ_lt_succ h)).trans ?_
      rw [Nat.add_assoc, Nat.add_comm 1 i]

theorem Voice.deliveryFrames_eq (v : Voice) (l : Layout) : v.deliveryFrames l = v.deliveryStop l - v.delivery.source := by
  unfold Voice.deliveryFrames
  rw [Voice.deliveryEnd_eq]

theorem State.deliveryDamaged_iff (s : State) (v : Voice) (l : Layout) :
    s.deliveryDamaged v l = true ↔ ¬ v.fromHead l ∧ ∃ r, s.filledRun v = some r ∧ r.damaged = true := by
  have place : (match s.deliveryPlace v with | .filled r => r.damaged | .empty | .awaited _ => false) = true ↔
      ∃ r, s.filledRun v = some r ∧ r.damaged = true := by
    unfold State.filledRun State.deliveryPlace
    cases (s.window v.window).place (s.window v.window).delivery with
    | empty | awaited r => simp
    | filled r => simp
  unfold State.deliveryDamaged
  rw [Bool.and_eq_true, Bool.not_eq_true', ← Bool.not_eq_true, Voice.headDelivery_iff]
  exact and_congr_right fun _ => place

/-- The bytes that a DATA delivery writes (R151). -/
theorem State.deliveryBytes_are (s : State) (v : Voice) (l : Layout) :
    (s.deliveryBytes v l).length = (v.deliveryStop l - v.delivery.source) * l.format.frameBytes ∧
    ∀ i, i < (v.deliveryStop l - v.delivery.source) * l.format.frameBytes →
      (s.deliveryDamaged v l = true → (s.deliveryBytes v l).getD i 0#8 = 0#8) ∧
      (s.deliveryDamaged v l = false → ¬ v.fromHead l →
        (s.deliveryBytes v l).getD i 0#8 = Memory.read s.dram (s.placeFrames v l + i)) ∧
      ∀ slot, v.fromHead l → (s.record v.sampleId).headSlot = some slot →
        (s.deliveryBytes v l).getD i 0#8 = Memory.read s.dram (s.headFrames v l slot + i) := by
  have sound (h : s.deliveryDamaged v l = false) : s.deliveryBytes v l =
      Memory.readRange s.dram (s.deliveryBase v l) ((v.deliveryStop l - v.delivery.source) * l.format.frameBytes) := by
    unfold State.deliveryBytes
    rw [h, Voice.deliveryFrames_eq]
    rfl
  have damaged (h : s.deliveryDamaged v l = true) : s.deliveryBytes v l =
      List.replicate ((v.deliveryStop l - v.delivery.source) * l.format.frameBytes) 0#8 := by
    unfold State.deliveryBytes
    rw [h, Voice.deliveryFrames_eq]
    rfl
  refine ⟨?_, fun i inside => ⟨fun h => ?_, fun h place => ?_, fun slot head held => ?_⟩⟩
  · cases h : s.deliveryDamaged v l with
    | true => rw [damaged h, List.length_replicate]
    | false => rw [sound h, Memory.readRange_length]
  · rw [damaged h]
    simp [inside]
  · have store : v.headDelivery l = false := Bool.eq_false_iff.mpr fun k => place ((v.headDelivery_iff l).mp k)
    rw [sound h, Memory.readRange_getD _ _ _ _ inside]
    unfold State.deliveryBase
    rw [store]
    rfl
  · have whole : s.deliveryDamaged v l = false :=
      Bool.eq_false_iff.mpr fun k => ((s.deliveryDamaged_iff v l).mp k).1 head
    rw [sound whole, Memory.readRange_getD _ _ _ _ inside]
    unfold State.deliveryBase
    rw [(v.headDelivery_iff l).mpr head, held]
    rfl

/-- The status of a DATA delivery, in the words of its rules (R154, R155). -/
theorem State.dataStatus_eq (s : State) (slot : Nat) (v : Voice) (l : Layout) :
    let frames := v.deliveryStop l - v.delivery.source
    s.dataStatus slot v l =
      { kind := 1
        flags := (v.delivered == 0).toNat + 2 * v.delivery.loopedPending.toNat + 4 * (s.deliveryDamaged v l).toNat +
          8 * (decide (v.delivered * 65536 < v.consumed)).toNat + 16 * (v.total == some (v.delivered + frames)).toNat
        endReason := 0, slot := slot, generation := v.generation, cookie := v.cookie, sampleId := v.sampleId
        sampleGeneration := v.sampleGeneration, stream := v.delivered, source := v.delivery.source, frames := frames
        byteOffset := v.delivery.source % l.format.framesPerBlock * l.format.frameBytes } := by
  intro frames
  unfold State.dataStatus State.deliveryFlags
  rw [Voice.deliveryFrames_eq]
  rfl

/-! ### The choice -/

theorem State.dataReady_iff (s : State) (v : Voice) (l : Layout) (layout : s.layoutOf v = some l) :
    s.dataReady v = true ↔ v.sounding = true ∧ v.delivered < v.scheduled ∧ s.available v l := by
  unfold State.dataReady
  rw [layout]
  simp only [Bool.and_eq_true, decide_eq_true_eq, State.framesAvailable_iff, and_assoc]

theorem State.dataReady_sounding {s : State} {v : Voice} (h : s.dataReady v = true) : v.sounding = true := by
  unfold State.dataReady at h
  split at h
  · simp only [Bool.and_eq_true] at h
    exact h.1.1
  · cases h

theorem State.mem_dataSlots {s : State} (c : s.Canonical) (n : Nat) : n ∈ s.dataSlots ↔ s.dataReady (s.voice n) = true :=
  State.mem_slotsWhere c.voices (p := s.dataReady)
    (Bool.eq_false_iff.mpr fun h => nomatch State.dataReady_sounding (v := Voice.blank) h) n

/-- The key of a DATA delivery (R150). -/
theorem dataKey_before {due1 due2 p1 p2 m n : Nat} (apart : m ≠ n) (top1 : p1 ≤ 15) (top2 : p2 ≤ 15)
    (h : keyBefore [due1, 15 - p1, m] [due2, 15 - p2, n] = false) :
    due2 < due1 ∨ (due2 = due1 ∧ (p1 < p2 ∨ (p2 = p1 ∧ n < m))) := by
  simp only [keyBefore, Bool.or_eq_false_iff, Bool.and_eq_false_iff, decide_eq_false_iff_not, beq_eq_false_iff_ne] at h
  omega

theorem dataChoice_first (s : State) (c : s.Canonical) (top : ∀ m, (s.voice m).priority ≤ 15) :
    let due (m : Nat) : Nat := s.deadline (s.voice m) (s.voice m).delivered
    (∀ n, s.dataChoice = some n → s.dataReady (s.voice n) = true ∧
      (∀ m, (s.voice m).state = .ending → (s.voice m).endPosted = true) ∧
      ∀ m, s.dataReady (s.voice m) = true → m ≠ n →
        due n < due m ∨ (due n = due m ∧ ((s.voice m).priority < (s.voice n).priority ∨
          ((s.voice n).priority = (s.voice m).priority ∧ n < m)))) ∧
    (s.dataChoice = none → s.delivery.state = .active → s.delivery.holding = true → s.registers.engine = .ready →
      (∀ m, (s.voice m).state = .ending → (s.voice m).endPosted = true) → ∀ m, s.dataReady (s.voice m) = false) := by
  intro due
  have noEnd : s.endSlots = [] ↔ ∀ m, (s.voice m).state = .ending → (s.voice m).endPosted = true := by
    rw [List.eq_nil_iff_forall_not_mem]
    refine forall_congr' fun m => ?_
    rw [State.mem_endSlots c]
    cases (s.voice m).endPosted <;> simp
  refine ⟨fun n chosen => ?_, fun none active holding ready posted m => ?_⟩
  · obtain ⟨-, quiet, least⟩ := State.dataChoice_canDeliver chosen
    obtain ⟨listed, first⟩ := leastBy_some _ 3 _ (fun _ _ => rfl) n least
    refine ⟨(State.mem_dataSlots c n).mp listed, noEnd.mp quiet, fun m ready apart => ?_⟩
    exact dataKey_before apart (top m) (top n) (first m ((State.mem_dataSlots c m).mpr ready))
  · have can := State.canDeliver_iff.mpr ⟨active, holding, ready⟩
    have nobody : s.dataSlots = [] := by
      unfold State.dataChoice at none
      rw [can, noEnd.mpr posted] at none
      exact leastBy_none _ _ none
    refine Bool.eq_false_iff.mpr fun some => ?_
    have listed := (State.mem_dataSlots c m).mpr some
    rw [nobody] at listed
    cases listed

/-! ### The voice and its window -/

/-- The NATURAL end that a delivery brings (R69). -/
def Voice.endsNatural (v : Voice) (l : Layout) : Prop :=
  v.sounding = true ∧ v.total = some (v.delivered + (v.deliveryStop l - v.delivery.source)) ∧
    (v.delivered + (v.deliveryStop l - v.delivery.source)) * 65536 ≤ v.consumed

theorem Voice.deliver_exhausted (v : Voice) (l : Layout) : (v.deliver l).exhausted = true ↔ v.endsNatural l := by
  have frames := Voice.deliveryFrames_eq v l
  constructor
  · intro h
    have sounds : (v.deliver l).sounding = true := Voice.exhausted_sounds h
    obtain ⟨total, consumed⟩ := (Voice.exhausted_iff sounds).mp h
    unfold Voice.endsNatural
    rw [← frames]
    exact ⟨sounds, total, consumed⟩
  · rintro ⟨sounds, total, consumed⟩
    rw [← frames] at total consumed
    exact (Voice.exhausted_iff (v := v.deliver l) sounds).mpr ⟨total, consumed⟩

/-- No silent place is given while every die is in service (R106). -/
theorem State.RunsGiven.window_kept {s : State} {l : Layout} (online : ∀ d, (s.die d).state ≠ .offline) {u v : Voice} {w x : Window}
    (h : s.RunsGiven l u w v x) : x = w := by
  induction h with
  | none v w _ _ => rfl
  | head u v v' w w' _ _ _ ih => exact ih
  | silent u v v' w w' due _ _ _ =>
    obtain ⟨-, a, -, off⟩ := due
    exact absurd off (online _)

theorem Listed.closed {s t : State} (h : Listed s t) : Closed s t := by
  refine ⟨h.out, ?_⟩
  have kept := h.kept
  rw [kept]

theorem State.queueWithout_congr {s t : State} (queue : t.queue = s.queue)
    (generations : ∀ n, (t.voice n).generation = (s.voice n).generation) {p q : Nat → Bool} (same : ∀ n, p n = q n) :
    t.queueWithout p = s.queueWithout q := by
  unfold State.queueWithout
  rw [queue]
  refine List.filter_congr fun e _ => ?_
  cases e.owner with
  | load id g => rfl
  | voice n g => simp only [generations, same]

theorem State.WindowEnded.congr {s t : State} {n : Nat} {w : Window} (h : s.WindowEnded n w) (queue : t.queue = s.queue)
    (generation : (t.voice n).generation = (s.voice n).generation) (window : (t.voice n).window = (s.voice n).window)
    (windows : t.windows = s.windows) : t.WindowEnded n w := by
  obtain ⟨points, emptied, queued, inFlight⟩ := h
  rw [← State.window_congr windows, ← window] at points emptied inFlight
  rw [← queue, ← generation] at inFlight
  rw [← queue, ← generation, ← window] at queued
  exact ⟨points, emptied, queued, inFlight⟩

theorem State.placeTaken_kept (s : State) (slot : Nat) (l : Layout) :
    s.placeTaken slot l = { s with windows := (s.placeTaken slot l).windows } := by
  unfold State.placeTaken
  split <;> rfl

theorem State.placeTaken_other (s : State) (slot : Nat) (l : Layout) {w : Nat} (h : w ≠ (s.voice slot).window) :
    (s.placeTaken slot l).window w = s.window w := by
  unfold State.placeTaken
  split
  · rfl
  · exact State.window_setWindow_other s _ h

/-- A place taken is EMPTY, and the delivery point is the next one (R44). -/
theorem State.placeTaken_place {s : State} {slot : Nat} {l : Layout} (store : (s.voice slot).headDelivery l = false) :
    let w := (s.voice slot).window
    ((s.placeTaken slot l).window w).place (s.window w).delivery = .empty ∧
      ((s.placeTaken slot l).window w).delivery = ((s.window w).delivery + 1) % s.partition.windowBlocks := by
  intro w
  have taken : s.placeTaken slot l = s.takePlace w := if_neg (by rw [store]; nofun)
  have window : (s.placeTaken slot l).window w = { (s.window w).setPlace (s.window w).delivery .empty with
      delivery := ((s.window w).delivery + 1) % s.partition.windowBlocks } := by
    rw [taken]
    exact State.window_setWindow_same s w _
  rw [window]
  exact ⟨Window.place_setPlace_same (s.window w) (s.window w).delivery .empty, rfl⟩

/-! ### The event -/

theorem State.endVoice_same {s : State} {n : Nat} (reason : EndReason) (sounds : (s.voice n).sounding = true) :
    (State.endVoice reason s n).voice n = (s.voice n).endedWith reason := by
  rw [State.endVoice_eq, if_pos sounds, State.dropReference_kept]
  exact (State.voice_congr (s := s.silenced reason n) rfl n).trans (State.voice_setVoice_same _ _ _)

section
variable {s u t : State} {slot : Nat} {l : Layout} {next buffer : HostAddr}

/-- The voice after the delivery keeps what the delivery made of it (R148, R151). -/
theorem State.DataMade.voice_kept (made : s.DataMade u slot l buffer) :
    let v := s.voice slot
    let w := (u.voiceJudged slot).voice slot
    w.delivered = v.delivered + (v.deliveryStop l - v.delivery.source) ∧ w.delivery.source = (v.afterDelivery l).source ∧
      w.delivery.loopedPending = (v.afterDelivery l).loopedPending ∧ w.consumed = v.consumed ∧
      (v.delivered = 0 → w.firstDelivery = true) := by
  intro v w
  have step : VoiceStep (u.voice slot) w := ((Inner.naturalEnd u slot).trans (Inner.settleVoice _ slot)).voices slot
  have runs : ((u.naturalEnd slot).voice slot).RunsKeep w := (u.naturalEnd slot).settleVoice_keep slot
  have delivery : ((u.naturalEnd slot).voice slot).delivery = (u.voice slot).delivery := by
    unfold State.naturalEnd
    split
    · rename_i exhausted
      rw [State.endVoice_same _ (Voice.exhausted_sounds exhausted)]
      rfl
    · rfl
  have kept := step.kept
  have frames := Voice.deliveryFrames_eq v l
  rw [made.voice] at delivery kept
  refine ⟨?_, ?_, ?_, ?_, fun first => ?_⟩
  · rw [kept, ← frames]
    rfl
  · rw [runs.source, delivery]
    rfl
  · rw [runs.loopedPending, delivery]
    rfl
  · rw [kept]
    rfl
  · rw [kept]
    show (v.firstDelivery || v.delivered == 0) = true
    simp [first]

theorem State.voiceJudged_others (u : State) {slot n : Nat} (h : n ≠ slot) : (u.voiceJudged slot).voice n = u.voice n := by
  refine (((u.naturalEnd slot).settleVoice_judged slot).others n h).trans ?_
  unfold State.naturalEnd
  split
  · exact State.endVoice_other _ u h
  · rfl

/-- Only the window of the voice judged changes. -/
theorem State.voiceJudged_windows (u : State) (slot : Nat) {w : Nat} (h : w ≠ (u.voice slot).window) :
    (u.voiceJudged slot).window w = u.window w := by
  have ends : (u.naturalEnd slot).window w = u.window w := by
    unfold State.naturalEnd
    split
    · rw [State.endVoice_eq]
      split
      · rw [State.dropReference_kept]
        exact State.window_setWindow_other _ _ h
      · rfl
    · rfl
  refine (((u.naturalEnd slot).settleVoice_judged slot).windows w fun n judged _ => ?_).trans ends
  rw [show n = slot from judged, ((Inner.naturalEnd u slot).voices slot).window]
  exact h.symm

/-- What follows the judging of the voice leaves the rest of the part. -/
theorem State.Ended.judged (ended : ((u.voiceJudged slot).advanceBuffer next).Ended t) : Closed (u.voiceJudged slot) t :=
  (Listed.advanceBuffer _ next).closed.trans ended.posted.closed

/-- A delivery that brings no NATURAL end (R102). -/
theorem dataDelivery_soundsOn (made : s.DataMade u slot l buffer) (ready : s.registers.engine = .ready)
    (closed : Closed (u.voiceJudged slot) t) (lasts : ¬ (s.voice slot).endsNatural l) :
    u.naturalEnd slot = u ∧ SameCatalog s t ∧ SameQueue s t ∧ s.GivenRuns t slot ((s.voice slot).deliver l)
      ((s.placeTaken slot l).window (s.voice slot).window) := by
  have stays : u.naturalEnd slot = u := by
    refine if_neg ?_
    rw [made.voice, Voice.deliver_exhausted]
    exact lasts
  have judged : u.voiceJudged slot = u.settleVoice slot := congrArg (State.settleVoice · slot) stays
  rw [judged] at closed
  have runs := (u.settleVoice_judging slot).kept
  have kept := made.kept
  have calm : u.resetting = false := by
    rw [kept]
    exact State.not_resetting_of ready
  have rest : SameCatalog s t ∧ SameQueue s t := by
    rw [closed.2, runs, kept]
    exact ⟨⟨fun _ => rfl, rfl, rfl, rfl⟩, rfl, rfl⟩
  refine ⟨stays, rest.1, rest.2, ?_⟩
  have layouts (v : Voice) : t.layoutOf v = u.layoutOf v := by
    rw [State.layoutOf_congr closed.catalog, runs]
    rfl
  have given := State.GivenRuns.of_settleVoice calm closed layouts s
  have window : u.window ((s.voice slot).deliver l).window = (s.placeTaken slot l).window (s.voice slot).window :=
    State.window_congr made.windows _
  rw [made.voice, window] at given
  exact given

/-- A delivery that brings its voice's NATURAL end: R12, R45, R69, R110. -/
theorem dataDelivery_ends (made : s.DataMade u slot l buffer) (closed : Closed (u.voiceJudged slot) t)
    (wrote : ∀ c ∈ (u.voiceJudged slot).completions, wroteAt s t c.token.address (doneBytes c.result c.word0 c.word1))
    (ends : (s.voice slot).endsNatural l) :
    (t.voice slot).state = .ending ∧ (t.voice slot).endReason = some .natural ∧
      (s.Canonical → t.queue = s.queueWithout (· == slot) ∧
        (s.placeTaken slot l).WindowEnded slot (t.window (s.voice slot).window) ∧
        ∀ id, s.RecordLeft t id (if (s.voice slot).plays id (s.record id).generation then 1 else 0)) := by
  have kept := made.kept
  have sounds : (u.voice slot).sounding = true := by
    rw [made.voice]
    exact ends.1
  have natural : u.naturalEnd slot = State.endVoice .natural u slot := by
    refine if_pos ?_
    rw [made.voice, Voice.deliver_exhausted]
    exact ends
  have ended := State.endVoice_same (s := u) .natural sounds
  have judged : u.voiceJudged slot = State.endVoice .natural u slot := by
    unfold State.voiceJudged
    rw [natural]
    exact State.settleVoice_silent (by rw [ended]; rfl)
  rw [judged] at closed wrote
  refine ⟨?_, ?_, fun c => ?_⟩
  · rw [closed.voice, ended]
    rfl
  · rw [closed.voice, ended]
    rfl
  have canonical := made.canonical c
  have left := u.endVoice_left .natural slot sounds (canonical.places _)
  have queue : u.queue = s.queue := by rw [kept]
  have generation (n : Nat) : (u.voice n).generation = (s.voice n).generation := by
    by_cases hn : n = slot
    · rw [hn, made.voice]
      rfl
    · rw [made.others n hn]
  have window : (u.voice slot).window = (s.voice slot).window := by
    rw [made.voice]
    rfl
  refine ⟨?_, ?_, fun id => State.recordLeft_of ?_ fun k retire state vacant => ?_⟩
  · rw [closed.queue, left.queue]
    exact State.queueWithout_congr queue generation fun n => by rw [Bool.eq_iff_iff]; simp
  · have gone := State.endVoice_window (s := u) .natural sounds (canonical.places _)
    rw [closed.window, ← window]
    refine gone.congr ?_ ?_ ?_ made.windows.symm
    · rw [queue, s.placeTaken_kept slot l]
    · rw [generation, s.placeTaken_kept slot l]
      rfl
    · rw [window, s.placeTaken_kept slot l]
      rfl
  · have naming : u.naming [slot] id = if (s.voice slot).plays id (s.record id).generation then 1 else 0 := by
      have plays : (u.voice slot).plays id (u.record id).generation = (s.voice slot).plays id (s.record id).generation := by
        rw [made.voice, kept]
        rfl
      unfold State.naming
      rw [List.filter_cons, plays]
      split <;> rfl
    rw [closed.record, left.records, naming, kept]
    rfl
  · rw [closed.record] at vacant
    obtain ⟨word0, word1, done⟩ := left.written id k (by rw [kept]; exact retire) (by rw [kept]; exact state) vacant
    exact ⟨word0, word1, wrote _ done⟩

/-- The DRAM after the delivery (R44, R106). -/
theorem dataDelivery_silence (made : s.DataMade u slot l buffer) (closed : Closed (u.voiceJudged slot) t)
    (sounds : (s.voice slot).sounding = true) (once : s.WindowsHeldOnce) : SilenceWritten (s.placeTaken slot l) t := by
  have kept := made.kept
  have takes := u.naturalEnd_kept slot
  have voices (n : Nat) (hn : n ≠ slot) : (u.naturalEnd slot).voice n = s.voice n := by
    refine Eq.trans ?_ (made.others n hn)
    unfold State.naturalEnd
    split
    · exact State.endVoice_other _ u hn
    · rfl
  have lasts (h : ((u.naturalEnd slot).voice slot).sounding = true) : u.naturalEnd slot = u := by
    unfold State.naturalEnd at h ⊢
    split at h
    · rename_i exhausted
      rw [State.endVoice_same _ (Voice.exhausted_sounds exhausted)] at h
      cases h
    · rename_i going
      exact if_neg going
  have base : (s.placeTaken slot l).dram = s.dram ∧ (s.placeTaken slot l).partition = s.partition := by
    rw [s.placeTaken_kept slot l]
    exact ⟨rfl, rfl⟩
  have voice (n : Nat) : (s.placeTaken slot l).voice n = s.voice n := by
    rw [s.placeTaken_kept slot l]
    rfl
  have window (n : Nat) : ((u.naturalEnd slot).voice n).window = (s.voice n).window := by
    rw [((Inner.naturalEnd u slot).voices n).window]
    by_cases hn : n = slot
    · rw [hn, made.voice]
      rfl
    · rw [made.others n hn]
  have held (n : Nat) (h : ((u.naturalEnd slot).voice n).sounding = true) : (s.voice n).sounding = true := by
    by_cases hn : n = slot
    · rw [hn]
      exact sounds
    · rwa [voices n hn] at h
  have apart : (u.naturalEnd slot).SoundedOnce := by
    intro m n hm hn e
    rw [window, window] at e
    refine Classical.byContradiction fun other => ?_
    exact once m n other (Voice.sounding_held (held m hm)) (Voice.sounding_held (held n hn)) e
  have places : State.PlacesFrom (fun _ => True) (s.placeTaken slot l) (u.naturalEnd slot) := by
    refine ⟨by rw [takes, kept, base.1], by rw [takes, kept, base.2], fun n _ h => .inl ⟨?_, ?_, ?_⟩⟩
    · rw [voice]
      exact held n h
    · rw [voice, window]
    · by_cases hn : n = slot
      · rw [hn] at h
        rw [lasts h]
        exact State.window_congr made.windows _
      · have other : (s.voice n).window ≠ (s.voice slot).window :=
          once n slot hn (Voice.sounding_held (held n h)) (Voice.sounding_held sounds)
        rw [window, State.placeTaken_other s slot l other]
        have same : u.window (s.voice n).window = s.window (s.voice n).window :=
          (State.window_congr made.windows _).trans (State.placeTaken_other s slot l other)
        rw [← same]
        unfold State.naturalEnd
        split
        · rw [State.endVoice_eq]
          split
          · rw [State.dropReference_kept]
            refine State.window_setWindow_other _ _ ?_
            rw [made.voice]
            exact other
          · rfl
        · rfl
  exact places.silence ((u.naturalEnd slot).settleVoice_judged slot) apart closed

/-- With every die in service, the place taken stays EMPTY and the delivery point moved (R44). -/
theorem dataDelivery_place (made : s.DataMade u slot l buffer) (ready : s.registers.engine = .ready)
    (layout : s.layoutOf (s.voice slot) = some l) (closed : Closed (u.voiceJudged slot) t)
    (store : (s.voice slot).headDelivery l = false) (online : ∀ d, s.dieOffline d = false) (c : s.Canonical) :
    (t.window (s.voice slot).window).place (s.window (s.voice slot).window).delivery = .empty ∧
      (t.window (s.voice slot).window).delivery =
        ((s.window (s.voice slot).window).delivery + 1) % s.partition.windowBlocks := by
  obtain ⟨empty, point⟩ := State.placeTaken_place store
  by_cases natural : (s.voice slot).endsNatural l
  · have sounds : (u.voice slot).sounding = true := by
      rw [made.voice]
      exact natural.1
    have ends : u.naturalEnd slot = State.endVoice .natural u slot := by
      refine if_pos ?_
      rw [made.voice, Voice.deliver_exhausted]
      exact natural
    have judged : u.voiceJudged slot = State.endVoice .natural u slot := by
      unfold State.voiceJudged
      rw [ends]
      exact State.settleVoice_silent (by rw [State.endVoice_same .natural sounds]; rfl)
    have gone := State.endVoice_window (s := u) .natural sounds ((made.canonical c).places _)
    have window : (u.voice slot).window = (s.voice slot).window := by
      rw [made.voice]
      rfl
    have same : u.window (s.voice slot).window = (s.placeTaken slot l).window (s.voice slot).window :=
      State.window_congr made.windows _
    rw [closed.window, judged]
    rw [window] at gone
    obtain ⟨⟨-, delivery⟩, emptied, -, -⟩ := gone
    rw [window, same] at delivery emptied
    refine ⟨emptied _ fun r awaited => ?_, delivery.trans point⟩
    rw [empty] at awaited
    cases awaited
  · obtain ⟨-, ⟨records, -⟩, -, given⟩ := dataDelivery_soundsOn made ready closed natural
    have after : t.layoutOf ((s.voice slot).deliver l) = some l := by
      unfold State.layoutOf
      rw [records]
      exact layout
    have dies (d : Nat) : t.die d = s.die d := by
      rw [closed.die, u.voiceJudged_kept slot, made.kept]
      rfl
    have same := (given l layout after).window_kept fun d off => ?_
    · rw [show (t.window (s.voice slot).window) = _ from same]
      exact ⟨empty, point⟩
    · rw [dies] at off
      have on := online d
      rw [Bool.eq_false_iff, ne_eq, State.dieOffline_iff] at on
      exact on off

end

theorem dataDeliveryMade_chosen (s : State) (slot : Nat) (l : Layout) (next buffer : HostAddr)
    (chosen : s.dataChoice = some slot) (layout : s.layoutOf (s.voice slot) = some l)
    (held : s.delivery.heldNext = some next) (into : s.delivery.heldBuffer = some buffer) :
    ∃ u t after, exec .dataDelivery s = .next t ∧ s.DataMade u slot l buffer ∧ Closed (u.voiceJudged slot) t ∧
      (∀ c ∈ (u.voiceJudged slot).completions, wroteAt s t c.token.address (doneBytes c.result c.word0 c.word1)) ∧
      t.out = u.out ++ after ∧ t.delivery.count = s.delivery.count + 1#32 ∧ s.registers.engine = .ready ∧ s.Advances t next := by
  obtain ⟨-, -, ready⟩ := State.canDeliver_iff.mp (State.dataChoice_canDeliver chosen).1
  obtain ⟨u, t, ht, made, ended⟩ := exec_dataDelivery chosen layout held into
  obtain ⟨t', ht', count, advances, -⟩ := delivery_advances s .dataDelivery next held
    (.inl ⟨rfl, by rw [into]; rfl, slot, l, chosen, layout⟩)
  obtain rfl : t = t' := Host.Outcome.next.inj (ht.symm.trans ht')
  have listed := Listed.advanceBuffer (u.voiceJudged slot) next
  have closed := ended.judged
  obtain ⟨-, -, out⟩ := u.voiceJudged_engine slot
  obtain ⟨after, e⟩ := closed.1
  rw [out] at e
  refine ⟨u, t, after, ht, made, closed, fun c done => ?_, e.symm, count, ready, advances⟩
  refine (ended.wrote c (by rw [listed.completions]; exact done)).from ?_
  refine List.IsPrefix.trans ?_ listed.out
  rw [out, made.out]
  exact List.prefix_append _ _

/-- Settles O49: the delivery made, none made, the choice, and what a delivery is of. -/
theorem dataDeliveryMade : Obligations.DataDeliveryMade := by
  refine ⟨fun s slot l next buffer chosen layout held into nonzero aligned => ?_,
    fun s none settled => exec_dataDelivery_none none settled,
    fun s n chosen => State.canDeliver_iff.mp (State.dataChoice_canDeliver chosen).1, dataChoice_first,
    fun s v l layout => s.dataReady_iff v l layout,
    fun v l => ⟨fun lp loop stop => Voice.afterDelivery_wrap loop stop, fun other => Voice.afterDelivery_on other⟩,
    fun s v l => ⟨s.deliveryDamaged_iff v l, s.deliveryBytes_are v l⟩⟩
  intro v frames offset
  obtain ⟨u, t, after, ht, made, closed, wrote, out, count, ready, advances⟩ :=
    dataDeliveryMade_chosen s slot l next buffer chosen layout held into
  obtain ⟨state, address, read, -⟩ := advances.begins nonzero aligned
  obtain ⟨delivered, source, looped, consumed, first⟩ := made.voice_kept
  have status := s.dataStatus_eq slot v l
  have others (n : Nat) (hn : n ≠ slot) : t.voice n = s.voice n := by
    rw [closed.voice, u.voiceJudged_others hn, made.others n hn]
  have windows (w : Nat) (hw : w ≠ v.window) : t.window w = s.window w := by
    have window : (u.voice slot).window = v.window := by
      rw [made.voice]
      rfl
    rw [closed.window, u.voiceJudged_windows slot (by rw [window]; exact hw), State.window_congr made.windows,
      State.placeTaken_other s slot l hw]
  have dies : SameDies s t := by
    have kept := closed.2
    rw [u.voiceJudged_kept slot, made.kept] at kept
    rw [kept]
    exact ⟨fun _ => rfl, rfl⟩
  refine ⟨t, after, ht, ?_, ?_, ?_, ?_, ?_, ?_, ⟨fun natural => dataDelivery_ends made closed wrote natural, fun lasts => ?_,
    windows, dies, fun c once => ?_⟩, fun store online c => dataDelivery_place made ready layout closed store online c,
    count, state, advances.holding, address, read, others⟩
  · rw [out, made.out, status]
    rfl
  · rw [closed.voice]
    exact delivered
  · rw [closed.voice]
    exact source
  · rw [closed.voice]
    exact looped
  · rw [closed.voice]
    exact consumed
  · rw [closed.voice]
    exact first
  · obtain ⟨-, catalog, queue, given⟩ := dataDelivery_soundsOn made ready closed lasts
    have moved : v.deliver l = { v with
        delivered := v.delivered + frames, delivery := v.afterDelivery l
        firstDelivery := v.firstDelivery || v.delivered == 0 } := by
      unfold Voice.deliver
      rw [Voice.deliveryFrames_eq]
    rw [show (s.voice slot).deliver l = v.deliver l from rfl, moved] at given
    exact ⟨catalog, queue, given⟩
  · obtain ⟨listed, -⟩ := leastBy_some _ 3 _ (fun _ _ => rfl) slot (State.dataChoice_canDeliver chosen).2.2
    exact dataDelivery_silence made closed (State.dataReady_sounding ((State.mem_dataSlots c slot).mp listed)) once

end Sys2Proof.Machine
end

section
/-! PROOFS. The fill arbiter's enqueue (R101, R103 to R105): the candidate chosen, the voice or the load whose block joins the
queue, and the read that an idle die begins at once (R121). -/

namespace Sys2Proof.Machine

/-! ### An entry in the queue -/

theorem insertEntry_mem (e : FetchEntry) (q : List FetchEntry) : e ∈ insertEntry e q := by
  induction q with
  | nil => exact List.mem_singleton_self e
  | cons x xs ih =>
    unfold insertEntry
    split
    · exact List.mem_cons_self
    · exact List.mem_cons_of_mem _ ih

/-- Where no entry of the queue has a property, the new one is the only one that has it. -/
theorem insertEntry_filter {p : FetchEntry → Bool} {e : FetchEntry} (has : p e = true) {q : List FetchEntry}
    (nobody : q.filter p = []) : (insertEntry e q).filter p = [e] := by
  induction q with
  | nil => exact List.filter_cons_of_pos has
  | cons x xs ih =>
    have lacks : ¬ p x = true := List.filter_eq_nil_iff.mp nobody x List.mem_cons_self
    rw [List.filter_cons_of_neg lacks] at nobody
    unfold insertEntry
    split
    · rw [List.filter_cons_of_pos has, List.filter_cons_of_neg lacks, nobody]
    · rw [List.filter_cons_of_neg lacks, ih nobody]

theorem insertEntry_erase_length (e : FetchEntry) (q : List FetchEntry) : ((insertEntry e q).erase e).length = q.length := by
  rw [List.length_erase_of_mem (insertEntry_mem e q), insertEntry_length]
  rfl

/-! ### The die's arbiter with one entry to choose -/

theorem State.arbitrate_busy {s : State} {d : Nat} (busy : (s.die d).operation.isSome = true) : s.arbitrate d = s :=
  if_pos (by rw [busy, Bool.or_true])

/-- The read of an entry has begun at an idle die (R121). -/
structure State.ReadBegun (s t : State) (d : Nat) (e : FetchEntry) : Prop where
  die : t.die d = { s.die d with state := .addressing, retries := 0, operation := some (s.begun (.read e)) }
  asked : .dieAddress d (e.address / 16) ∈ t.out
  queue : t.queue = s.queue.erase e
  voice : ∀ n, t.voice n = { s.voice n with reads := (s.voice n).reads + (e.owner.isVoice n).toNat }
  record : ∀ id, t.record id = { s.record id with loadReads := (s.record id).loadReads + (e.owner.isLoad id).toNat }
  others : ∀ x, x ≠ d → t.die x = s.die x

/-- With one entry in a sub-queue and nothing else waiting, that entry is the arbiter's choice (R129). -/
theorem State.dieChoice_only {s : State} {d : Nat} {e : FetchEntry} (polls : (s.die d).polls = [])
    (programs : (s.die d).programs = []) (only : s.subQueue d = [e]) : s.dieChoice d = some (.read e) := by
  unfold State.dieChoice
  rw [polls, programs, only]
  by_cases urgent : e.deadline ≤ s.pace.index + s.tunables.programGuard <;> simp [Option.filter, urgent]

theorem State.Arbitrated.begins {s t : State} {d : Nat} {e : FetchEntry} (h : s.Arbitrated t d) (polls : (s.die d).polls = [])
    (programs : (s.die d).programs = []) (only : s.subQueue d = [e]) : s.ReadBegun t d e := by
  have choice := State.dieChoice_only polls programs only
  obtain ⟨die, asked, queue, -, voice, record, others⟩ := h
  unfold State.readsBegun at voice record
  rw [choice] at die asked queue voice record
  refine ⟨die.trans ?_, asked, queue, voice, record, others⟩
  rw [polls]
  have same : s.die d = { s.die d with polls := [] } := by rw [← polls]
  rw [same]
  rfl

/-- The die takes an entry that has just joined the queue for it. -/
theorem State.arbitrate_begins {s u : State} {d : Nat} {e : FetchEntry} (calm : u.resetting = false) (idle : (s.die d).operation = none)
    (ready : (s.die d).state = .ready) (nothing : nothingWaits s d) (dies : u.dies = s.dies)
    (queue : u.queue = insertEntry e s.queue) (at_die : dieOf e.address = d) :
    u.ReadBegun (u.arbitrate d) d e ∧ u.DieKept (u.arbitrate d) := by
  obtain ⟨entries, programs, polls⟩ := nothing
  have die (x : Nat) : u.die x = s.die x := congrArg (Table.get Die.blank · x) dies
  have only : u.subQueue d = [e] := by
    unfold State.subQueue
    rw [queue]
    exact insertEntry_filter (by rw [at_die]; exact beq_self_eq_true d) entries
  obtain ⟨arbitrated, -⟩ := u.arbitrate_arbitrated d calm (by rw [die]; exact idle) (by rw [die]; exact ready)
  exact ⟨arbitrated.begins (by rw [die]; exact polls) (by rw [die]; exact programs) only, State.DieKept.arbitrate u d⟩

/-! ### A voice's enqueue -/

/-- The entry that the enqueue for a voice puts into the queue (R105). -/
def State.voiceEntry (s : State) (slot a : Nat) : FetchEntry :=
  { owner := .voice slot (s.voice slot).generation, address := a
    destination := .place (s.voice slot).window (s.window (s.voice slot).window).fill
    deadline := s.deadline (s.voice slot) (s.voice slot).cursor.stream, stamp := s.enqueueCount }

/-- A voice and its window have been given a run that is to be fetched. -/
structure State.VoiceQueued (s u : State) (slot : Nat) (l : Layout) : Prop where
  kept : u = { s with queue := u.queue, enqueueCount := u.enqueueCount, windows := u.windows, voices := u.voices }
  voice : u.voice slot = (s.voice slot).giveRun l
  others : ∀ n, n ≠ slot → u.voice n = s.voice n
  window : u.window (s.voice slot).window =
    s.takesRun l (s.voice slot) (s.window (s.voice slot).window) .awaited false
  windows : ∀ w, w ≠ (s.voice slot).window → u.window w = s.window w

theorem State.takesRun_fits {s : State} {l : Layout} {v : Voice} {w : Window} {place : Run → Place} {damaged : Bool}
    (fits : v.runFits l = true) : s.takesRun l v w place damaged =
      { w.setPlace w.fill (place (v.nextRun l damaged)) with fill := (w.fill + 1) % s.partition.windowBlocks } := by
  have below := of_decide_eq_true fits
  rw [Voice.runFrames, Voice.runEnd_eq] at below
  unfold State.takesRun Voice.nextRun Voice.runFrames
  rw [Voice.runEnd_eq]
  exact if_pos below

/-- The enqueue for a voice whose next run the stream count has room for (R105). -/
theorem State.enqueueVoice_fits {s : State} {slot : Nat} {l : Layout} (a : Nat) (layout : s.layoutOf (s.voice slot) = some l)
    (fits : (s.voice slot).runFits l = true) : s.VoiceQueued (s.enqueueVoice slot a) slot l ∧
      (s.enqueueVoice slot a).queue = insertEntry (s.voiceEntry slot a) s.queue ∧
      (s.enqueueVoice slot a).enqueueCount = s.enqueueCount + 1 := by
  have eq : s.enqueueVoice slot a = (({ s with
      queue := insertEntry (s.voiceEntry slot a) s.queue, enqueueCount := s.enqueueCount + 1 } : State).setWindow
        (s.voice slot).window (s.takesRun l (s.voice slot) (s.window (s.voice slot).window) .awaited false)).setVoice slot
        ((s.voice slot).giveRun l) := by
    simp only [State.enqueueVoice, layout, fits, if_true, State.takesRun_fits fits]
    rfl
  rw [eq]
  refine ⟨⟨rfl, State.voice_setVoice_same .., fun n h => State.voice_setVoice_other _ _ h, ?_, fun w h => ?_⟩, rfl, rfl⟩
  · exact State.window_setWindow_same ..
  · exact State.window_setWindow_other _ _ h

/-- The enqueue for a voice at the stream limit (R61). -/
theorem State.enqueueVoice_unfit {s : State} {slot : Nat} {l : Layout} (a : Nat) (layout : s.layoutOf (s.voice slot) = some l)
    (unfit : (s.voice slot).runFits l = false) : s.enqueueVoice slot a = s.setVoice slot ((s.voice slot).giveRun l) := by
  simp [State.enqueueVoice, layout, unfit]

/-- A voice has been given the run to be fetched, and then the runs due (R102). -/
structure State.VoiceFetched (s b : State) (slot : Nat) (l : Layout) : Prop where
  kept : b = { s with
    queue := b.queue, enqueueCount := b.enqueueCount, windows := b.windows, voices := b.voices, dram := b.dram }
  reads : (b.voice slot).reads = (s.voice slot).reads
  runs : b.RunsGiven l ((s.voice slot).giveRun l) (s.takesRun l (s.voice slot) (s.window (s.voice slot).window) .awaited false)
    (b.voice slot) (b.window (s.voice slot).window)
  place : (s.voice slot).runFits l = true → (b.window (s.voice slot).window).place (s.window (s.voice slot).window).fill =
    .awaited ((s.voice slot).nextRun l false)
  windows : ∀ w, w ≠ (s.voice slot).window → b.window w = s.window w
  others : ∀ n, n ≠ slot → b.voice n = s.voice n

theorem State.VoiceQueued.settled {s u : State} {slot : Nat} {l : Layout} (h : s.VoiceQueued u slot l)
    (calm : s.resetting = false) (layout : s.layoutOf (s.voice slot) = some l) :
    s.VoiceFetched (u.settleVoice slot) slot l := by
  have keep := State.settleVoice_keep u slot
  have judged := u.settleVoice_judged slot
  have runs := judged.kept
  have kept := h.kept
  rw [h.voice] at keep
  have given := Voice.RunsKeep.giveRun (s.voice slot) l
  have window := Voice.giveRun_window (s.voice slot) l
  have calm' : u.resetting = false := by
    rw [kept]
    exact calm
  have layout' : u.layoutOf (u.voice slot) = some l := by
    refine Eq.trans ?_ layout
    rw [h.voice, State.layoutOf_congr (show u.catalog = s.catalog by rw [kept])]
    have same : ((s.voice slot).giveRun l).sampleId = (s.voice slot).sampleId := by rw [(VoiceStep.giveRun (s.voice slot) l).kept]
    unfold State.layoutOf
    rw [same]
  refine ⟨?_, keep.reads.trans given.reads, ?_, fun fits => ?_, fun w other => ?_, fun n other => ?_⟩
  · unfold State.KeptButRuns at runs
    generalize u.settleVoice slot = b at runs
    rw [runs, kept]
  · have due := u.settleVoice_runs slot l layout' calm'
    rw [h.voice, window, h.window] at due
    exact State.RunsGiven.congr (by rw [runs]) (by rw [runs]) (fun d => by rw [runs]; rfl) (by rw [runs]) due
  · have awaited : (u.window (s.voice slot).window).place (s.window (s.voice slot).window).fill =
        .awaited ((s.voice slot).nextRun l false) := by
      rw [h.window, State.takesRun_fits fits]
      exact Window.place_setPlace_same (s.window (s.voice slot).window) (s.window (s.voice slot).window).fill
        (.awaited ((s.voice slot).nextRun l false))
    obtain same | ⟨empty, -⟩ := (u.settleVoice_judging slot).places (s.voice slot).window (s.window (s.voice slot).window).fill
    · exact same.trans awaited
    · rw [awaited] at empty
      cases empty
  · refine (judged.windows w fun n is _ => ?_).trans (h.windows w other)
    rw [show n = slot from is, h.voice, window]
    exact other.symm
  · exact (judged.others n other).trans (h.others n other)

/-- A voice at its end is given no run. -/
theorem State.settleVoice_atEnd {s : State} {slot : Nat} (h : (s.voice slot).cursor.atEnd = true) : s.settleVoice slot = s := by
  have idle : s.runDue (s.voice slot) = false := by
    rw [← Bool.not_eq_true, State.runDue_iff]
    rintro ⟨-, going, -⟩
    rw [h] at going
    cases going
  unfold State.settleVoice
  split
  · rfl
  · cases s.runFuel (s.voice slot) with
    | zero => rfl
    | succ fuel =>
      rw [State.giveRuns]
      cases s.layoutOf (s.voice slot) with
      | none => rfl
      | some l => simp [State.headRunDue, State.candidate, idle]

/-- The work of an enqueue for a voice. -/
theorem work_fetchVoice {s : State} {slot a : Nat} (chosen : s.fillChoice = some (.voice slot a)) :
    work .fetchEnqueue s = ((s.enqueueVoice slot a).settleVoice slot).arbitrate (dieOf a) := by
  show s.fetchEnqueue = _
  unfold State.fetchEnqueue
  rw [chosen]

theorem State.fillChoice_calm {s : State} {c : Candidate} (h : s.fillChoice = some c) : s.resetting = false := by
  unfold State.fillChoice at h
  split at h
  · cases h
  · rename_i open_
    rw [Bool.or_eq_true, not_or] at open_
    exact (Bool.not_eq_true _).mp open_.1

theorem State.voiceFetched {s : State} {slot : Nat} {l : Layout} (a : Nat) (calm : s.resetting = false)
    (layout : s.layoutOf (s.voice slot) = some l) (fits : (s.voice slot).runFits l = true) :
    s.VoiceFetched ((s.enqueueVoice slot a).settleVoice slot) slot l ∧
      ((s.enqueueVoice slot a).settleVoice slot).queue = insertEntry (s.voiceEntry slot a) s.queue ∧
      ((s.enqueueVoice slot a).settleVoice slot).enqueueCount = s.enqueueCount + 1 := by
  obtain ⟨queued, queue, count⟩ := State.enqueueVoice_fits a layout fits
  refine ⟨queued.settled calm layout, ?_, ?_⟩
  · rw [((s.enqueueVoice slot a).settleVoice_judged slot).kept]
    exact queue
  · rw [((s.enqueueVoice slot a).settleVoice_judged slot).kept]
    exact count

/-- What the runs due are given by is not changed by what the die arbiter does or the end of the event writes. -/
theorem State.RunsGiven.kept {s t : State} {l : Layout} {u v : Voice} {w x : Window} (h : s.RunsGiven l u w v x)
    (like : t = { s with
      catalog := t.catalog, voices := t.voices, queue := t.queue, dies := t.dies, stores := t.stores, out := t.out
      completions := t.completions, requests := t.requests, delivery := t.delivery, registers := t.registers })
    (dies : ∀ d, (t.die d).state = .offline ↔ (s.die d).state = .offline) : t.RunsGiven l u w v x :=
  State.RunsGiven.congr (by rw [like]) (by rw [like]) dies (by rw [like]) h

/-- An enqueue for a voice whose block lies on a busy die. -/
theorem fetchEnqueue_voiceBusy {s : State} {slot a : Nat} {l : Layout} (chosen : s.fillChoice = some (.voice slot a))
    (layout : s.layoutOf (s.voice slot) = some l) (fits : (s.voice slot).runFits l = true)
    (busy : (s.die (dieOf a)).operation.isSome = true) :
    ∃ b t, exec .fetchEnqueue s = .next t ∧ s.VoiceFetched b slot l ∧ Closed b t ∧
      b.queue = insertEntry (s.voiceEntry slot a) s.queue ∧ b.enqueueCount = s.enqueueCount + 1 := by
  obtain ⟨t, ht, ended⟩ := exec_ended .fetchEnqueue s
  obtain ⟨fetched, queue, count⟩ := State.voiceFetched a (State.fillChoice_calm chosen) layout fits
  rw [work_fetchVoice chosen, State.arbitrate_busy] at ended
  · exact ⟨_, t, ht, fetched, ended.posted.closed, queue, count⟩
  · rw [show ((s.enqueueVoice slot a).settleVoice slot).die (dieOf a) = s.die (dieOf a) by rw [fetched.kept]; rfl]
    exact busy

/-- An enqueue for a voice whose block lies on an idle die. -/
theorem fetchEnqueue_voiceIdle {s : State} {slot a : Nat} {l : Layout} (chosen : s.fillChoice = some (.voice slot a))
    (layout : s.layoutOf (s.voice slot) = some l) (fits : (s.voice slot).runFits l = true)
    (ready : (s.die (dieOf a)).state = .ready) (idle : (s.die (dieOf a)).operation = none) (nothing : nothingWaits s (dieOf a)) :
    ∃ b t, exec .fetchEnqueue s = .next t ∧ s.VoiceFetched b slot l ∧ b.ReadBegun t (dieOf a) (s.voiceEntry slot a) ∧
      b.queue = insertEntry (s.voiceEntry slot a) s.queue ∧ b.enqueueCount = s.enqueueCount + 1 ∧
      ∃ c, b.DieKept c ∧ Closed c t := by
  obtain ⟨t, ht, ended⟩ := exec_ended .fetchEnqueue s
  have calm := State.fillChoice_calm chosen
  obtain ⟨fetched, queue, count⟩ := State.voiceFetched a calm layout fits
  rw [work_fetchVoice chosen] at ended
  generalize (s.enqueueVoice slot a).settleVoice slot = b at ended fetched queue count
  have kept := fetched.kept
  obtain ⟨begun, arbitrated⟩ := State.arbitrate_begins (e := s.voiceEntry slot a)
    (by rw [kept]; exact calm) idle ready nothing (by rw [kept]) queue rfl
  have closed := ended.posted.closed
  refine ⟨b, t, ht, fetched, ⟨?_, closed.1.mem begun.asked, ?_, fun n => ?_, fun id => ?_, fun x other => ?_⟩, queue, count, _,
    arbitrated, closed⟩
  · rw [closed.die, begun.die]
  · rw [closed.queue, begun.queue]
  · rw [closed.voice, begun.voice]
  · rw [closed.record, begun.record]
  · rw [closed.die, begun.others x other]

/-! ### A load's enqueue -/

/-- The entry that the enqueue for a load puts into the queue (R105). -/
def State.loadEntry (s : State) (id a : Nat) (l : Load) : FetchEntry :=
  { owner := .load id (s.record id).generation, address := a, destination := .headBlock l.slot l.nextBlock
    deadline := s.pace.index + s.tunables.loadAllowance, stamp := s.enqueueCount }

/-- The part after an enqueue for a load. -/
def State.loadQueued (s : State) (id a : Nat) (l : Load) : State :=
  ({ s with queue := insertEntry (s.loadEntry id a l) s.queue, enqueueCount := s.enqueueCount + 1 } : State).setRecord id
    { s.record id with load := some { l with nextBlock := l.nextBlock + 1 } }

theorem State.enqueueLoad_queued {s : State} {id : Nat} {l : Load} (a : Nat) (load : (s.record id).load = some l) :
    s.enqueueLoad id a = s.loadQueued id a l := by
  simp only [State.enqueueLoad, load]
  rfl

theorem State.nextHeadOffline_online {s : State} (online : ∀ d, s.dieOffline d = false) (id : Nat) :
    s.nextHeadOffline id = false := by
  unfold State.nextHeadOffline
  split
  · exact online _
  · rfl

theorem work_fetchLoad {s : State} {id a : Nat} {l : Load} (chosen : s.fillChoice = some (.load id a))
    (load : (s.record id).load = some l) (online : ∀ d, s.dieOffline d = false) :
    work .fetchEnqueue s = (s.loadQueued id a l).arbitrate (dieOf a) := by
  show s.fetchEnqueue = _
  unfold State.fetchEnqueue
  rw [chosen]
  simp only [State.enqueueForLoad, State.enqueueLoad_queued a load]
  exact if_neg (by rw [State.nextHeadOffline_online (s := s.loadQueued id a l) online]; exact Bool.false_ne_true)

/-! ### The choice -/

theorem State.loadAddress_iff {r : Record} {a : Nat} : r.loadAddress = some a ↔
    ∃ l y, r.load = some l ∧ r.layout = some y ∧ l.nextBlock < y.headBlocks ∧ blockAddress y.extents l.nextBlock = some a := by
  unfold Record.loadAddress
  cases r.load with
  | none => simp
  | some l =>
    cases r.layout with
    | none => simp
    | some y => by_cases h : l.nextBlock < y.headBlocks <;> simp [h]

theorem State.dieOffline_false {s : State} {d : Nat} : s.dieOffline d = false ↔ (s.die d).state ≠ .offline := by
  simp [State.dieOffline]

theorem State.loadCandidate_iff {s : State} (c : s.Canonical) {id a : Nat} :
    .load id a ∈ s.loadCandidates ↔ s.waitsForFetch (.load id a) := by
  have each (r : Record) (k : Nat) : (match r.loadAddress with
      | some a => if s.dieOffline (dieOf a) then none else some (Candidate.load k a)
      | none => none) = some (.load id a) ↔ k = id ∧ r.loadAddress = some a ∧ s.dieOffline (dieOf a) = false := by
    cases r.loadAddress with
    | none => simp
    | some b =>
      by_cases off : s.dieOffline (dieOf b) = true
      · simp only [off, if_true, Option.some.injEq]
        refine ⟨nofun, ?_⟩
        rintro ⟨-, rfl, on⟩
        rw [off] at on
        cases on
      · simp only [off, Option.some.injEq]
        constructor
        · intro h
          cases h
          exact ⟨rfl, rfl, (Bool.not_eq_true _).mp off⟩
        · rintro ⟨rfl, rfl, -⟩
          rfl
  unfold State.loadCandidates
  rw [List.mem_filterMap]
  show _ ↔ (_ ∧ (s.die (dieOf a)).state ≠ .offline)
  rw [← State.loadAddress_iff, ← State.dieOffline_false]
  constructor
  · rintro ⟨e, listed, is⟩
    obtain ⟨rfl, address, online⟩ := (each e.2 e.1).mp is
    rw [show s.record e.1 = e.2 from Table.get_of_mem _ _ ((Table.wf_iff _ _).mp c.catalog).1 listed]
    exact ⟨address, online⟩
  · rintro ⟨address, online⟩
    obtain listed | blank := Table.get_mem Record.blank s.catalog id
    · exact ⟨_, listed, (each _ id).mpr ⟨rfl, address, online⟩⟩
    · unfold State.record at address
      rw [blank] at address
      cases address

theorem State.candidate_iff {s : State} {v : Voice} {l : Layout} {a : Nat} :
    (s.candidate v l = true ∧ v.candidateAddress l = some a) ↔ s.wantsRun v ∧ v.storeNext l (s.window v.window) a := by
  unfold State.candidate Voice.storeNext Voice.headNext State.fillPointEmpty Voice.candidateAddress
  simp only [Bool.and_eq_true, State.runDue_iff, Bool.not_eq_true', Bool.and_eq_false_iff, beq_iff_eq, decide_eq_false_iff_not,
    Nat.not_lt, and_assoc]

theorem State.voiceCandidate_iff {s : State} (c : s.Canonical) {slot a : Nat} :
    .voice slot a ∈ s.voiceCandidates ↔ s.waitsForFetch (.voice slot a) := by
  have each (v : Voice) (k : Nat) : (match s.layoutOf v with
      | none => none
      | some l =>
        match v.candidateAddress l with
        | some a => if s.candidate v l && !s.dieOffline (dieOf a) then some (Candidate.voice k a) else none
        | none => none) = some (.voice slot a) ↔
      k = slot ∧ (∃ l, s.layoutOf v = some l ∧ s.candidate v l = true ∧ v.candidateAddress l = some a) ∧
        s.dieOffline (dieOf a) = false := by
    cases s.layoutOf v with
    | none => simp
    | some l =>
      dsimp only
      cases address : v.candidateAddress l with
      | none => simp [address]
      | some b =>
        by_cases due : (s.candidate v l && !s.dieOffline (dieOf b)) = true
        · obtain ⟨candidate, online⟩ := Bool.and_eq_true_iff.mp due
          simp only [due, if_true, Option.some.injEq]
          constructor
          · intro h
            cases h
            exact ⟨rfl, ⟨l, rfl, candidate, address⟩, (Bool.not_eq_true' _).mp online⟩
          · rintro ⟨rfl, ⟨_, rfl, -, same⟩, -⟩
            cases address.symm.trans same
            rfl
        · simp only [due]
          refine ⟨nofun, ?_⟩
          rintro ⟨-, ⟨_, same, candidate, at_a⟩, online⟩
          cases same
          cases address.symm.trans at_a
          exact absurd (Bool.and_eq_true_iff.mpr ⟨candidate, (Bool.not_eq_true' _).mpr online⟩) due
  have waits : s.waitsForFetch (.voice slot a) ↔ (∃ l, s.layoutOf (s.voice slot) = some l ∧ s.candidate (s.voice slot) l = true ∧
      (s.voice slot).candidateAddress l = some a) ∧ s.dieOffline (dieOf a) = false := by
    simp only [State.candidate_iff, State.dieOffline_false]
    constructor
    · rintro ⟨wants, ⟨l, layout, next⟩, online⟩
      exact ⟨⟨l, layout, wants, next⟩, online⟩
    · rintro ⟨⟨l, layout, wants, next⟩, online⟩
      exact ⟨wants, ⟨l, layout, next⟩, online⟩
  unfold State.voiceCandidates
  rw [List.mem_filterMap, waits]
  constructor
  · rintro ⟨e, listed, is⟩
    obtain ⟨rfl, due⟩ := (each e.2 e.1).mp is
    rw [State.voice_of_mem c.voices listed]
    exact due
  · intro due
    obtain listed | blank := Table.get_mem Voice.blank s.voices slot
    · exact ⟨_, listed, (each _ slot).mpr ⟨rfl, due⟩⟩
    · obtain ⟨⟨l, -, candidate, address⟩, -⟩ := due
      obtain ⟨⟨state, -⟩, -⟩ := State.candidate_iff.mp ⟨candidate, address⟩
      unfold State.voice at state
      rw [blank] at state
      obtain h | h | h := state <;> cases h

theorem State.mem_candidates {s : State} (c : s.Canonical) (x : Candidate) :
    x ∈ s.loadCandidates ++ s.voiceCandidates ↔ s.waitsForFetch x := by
  have noVoice {slot a : Nat} : .voice slot a ∉ s.loadCandidates := by
    intro h
    obtain ⟨e, -, is⟩ := List.mem_filterMap.mp h
    split at is
    · split at is <;> cases is
    · cases is
  have noLoad {id a : Nat} : .load id a ∉ s.voiceCandidates := by
    intro h
    obtain ⟨e, -, is⟩ := List.mem_filterMap.mp h
    split at is
    · cases is
    · split at is
      · split at is <;> cases is
      · cases is
  rw [List.mem_append]
  cases x with
  | load id a => rw [← State.loadCandidate_iff c, or_iff_left noLoad]
  | voice slot a => rw [← State.voiceCandidate_iff c, or_iff_right noVoice]

/-- The block that waits for a load or a voice is one. -/
theorem State.waitsForFetch_load {s : State} {id a b : Nat} (h : s.waitsForFetch (.load id a)) (k : s.waitsForFetch (.load id b)) :
    a = b :=
  Option.some.inj ((State.loadAddress_iff.mpr h.1).symm.trans (State.loadAddress_iff.mpr k.1))

theorem State.waitsForFetch_voice {s : State} {slot a b : Nat} (h : s.waitsForFetch (.voice slot a))
    (k : s.waitsForFetch (.voice slot b)) : a = b := by
  obtain ⟨-, ⟨l, layout, -, -, at_a⟩, -⟩ := h
  obtain ⟨-, ⟨l', layout', -, -, at_b⟩, -⟩ := k
  cases layout.symm.trans layout'
  exact Option.some.inj (at_a.symm.trans at_b)

/-- The key of the fill arbiter's choice (R104). -/
theorem candidateKey_before {due1 due2 kind1 kind2 p1 p2 m n : Nat} (h : keyBefore [due1, kind1, p1, m] [due2, kind2, p2, n] = false) :
    due2 < due1 ∨ (due2 = due1 ∧ (kind2 < kind1 ∨ (kind2 = kind1 ∧ (p2 < p1 ∨ (p2 = p1 ∧ n ≤ m))))) := by
  simp only [keyBefore, Bool.or_eq_false_iff, Bool.and_eq_false_iff, decide_eq_false_iff_not, beq_eq_false_iff_ne] at h
  omega

theorem State.candidate_first {s : State} (top : ∀ m, (s.voice m).priority ≤ 15) {c x : Candidate} (waits : s.waitsForFetch c)
    (waits' : s.waitsForFetch x) (apart : x ≠ c) (least : keyBefore (s.candidateKey x) (s.candidateKey c) = false) :
    s.candidateDeadline c < s.candidateDeadline x ∨
      (s.candidateDeadline c = s.candidateDeadline x ∧ s.servedBefore c x) := by
  cases c with
  | load i a =>
    cases x with
    | load j b =>
      have ids : i ≠ j := by
        rintro rfl
        exact apart (by rw [State.waitsForFetch_load waits waits'])
      have before := candidateKey_before least
      simp only [State.servedBefore]
      omega
    | voice n b =>
      have before := candidateKey_before least
      simp only [State.servedBefore, and_true]
      omega
  | voice m a =>
    cases x with
    | load j b =>
      have before := candidateKey_before least
      simp only [State.servedBefore, and_false, or_false]
      omega
    | voice n b =>
      have slots : m ≠ n := by
        rintro rfl
        exact apart (by rw [State.waitsForFetch_voice waits waits'])
      have before := candidateKey_before least
      have high := top m
      have high' := top n
      simp only [State.servedBefore]
      omega

theorem State.ready_of_calm {s : State} (calm : s.resetting = false) : s.registers.engine = .ready := by
  unfold State.resetting at calm
  cases engine : s.registers.engine with
  | ready => rfl
  | resetting =>
    rw [engine] at calm
    cases calm

theorem State.fillChoice_first {s : State} (canonical : s.Canonical) (top : ∀ m, (s.voice m).priority ≤ 15) :
    (∀ c, s.fillChoice = some c → s.registers.engine = .ready ∧ s.queue.length < 4096 ∧ s.waitsForFetch c ∧
      ∀ x, s.waitsForFetch x → x ≠ c → s.candidateDeadline c < s.candidateDeadline x ∨
        (s.candidateDeadline c = s.candidateDeadline x ∧ s.servedBefore c x)) ∧
    (s.fillChoice = none → s.registers.engine = .ready → s.queue.length < 4096 → ∀ x, ¬ s.waitsForFetch x) := by
  have members := State.mem_candidates canonical
  refine ⟨fun c chosen => ?_, fun none ready room x waits => ?_⟩
  · have calm := State.fillChoice_calm chosen
    have room := State.fillChoice_room chosen
    unfold State.fillChoice at chosen
    split at chosen
    · cases chosen
    · have keys : ∀ x ∈ s.loadCandidates ++ s.voiceCandidates, (s.candidateKey x).length = 4 := fun x _ => by cases x <;> rfl
      obtain ⟨listed, least⟩ := leastBy_some _ 4 _ keys c chosen
      have waits := (members c).mp listed
      refine ⟨State.ready_of_calm calm, room, waits, fun x waits' apart => ?_⟩
      exact State.candidate_first top waits waits' apart (least x ((members x).mpr waits'))
  · have calm := State.not_resetting_of ready
    have empty : s.loadCandidates ++ s.voiceCandidates = [] := by
      unfold State.fillChoice at none
      rw [calm, if_neg (by rw [Bool.false_or, decide_eq_true_eq]; exact Nat.not_le.mpr room)] at none
      exact leastBy_none _ _ none
    have listed := (members x).mpr waits
    rw [empty] at listed
    cases listed

/-! ### The deadline -/

/-- The least count of periods in which a voice consumes what it lacks (R99). -/
theorem periods_least {step lacks : Nat} (moves : 0 < step) :
    lacks ≤ (lacks + (step - 1)) / step * step ∧ ∀ m, lacks ≤ m * step → (lacks + (step - 1)) / step ≤ m := by
  constructor
  · have whole := Nat.div_add_mod (lacks + (step - 1)) step
    have part := Nat.mod_lt (lacks + (step - 1)) moves
    rw [Nat.mul_comm] at whole
    omega
  · intro m enough
    rw [← Nat.lt_succ_iff, Nat.div_lt_iff_lt_mul moves, Nat.succ_mul]
    omega

theorem State.candidateDeadline_least (s : State) (slot a : Nat) (moves : 0 < s.pace.period * (s.voice slot).rate) :
    ∃ n, s.candidateDeadline (.voice slot a) = s.pace.index + n ∧
      (s.voice slot).cursor.stream * 65536 ≤ (s.voice slot).consumed + n * (s.pace.period * (s.voice slot).rate) ∧
      ∀ m, (s.voice slot).cursor.stream * 65536 ≤ (s.voice slot).consumed + m * (s.pace.period * (s.voice slot).rate) → n ≤ m := by
  obtain ⟨enough, least⟩ := periods_least moves
    (lacks := (s.voice slot).cursor.stream * 65536 - (s.voice slot).consumed)
  exact ⟨_, rfl, Nat.sub_le_iff_le_add'.mp enough, fun m covers => least m (Nat.sub_le_iff_le_add'.mpr covers)⟩

/-! ### The obligation -/

theorem State.VoiceFetched.given {s b : State} {slot : Nat} {l : Layout} (h : s.VoiceFetched b slot l) {t : State}
    (closed : Closed b t) : t.RunsGiven l ((s.voice slot).giveRun l)
      (s.takesRun l (s.voice slot) (s.window (s.voice slot).window) .awaited false) (t.voice slot)
      (t.window (s.voice slot).window) := by
  rw [closed.voice, closed.window]
  exact h.runs.kept (by rw [closed.2]) fun d => by rw [closed.die]

/-- The enqueue for a voice at the stream limit. -/
theorem fetchEnqueue_unfit {s : State} {slot a : Nat} {l : Layout} (chosen : s.fillChoice = some (.voice slot a))
    (layout : s.layoutOf (s.voice slot) = some l) (unfit : (s.voice slot).runFits l = false)
    (quiet : (s.die (dieOf a)).operation.isSome = true ∨ nothingWaits s (dieOf a)) :
    ∃ t, exec .fetchEnqueue s = .next t ∧ Closed (s.setVoice slot ((s.voice slot).giveRun l)) t := by
  obtain ⟨t, ht, ended⟩ := exec_ended .fetchEnqueue s
  rw [work_fetchVoice chosen, State.enqueueVoice_unfit a layout unfit] at ended
  have ends : ((s.voice slot).giveRun l).cursor.atEnd = true := by
    unfold Voice.giveRun
    rw [if_neg (by rw [unfit]; exact Bool.false_ne_true)]
    rfl
  have stays : (s.setVoice slot ((s.voice slot).giveRun l)).settleVoice slot = s.setVoice slot ((s.voice slot).giveRun l) :=
    State.settleVoice_atEnd (by rw [State.voice_setVoice_same]; exact ends)
  rw [stays] at ended
  have nothing : (s.setVoice slot ((s.voice slot).giveRun l)).arbitrate (dieOf a) = s.setVoice slot ((s.voice slot).giveRun l) := by
    obtain busy | waits := quiet
    · exact State.arbitrate_busy busy
    · exact State.arbitrate_nothing waits
  rw [nothing] at ended
  exact ⟨t, ht, ended.posted.closed⟩

/-- Settles O52: the enqueue for a voice and for a load, at a busy and at an idle die; the choice, and its deadlines. -/
theorem enqueueMade : Obligations.EnqueueMade := by
  refine ⟨fun s slot a l chosen layout fits => ⟨fun busy => ?_, fun ready idle nothing => ?_⟩,
    fun s slot a l chosen layout unfit quiet => ?_, fun s id a l chosen load busy online => ?_,
    fun s id a l chosen load ready idle nothing online => ?_, fun s none settled => ?_,
    fun s canonical top => State.fillChoice_first canonical top, fun _ _ _ => rfl,
    fun s slot a moves => s.candidateDeadline_least slot a moves⟩
  · obtain ⟨b, t, ht, fetched, closed, queue, count⟩ := fetchEnqueue_voiceBusy chosen layout fits busy
    refine ⟨t, ht, ?_, ?_, ?_, ?_, ?_, fun x => ?_, ⟨_, (s.voice slot).giveRun_given l, fetched.given closed⟩, fun x other => ?_,
      fun n other => ?_⟩
    · rw [closed.2]
      exact count
    · rw [closed.queue, queue]
      exact insertEntry_mem _ _
    · rw [closed.queue, queue]
      exact insertEntry_length _ _
    · rw [closed.window]
      exact fetched.place fits
    · rw [closed.voice]
      exact fetched.reads
    · rw [closed.die, fetched.kept]
      rfl
    · rw [closed.window, fetched.windows x other]
    · rw [closed.voice, fetched.others n other]
  · obtain ⟨b, t, ht, fetched, begun, queue, count, c, arbitrated, closed⟩ :=
      fetchEnqueue_voiceIdle chosen layout fits ready idle nothing
    have windows (x : Nat) : t.window x = b.window x := by
      rw [closed.window, arbitrated]
      rfl
    have kept := fetched.kept
    have die (x : Nat) : b.die x = s.die x := by
      rw [kept]
      rfl
    have moved : t.voice slot = { b.voice slot with reads := (s.voice slot).reads + 1 } := by
      rw [begun.voice, fetched.reads]
      exact congrArg (fun k : Bool => { b.voice slot with reads := (s.voice slot).reads + k.toNat }) (beq_self_eq_true slot)
    refine ⟨t, ht, ?_, ?_, ?_, ⟨_, b.voice slot, (s.voice slot).giveRun_given l, ?_, moved⟩, fun x other => ?_, fun n other => ?_,
      ?_, begun.asked⟩
    · rw [closed.2, arbitrated]
      exact count
    · rw [begun.queue, queue]
      exact insertEntry_erase_length _ _
    · rw [moved]
    · rw [windows]
      refine State.RunsGiven.congr ?_ ?_ (fun d => ?_) ?_ fetched.runs
      · rw [closed.2, arbitrated]
      · rw [closed.2, arbitrated]
      · by_cases h : d = dieOf a
        · rw [h, begun.die, die, ready]
          exact ⟨nofun, nofun⟩
        · rw [begun.others d h]
      · rw [closed.2, arbitrated]
    · rw [windows, fetched.windows x other]
    · rw [begun.voice, fetched.others n other]
      exact congrArg (fun k : Bool => { s.voice n with reads := (s.voice n).reads + k.toNat })
        (beq_eq_false_iff_ne.mpr other.symm)
    · rw [begun.die, die]
      have same : b.begun (.read (s.voiceEntry slot a)) = s.begun (.read (s.voiceEntry slot a)) := by
        rw [kept]
        rfl
      rw [same]
      rfl
  · obtain ⟨t, ht, closed⟩ := fetchEnqueue_unfit chosen layout unfit quiet
    refine ⟨t, ht, ?_, ⟨closed.queue, by rw [closed.2]; rfl⟩, ⟨fun d => closed.die d, by rw [closed.2]; rfl⟩, fun n other => ?_,
      fun w => closed.window w⟩
    · rw [closed.voice, State.voice_setVoice_same]
      exact (s.voice slot).giveRun_given l
    · rw [closed.voice]
      exact State.voice_setVoice_other s _ other
  · obtain ⟨t, ht, ended⟩ := exec_ended .fetchEnqueue s
    have closed := ended.posted.closed
    rw [work_fetchLoad chosen load online, State.arbitrate_busy (s := s.loadQueued id a l) busy] at closed
    refine ⟨t, ht, ?_, ?_, ?_, fun x => closed.die x⟩
    · rw [closed.2]
      rfl
    · rw [closed.record]
      exact congrArg Record.load (State.record_setRecord_same _ id _)
    · rw [closed.queue]
      exact insertEntry_mem (s.loadEntry id a l) _
  · obtain ⟨t, ht, ended⟩ := exec_ended .fetchEnqueue s
    have closed := ended.posted.closed
    rw [work_fetchLoad chosen load online] at closed
    have calm : s.resetting = false := State.fillChoice_calm chosen
    obtain ⟨begun, arbitrated⟩ := State.arbitrate_begins (s := s) (u := s.loadQueued id a l) (e := s.loadEntry id a l)
      calm idle ready nothing rfl rfl rfl
    refine ⟨t, ht, ?_, ?_, ?_, fun j other => ?_, ⟨fun n => ?_, fun w => ?_, ?_⟩, fun x other => ?_, ?_, closed.1.mem begun.asked⟩
    · rw [closed.2, arbitrated]
      rfl
    · rw [closed.queue, begun.queue]
      exact insertEntry_erase_length (s.loadEntry id a l) _
    · rw [closed.record, begun.record, show (s.loadQueued id a l).record id = _ from State.record_setRecord_same _ id _]
      exact congrArg (fun k : Bool => { s.record id with
        load := some { l with nextBlock := l.nextBlock + 1 }, loadReads := (s.record id).loadReads + k.toNat })
        (beq_self_eq_true id)
    · rw [closed.record, begun.record, show (s.loadQueued id a l).record j = s.record j from State.record_setRecord_other _ _ other]
      exact congrArg (fun k : Bool => { s.record j with loadReads := (s.record j).loadReads + k.toNat })
        (beq_eq_false_iff_ne.mpr other.symm)
    · rw [closed.voice, begun.voice]
      rfl
    · rw [closed.window, arbitrated]
      rfl
    · rw [closed.2, arbitrated]
      rfl
    · rw [closed.die, begun.others x other]
      rfl
    · rw [closed.die, begun.die]
      rfl
  · refine event_silent (f := State.fetchEnqueue) ?_ settled rfl
    unfold State.fetchEnqueue
    rw [none]

end Sys2Proof.Machine
end

section
/-! PROOFS. A die that goes OFFLINE (R112, R126): the stages of the event, and what each of them leaves alone. -/

namespace Sys2Proof.Machine

/-! ### What no stage changes -/

/-- What the loss of a die's entries leaves: the dies lose programs alone, the queue only shrinks, no completion is lost. -/
structure State.Loses (s t : State) : Prop where
  kept : t = { s with
    catalog := t.catalog, voices := t.voices, windows := t.windows, dram := t.dram, queue := t.queue, dies := t.dies
    stores := t.stores, reclaiming := t.reclaiming, recency := t.recency, completions := t.completions }
  dies : s.Canonical → ∀ x, t.die x = { s.die x with programs := (t.die x).programs } ∧
    (t.die x).programs.Sublist (s.die x).programs
  queue : t.queue.Sublist s.queue
  done : ∀ c ∈ s.completions, c ∈ t.completions
  inner : Inner s t

theorem State.Loses.refl (s : State) : s.Loses s :=
  ⟨rfl, fun _ _ => ⟨rfl, List.Sublist.refl _⟩, List.Sublist.refl _, fun _ h => h, Inner.refl s⟩

theorem State.Loses.trans {s t u : State} (h : s.Loses t) (k : t.Loses u) : s.Loses u where
  kept := k.kept.trans (by rw [h.kept])
  dies c x := by
    obtain ⟨same, fewer⟩ := h.dies c x
    obtain ⟨same', fewer'⟩ := k.dies (h.inner.canonical c) x
    exact ⟨same'.trans (by rw [same]), fewer'.trans fewer⟩
  queue := k.queue.trans h.queue
  done c listed := k.done c (h.done c listed)
  inner := h.inner.trans k.inner

theorem State.Loses.ite {s t u : State} {c : Prop} [Decidable c] (h : s.Loses t) (k : s.Loses u) :
    s.Loses (if c then t else u) := by
  split
  · exact h
  · exact k

theorem State.Loses.foldl {α : Type} (f : State → α → State) (h : ∀ (s : State) x, s.Loses (f s x)) (l : List α) :
    ∀ s : State, s.Loses (l.foldl f s) := by
  induction l with
  | nil => exact State.Loses.refl
  | cons x l ih => exact fun s => (h s x).trans (ih _)

section
variable {s t : State} (h : s.Loses t)
include h

theorem State.Loses.pace : t.pace = s.pace := by rw [h.kept]
theorem State.Loses.tunables : t.tunables = s.tunables := by rw [h.kept]
theorem State.Loses.partition : t.partition = s.partition := by rw [h.kept]
theorem State.Loses.out : t.out = s.out := by rw [h.kept]
theorem State.Loses.registers : t.registers = s.registers := by rw [h.kept]

theorem State.Loses.resetting : t.resetting = s.resetting := by
  unfold State.resetting
  rw [h.registers]

theorem State.Loses.dieState (c : s.Canonical) (x : Nat) : (t.die x).state = (s.die x).state := by rw [(h.dies c x).1]

theorem State.Loses.generation (n : Nat) : (t.voice n).generation = (s.voice n).generation := by rw [(h.inner.voices n).kept]
theorem State.Loses.sampleId (n : Nat) : (t.voice n).sampleId = (s.voice n).sampleId := by rw [(h.inner.voices n).kept]
theorem State.Loses.sampleGeneration (n : Nat) : (t.voice n).sampleGeneration = (s.voice n).sampleGeneration := by
  rw [(h.inner.voices n).kept]

end

/-- A stage that leaves the dies and the STOREs alone. -/
theorem State.Loses.of_dies {s t : State} (kept : t = { s with
      catalog := t.catalog, voices := t.voices, windows := t.windows, dram := t.dram, queue := t.queue
      reclaiming := t.reclaiming, recency := t.recency, completions := t.completions })
    (queue : t.queue.Sublist s.queue) (done : ∀ c ∈ s.completions, c ∈ t.completions) (inner : Inner s t) : s.Loses t where
  kept := by rw [kept]
  dies _ x := by
    have same : t.die x = s.die x := by rw [kept]; rfl
    rw [same]
    exact ⟨rfl, List.Sublist.refl _⟩
  queue := queue
  done := done
  inner := inner

/-- A stage that leaves the queue and the completions too. -/
theorem State.Loses.of_staging {s t : State} (kept : t = { s with
      catalog := t.catalog, voices := t.voices, windows := t.windows, dram := t.dram, reclaiming := t.reclaiming })
    (inner : Inner s t) : s.Loses t := by
  have queue : t.queue = s.queue := by rw [kept]
  exact .of_dies (by rw [kept]) (queue ▸ List.Sublist.refl _) (by rw [kept]; exact fun _ h => h) inner

theorem State.Loses.settleVoice (s : State) (slot : Nat) : s.Loses (s.settleVoice slot) :=
  .of_staging (by rw [(s.settleVoice_judged slot).kept]) (Inner.settleVoice s slot)

theorem State.Loses.settleVoices (s : State) : s.Loses s.settleVoices := State.Loses.foldl _ State.Loses.settleVoice _ s

/-! ### Voices and loads -/

theorem State.settleRetiring_done (s : State) (id : Nat) : ∀ c ∈ s.completions, c ∈ (s.settleRetiring id).completions := by
  intro c listed
  simp only [State.settleRetiring]
  split
  · split
    · exact List.mem_cons_of_mem _ listed
    · exact listed
  · exact listed

theorem State.settleRetiring_queue (s : State) (id : Nat) : (s.settleRetiring id).queue = s.queue := by
  simp only [State.settleRetiring]
  split
  · split <;> rfl
  · rfl

theorem State.dropReference_done (s : State) (id : Nat) (g : Generation) :
    ∀ c ∈ s.completions, c ∈ (s.dropReference id g).completions := by
  intro c listed
  simp only [State.dropReference]
  split
  · exact State.settleRetiring_done _ id c listed
  · exact listed

theorem State.endVoice_done (reason : EndReason) (s : State) (slot : Nat) :
    ∀ c ∈ s.completions, c ∈ (State.endVoice reason s slot).completions := by
  intro c listed
  rw [State.endVoice_eq]
  split
  · exact State.dropReference_done _ _ _ c listed
  · exact listed

theorem State.endVoices_done (reason : EndReason) (slots : List Nat) : ∀ s : State, ∀ c ∈ s.completions,
    c ∈ (s.endVoices reason slots).completions := by
  induction slots with
  | nil => exact fun _ _ h => h
  | cons x slots ih => exact fun s c h => ih _ c (State.endVoice_done reason s x c h)

theorem State.TakeKept.loses {s t : State} (h : s.TakeKept t) (queue : t.queue.Sublist s.queue)
    (done : ∀ c ∈ s.completions, c ∈ t.completions) (inner : Inner s t) : s.Loses t := by
  refine .of_dies ?_ queue done inner
  unfold State.TakeKept at h
  rw [h]

theorem State.Loses.settleRetiring (s : State) (id : Nat) : s.Loses (s.settleRetiring id) :=
  (State.TakeKept.settleRetiring s id).loses (sublist_of_eq (s.settleRetiring_queue id)) (s.settleRetiring_done id)
    (Inner.settleRetiring s id)

theorem State.failLoad_none {s : State} {id : Nat} (f : LoadFailure) (h : (s.record id).load = none) : s.failLoad id f = s := by
  simp only [State.failLoad, h]

theorem State.loseLoad_queue (s : State) (id : Nat) (l : Load) (reason : EndReason) (slots : List Nat) (done : Completion)
    (f : Record → Record) : (s.loseLoad id l reason slots done f).queue.Sublist s.queue := by
  unfold State.loseLoad
  rw [State.releaseSlot_eq]
  exact (State.endVoices_queue reason slots (s.dropLoadEntries id (s.record id).generation)).trans List.filter_sublist

theorem State.loseLoad_done (s : State) (id : Nat) (l : Load) (reason : EndReason) (slots : List Nat) (done : Completion)
    (f : Record → Record) : ∀ c ∈ s.completions, c ∈ (s.loseLoad id l reason slots done f).completions := by
  intro c listed
  unfold State.loseLoad
  rw [State.releaseSlot_eq]
  exact List.mem_cons_of_mem _ (State.endVoices_done reason slots (s.dropLoadEntries id (s.record id).generation) c listed)

theorem State.Loses.failLoad (s : State) (id : Nat) (f : LoadFailure) : s.Loses (s.failLoad id f) := by
  cases load : (s.record id).load with
  | none =>
    rw [State.failLoad_none f load]
    exact State.Loses.refl s
  | some l =>
    have kept := State.TakeKept.failLoad s id f
    have inner := Inner.failLoad s id f
    rw [State.failLoad_eq f load] at kept inner ⊢
    exact kept.loses (State.loseLoad_queue ..) (fun c listed => State.loseLoad_done _ _ _ _ _ _ _ c listed) inner

theorem State.Loses.settleLoad (s : State) (id : Nat) : s.Loses (s.settleLoad id) := by
  simp only [State.settleLoad]
  split
  · exact State.Loses.ite (State.Loses.failLoad s id _) (State.Loses.refl s)
  · exact State.Loses.refl s

theorem State.Loses.settleLoads (s : State) : s.Loses s.settleLoads := State.Loses.foldl _ State.Loses.settleLoad _ s

theorem State.fillAwaited_kept (s : State) (w i : Nat) (l : Layout) (e : ReadEnd) :
    s.fillAwaited w i l e = { s with windows := (s.fillAwaited w i l e).windows, dram := (s.fillAwaited w i l e).dram } := by
  simp only [State.fillAwaited]
  split
  · split <;> rfl
  all_goals rfl

theorem State.Loses.fillAwaited (s : State) (w i : Nat) (l : Layout) (e : ReadEnd) : s.Loses (s.fillAwaited w i l e) :=
  .of_staging (by rw [State.fillAwaited_kept]) (Inner.fillAwaited s w i l e)

theorem State.endVoiceRead_kept (s : State) (slot : Nat) (g : Generation) (w i : Nat) (e : ReadEnd) :
    s.endVoiceRead slot g w i e = { s with
      voices := (s.endVoiceRead slot g w i e).voices, windows := (s.endVoiceRead slot g w i e).windows
      dram := (s.endVoiceRead slot g w i e).dram } := by
  simp only [State.endVoiceRead]
  split
  · split
    · split
      · rw [State.fillAwaited_kept]
        rfl
      · rfl
    · rw [State.settleFree_kept]
      rfl
  · rfl

theorem State.Loses.endVoiceRead (s : State) (slot : Nat) (g : Generation) (w i : Nat) (e : ReadEnd) :
    s.Loses (s.endVoiceRead slot g w i e) :=
  .of_staging (by rw [State.endVoiceRead_kept]) (Inner.endVoiceRead s slot g w i e)

theorem State.lowerLoadReads_kept (s : State) (id : Nat) (g : Generation) (slot : Nat) :
    s.lowerLoadReads id g slot = { s with
      catalog := (s.lowerLoadReads id g slot).catalog, reclaiming := (s.lowerLoadReads id g slot).reclaiming } := by
  simp only [State.lowerLoadReads]
  split <;> rfl

theorem State.Loses.lowerLoadReads (s : State) (id : Nat) (g : Generation) (slot : Nat) : s.Loses (s.lowerLoadReads id g slot) :=
  .of_staging (by rw [State.lowerLoadReads_kept]) (Inner.lowerLoadReads s id g slot)

theorem State.Loses.failVoiceEntry (s : State) (e : FetchEntry) : s.Loses (s.failVoiceEntry e) := by
  simp only [State.failVoiceEntry]
  split
  · refine State.Loses.ite ?_ (State.Loses.refl s)
    split
    · exact State.Loses.fillAwaited ..
    · exact State.Loses.refl s
  all_goals exact State.Loses.refl s

theorem State.Loses.failLoadOffline (entries : List FetchEntry) (s : State) (owner : Nat × Generation) :
    s.Loses (State.failLoadOffline entries s owner) := by
  simp only [State.failLoadOffline]
  refine State.Loses.ite ?_ (State.Loses.refl s)
  split
  · exact State.Loses.failLoad ..
  · exact State.Loses.refl s

theorem State.Loses.timedOutRead (s : State) (f : FetchEntry) : s.Loses (s.timedOutRead f) := by
  simp only [State.timedOutRead]
  split
  · exact State.Loses.endVoiceRead ..
  · exact State.Loses.ite (State.Loses.lowerLoadReads ..) ((State.Loses.lowerLoadReads ..).trans (State.Loses.settleRetiring ..))
  all_goals exact State.Loses.refl s

/-! ### STOREs -/

theorem State.Loses.updateStore (s : State) (place : Nat) (f : StoreEntry → StoreEntry) : s.Loses (s.updateStore place f) where
  kept := rfl
  dies _ _ := ⟨rfl, List.Sublist.refl _⟩
  queue := List.Sublist.refl _
  done _ h := h
  inner := Inner.updateStore s place f

theorem State.Loses.dropPrograms (s : State) (place : Nat) : s.Loses (s.dropPrograms place) where
  kept := rfl
  dies c x := by
    rw [State.die_dropPrograms c.dies]
    exact ⟨rfl, List.filter_sublist⟩
  queue := List.Sublist.refl _
  done _ h := h
  inner := Inner.dropPrograms s place

theorem State.Loses.failStore (s : State) (place block : Nat) : s.Loses (s.failStore place block) := by
  simp only [State.failStore]
  split
  · exact State.Loses.refl s
  · exact State.Loses.ite (State.Loses.refl s) ((State.Loses.dropPrograms ..).trans (State.Loses.updateStore ..))

theorem State.judgeStore_kept (s : State) (place : Nat) :
    ∃ done, s.judgeStore place = { s with stores := (s.judgeStore place).stores, completions := done ++ s.completions } := by
  simp only [State.judgeStore]
  split
  · exact ⟨[], rfl⟩
  · rename_i x _
    split
    · obtain ⟨done, -, -, -, eq⟩ := x.complete_completions { s with stores := s.stores.filter fun y => y.place != place }
      exact ⟨[done], by rw [eq]; rfl⟩
    · exact ⟨[], rfl⟩

theorem State.Loses.judgeStore (s : State) (place : Nat) : s.Loses (s.judgeStore place) := by
  have inner := Inner.judgeStore s place
  obtain ⟨done, kept⟩ := s.judgeStore_kept place
  generalize s.judgeStore place = t at inner kept
  refine ⟨by rw [kept], fun _ x => ?_, sublist_of_eq (by rw [kept]), fun c listed => ?_, inner⟩
  · rw [show t.die x = s.die x by rw [kept]; rfl]
    exact ⟨rfl, List.Sublist.refl _⟩
  · rw [kept]
    exact List.mem_append_right _ listed

theorem State.Loses.judgeStores (s : State) : s.Loses s.judgeStores := State.Loses.foldl _ State.Loses.judgeStore _ s

theorem State.Loses.programFails (s : State) (p : ProgramEntry) : s.Loses (s.programFails p) :=
  (State.Loses.updateStore ..).trans (State.Loses.failStore ..)

theorem State.Loses.failQueuedStore (programs : List ProgramEntry) (s : State) (place : Nat) :
    s.Loses (State.failQueuedStore programs s place) := by
  simp only [State.failQueuedStore]
  split
  · exact State.Loses.failStore ..
  · exact State.Loses.refl s

theorem State.Loses.timedOutWork (s : State) (o : Operation) : s.Loses (s.timedOutWork o) := by
  simp only [State.timedOutWork]
  refine State.Loses.ite (State.Loses.refl s) ?_
  split
  · exact State.Loses.timedOutRead ..
  · exact State.Loses.programFails ..
  · exact State.Loses.refl s

/-! ### The stages -/

/-- The part with the timed-out work ended and the places of the lost voice entries filled. -/
def State.placesLost (s : State) (d : Nat) (o : Operation) : State :=
  (s.subQueue d).foldl State.failVoiceEntry ((s.wentOffline d).timedOutWork o)

/-- The part with the loads of the lost entries failed too. -/
def State.loadsLost (s : State) (d : Nat) (o : Operation) : State :=
  (loadOwners (o.lostEntry ++ s.subQueue d)).foldl (State.failLoadOffline (o.lostEntry ++ s.subQueue d)) (s.placesLost d o)

/-- The part with the STOREs of the lost programs failed and every STORE judged. -/
def State.storesLost (s : State) (d : Nat) (o : Operation) : State :=
  (((s.die d).programs.map ProgramEntry.place).foldl (State.failQueuedStore (s.die d).programs) (s.loadsLost d o)).judgeStores

theorem State.goOffline_eq {s : State} (ready : s.resetting = false) (d : Nat) (o : Operation) :
    s.goOffline d o = (s.storesLost d o).settleVoices.settleLoads := by
  simp only [State.goOffline, ready]
  rfl

theorem State.wentOffline_placesLost (s : State) (d : Nat) (o : Operation) : (s.wentOffline d).Loses (s.placesLost d o) :=
  (State.Loses.timedOutWork _ o).trans (State.Loses.foldl _ State.Loses.failVoiceEntry _ _)

theorem State.placesLost_loadsLost (s : State) (d : Nat) (o : Operation) : (s.placesLost d o).Loses (s.loadsLost d o) :=
  State.Loses.foldl _ (State.Loses.failLoadOffline _) _ _

theorem State.loadsLost_storesLost (s : State) (d : Nat) (o : Operation) : (s.loadsLost d o).Loses (s.storesLost d o) :=
  (State.Loses.foldl _ (State.Loses.failQueuedStore _) _ _).trans (State.Loses.judgeStores _)

theorem State.storesLost_settled (s : State) (d : Nat) (o : Operation) :
    (s.storesLost d o).Loses (s.storesLost d o).settleVoices.settleLoads :=
  (State.Loses.settleVoices _).trans (State.Loses.settleLoads _)

theorem State.wentOffline_storesLost (s : State) (d : Nat) (o : Operation) : (s.wentOffline d).Loses (s.storesLost d o) :=
  ((s.wentOffline_placesLost d o).trans (s.placesLost_loadsLost d o)).trans (s.loadsLost_storesLost d o)

theorem State.wentOffline_settled (s : State) (d : Nat) (o : Operation) :
    (s.wentOffline d).Loses (s.storesLost d o).settleVoices.settleLoads :=
  (s.wentOffline_storesLost d o).trans (s.storesLost_settled d o)

theorem Canonical.wentOffline {s : State} (c : s.Canonical) (d : Nat) : (s.wentOffline d).Canonical := by
  have set := Inner.setDie s d { (s.die d).ended .offline with programs := [] } (List.Sublist.refl _)
  exact (set.canonical c).of_same rfl rfl rfl rfl rfl

/-- The event of a timeout. -/
theorem exec_timesOut {s : State} {d : Fin 16} {o : Operation} {c : Instr} (h : timesOut s d o c) :
    ∃ t, exec c s = .next t ∧ ((s.storesLost d.val o).settleVoices.settleLoads).Ended t := by
  obtain ⟨-, ready, operation, how⟩ := h
  have calm := State.not_resetting_of ready
  have eq := State.goOffline_eq calm d.val o
  have settled : ((s.storesLost d.val o).settleVoices.settleLoads).resetting = false :=
    (s.wentOffline_settled d.val o).resetting.trans calm
  refine exec_dieEnded ?_ settled
  rw [← eq]
  obtain ⟨⟨f, read⟩, rfl⟩ | ⟨⟨p, program⟩, rfl⟩ := how
  · exact congrArg State.finishEngineReset (State.readTimesOut_read operation read)
  · exact congrArg State.finishEngineReset (State.programTimesOut_program operation program)

/-- What is seen of the dies and the queue as a die goes OFFLINE (R126). -/
theorem timesOut_dies {s : State} {d : Fin 16} {o : Operation} {c : Instr} (h : timesOut s d o c) :
    ∃ t, exec c s = .next t ∧ t.latched .dieFault = true ∧
      t.die d.val = { s.die d.val with state := .offline, operation := none, retries := 0, buffer := [], programs := [] } ∧
      (∀ e ∈ t.queue, e ∈ s.queue ∧ dieOf e.address ≠ d.val) ∧
      ∀ x, x ≠ d.val → (t.die x).state = (s.die x).state ∧ (t.die x).operation = (s.die x).operation ∧
        (t.die x).polls = (s.die x).polls := by
  obtain ⟨t, ht, ended⟩ := exec_timesOut h
  have loses := s.wentOffline_settled d.val o
  have closed := ended.posted.closed
  have canonical := Canonical.wentOffline h.1 d.val
  refine ⟨t, ht, ended.latched _ ?_, ?_, fun e listed => ?_, fun x other => ?_⟩
  · unfold State.latched
    rw [loses.registers]
    exact s.wentOffline_fault d.val
  · obtain ⟨same, fewer⟩ := loses.dies canonical d.val
    rw [s.wentOffline_die d.val] at same fewer
    rw [closed.die, same, List.sublist_nil.mp fewer]
    rfl
  · rw [closed.queue] at listed
    obtain ⟨before, apart⟩ := List.mem_filter.mp (loses.queue.subset listed)
    exact ⟨before, by simpa using apart⟩
  · obtain ⟨same, -⟩ := loses.dies canonical x
    rw [s.wentOffline_other other] at same
    rw [closed.die, same]
    exact ⟨rfl, rfl, rfl⟩

end Sys2Proof.Machine
end

section
/-! PROOFS. A die that goes OFFLINE (R44, R106, R112, R126): what becomes of the voices, their windows and the memory. -/

namespace Sys2Proof.Machine

/-! ### Places filled for entries that are lost -/

/-- A window as entries lost leave it: an AWAITED place changes only to FILLED, damaged, where a lost entry was to fill it. -/
structure State.PlacesFill (s : State) (lost : FetchEntry → Prop) (w : Nat) (x : Window) : Prop where
  points : x.fill = (s.window w).fill ∧ x.delivery = (s.window w).delivery
  places : ∀ i, x.place i = (s.window w).place i ∨
    ∃ r e, (s.window w).place i = .awaited r ∧ lost e ∧ e.destination = .place w i ∧ x.place i = .filled { r with damaged := true }
  still : (∀ e, ¬ lost e) → x = s.window w

/-- A byte lies in the run of an AWAITED place that a sounding voice's lost entry was to fill. -/
def State.fillByte (s : State) (lost : FetchEntry → Prop) (a : Nat) : Prop :=
  ∃ e n w i r l, lost e ∧ e.owner = .voice n (s.voice n).generation ∧ (s.voice n).sounding = true ∧
    e.destination = .place w i ∧ (s.window w).place i = .awaited r ∧ s.layoutOf (s.voice n) = some l ∧ s.inRun w i r l.format a

/-- What the loss of some entries does to the voices that sound on: nothing but that their AWAITED places may be FILLED. -/
structure State.Fills (lost : FetchEntry → Prop) (s t : State) : Prop where
  loses : s.Loses t
  voice : ∀ n, (t.voice n).sounding = true → t.voice n = s.voice n
  layouts : ∀ id l, (t.record id).layout = some l → (s.record id).layout = some l
  awaited : ∀ w i r, (t.window w).place i = .awaited r → (s.window w).place i = .awaited r
  windows : ∀ n, (t.voice n).sounding = true → s.PlacesFill lost (s.voice n).window (t.window (s.voice n).window)
  bytes : ∀ a, Memory.read t.dram a = Memory.read s.dram a ∨ (Memory.read t.dram a = 0#8 ∧ s.fillByte lost a)

section
variable {lost : FetchEntry → Prop}

theorem State.PlacesFill.refl (s : State) (w : Nat) : s.PlacesFill lost w (s.window w) := ⟨⟨rfl, rfl⟩, fun _ => .inl rfl, fun _ => rfl⟩

theorem State.Fills.refl (s : State) : State.Fills lost s s :=
  ⟨State.Loses.refl s, fun _ _ => rfl, fun _ _ h => h, fun _ _ _ h => h, fun _ _ => State.PlacesFill.refl s _, fun _ => .inl rfl⟩

theorem State.Loses.inRun {s t : State} (h : s.Loses t) (w i : Nat) (r : Run) (f : Format) (a : Nat) :
    t.inRun w i r f a ↔ s.inRun w i r f a := by
  unfold State.inRun State.placeBase
  rw [h.partition]

theorem State.Fills.layoutOf {s t : State} (h : State.Fills lost s t) (v : Voice) {l : Layout} (k : t.layoutOf v = some l) :
    s.layoutOf v = some l := h.layouts _ l k

theorem State.Fills.trans {s t u : State} (h : State.Fills lost s t) (k : State.Fills lost t u) : State.Fills lost s u where
  loses := h.loses.trans k.loses
  voice n sounds := (k.voice n sounds).trans (h.voice n ((k.loses.inner.voices n).sounding sounds))
  layouts id l layout := h.layouts id l (k.layouts id l layout)
  awaited w i r place := h.awaited w i r (k.awaited w i r place)
  windows n sounds := by
    have before := (k.loses.inner.voices n).sounding sounds
    obtain ⟨⟨fill, delivery⟩, places, still⟩ := h.windows n before
    have later := k.windows n sounds
    rw [h.voice n before] at later
    obtain ⟨⟨fill', delivery'⟩, places', still'⟩ := later
    refine ⟨⟨fill'.trans fill, delivery'.trans delivery⟩, fun i => ?_, fun none => (still' none).trans (still none)⟩
    obtain same | ⟨r, e, wait, is, destination, filled⟩ := places' i
    · rw [same]
      exact places i
    · exact .inr ⟨r, e, h.awaited _ i r wait, is, destination, filled⟩
  bytes a := by
    obtain same | ⟨zero, e, n, w, i, r, l, is, owner, sounds, destination, wait, layout, inside⟩ := k.bytes a
    · rw [same]
      exact h.bytes a
    · refine .inr ⟨zero, e, n, w, i, r, l, is, ?_, (h.loses.inner.voices n).sounding sounds, destination, h.awaited w i r wait, ?_,
        (h.loses.inRun _ _ _ _ _).mp inside⟩
      · rw [owner, h.voice n sounds]
      · rw [← h.voice n sounds]
        exact h.layoutOf _ layout

theorem State.Fills.mono {more : FetchEntry → Prop} {s t : State} (h : State.Fills lost s t) (le : ∀ e, lost e → more e) :
    State.Fills more s t where
  loses := h.loses
  voice := h.voice
  layouts := h.layouts
  awaited := h.awaited
  windows n sounds := by
    obtain ⟨points, places, still⟩ := h.windows n sounds
    refine ⟨points, fun i => (places i).imp id ?_, fun none => still fun e is => none e (le e is)⟩
    rintro ⟨r, e, wait, is, rest⟩
    exact ⟨r, e, wait, le e is, rest⟩
  bytes a := by
    refine (h.bytes a).imp id ?_
    rintro ⟨zero, e, n, w, i, r, l, is, rest⟩
    exact ⟨zero, e, n, w, i, r, l, le e is, rest⟩

theorem State.Loses.once {s t : State} (h : s.Loses t) (once : s.WindowsHeldOnce) : t.WindowsHeldOnce := by
  intro m n apart held held'
  rw [(h.inner.voices m).window, (h.inner.voices n).window]
  exact once m n apart ((h.inner.voices m).inUse held) ((h.inner.voices n).inUse held')

/-- A stage that works through a list. -/
theorem State.Fills.foldl {α : Type} (f : State → α → State) (l : List α)
    (h : ∀ (s : State) x, x ∈ l → s.Canonical → s.WindowsHeldOnce → State.Fills lost s (f s x)) :
    ∀ s : State, s.Canonical → s.WindowsHeldOnce → State.Fills lost s (l.foldl f s) := by
  induction l with
  | nil => exact fun s _ _ => State.Fills.refl s
  | cons x l ih =>
    intro s c once
    have first := h s x List.mem_cons_self c once
    exact first.trans (ih (fun s y listed => h s y (List.mem_cons_of_mem _ listed)) _ (first.loses.inner.canonical c)
      (first.loses.once once))

/-- A stage that leaves the voices, the windows and the memory alone. -/
theorem State.Fills.of_catalog {s t : State} (loses : s.Loses t) (voices : t.voices = s.voices) (windows : t.windows = s.windows)
    (dram : t.dram = s.dram) (layouts : ∀ id l, (t.record id).layout = some l → (s.record id).layout = some l) :
    State.Fills lost s t where
  loses := loses
  voice n _ := State.voice_congr voices n
  layouts := layouts
  awaited w i r h := by rwa [State.window_congr windows] at h
  windows n _ := by
    rw [State.window_congr windows]
    exact State.PlacesFill.refl s _
  bytes a := .inl (by rw [dram])

/-! ### The stages -/

theorem State.settleRetiring_layouts (s : State) (id j : Nat) (l : Layout) (h : ((s.settleRetiring id).record j).layout = some l) :
    (s.record j).layout = some l := by
  have vacant (u : State) (k : ((u.toVacant id).record j).layout = some l) : (u.record j).layout = some l := by
    by_cases e : j = id
    · rw [e, State.toVacant_same] at k
      cases k
    · rwa [State.toVacant_other _ e] at k
  simp only [State.settleRetiring] at h
  split at h
  · split at h
    · exact vacant _ h
    · exact vacant _ h
  · exact h

theorem State.dropReference_layouts (s : State) (id j : Nat) (g : Generation) (l : Layout)
    (h : ((s.dropReference id g).record j).layout = some l) : (s.record j).layout = some l := by
  simp only [State.dropReference] at h
  split at h
  · have k := State.settleRetiring_layouts _ _ _ _ h
    by_cases e : j = id
    · rw [e, State.record_setRecord_same] at k
      rw [e]
      exact k
    · rwa [State.record_setRecord_other _ _ e] at k
  · exact h

theorem State.Fills.settleRetiring (s : State) (id : Nat) : State.Fills lost s (s.settleRetiring id) := by
  have kept := State.TakeKept.settleRetiring s id
  have loses := State.Loses.settleRetiring s id
  refine .of_catalog loses ?_ ?_ ?_ fun j l h => s.settleRetiring_layouts id j l h
  all_goals
    simp only [State.settleRetiring]
    split
    · split <;> rfl
    · rfl

theorem State.Fills.lowerLoadReads (s : State) (id : Nat) (g : Generation) (slot : Nat) :
    State.Fills lost s (s.lowerLoadReads id g slot) := by
  refine .of_catalog (State.Loses.lowerLoadReads ..) (by rw [State.lowerLoadReads_kept]) (by rw [State.lowerLoadReads_kept])
    (by rw [State.lowerLoadReads_kept]) fun j l h => ?_
  simp only [State.lowerLoadReads] at h
  split at h
  · by_cases e : j = id
    · rw [e, State.record_setRecord_same] at h
      rw [e]
      exact h
    · rwa [State.record_setRecord_other _ _ e] at h
  · exact h

theorem Window.endEmpty_awaited {w : Window} (c : w.canonical) (queued : List Nat) {i : Nat} {r : Run}
    (h : (w.endEmpty queued).place i = .awaited r) : w.place i = .awaited r := by
  unfold Window.endEmpty Window.place at h
  rw [Table.get_update _ _ _ _ ((Table.wf_iff _ _).mp c).1 rfl] at h
  unfold Window.place
  split at h
  · rename_i run waits
    rw [waits]
    split at h
    · cases h
    · exact h
  · cases h
  · cases h

/-- A voice that ends takes nothing from the others. -/
theorem State.Fills.endVoice (reason : EndReason) (s : State) (slot : Nat) (c : s.Canonical) (once : s.WindowsHeldOnce) :
    State.Fills lost s (State.endVoice reason s slot) := by
  have loses : s.Loses (State.endVoice reason s slot) :=
    (State.TakeKept.endVoice reason s slot).loses (State.endVoices_queue reason [slot] s) (State.endVoice_done reason s slot)
      (Inner.endVoice reason s slot)
  by_cases sounds : (s.voice slot).sounding = true
  · have window (w : Nat) : (State.endVoice reason s slot).window w = (s.silenced reason slot).window w := by
      rw [State.endVoice_eq, if_pos sounds, State.dropReference_kept]
      rfl
    have windows (w : Nat) (other : w ≠ (s.voice slot).window) : (State.endVoice reason s slot).window w = s.window w := by
      rw [window]
      exact State.window_setWindow_other _ _ other
    have apart (n : Nat) (on : ((State.endVoice reason s slot).voice n).sounding = true) : n ≠ slot := by
      rintro rfl
      rw [State.endVoice_same reason sounds] at on
      cases on
    refine ⟨loses, fun n on => State.endVoice_other reason s (apart n on), fun id l layout => ?_, fun w i r wait => ?_,
      fun n on => ?_, fun a => .inl ?_⟩
    · rw [State.endVoice_eq, if_pos sounds] at layout
      exact State.dropReference_layouts (s.silenced reason slot) _ _ _ _ layout
    · by_cases e : w = (s.voice slot).window
      · rw [window, e] at wait
        rw [e]
        exact Window.endEmpty_awaited (c.places _) _ ((congrArg (Window.place · i) (State.window_setWindow_same _ _ _)).symm.trans wait)
      · rwa [windows w e] at wait
    · have held := Voice.sounding_held ((loses.inner.voices n).sounding on)
      rw [windows _ (once n slot (apart n on) held (Voice.sounding_held sounds))]
      exact State.PlacesFill.refl s _
    · rw [State.endVoice_eq, if_pos sounds, State.dropReference_kept]
      rfl
  · have stays : State.endVoice reason s slot = s := by rw [State.endVoice_eq, if_neg sounds]
    rw [stays]
    exact State.Fills.refl s

theorem State.Fills.endVoices (reason : EndReason) (slots : List Nat) (s : State) (c : s.Canonical) (once : s.WindowsHeldOnce) :
    State.Fills lost s (s.endVoices reason slots) :=
  State.Fills.foldl (State.endVoice reason) slots (fun s x _ c once => State.Fills.endVoice reason s x c once) s c once

theorem State.loseLoad_kept (s : State) (id : Nat) (l : Load) (reason : EndReason) (slots : List Nat) (done : Completion)
    (f : Record → Record) :
    let u := (s.dropLoadEntries id (s.record id).generation).endVoices reason slots
    let t := s.loseLoad id l reason slots done f
    t.voices = u.voices ∧ t.windows = u.windows ∧ t.dram = u.dram ∧ t.record id = f (u.record id) ∧
      ∀ j, j ≠ id → t.record j = u.record j := by
  unfold State.loseLoad
  rw [State.releaseSlot_eq]
  exact ⟨rfl, rfl, rfl, State.record_setRecord_same .., fun j h => State.record_setRecord_other _ _ h⟩

theorem State.Fills.failLoad (s : State) (id : Nat) (f : LoadFailure) (c : s.Canonical) (once : s.WindowsHeldOnce) :
    State.Fills lost s (s.failLoad id f) := by
  cases load : (s.record id).load with
  | none =>
    rw [State.failLoad_none f load]
    exact State.Fills.refl s
  | some l =>
    have loses := State.Loses.failLoad s id f
    rw [State.failLoad_eq f load] at loses ⊢
    have ends := State.Fills.endVoices (lost := lost) .stale (s.slotsPlaying id (s.record id).generation)
      (s.dropLoadEntries id (s.record id).generation) (c.of_same rfl rfl rfl rfl rfl) once
    obtain ⟨voices, windows, dram, same, others⟩ := s.loseLoad_kept id l .stale (s.slotsPlaying id (s.record id).generation)
      (f.completion l) (Record.failed f)
    have voice (n : Nat) := State.voice_congr voices n
    have window (w : Nat) := State.window_congr windows w
    refine ⟨loses, fun n on => ?_, fun j y layout => ?_, fun w i r wait => ?_, fun n on => ?_, fun a => ?_⟩
    · rw [voice] at on ⊢
      exact ends.voice n on
    · refine ends.layouts j y ?_
      by_cases e : j = id
      · rw [e, same] at layout
        rw [e]
        exact layout
      · rwa [others j e] at layout
    · rw [window] at wait
      exact ends.awaited w i r wait
    · rw [voice] at on
      rw [window]
      obtain ⟨points, places, still⟩ := ends.windows n on
      exact ⟨points, places, still⟩
    · rw [dram]
      exact ends.bytes a

theorem State.Fills.settleLoad (s : State) (id : Nat) (c : s.Canonical) (once : s.WindowsHeldOnce) :
    State.Fills lost s (s.settleLoad id) := by
  simp only [State.settleLoad]
  split
  · split
    · exact State.Fills.failLoad s id _ c once
    · exact State.Fills.refl s
  · exact State.Fills.refl s

theorem State.Fills.settleLoads (s : State) (c : s.Canonical) (once : s.WindowsHeldOnce) : State.Fills lost s s.settleLoads :=
  State.Fills.foldl State.settleLoad _ (fun s x _ c once => State.Fills.settleLoad s x c once) s c once

theorem State.Fills.failLoadOffline (entries : List FetchEntry) (s : State) (owner : Nat × Generation) (c : s.Canonical)
    (once : s.WindowsHeldOnce) : State.Fills lost s (State.failLoadOffline entries s owner) := by
  simp only [State.failLoadOffline]
  split
  · split
    · exact State.Fills.failLoad s _ _ c once
    · exact State.Fills.refl s
  · exact State.Fills.refl s

/-- An AWAITED place FILLED for a lost entry. -/
theorem State.Fills.fillAwaited {s : State} {e : FetchEntry} {n w i : Nat} {l : Layout} (is : lost e)
    (owner : e.owner = .voice n (s.voice n).generation) (sounds : (s.voice n).sounding = true)
    (destination : e.destination = .place w i) (layout : s.layoutOf (s.voice n) = some l) :
    State.Fills lost s (s.fillAwaited w i l .offline) := by
  have loses := State.Loses.fillAwaited s w i l .offline
  by_cases waits : ∃ r, (s.window w).place i = .awaited r
  · obtain ⟨r, wait⟩ := waits
    rw [State.fillAwaited_lost (e := .offline) wait l (fun _ => nofun)] at loses ⊢
    have same := State.window_setWindow_same (s.zeroRun w i { r with damaged := true } l.format) w
      ((s.window w).setPlace i (.filled { r with damaged := true }))
    have other (x : Nat) (h : x ≠ w) := State.window_setWindow_other (s.zeroRun w i { r with damaged := true } l.format)
      ((s.window w).setPlace i (.filled { r with damaged := true })) h
    refine ⟨loses, fun _ _ => rfl, fun _ _ h => h, fun x j q h => ?_, fun m _ => ?_, fun a => ?_⟩
    · by_cases hx : x = w
      · rw [hx, same] at h
        rw [hx]
        by_cases hj : j = i
        · rw [hj, Window.place_setPlace_same] at h
          cases h
        · rwa [Window.place_setPlace_other _ _ hj] at h
      · rwa [other x hx] at h
    · by_cases hx : (s.voice m).window = w
      · rw [hx, same]
        refine ⟨⟨rfl, rfl⟩, fun j => ?_, fun none => absurd is (none e)⟩
        by_cases hj : j = i
        · rw [hj]
          exact .inr ⟨r, e, wait, is, destination, Window.place_setPlace_same _ _ _⟩
        · exact .inl (Window.place_setPlace_other _ _ hj)
      · rw [other _ hx]
        exact State.PlacesFill.refl s _
    · obtain ⟨zero, kept⟩ := s.zeroRun_read w i { r with damaged := true } l.format a
      by_cases inside : s.inRun w i { r with damaged := true } l.format a
      · exact .inr ⟨zero inside, e, n, w, i, r, l, is, owner, sounds, destination, wait, layout, inside⟩
      · exact .inl (kept inside)
  · rw [State.fillAwaited_other (not_exists.mp waits)]
    exact State.Fills.refl s

theorem State.Fills.failVoiceEntry (s : State) {e : FetchEntry} (is : lost e) : State.Fills lost s (s.failVoiceEntry e) := by
  simp only [State.failVoiceEntry]
  split
  · rename_i slot g w i owner destination
    split
    · rename_i live
      obtain ⟨generation, sounds⟩ := live
      split
      · exact State.Fills.fillAwaited is (owner.trans (by rw [generation])) sounds destination ‹_›
      · exact State.Fills.refl s
    · exact State.Fills.refl s
  all_goals exact State.Fills.refl s

/-! ### STOREs -/

/-- Nothing but the STOREs, the programs and the completions changed. -/
def State.StoresKept (s t : State) : Prop :=
  t = { s with dies := t.dies, stores := t.stores, completions := t.completions }

theorem State.StoresKept.trans {s t u : State} (h : s.StoresKept t) (k : t.StoresKept u) : s.StoresKept u := by
  unfold State.StoresKept at h k ⊢
  rw [k, h]

theorem State.StoresKept.foldl {α : Type} (f : State → α → State) (h : ∀ (s : State) x, s.StoresKept (f s x)) (l : List α) :
    ∀ s : State, s.StoresKept (l.foldl f s) := by
  induction l with
  | nil => exact fun _ => rfl
  | cons x l ih => exact fun s => (h s x).trans (ih _)

theorem State.StoresKept.failStore (s : State) (place block : Nat) : s.StoresKept (s.failStore place block) := by
  simp only [State.failStore]
  split
  · rfl
  · split <;> rfl

theorem State.StoresKept.failQueuedStore (programs : List ProgramEntry) (s : State) (place : Nat) :
    s.StoresKept (State.failQueuedStore programs s place) := by
  simp only [State.failQueuedStore]
  split
  · exact State.StoresKept.failStore ..
  · rfl

theorem State.StoresKept.programFails (s : State) (p : ProgramEntry) : s.StoresKept (s.programFails p) :=
  State.StoresKept.trans (t := s.updateStore p.place fun x => { x with inFlight := x.inFlight - 1 }) rfl
    (State.StoresKept.failStore ..)

theorem State.StoresKept.judgeStore (s : State) (place : Nat) : s.StoresKept (s.judgeStore place) := by
  obtain ⟨done, kept⟩ := s.judgeStore_kept place
  unfold State.StoresKept
  generalize s.judgeStore place = t at kept
  rw [kept]

theorem State.loadsLost_stores (s : State) (d : Nat) (o : Operation) : (s.loadsLost d o).StoresKept (s.storesLost d o) :=
  (State.StoresKept.foldl _ (State.StoresKept.failQueuedStore _) _ _).trans (State.StoresKept.foldl _ State.StoresKept.judgeStore _ _)

theorem State.StoresKept.fills {s t : State} (h : s.StoresKept t) (loses : s.Loses t) : State.Fills lost s t := by
  unfold State.StoresKept at h
  refine .of_catalog loses (by rw [h]) (by rw [h]) (by rw [h]) fun id l layout => ?_
  rw [h] at layout
  exact layout

end

/-! ### The entries of the die -/

theorem State.Fills.entries {s : State} (c : s.Canonical) (once : s.WindowsHeldOnce) {lost : FetchEntry → Prop}
    {entries : List FetchEntry} (all : ∀ e ∈ entries, lost e) : State.Fills lost s (entries.foldl State.failVoiceEntry s) :=
  State.Fills.foldl _ entries (fun s _ listed _ _ => State.Fills.failVoiceEntry s (all _ listed)) s c once

/-- From the end of the timed-out work to the judging of the voices. -/
theorem State.timedOut_fills {s : State} {d : Nat} {o : Operation} (c : s.Canonical) (once : s.WindowsHeldOnce) :
    State.Fills (s.lostEntry d o) ((s.wentOffline d).timedOutWork o) (s.storesLost d o) := by
  have loses := State.Loses.timedOutWork (s.wentOffline d) o
  have canonical := loses.inner.canonical (Canonical.wentOffline c d)
  have held : ((s.wentOffline d).timedOutWork o).WindowsHeldOnce := loses.once once
  have entries : State.Fills (s.lostEntry d o) ((s.wentOffline d).timedOutWork o) (s.placesLost d o) := by
    refine State.Fills.entries canonical held fun e listed => ?_
    obtain ⟨queued, at_die⟩ := List.mem_filter.mp listed
    exact .inl ⟨queued, by simpa using at_die⟩
  have loads : State.Fills (s.lostEntry d o) (s.placesLost d o) (s.loadsLost d o) :=
    State.Fills.foldl _ _ (fun u x _ c once => State.Fills.failLoadOffline _ u x c once) _
      (entries.loses.inner.canonical canonical) (entries.loses.once held)
  exact (entries.trans loads).trans ((s.loadsLost_stores d o).fills (s.loadsLost_storesLost d o))

/-! ### The work that timed out -/

/-- An ENDING voice's read ends (R45, R73): no window of a voice that sounds on is touched. -/
theorem State.Fills.endingRead {lost : FetchEntry → Prop} {u : State} {slot w i : Nat} (once : u.WindowsHeldOnce)
    (silent : (u.voice slot).sounding = false) (apart : ∀ n, (u.voice n).sounding = true → (u.voice n).window ≠ w) :
    State.Fills lost u ((u.setWindow w ((u.window w).setPlace i .empty)).settleFree slot) := by
  let b := u.setWindow w ((u.window w).setPlace i .empty)
  have here : b.window w = (u.window w).setPlace i .empty := State.window_setWindow_same u w _
  have there (x : Nat) (h : x ≠ w) : b.window x = u.window x := State.window_setWindow_other u _ h
  have emptied (x j : Nat) (r : Run) (h : (b.window x).place j = .awaited r) : (u.window x).place j = .awaited r := by
    by_cases hx : x = w
    · rw [hx, here] at h
      rw [hx]
      by_cases hj : j = i
      · rw [hj, Window.place_setPlace_same] at h
        cases h
      · rwa [Window.place_setPlace_other _ _ hj] at h
    · rwa [there x hx] at h
  have inner : Inner u b := Inner.setWindow u w _ fun c => Window.canonical_setPlace _ _ _ c
  have loses : u.Loses (b.settleFree slot) := by
    refine .of_staging ?_ (inner.trans (Inner.settleFree b slot))
    rw [State.settleFree_kept]
    rfl
  show State.Fills lost u (b.settleFree slot)
  by_cases frees : (u.voice slot).state = .ending ∧ (u.voice slot).endPosted = true ∧ (u.voice slot).reads = 0
  · have eq : b.settleFree slot = (b.setWindow (u.voice slot).window Window.blank).setVoice slot
        { u.voice slot with state := .free } := if_pos frees
    rw [eq] at loses ⊢
    have others (n : Nat) (on : (((b.setWindow (u.voice slot).window Window.blank).setVoice slot
        { u.voice slot with state := .free }).voice n).sounding = true) : n ≠ slot := by
      rintro rfl
      rw [State.voice_setVoice_same] at on
      cases on
    refine ⟨loses, fun n on => State.voice_setVoice_other _ _ (others n on), fun _ _ h => h, fun x j r h => ?_, fun n on => ?_,
      fun _ => .inl rfl⟩
    · rw [State.window_setVoice] at h
      by_cases hx : x = (u.voice slot).window
      · rw [hx, State.window_setWindow_same] at h
        cases h
      · rw [State.window_setWindow_other _ _ hx] at h
        exact emptied x j r h
    · have sounds := (loses.inner.voices n).sounding on
      have held : (u.voice slot).state ≠ .free := by
        rw [frees.1]
        exact nofun
      rw [State.window_setVoice, State.window_setWindow_other _ _ (once n slot (others n on) (Voice.sounding_held sounds) held),
        there _ (apart n sounds)]
      exact State.PlacesFill.refl u _
  · have eq : b.settleFree slot = b := if_neg frees
    rw [eq] at loses ⊢
    refine ⟨loses, fun _ _ => rfl, fun _ _ h => h, emptied, fun n on => ?_, fun _ => .inl rfl⟩
    rw [there _ (apart n on)]
    exact State.PlacesFill.refl u _

/-- Only the count of reads of some voices differs. -/
structure State.ReadsCounted (s t : State) : Prop where
  kept : t = { s with voices := t.voices }
  voice : ∀ n, t.voice n = { s.voice n with reads := (t.voice n).reads }

theorem State.ReadsCounted.refl (s : State) : s.ReadsCounted s := ⟨rfl, fun _ => rfl⟩

theorem State.ReadsCounted.readEnded (s : State) (slot : Nat) : s.ReadsCounted (s.setVoice slot (s.voice slot).readEnded) := by
  refine ⟨rfl, fun n => ?_⟩
  by_cases e : n = slot
  · rw [e, State.voice_setVoice_same]
    rfl
  · rw [State.voice_setVoice_other _ _ e]

theorem State.ReadsCounted.state {s t : State} (h : s.ReadsCounted t) (n : Nat) : (t.voice n).state = (s.voice n).state := by
  rw [h.voice]

theorem State.ReadsCounted.window {s t : State} (h : s.ReadsCounted t) (n : Nat) : (t.voice n).window = (s.voice n).window := by
  rw [h.voice]

theorem State.ReadsCounted.sounding {s t : State} (h : s.ReadsCounted t) (n : Nat) :
    (t.voice n).sounding = (s.voice n).sounding := by
  rw [h.voice]
  rfl

theorem State.ReadsCounted.once {s t : State} (h : s.ReadsCounted t) (once : s.WindowsHeldOnce) : t.WindowsHeldOnce := by
  intro m n apart held held'
  rw [h.state] at held held'
  rw [h.window, h.window]
  exact once m n apart held held'

/-- The timed-out read of a voice. -/
theorem State.endVoiceRead_fills {lost : FetchEntry → Prop} {s : State} {f : FetchEntry} {slot w i : Nat} {g : Generation}
    (once : s.WindowsHeldOnce) (is : lost f) (owner : f.owner = .voice slot g) (destination : f.destination = .place w i)
    (own : ∀ n, (s.voice n).sounding = true → (s.voice n).window = w → n = slot ∧ (s.voice n).generation = g) :
    ∃ u, s.ReadsCounted u ∧ State.Fills lost u (s.endVoiceRead slot g w i .offline) := by
  by_cases live : (s.voice slot).generation = g ∧ (s.voice slot).state ≠ .free
  · have counted := State.ReadsCounted.readEnded s slot
    have same : (s.setVoice slot (s.voice slot).readEnded).voice slot = (s.voice slot).readEnded := State.voice_setVoice_same ..
    refine ⟨_, counted, ?_⟩
    by_cases sounds : (s.voice slot).sounding = true
    · cases layout : s.layoutOf (s.voice slot) with
      | none =>
        have stays : s.endVoiceRead slot g w i .offline = s.setVoice slot (s.voice slot).readEnded := by
          simp [State.endVoiceRead, live, sounds, layout, Voice.readEnded]
        rw [stays]
        exact State.Fills.refl _
      | some l =>
        rw [← live.1, State.endVoiceRead_sounding sounds layout]
        refine State.Fills.fillAwaited (n := slot) is ?_ ?_ destination ?_
        · rw [owner, same, ← live.1]
          rfl
        · rw [same]
          exact sounds
        · rw [same]
          exact layout
    · have silent := (Bool.not_eq_true _).mp sounds
      have ends : s.endVoiceRead slot g w i .offline = ((s.setVoice slot (s.voice slot).readEnded).setWindow w
          ((s.window w).setPlace i .empty)).settleFree slot := by
        simp [State.endVoiceRead, live, silent, Voice.readEnded]
      rw [ends]
      refine State.Fills.endingRead (u := s.setVoice slot (s.voice slot).readEnded) (counted.once once) ?_ fun n on at_w => ?_
      · rw [same]
        exact silent
      · rw [counted.sounding] at on
        rw [counted.window] at at_w
        obtain ⟨rfl, -⟩ := own n on at_w
        exact sounds on
  · have stays : s.endVoiceRead slot g w i .offline = s := if_neg live
    exact ⟨s, State.ReadsCounted.refl s, by rw [stays]; exact State.Fills.refl s⟩

/-- The timed-out work, where a read that was to fill a place of a sounding voice's window was that voice's. -/
theorem State.timedOutWork_fills {s : State} {o : Operation} {lost : FetchEntry → Prop} (once : s.WindowsHeldOnce)
    (is : ∀ f, o.work = .read f → o.discard = false → lost f)
    (own : ∀ f n i, o.work = .read f → (s.voice n).sounding = true → f.destination = .place (s.voice n).window i →
      f.owner = .voice n (s.voice n).generation) :
    ∃ u, s.ReadsCounted u ∧ State.Fills lost u (s.timedOutWork o) := by
  have same (h : s.timedOutWork o = s) : ∃ u, s.ReadsCounted u ∧ State.Fills lost u (s.timedOutWork o) :=
    ⟨s, State.ReadsCounted.refl s, by rw [h]; exact State.Fills.refl s⟩
  by_cases marked : o.discard = true
  · exact same (if_pos marked)
  · have unmarked := (Bool.not_eq_true _).mp marked
    have works : s.timedOutWork o = match o.work with
      | .read f => s.timedOutRead f
      | .program p => s.programFails p
      | .poll => s := by
      unfold State.timedOutWork
      rw [unmarked]
      rfl
    cases work : o.work with
    | poll =>
      rw [work] at works
      exact same works
    | program p =>
      rw [work] at works
      refine ⟨s, State.ReadsCounted.refl s, ?_⟩
      rw [works]
      exact (State.StoresKept.programFails s p).fills (State.Loses.programFails s p)
    | read f =>
      rw [work] at works
      dsimp only at works
      cases owner : f.owner with
      | voice slot g =>
        cases destination : f.destination with
        | headBlock k j => exact same (works.trans (by simp [State.timedOutRead, owner, destination]))
        | place w i =>
          have ends : s.timedOutRead f = s.endVoiceRead slot g w i .offline := by simp [State.timedOutRead, owner, destination]
          rw [works, ends]
          refine State.endVoiceRead_fills once (is f work unmarked) owner destination fun n on at_w => ?_
          have mine := own f n i work on (by rw [destination, at_w])
          rw [owner] at mine
          cases mine
          exact ⟨rfl, rfl⟩
      | load id g =>
        cases destination : f.destination with
        | place w i => exact same (works.trans (by simp [State.timedOutRead, owner, destination]))
        | headBlock k j =>
          have ends : s.timedOutRead f = if s.loadRunning id g then s.lowerLoadReads id g k
              else (s.lowerLoadReads id g k).settleRetiring id := by simp [State.timedOutRead, owner, destination]
          refine ⟨s, State.ReadsCounted.refl s, ?_⟩
          rw [works, ends]
          split
          · exact State.Fills.lowerLoadReads ..
          · exact (State.Fills.lowerLoadReads ..).trans (State.Fills.settleRetiring ..)

end Sys2Proof.Machine
end

section
/-! PROOFS. A die that goes OFFLINE (R44, R106, R112, R126): the memory, the windows and the runs after the event. -/

namespace Sys2Proof.Machine

/-! ### The memory at the judging of the voices -/

theorem Format.block_bytes (f : Format) : f.framesPerBlock * f.frameBytes ≤ 4096 := by
  cases f <;> exact Nat.le_refl _

/-- A voice's next run lies in one block (R58). -/
theorem Voice.nextRun_inBlock (v : Voice) (l : Layout) : v.cursor.source % l.format.framesPerBlock + v.runFrames l ≤
    l.format.framesPerBlock ∨ v.runFrames l = 0 := by
  have stop : v.runEnd l ≤ (v.cursor.source / l.format.framesPerBlock + 1) * l.format.framesPerBlock := by
    unfold Voice.runEnd
    exact Nat.le_trans (Nat.min_le_left _ _) (Nat.min_le_left _ _)
  have parts := Nat.div_add_mod v.cursor.source l.format.framesPerBlock
  rw [Nat.succ_mul, Nat.mul_comm] at stop
  unfold Voice.runFrames
  omega

theorem State.inRun_inPlace {s : State} {v : Voice} {l : Layout} {w i a : Nat} {damaged : Bool}
    (h : s.inRun w i (v.nextRun l damaged) l.format a) : s.placeBase w i ≤ a ∧ a < s.placeBase w i + 4096 := by
  unfold State.inRun Voice.nextRun at h
  obtain ⟨start, stop⟩ := h
  dsimp only at start stop
  generalize s.placeBase w i = base at start stop ⊢
  obtain inside | none := v.nextRun_inBlock l
  · have bytes := Nat.le_trans (Nat.mul_le_mul_right l.format.frameBytes inside) l.format.block_bytes
    rw [Nat.add_mul] at bytes
    omega
  · rw [none, Nat.zero_mul] at stop
    omega

/-- A byte lies in an EMPTY place of the window of a sounding voice. -/
def State.emptyByte (s : State) (slot a : Nat) : Prop :=
  (s.voice slot).sounding = true ∧ ∃ i, (s.window (s.voice slot).window).place i = .empty ∧
    s.placeBase (s.voice slot).window i ≤ a ∧ a < s.placeBase (s.voice slot).window i + 4096

theorem State.wantsRun_sounding {s : State} {v : Voice} (h : s.wantsRun v) : v.sounding = true := by
  obtain ⟨state, -⟩ := h
  unfold Voice.sounding
  obtain e | e | e := state <;> rw [e]

/-- A place that is EMPTY after a run was given in silence was EMPTY before it. -/
theorem State.takesRun_empty {s : State} {l : Layout} {v : Voice} {w : Window} {i : Nat}
    (h : (s.takesRun l v w .filled true).place i = .empty) : w.place i = .empty := by
  by_cases fits : v.runFits l = true
  · rw [State.takesRun_fits fits] at h
    by_cases e : i = w.fill
    · have filled : (w.setPlace w.fill (.filled (v.nextRun l true))).place i = .empty := h
      rw [e, Window.place_setPlace_same] at filled
      cases filled
    · exact (Window.place_setPlace_other w (.filled (v.nextRun l true)) e).symm.trans h
  · rwa [State.takesRun_unfit ((Bool.not_eq_true _).mp fits)] at h

theorem State.KeptButRuns.partition {s t : State} (h : s.KeptButRuns t) : t.partition = s.partition := by rw [h]

theorem State.giveRuns_bytes (fuel : Nat) : ∀ (s : State) (slot a : Nat),
    Memory.read (s.giveRuns fuel slot).dram a = Memory.read s.dram a ∨
      (Memory.read (s.giveRuns fuel slot).dram a = 0#8 ∧ s.emptyByte slot a) := by
  induction fuel with
  | zero => exact fun _ _ _ => .inl rfl
  | succ fuel ih =>
    intro s slot a
    rw [State.giveRuns]
    split
    · exact .inl rfl
    · rename_i l layout
      have step := VoiceStep.giveRun (s.voice slot) l
      split
      · have same : (s.setVoice slot ((s.voice slot).giveRun l)).voice slot = (s.voice slot).giveRun l := State.voice_setVoice_same ..
        refine (ih _ slot a).imp id fun ⟨zero, sounds, i, empty, inside⟩ => ?_
        rw [same] at sounds empty inside
        rw [step.window] at empty inside
        exact ⟨zero, step.sounding sounds, i, empty, inside⟩
      · split
        · rename_i due
          have silent := s.giveSilent_place slot l
          have waits := (s.silenceDue_iff _ l).mp due
          have sounding := State.wantsRun_sounding waits.1
          have wasEmpty := waits.2.choose_spec.1.2.1
          obtain same | ⟨zero, sounds, i, empty, inside⟩ := ih (s.giveSilent slot (s.voice slot) l) slot a
          · rw [same, silent.dram]
            split
            · obtain ⟨zero, kept⟩ := s.zeroRun_read (s.voice slot).window (s.window (s.voice slot).window).fill
                ((s.voice slot).nextRun l true) l.format a
              by_cases inside : s.inRun (s.voice slot).window (s.window (s.voice slot).window).fill
                  ((s.voice slot).nextRun l true) l.format a
              · exact .inr ⟨zero inside, sounding, _, wasEmpty, State.inRun_inPlace inside⟩
              · exact .inl (kept inside)
            · exact .inl rfl
          · rw [silent.voice, step.window] at empty inside
            refine .inr ⟨zero, sounding, i, ?_, ?_⟩
            · rw [silent.window] at empty
              exact State.takesRun_empty empty
            · unfold State.placeBase at inside ⊢
              rwa [silent.kept.partition] at inside
        · exact .inl rfl

theorem State.settleVoice_bytes (s : State) (slot a : Nat) : Memory.read (s.settleVoice slot).dram a = Memory.read s.dram a ∨
    (Memory.read (s.settleVoice slot).dram a = 0#8 ∧ s.emptyByte slot a) := by
  unfold State.settleVoice
  split
  · exact .inl rfl
  · exact State.giveRuns_bytes _ s slot a

/-- The judging of the voices writes in EMPTY places of the windows of sounding voices alone. -/
theorem State.settleSlots_bytes (slots : List Nat) : ∀ (s : State) (a : Nat),
    Memory.read (slots.foldl State.settleVoice s).dram a = Memory.read s.dram a ∨
      (Memory.read (slots.foldl State.settleVoice s).dram a = 0#8 ∧ ∃ n, s.emptyByte n a) := by
  induction slots with
  | nil => exact fun _ _ => .inl rfl
  | cons x slots ih =>
    intro s a
    have judging := s.settleVoice_judging x
    obtain same | ⟨zero, n, sounds, i, empty, inside⟩ := ih (s.settleVoice x) a
    · rw [List.foldl_cons, same]
      exact (s.settleVoice_bytes x a).imp id fun ⟨zero, byte⟩ => ⟨zero, x, byte⟩
    · obtain ⟨sounding, window, -⟩ := judging.voices n
      rw [window] at empty inside
      refine .inr ⟨zero, n, sounding.symm.trans sounds, i, judging.empty empty, ?_⟩
      unfold State.placeBase at inside ⊢
      rwa [judging.kept.partition] at inside

/-! ### The windows, the memory and the runs after the event -/

theorem State.ReadsCounted.layoutOf {s u : State} (h : s.ReadsCounted u) (n : Nat) :
    u.layoutOf (u.voice n) = s.layoutOf (s.voice n) := by
  rw [State.layoutOf_congr (show u.catalog = s.catalog by rw [h.kept]), h.voice]
  rfl

theorem State.ReadsCounted.windows {s u : State} (h : s.ReadsCounted u) (w : Nat) : u.window w = s.window w :=
  State.window_congr (by rw [h.kept]) w

/-- The part as every voice is judged, in an event that a die goes OFFLINE at: what the entries lost have left. -/
structure State.OfflineRuns (s b : State) (d : Nat) (o : Operation) : Prop where
  loses : (s.wentOffline d).Loses b
  voice : ∀ n, (b.voice n).sounding = true → b.voice n = { s.voice n with reads := (b.voice n).reads }
  layouts : ∀ n, (b.voice n).sounding = true → ∀ l, b.layoutOf (b.voice n) = some l → s.layoutOf (s.voice n) = some l
  windows : ∀ n, (b.voice n).sounding = true → s.PlacesLost d o (s.voice n).window (b.window (s.voice n).window)
  bytes : ∀ a, Memory.read b.dram a = Memory.read s.dram a ∨ (Memory.read b.dram a = 0#8 ∧ s.lostByte d o a)

theorem State.offlineRuns {s : State} {d : Nat} {o : Operation} (c : s.Canonical) (once : s.WindowsHeldOnce)
    (own : ∀ f n i, o.work = .read f → (s.voice n).sounding = true → f.destination = .place (s.voice n).window i →
      f.owner = .voice n (s.voice n).generation) : s.OfflineRuns (s.storesLost d o) d o := by
  obtain ⟨u, counted, first⟩ := State.timedOutWork_fills (s := s.wentOffline d) (o := o) (lost := s.lostEntry d o) once
    (fun f read unmarked => .inr ⟨read, unmarked⟩) own
  have fills := first.trans (State.timedOut_fills c once)
  have here (n : Nat) : u.voice n = { s.voice n with reads := (u.voice n).reads } := counted.voice n
  refine ⟨s.wentOffline_storesLost d o, fun n on => ?_, fun n on l layout => ?_, fun n on => ?_, fun a => ?_⟩
  · rw [fills.voice n on]
    exact here n
  · rw [fills.voice n on] at layout
    exact (counted.layoutOf n).symm.trans (fills.layoutOf _ layout)
  · have window : (u.voice n).window = (s.voice n).window := by rw [here]
    have filled := fills.windows n on
    rw [window] at filled
    obtain ⟨⟨fill, delivery⟩, places, -⟩ := filled
    rw [counted.windows] at fill delivery places
    exact ⟨⟨fill, delivery⟩, places⟩
  · have dram : u.dram = s.dram := by
      rw [counted.kept]
      rfl
    obtain same | ⟨zero, e, n, w, i, r, l, is, owner, sounds, destination, wait, layout, inside⟩ := fills.bytes a
    · exact .inl (same.trans (by rw [dram]))
    · rw [counted.windows] at wait
      refine .inr ⟨zero, e, n, w, i, r, l, is, ?_, ?_, destination, wait, ?_, ?_⟩
      · rw [owner, here]
      · rw [← sounds, here]
        rfl
      · exact (counted.layoutOf n).symm.trans layout
      · unfold State.inRun State.placeBase at inside ⊢
        rwa [show u.partition = s.partition by rw [counted.kept]; rfl] at inside

/-- The part as a timeout's event leaves it, beside the judging of the voices: nothing of a voice that sounds on has changed. -/
theorem State.OfflineRuns.settled {s b t : State} {d : Nat} {o : Operation} (h : s.OfflineRuns b d o) (c : s.Canonical)
    (once : s.WindowsHeldOnce) (ended : (b.settleVoices.settleLoads).Ended t) :
    State.Fills (fun _ => False) b.settleVoices b.settleVoices.settleLoads ∧ Closed b.settleVoices.settleLoads t := by
  have canonical := h.loses.inner.canonical (Canonical.wentOffline c d)
  have held : b.WindowsHeldOnce := h.loses.once (s := s.wentOffline d) once
  have voices := State.Loses.settleVoices b
  exact ⟨State.Fills.settleLoads _ (voices.inner.canonical canonical) (voices.once held), ended.posted.closed⟩

/-- The memory, the windows and the runs due after a die has gone OFFLINE (R106, R112, R126). -/
theorem timesOut_memory {s : State} {d : Fin 16} {o : Operation} {c : Instr} (h : timesOut s d o c) (once : s.WindowsHeldOnce)
    (own : ∀ f n i, o.work = .read f → (s.voice n).sounding = true → f.destination = .place (s.voice n).window i →
      f.owner = .voice n (s.voice n).generation) :
    ∃ t, exec c s = .next t ∧
      (∀ a, Memory.read t.dram a = Memory.read s.dram a ∨
        (Memory.read t.dram a = 0#8 ∧ (s.lostByte d.val o a ∨ s.unfilledByte a))) ∧
      (∀ a, silentByte s t a → Memory.read t.dram a = 0#8) ∧
      ∀ n, (s.voice n).sounding = true → (t.voice n).sounding = true →
        ∃ x, s.PlacesLost d.val o (s.voice n).window x ∧
          s.GivenRuns t n { s.voice n with reads := (t.voice n).reads } x := by
  obtain ⟨t, ht, ended⟩ := exec_timesOut h
  obtain ⟨canonical, ready, -⟩ := h
  have run := State.offlineRuns (d := d.val) canonical once own
  have loses := s.storesLost_settled d.val o
  generalize s.storesLost d.val o = b at ended run loses
  obtain ⟨last, closed⟩ := run.settled canonical once ended
  have wellFormed := run.loses.inner.canonical (Canonical.wentOffline canonical d.val)
  have sounded := (run.loses.once (s := s.wentOffline d.val) once).sounded
  have calm : b.resetting = false := run.loses.resetting.trans (State.not_resetting_of ready)
  have judged := b.settleVoices_judged sounded
  have judging := b.settleVoices_judging
  have partition : b.partition = s.partition := run.loses.partition
  have dram (a : Nat) : Memory.read t.dram a = Memory.read b.settleVoices.dram a := by
    rw [closed.dram]
    obtain same | ⟨-, e, -, -, -, -, -, none, -⟩ := last.bytes a
    · exact same
    · exact none.elim
  have stays (n : Nat) (on : (t.voice n).sounding = true) : (b.voice n).sounding = true ∧ t.voice n = b.settleVoices.voice n ∧
      t.window (s.voice n).window = b.settleVoices.window (s.voice n).window := by
    rw [closed.voice] at on ⊢
    have voice := last.voice n on
    have before : (b.voice n).sounding = true := by
      rw [← (judging.voices n).1, ← voice]
      exact on
    have window := (last.windows n on).still fun _ => id
    rw [(judging.voices n).2.1, run.voice n before] at window
    exact ⟨before, voice, (closed.window _).trans window⟩
  have layouts (id : Nat) (l : Layout) (k : (t.record id).layout = some l) : (b.record id).layout = some l := by
    rw [closed.record] at k
    have earlier := last.layouts id l k
    rwa [judging.kept] at earlier
  refine ⟨t, ht, fun a => ?_, fun a silent => ?_, fun n _ on => ?_⟩
  · rw [dram]
    obtain same | ⟨zero, n, sounds, i, empty, inside⟩ := State.settleSlots_bytes (Table.keys b.voices) b a
    · refine (run.bytes a).imp (fun same' => same.trans same') fun ⟨zero, byte⟩ => ⟨same.trans zero, .inl byte⟩
    · rw [run.voice n sounds] at empty inside
      refine .inr ⟨zero, .inr ⟨n, i, ?_, fun r filled => ?_, ?_⟩⟩
      · exact (run.loses.inner.voices n).sounding sounds
      · obtain same | ⟨r', e, wait, -⟩ := (run.windows n sounds).places i
        · exact nomatch filled.symm.trans (same.symm.trans empty)
        · exact nomatch filled.symm.trans wait
      · unfold State.placeBase at inside ⊢
        rwa [partition] at inside
  · obtain ⟨n, i, r, l, block, on, layout, filled, damaged, empty, -, -, inside⟩ := silent
    obtain ⟨before, voice, window⟩ := stays n on
    have sounding : (s.voice n).sounding = true := (run.loses.inner.voices n).sounding before
    obtain ⟨-, kept, id⟩ := judging.voices n
    have sameWindow : (t.voice n).window = (s.voice n).window := by rw [voice, kept, run.voice n before]
    have hereWindow : (b.voice n).window = (s.voice n).window := by rw [run.voice n before]
    rw [sameWindow] at filled empty inside
    have wasEmpty : (s.window (s.voice n).window).place i = .empty := by
      obtain empty | free := empty
      · exact empty
      · rw [State.windowFree_sounding sounding] at free
        cases free
    rw [dram]
    refine (judged.dram a).1 ⟨n, i, r, l, trivial, before, ?_, ?_, damaged, ?_, ?_⟩
    · have known := layouts _ l layout
      rwa [voice, id] at known
    · rw [hereWindow, ← window]
      exact filled
    · rw [hereWindow]
      obtain same | ⟨r', e, wait, -⟩ := (run.windows n before).places i
      · rw [same]
        exact wasEmpty
      · exact nomatch wasEmpty.symm.trans wait
    · rw [hereWindow]
      unfold State.inRun State.placeBase at inside ⊢
      rwa [partition]
  · obtain ⟨before, voice, window⟩ := stays n on
    refine ⟨_, run.windows n before, fun l _ layout => ?_⟩
    have reads : (t.voice n).reads = (b.voice n).reads := by
      rw [voice]
      exact (b.settleVoices_each n).keep.reads
    have same : { s.voice n with reads := (t.voice n).reads } = b.voice n := by rw [reads, ← run.voice n before]
    have hereWindow : (b.voice n).window = (s.voice n).window := by rw [run.voice n before]
    rw [same] at layout ⊢
    have due := b.settleVoices_runs wellFormed.voices sounded calm n before l (layouts _ l layout)
    rw [hereWindow] at due ⊢
    rw [voice, window]
    refine State.RunsGiven.congr ?_ ?_ (fun x => ?_) ?_ due
    · rw [closed.tunables, loses.tunables]
    · rw [closed.pace, loses.pace]
    · rw [closed.die, loses.dieState wellFormed]
    · rw [closed.partition, loses.partition]

end Sys2Proof.Machine
end

section
/-! PROOFS. A voice's lost reads (O56, R44, R112, R124, R126): its place FILLED, damaged, its frames zero; and the place of an entry
still queued on a die that goes OFFLINE. -/

namespace Sys2Proof.Machine

/-! ### The queued entries of the die -/

/-- What the lost entries of voices do, whatever windows they name: AWAITED places become FILLED, and zeros are written. -/
structure State.Filling (s t : State) : Prop where
  kept : t = { s with windows := t.windows, dram := t.dram }
  places : ∀ w i, (t.window w).place i = (s.window w).place i ∨
    ∃ r, (s.window w).place i = .awaited r ∧ (t.window w).place i = .filled { r with damaged := true }
  bytes : ∀ a, Memory.read t.dram a = Memory.read s.dram a ∨ Memory.read t.dram a = 0#8

theorem State.Filling.refl (s : State) : s.Filling s := ⟨rfl, fun _ _ => .inl rfl, fun _ => .inl rfl⟩

theorem State.Filling.filled {s t : State} (h : s.Filling t) {w i : Nat} {r : Run} (k : (s.window w).place i = .filled r) :
    (t.window w).place i = .filled r := by
  obtain same | ⟨r', wait, -⟩ := h.places w i
  · exact same.trans k
  · exact nomatch k.symm.trans wait

theorem State.Filling.zero {s t : State} (h : s.Filling t) {a : Nat} (k : Memory.read s.dram a = 0#8) :
    Memory.read t.dram a = 0#8 :=
  (h.bytes a).elim (fun same => same.trans k) id

theorem State.Filling.trans {s t u : State} (h : s.Filling t) (k : t.Filling u) : s.Filling u where
  kept := k.kept.trans (by rw [h.kept])
  places w i := by
    obtain same | ⟨r, wait, filled⟩ := h.places w i
    · obtain same' | ⟨r, wait, filled⟩ := k.places w i
      · exact .inl (same'.trans same)
      · exact .inr ⟨r, same.symm.trans wait, filled⟩
    · exact .inr ⟨r, wait, k.filled filled⟩
  bytes a := by
    obtain same | zero := k.bytes a
    · rw [same]
      exact h.bytes a
    · exact .inr zero

theorem State.fillAwaited_otherPlace (s : State) {w i x j : Nat} (l : Layout) (apart : ¬ (x = w ∧ j = i)) :
    ((s.fillAwaited w i l .offline).window x).place j = (s.window x).place j := by
  by_cases waits : ∃ r, (s.window w).place i = .awaited r
  · obtain ⟨r, wait⟩ := waits
    rw [State.fillAwaited_lost (e := .offline) wait l (fun _ => nofun)]
    by_cases e : x = w
    · rw [e, State.window_setWindow_same]
      exact Window.place_setPlace_other _ _ fun k => apart ⟨e, k⟩
    · rw [State.window_setWindow_other _ _ e]
      rfl
  · rw [State.fillAwaited_other (not_exists.mp waits)]

/-- An AWAITED place filled for a lost entry, and the bytes of its run. -/
theorem State.fillAwaited_zeroes {s : State} {w i : Nat} {r : Run} (wait : (s.window w).place i = .awaited r) (l : Layout) :
    ((s.fillAwaited w i l .offline).window w).place i = .filled { r with damaged := true } ∧
      ∀ a, s.inRun w i r l.format a → Memory.read (s.fillAwaited w i l .offline).dram a = 0#8 := by
  rw [State.fillAwaited_lost (e := .offline) wait l (fun _ => nofun)]
  refine ⟨?_, fun a inside => (s.zeroRun_read w i { r with damaged := true } l.format a).1 inside⟩
  rw [State.window_setWindow_same]
  exact Window.place_setPlace_same _ _ _

theorem State.Filling.fillAwaited (s : State) (w i : Nat) (l : Layout) : s.Filling (s.fillAwaited w i l .offline) where
  kept := State.fillAwaited_kept ..
  places x j := by
    by_cases here : x = w ∧ j = i
    · obtain ⟨rfl, rfl⟩ := here
      by_cases waits : ∃ r, (s.window x).place j = .awaited r
      · obtain ⟨r, wait⟩ := waits
        exact .inr ⟨r, wait, (State.fillAwaited_zeroes wait l).1⟩
      · rw [State.fillAwaited_other (not_exists.mp waits)]
        exact .inl rfl
    · exact .inl (State.fillAwaited_otherPlace s l here)
  bytes a := by
    by_cases waits : ∃ r, (s.window w).place i = .awaited r
    · obtain ⟨r, wait⟩ := waits
      by_cases inside : s.inRun w i r l.format a
      · exact .inr ((State.fillAwaited_zeroes wait l).2 a inside)
      · rw [State.fillAwaited_lost (e := .offline) wait l (fun _ => nofun)]
        exact .inl ((s.zeroRun_read w i { r with damaged := true } l.format a).2 inside)
    · rw [State.fillAwaited_other (not_exists.mp waits)]
      exact .inl rfl

theorem State.Filling.failVoiceEntry (s : State) (e : FetchEntry) : s.Filling (s.failVoiceEntry e) := by
  simp only [State.failVoiceEntry]
  split
  · split
    · split
      · exact State.Filling.fillAwaited ..
      · exact State.Filling.refl s
    · exact State.Filling.refl s
  all_goals exact State.Filling.refl s

theorem State.Filling.entries (entries : List FetchEntry) : ∀ s : State, s.Filling (entries.foldl State.failVoiceEntry s) := by
  induction entries with
  | nil => exact State.Filling.refl
  | cons x xs ih => exact fun s => (State.Filling.failVoiceEntry s x).trans (ih _)

/-- An entry fills no place but its own. -/
theorem State.failVoiceEntry_otherPlace (s : State) {e : FetchEntry} {w i : Nat} (apart : e.destination ≠ .place w i) :
    ((s.failVoiceEntry e).window w).place i = (s.window w).place i := by
  simp only [State.failVoiceEntry]
  split
  · rename_i slot g x j owner destination
    split
    · split
      · refine State.fillAwaited_otherPlace s _ ?_
        rintro ⟨rfl, rfl⟩
        exact apart destination
      · rfl
    · rfl
  all_goals rfl

/-- The entry of a sounding voice fills its place. -/
theorem State.failVoiceEntry_live {s : State} {e : FetchEntry} {slot w i : Nat} {l : Layout}
    (owner : e.owner = .voice slot (s.voice slot).generation) (destination : e.destination = .place w i)
    (sounds : (s.voice slot).sounding = true) (layout : s.layoutOf (s.voice slot) = some l) :
    s.failVoiceEntry e = s.fillAwaited w i l .offline := by
  simp [State.failVoiceEntry, owner, destination, sounds, layout]

/-- Of the entries of a die, one fills an AWAITED place; the run's bytes are 0 where no other voice's entry names the place. -/
theorem State.failEntries_place {e : FetchEntry} {slot w i : Nat} {l : Layout} {r : Run} (destination : e.destination = .place w i)
    (entries : List FetchEntry) : ∀ s : State, e ∈ entries → e.owner = .voice slot (s.voice slot).generation →
      (s.voice slot).sounding = true → s.layoutOf (s.voice slot) = some l → (s.window w).place i = .awaited r →
      ((entries.foldl State.failVoiceEntry s).window w).place i = .filled { r with damaged := true } ∧
      ((∀ x ∈ entries, x.destination = e.destination → x.owner = e.owner) → ∀ a, s.inRun w i r l.format a →
        Memory.read (entries.foldl State.failVoiceEntry s).dram a = 0#8) := by
  induction entries with
  | nil => exact fun _ listed => nomatch listed
  | cons x xs ih =>
    intro s listed owner sounds layout wait
    have first := State.Filling.failVoiceEntry s x
    have rest := State.Filling.entries xs (s.failVoiceEntry x)
    have kept := first.kept
    have catalog : (s.failVoiceEntry x).catalog = s.catalog := by rw [kept]
    have voice : (s.failVoiceEntry x).voice slot = s.voice slot := State.voice_congr (by rw [kept]) slot
    by_cases mine : x.owner = e.owner ∧ x.destination = e.destination
    · obtain ⟨sameOwner, sameDestination⟩ := mine
      obtain ⟨filled, zero⟩ := State.fillAwaited_zeroes wait l
      rw [← State.failVoiceEntry_live (sameOwner.trans owner) (sameDestination.trans destination) sounds layout] at filled zero
      exact ⟨rest.filled filled, fun _ a inside => rest.zero (zero a inside)⟩
    · have later : e ∈ xs := by
        obtain rfl | later := List.mem_cons.mp listed
        · exact absurd ⟨rfl, rfl⟩ mine
        · exact later
      obtain same | ⟨r', wait', filled⟩ := first.places w i
      · obtain ⟨filled, zero⟩ := ih (s.failVoiceEntry x) later (by rw [voice]; exact owner) (by rw [voice]; exact sounds)
          (by rw [voice, State.layoutOf_congr catalog]; exact layout) (same.trans wait)
        refine ⟨filled, fun alone a inside => zero (fun y hy => alone y (List.mem_cons_of_mem _ hy)) a ?_⟩
        unfold State.inRun State.placeBase at inside ⊢
        rwa [show (s.failVoiceEntry x).partition = s.partition by rw [kept]]
      · obtain rfl : r = r' := Place.awaited.inj (wait.symm.trans wait')
        refine ⟨rest.filled filled, fun alone => ?_⟩
        by_cases at_place : x.destination = .place w i
        · have there : x.destination = e.destination := at_place.trans destination.symm
          exact absurd ⟨alone x List.mem_cons_self there, there⟩ mine
        · have unchanged := State.failVoiceEntry_otherPlace s at_place
          rw [filled, wait] at unchanged
          cases unchanged

/-! ### An event without loads -/

/-- No record is loading. -/
def State.NoLoads (s : State) : Prop := ∀ id, (s.record id).load = none

theorem State.NoLoads.of_catalog {s t : State} (h : s.NoLoads) (catalog : t.catalog = s.catalog) : t.NoLoads := fun id => by
  rw [State.record_congr catalog]
  exact h id

theorem State.NoLoads.settleRetiring {s : State} (h : s.NoLoads) (id : Nat) : (s.settleRetiring id).NoLoads := by
  have vacant (u : State) (k : u.NoLoads) : (u.toVacant id).NoLoads := by
    intro j
    by_cases e : j = id
    · rw [e, State.toVacant_same]
      rfl
    · rw [State.toVacant_other _ e]
      exact k j
  simp only [State.settleRetiring]
  split
  · split
    · exact vacant _ h
    · exact vacant _ h
  · exact h

theorem State.NoLoads.lowerLoadReads {s : State} (h : s.NoLoads) (id : Nat) (g : Generation) (slot : Nat) :
    (s.lowerLoadReads id g slot).NoLoads := by
  simp only [State.lowerLoadReads]
  split
  · intro j
    by_cases e : j = id
    · rw [e, State.record_setRecord_same]
      exact h id
    · rw [State.record_setRecord_other _ _ e]
      exact h j
  · exact h

theorem State.NoLoads.timedOutWork {s : State} (h : s.NoLoads) (o : Operation) : (s.timedOutWork o).NoLoads := by
  simp only [State.timedOutWork]
  split
  · exact h
  · split
    · simp only [State.timedOutRead]
      split
      · exact h.of_catalog (by rw [State.endVoiceRead_kept])
      · split
        · exact h.lowerLoadReads _ _ _
        · exact State.NoLoads.settleRetiring (h.lowerLoadReads _ _ _) _
      all_goals exact h
    · have kept := State.StoresKept.programFails s ‹_›
      unfold State.StoresKept at kept
      exact h.of_catalog (by rw [kept])
    · exact h

theorem State.NoLoads.failLoads {s : State} (h : s.NoLoads) (entries : List FetchEntry) (owners : List (Nat × Generation)) :
    owners.foldl (State.failLoadOffline entries) s = s := by
  induction owners with
  | nil => rfl
  | cons x xs ih =>
    have stays : State.failLoadOffline entries s x = s := by
      simp only [State.failLoadOffline]
      refine if_neg ?_
      rw [State.loadRunning_iff, h]
      exact fun k => nomatch k.2
    rw [List.foldl_cons, stays, ih]

theorem State.NoLoads.settleLoads {s : State} (h : s.NoLoads) : s.settleLoads = s := by
  have each (l : List Nat) : l.foldl State.settleLoad s = s := by
    induction l with
    | nil => rfl
    | cons x xs ih =>
      have stays : s.settleLoad x = s := by simp [State.settleLoad, h x]
      rw [List.foldl_cons, stays, ih]
  exact each _

/-- The event of a timeout where no record is loading: the voices are those that the timed-out work left, the places those that the
lost entries left. -/
theorem timesOut_quiet {s : State} {d : Fin 16} {o : Operation} {c : Instr} (h : timesOut s d o c) (none : s.NoLoads) :
    ∃ t, exec c s = .next t ∧
      (∀ w i r, ((s.placesLost d.val o).window w).place i = .filled r → (t.window w).place i = .filled r) ∧
      (∀ a, Memory.read (s.placesLost d.val o).dram a = 0#8 → Memory.read t.dram a = 0#8) ∧
      ∀ n, (t.voice n).sounding = (((s.wentOffline d.val).timedOutWork o).voice n).sounding ∧
        (t.voice n).reads = (((s.wentOffline d.val).timedOutWork o).voice n).reads := by
  obtain ⟨t, ht, ended⟩ := exec_timesOut h
  have filling := State.Filling.entries (s.subQueue d.val) ((s.wentOffline d.val).timedOutWork o)
  have worked : ((s.wentOffline d.val).timedOutWork o).NoLoads := State.NoLoads.timedOutWork (s := s.wentOffline d.val) none o
  have kept := filling.kept
  have noLoads : (s.placesLost d.val o).NoLoads := worked.of_catalog (by unfold State.placesLost; rw [kept])
  have loads : s.loadsLost d.val o = s.placesLost d.val o := noLoads.failLoads _ _
  have stores := s.loadsLost_stores d.val o
  rw [loads] at stores
  unfold State.StoresKept at stores
  generalize s.storesLost d.val o = b at ended stores
  have judging := b.settleVoices_judging
  have settled : b.settleVoices.settleLoads = b.settleVoices :=
    State.NoLoads.settleLoads (noLoads.of_catalog (by rw [judging.kept, stores]))
  rw [settled] at ended
  have closed := ended.posted.closed
  refine ⟨t, ht, fun w i r filled => ?_, fun a zero => ?_, fun n => ?_⟩
  · rw [closed.window]
    refine judging.filled ?_
    rw [stores]
    exact filled
  · rw [closed.dram]
    obtain same | ⟨zero', -⟩ := judging.bytes a
    · rw [same, stores]
      exact zero
    · exact zero'
  · have voice : b.voice n = ((s.wentOffline d.val).timedOutWork o).voice n := State.voice_congr (by
      rw [stores]
      unfold State.placesLost
      rw [kept]) n
    rw [closed.voice, (judging.voices n).1, (b.settleVoices_each n).keep.reads, voice]
    exact ⟨rfl, rfl⟩

/-- Settles O56: a voice's read UNRECOVERED, and one whose die goes OFFLINE. -/
theorem voiceReadsLost : Obligations.VoiceReadsLost := by
  refine ⟨fun s d o f slot w i l r c counters ready operation read unmarked ends quiet owner destination sounding layout awaited
    settled => ?_, fun s d o f slot w i l r canonical ready operation read unmarked owner destination sounding layout awaited
    none => ?_⟩
  · obtain ⟨t, ht, die, place, counted, fault, voice, dram⟩ := voiceReadUnrecovered s d o f slot w i l r c counters ready operation
      read unmarked ends quiet owner destination sounding layout awaited
    have written := s.zeroRun_read w i { r with damaged := true } l.format
    refine ⟨t, ht, die, place, counted, fault, voice, fun k inside => ?_, fun a outside => ?_⟩
    · rw [dram]
      exact (written _).1 ⟨Nat.le_add_right _ _, Nat.add_lt_add_left inside _⟩
    · rw [dram]
      refine (written a).2 fun ⟨start, stop⟩ => ?_
      exact outside.elim (Nat.not_lt.mpr start) (Nat.not_le.mpr stop)
  · obtain ⟨t, ht, filled, zeroed, voices⟩ := timesOut_quiet (c := .readTimeout d)
      ⟨canonical, ready, operation, .inl ⟨⟨f, read⟩, rfl⟩⟩ none
    have works : (s.wentOffline d.val).timedOutWork o =
        (s.wentOffline d.val).endVoiceRead slot ((s.wentOffline d.val).voice slot).generation w i .offline := by
      have reads : (s.wentOffline d.val).timedOutWork o = (s.wentOffline d.val).timedOutRead f := by
        simp [State.timedOutWork, unmarked, read]
      rw [reads]
      simp only [State.timedOutRead, owner, destination]
      rfl
    obtain ⟨u, hands, voiceRead, dram⟩ := State.voiceRead_lost (s := s.wentOffline d.val) (slot := slot) (e := .offline) sounding
      layout awaited (fun _ => nofun)
    rw [works, hands] at voices
    have places : s.placesLost d.val o = (s.subQueue d.val).foldl State.failVoiceEntry u := by
      unfold State.placesLost
      rw [works, hands]
    have filling := State.Filling.entries (s.subQueue d.val) u
    rw [← places] at filling
    obtain ⟨sounds, count⟩ := voices slot
    refine ⟨t, ht, filled w i _ (filling.filled voiceRead.place), fun a inside => zeroed a (filling.zero ?_), ?_, ?_⟩
    · rw [dram]
      exact ((s.wentOffline d.val).zeroRun_read w i { r with damaged := true } l.format a).1 inside
    · rw [count, voiceRead.voice]
      rfl
    · rw [sounds, voiceRead.voice]
      exact sounding

end Sys2Proof.Machine
end

section
/-! PROOFS. The place of an entry queued on a die that goes OFFLINE (R112, R126). -/

namespace Sys2Proof.Machine

/-! ### What the timed-out work spares -/

/-- A sounding voice and a place of its window, which the timed-out work was not to fill. -/
structure State.Spared (s t : State) (slot i : Nat) : Prop where
  voice : t.voice slot = { s.voice slot with reads := (t.voice slot).reads }
  place : (t.window (s.voice slot).window).place i = (s.window (s.voice slot).window).place i
  layout : t.layoutOf (s.voice slot) = s.layoutOf (s.voice slot)

section
variable {s : State} {slot i : Nat}

theorem State.Spared.refl (s : State) (slot i : Nat) : s.Spared s slot i := ⟨rfl, rfl, rfl⟩

theorem State.settleFree_spares (once : s.WindowsHeldOnce) (sounds : (s.voice slot).sounding = true) (n : Nat) :
    (s.settleFree n).voice slot = s.voice slot ∧
      (s.settleFree n).window (s.voice slot).window = s.window (s.voice slot).window := by
  unfold State.settleFree
  dsimp only
  split
  · rename_i frees
    have ending := frees.1
    have apart : slot ≠ n := by
      rintro rfl
      simp [Voice.sounding, ending] at sounds
    have held : (s.voice n).state ≠ .free := by
      rw [ending]
      exact nofun
    refine ⟨State.voice_setVoice_other _ _ apart, ?_⟩
    rw [State.window_setVoice]
    exact State.window_setWindow_other _ _ (once slot n apart (Voice.sounding_held sounds) held)
  · exact ⟨rfl, rfl⟩

/-- Another place's read that ends leaves a voice and its place, but for the voice's count. -/
theorem State.endVoiceRead_spares (once : s.WindowsHeldOnce) (sounds : (s.voice slot).sounding = true) {w j : Nat}
    (apart : ¬ ((s.voice slot).window = w ∧ i = j)) (n : Nat) (g : Generation) :
    s.Spared (s.endVoiceRead n g w j .offline) slot i ∧
      (¬ (n = slot ∧ (s.voice slot).generation = g) →
        ((s.endVoiceRead n g w j .offline).voice slot).reads = (s.voice slot).reads) := by
  have counted := State.ReadsCounted.readEnded s n
  have here : (s.setVoice n (s.voice n).readEnded).voice n = (s.voice n).readEnded := State.voice_setVoice_same ..
  by_cases live : (s.voice n).generation = g ∧ (s.voice n).state ≠ .free
  · have reads : ¬ (n = slot ∧ (s.voice slot).generation = g) →
        ((s.setVoice n (s.voice n).readEnded).voice slot).reads = (s.voice slot).reads := by
      intro other
      by_cases e : slot = n
      · exact absurd ⟨e.symm, e ▸ live.1⟩ other
      · rw [State.voice_setVoice_other _ _ e]
    by_cases on : (s.voice n).sounding = true
    · cases layout : s.layoutOf (s.voice n) with
      | none =>
        have stays : s.endVoiceRead n g w j .offline = s.setVoice n (s.voice n).readEnded := by
          simp [State.endVoiceRead, live, on, layout, Voice.readEnded]
        rw [stays]
        exact ⟨⟨counted.voice slot, rfl, rfl⟩, reads⟩
      | some l =>
        rw [← live.1] at reads ⊢
        rw [State.endVoiceRead_sounding on layout]
        have kept := (State.Filling.fillAwaited (s.setVoice n (s.voice n).readEnded) w j l).kept
        have place := State.fillAwaited_otherPlace (s.setVoice n (s.voice n).readEnded) l apart
        generalize (s.setVoice n (s.voice n).readEnded).fillAwaited w j l .offline = t at kept place
        have voice : t.voice slot = (s.setVoice n (s.voice n).readEnded).voice slot := State.voice_congr (by rw [kept]) slot
        refine ⟨⟨?_, place, ?_⟩, ?_⟩
        · rw [voice]
          exact counted.voice slot
        · exact State.layoutOf_congr (by rw [kept]; rfl) _
        · rw [voice]
          exact reads
    · have silent := (Bool.not_eq_true _).mp on
      have ends : s.endVoiceRead n g w j .offline = ((s.setVoice n (s.voice n).readEnded).setWindow w
          ((s.window w).setPlace j .empty)).settleFree n := by
        simp [State.endVoiceRead, live, silent, Voice.readEnded]
      rw [ends]
      have other : slot ≠ n := by
        rintro rfl
        exact on sounds
      have voice : (s.setVoice n (s.voice n).readEnded).voice slot = s.voice slot := State.voice_setVoice_other _ _ other
      obtain ⟨sameVoice, sameWindow⟩ := State.settleFree_spares (slot := slot)
        (s := (s.setVoice n (s.voice n).readEnded).setWindow w ((s.window w).setPlace j .empty))
        (counted.once once) (by rw [State.voice_setWindow, voice]; exact sounds) n
      rw [State.voice_setWindow, voice] at sameVoice sameWindow
      have kept := ((s.setVoice n (s.voice n).readEnded).setWindow w ((s.window w).setPlace j .empty)).settleFree_kept n
      refine ⟨⟨by rw [sameVoice], ?_, State.layoutOf_congr (by rw [kept]; rfl) _⟩, fun _ => by rw [sameVoice]⟩
      rw [sameWindow]
      by_cases e : (s.voice slot).window = w
      · rw [e, State.window_setWindow_same]
        exact Window.place_setPlace_other _ _ fun k => apart ⟨e, k⟩
      · rw [State.window_setWindow_other _ _ e]
        rfl
  · have stays : s.endVoiceRead n g w j .offline = s := if_neg live
    rw [stays]
    exact ⟨State.Spared.refl s slot i, fun _ => rfl⟩

theorem State.Spared.of_catalog {t : State} (voices : t.voices = s.voices) (windows : t.windows = s.windows)
    (layout : (t.record (s.voice slot).sampleId).layout = (s.record (s.voice slot).sampleId).layout) : s.Spared t slot i ∧
      (t.voice slot).reads = (s.voice slot).reads := by
  have voice := State.voice_congr voices slot
  refine ⟨⟨?_, by rw [State.window_congr windows], layout⟩, by rw [voice]⟩
  rw [voice]

/-- A record that voices name keeps its layout as a load's read ends. -/
theorem State.endLoadCount_layout {id named : Nat} (refs : 0 < (s.record named).refs) (g : Generation) (head : Nat) :
    ((s.lowerLoadReads id g head).record named).layout = (s.record named).layout ∧
      (((s.lowerLoadReads id g head).settleRetiring id).record named).layout = (s.record named).layout := by
  have lowered : ((s.lowerLoadReads id g head).record named).layout = (s.record named).layout ∧
      ((s.lowerLoadReads id g head).record named).refs = (s.record named).refs := by
    simp only [State.lowerLoadReads]
    split
    · by_cases e : named = id
      · rw [e, State.record_setRecord_same]
        exact ⟨rfl, rfl⟩
      · rw [State.record_setRecord_other _ _ e]
        exact ⟨rfl, rfl⟩
    · exact ⟨rfl, rfl⟩
  obtain ⟨layout, count⟩ := lowered
  refine ⟨layout, Eq.trans ?_ layout⟩
  generalize s.lowerLoadReads id g head = u at count layout
  by_cases e : named = id
  · rw [← e]
    have stays : u.settleRetiring named = u := if_neg fun k => by
      rw [← count, k.2.1] at refs
      exact absurd refs (Nat.lt_irrefl 0)
    rw [stays]
  · simp only [State.settleRetiring]
    split
    · split
      · rw [State.toVacant_other _ e]
        rfl
      · rw [State.toVacant_other _ e]
    · rfl

theorem State.settleRetiring_kept (s : State) (id : Nat) : s.settleRetiring id = { s with
    catalog := (s.settleRetiring id).catalog, recency := (s.settleRetiring id).recency
    completions := (s.settleRetiring id).completions } := by
  simp only [State.settleRetiring]
  split
  · split <;> rfl
  · rfl

theorem State.timedOutWork_spares {o : Operation} (once : s.WindowsHeldOnce) (sounds : (s.voice slot).sounding = true)
    (refs : 0 < (s.record (s.voice slot).sampleId).refs)
    (apart : ∀ f, o.work = .read f → f.destination ≠ .place (s.voice slot).window i) :
    s.Spared (s.timedOutWork o) slot i ∧
      ((∀ f, o.work = .read f → f.owner ≠ .voice slot (s.voice slot).generation) →
        ((s.timedOutWork o).voice slot).reads = (s.voice slot).reads) := by
  have same : s.Spared s slot i ∧ ((∀ f, o.work = .read f → f.owner ≠ .voice slot (s.voice slot).generation) →
      (s.voice slot).reads = (s.voice slot).reads) := ⟨State.Spared.refl s slot i, fun _ => rfl⟩
  unfold State.timedOutWork
  split
  · exact same
  · split
    · rename_i f read
      unfold State.timedOutRead
      split
      · rename_i n g w j owner destination
        obtain ⟨spared, count⟩ := State.endVoiceRead_spares (i := i) (w := w) (j := j) once sounds
          (fun k => apart f read (by rw [destination, k.1, k.2])) n g
        refine ⟨spared, fun others => count fun k => others f read ?_⟩
        rw [owner, k.1, k.2]
      · rename_i id g head block owner destination
        obtain ⟨lowered, judged⟩ := State.endLoadCount_layout (id := id) refs g head
        split
        · obtain ⟨spared, count⟩ := State.Spared.of_catalog (s := s) (slot := slot) (i := i) (by rw [State.lowerLoadReads_kept])
            (by rw [State.lowerLoadReads_kept]) lowered
          exact ⟨spared, fun _ => count⟩
        · obtain ⟨spared, count⟩ := State.Spared.of_catalog (s := s) (slot := slot) (i := i)
            (t := (s.lowerLoadReads id g head).settleRetiring id) (by rw [State.settleRetiring_kept, State.lowerLoadReads_kept])
            (by rw [State.settleRetiring_kept, State.lowerLoadReads_kept]) judged
          exact ⟨spared, fun _ => count⟩
      all_goals exact same
    · rename_i p _
      have kept := State.StoresKept.programFails s p
      unfold State.StoresKept at kept
      obtain ⟨spared, count⟩ := State.Spared.of_catalog (s := s) (t := s.programFails p) (slot := slot) (i := i) (by rw [kept])
        (by rw [kept]) (by rw [kept]; rfl)
      exact ⟨spared, fun _ => count⟩
    · exact same

end

/-- The place of a voice's entry queued on a die that goes OFFLINE, where no record is loading (R112). -/
theorem timesOut_place {s : State} {d : Fin 16} {o : Operation} {c : Instr} {e : FetchEntry} {slot i : Nat} {l : Layout} {r : Run}
    (h : timesOut s d o c) (once : s.WindowsHeldOnce) (none : ∀ id, (s.record id).load = none) (queued : e ∈ s.queue)
    (at_die : dieOf e.address = d.val) (owner : e.owner = .voice slot (s.voice slot).generation)
    (destination : e.destination = .place (s.voice slot).window i)
    (apart : ∀ f, o.work = .read f → f.destination ≠ e.destination) (refs : 0 < (s.record (s.voice slot).sampleId).refs)
    (sounds : (s.voice slot).sounding = true) (layout : s.layoutOf (s.voice slot) = some l)
    (wait : (s.window (s.voice slot).window).place i = .awaited r) :
    ∃ t, exec c s = .next t ∧ (t.window (s.voice slot).window).place i = .filled { r with damaged := true } ∧
      (t.voice slot).sounding = true ∧
      ((∀ f, o.work = .read f → f.owner ≠ e.owner) → (t.voice slot).reads = (s.voice slot).reads) ∧
      ((∀ x ∈ s.queue, x.destination = e.destination → x.owner = e.owner) →
        ∀ a, s.inRun (s.voice slot).window i r l.format a → Memory.read t.dram a = 0#8) := by
  obtain ⟨t, ht, filled, zeroed, voices⟩ := timesOut_quiet h none
  obtain ⟨spared, count⟩ := State.timedOutWork_spares (s := s.wentOffline d.val) (o := o) (i := i) once sounds refs
    (fun f read at_place => apart f read (at_place.trans destination.symm))
  have loses := State.Loses.timedOutWork (s.wentOffline d.val) o
  have listed : e ∈ s.subQueue d.val := List.mem_filter.mpr ⟨queued, by simpa using at_die⟩
  have places : s.placesLost d.val o = (s.subQueue d.val).foldl State.failVoiceEntry ((s.wentOffline d.val).timedOutWork o) := rfl
  obtain ⟨sameSounding, sameReads⟩ := voices slot
  generalize (s.wentOffline d.val).timedOutWork o = u at spared count loses places sameSounding sameReads
  have voice : u.voice slot = { s.voice slot with reads := (u.voice slot).reads } := spared.voice
  have on : (u.voice slot).sounding = true := by
    rw [voice]
    exact sounds
  obtain ⟨fills, zero⟩ := State.failEntries_place destination (s.subQueue d.val) u listed (by rw [voice]; exact owner) on
    (by rw [voice]; exact spared.layout.trans layout) (spared.place.trans wait)
  rw [← places] at fills zero
  refine ⟨t, ht, filled _ _ _ fills, sameSounding.trans on, fun others => ?_, fun alone a inside => zeroed a (zero ?_ a ?_)⟩
  · rw [sameReads]
    exact count fun f read same => others f read (same.trans owner.symm)
  · exact fun x hx => alone x (List.mem_filter.mp hx).1
  · exact (loses.inRun _ _ _ _ _).mpr inside

end Sys2Proof.Machine
end

section
/-! PROOFS. A load whose entries are lost with a die that goes OFFLINE (R39, R106, R112, R126). -/

namespace Sys2Proof.Machine

/-! ### What other records' failures leave of a record -/

/-- A stage that is none of a record's: the record is as before, and so are the voices that name it, but for their runs. -/
structure State.ApartFrom (s t : State) (id : Nat) : Prop where
  loses : s.Loses t
  record : t.record id = s.record id
  sounding : ∀ m, (s.voice m).sampleId = id → (t.voice m).sounding = (s.voice m).sounding
  ended : ∀ m, (s.voice m).sampleId = id → (s.voice m).sounding = false → t.voice m = s.voice m

section
variable {s t u : State} {id : Nat}

theorem State.ApartFrom.refl (s : State) (id : Nat) : s.ApartFrom s id :=
  ⟨State.Loses.refl s, rfl, fun _ _ => rfl, fun _ _ _ => rfl⟩

theorem State.ApartFrom.trans (h : s.ApartFrom t id) (k : t.ApartFrom u id) : s.ApartFrom u id where
  loses := h.loses.trans k.loses
  record := k.record.trans h.record
  sounding m named := (k.sounding m ((h.loses.sampleId m).trans named)).trans (h.sounding m named)
  ended m named silent := (k.ended m ((h.loses.sampleId m).trans named) ((h.sounding m named).trans silent)).trans
    (h.ended m named silent)

theorem State.ApartFrom.foldl {α : Type} (f : State → α → State) (l : List α)
    (h : ∀ (s : State) x, s.Canonical → x ∈ l → s.ApartFrom (f s x) id) :
    ∀ s : State, s.Canonical → s.ApartFrom (l.foldl f s) id := by
  induction l with
  | nil => exact fun s _ => State.ApartFrom.refl s id
  | cons x l ih =>
    intro s c
    have first := h s x c List.mem_cons_self
    exact first.trans (ih (fun s y c listed => h s y c (List.mem_cons_of_mem _ listed)) _ (first.loses.inner.canonical c))

theorem State.ApartFrom.of_same (loses : s.Loses t) (voices : t.voices = s.voices) (catalog : t.catalog = s.catalog) (id : Nat) :
    s.ApartFrom t id :=
  ⟨loses, State.record_congr catalog id, fun m _ => by rw [State.voice_congr voices], fun m _ _ => State.voice_congr voices m⟩

theorem State.ApartFrom.failVoiceEntry (s : State) (e : FetchEntry) (id : Nat) : s.ApartFrom (s.failVoiceEntry e) id := by
  have kept := (State.Filling.failVoiceEntry s e).kept
  exact .of_same (State.Loses.failVoiceEntry s e) (by rw [kept]) (by rw [kept]) id

theorem State.StoresKept.apart (h : s.StoresKept t) (loses : s.Loses t) (id : Nat) : s.ApartFrom t id := by
  unfold State.StoresKept at h
  exact .of_same loses (by rw [h]) (by rw [h]) id

theorem State.ApartFrom.settleVoices (s : State) (id : Nat) : s.ApartFrom s.settleVoices id := by
  have judging := s.settleVoices_judging
  refine ⟨State.Loses.settleVoices s, ?_, fun m _ => (judging.voices m).1, fun m _ silent => judging.silent m silent⟩
  exact State.record_congr (by rw [judging.kept]) id

theorem State.settleRetiring_otherRecord (s : State) {id j : Nat} (h : id ≠ j) : (s.settleRetiring j).record id = s.record id := by
  simp only [State.settleRetiring]
  split
  · split
    · rw [State.toVacant_other _ h]
      rfl
    · rw [State.toVacant_other _ h]
  · rfl

theorem State.ApartFrom.endVoice (reason : EndReason) (s : State) {slot : Nat} (other : (s.voice slot).sampleId ≠ id) :
    s.ApartFrom (State.endVoice reason s slot) id := by
  have loses : s.Loses (State.endVoice reason s slot) :=
    (State.TakeKept.endVoice reason s slot).loses (State.endVoices_queue reason [slot] s) (State.endVoice_done reason s slot)
      (Inner.endVoice reason s slot)
  have voice (m : Nat) (named : (s.voice m).sampleId = id) : (State.endVoice reason s slot).voice m = s.voice m :=
    State.endVoice_other reason s fun e => other (by rw [← e]; exact named)
  refine ⟨loses, ?_, fun m named => by rw [voice m named], fun m named _ => voice m named⟩
  rw [State.endVoice_eq]
  split
  · simp only [State.dropReference]
    split
    · rw [State.settleRetiring_otherRecord _ (Ne.symm other), State.record_setRecord_other _ _ (Ne.symm other)]
      rfl
    · rfl
  · rfl

theorem State.ApartFrom.endVoices (reason : EndReason) (slots : List Nat) : ∀ s : State,
    (∀ m ∈ slots, (s.voice m).sampleId ≠ id) → s.ApartFrom (s.endVoices reason slots) id := by
  induction slots with
  | nil => exact fun s _ => State.ApartFrom.refl s id
  | cons x slots ih =>
    intro s others
    have first := State.ApartFrom.endVoice reason s (others x List.mem_cons_self)
    exact first.trans (ih _ fun m listed => by rw [first.loses.sampleId]; exact others m (List.mem_cons_of_mem _ listed))

theorem State.ApartFrom.failLoad (c : s.Canonical) {j : Nat} (other : id ≠ j) (f : LoadFailure) :
    s.ApartFrom (s.failLoad j f) id := by
  cases load : (s.record j).load with
  | none =>
    rw [State.failLoad_none f load]
    exact State.ApartFrom.refl s id
  | some l =>
    have loses := State.Loses.failLoad s j f
    rw [State.failLoad_eq f load] at loses ⊢
    have ends := State.ApartFrom.endVoices (id := id) .stale (s.slotsPlaying j (s.record j).generation)
      (s.dropLoadEntries j (s.record j).generation) fun m listed named => other <| named.symm.trans
        (Voice.plays_id ((State.mem_slotsPlaying c.voices _ _ m).mp listed))
    obtain ⟨voices, -, -, -, records⟩ := s.loseLoad_kept j l .stale (s.slotsPlaying j (s.record j).generation)
      (f.completion l) (Record.failed f)
    have voice (m : Nat) := State.voice_congr voices m
    refine ⟨loses, (records id other).trans ends.record, fun m named => ?_, fun m named silent => ?_⟩
    · rw [voice]
      exact ends.sounding m named
    · rw [voice]
      exact ends.ended m named silent

end

/-! ### A load that stands, and a load that has fallen -/

/-- A record's load as the entries of other owners leave it. -/
structure State.LoadStands (s u : State) (id : Nat) : Prop where
  record : u.record id = { s.record id with loadReads := (u.record id).loadReads }
  plays : ∀ m, (u.voice m).plays id (s.record id).generation = (s.voice m).plays id (s.record id).generation

/-- A record whose load has failed with a die's loss (R39): STALE, its voices ended, its LOAD_HEAD to be written. -/
structure State.LoadFell (s u : State) (id : Nat) (done : Completion) : Prop where
  state : (u.record id).state = .stale
  reason : (u.record id).staleReason = .dieOffline
  headSlot : (u.record id).headSlot = none
  load : (u.record id).load = none
  queue : ∀ e ∈ u.queue, e.owner ≠ .load id (s.record id).generation
  voices : ∀ m, (s.voice m).plays id (s.record id).generation = true → (u.voice m).sampleId = id ∧
    (u.voice m).state = .ending ∧ (u.voice m).endReason = some .stale
  done : done ∈ u.completions

section
variable {s u t : State} {id : Nat}

theorem State.LoadStands.refl (s : State) (id : Nat) : s.LoadStands s id := ⟨rfl, fun _ => rfl⟩

theorem State.LoadStands.apart (h : s.LoadStands u id) (k : u.ApartFrom t id) : s.LoadStands t id where
  record := by
    rw [k.record]
    exact h.record
  plays m := by
    rw [← h.plays m]
    unfold Voice.plays
    rw [k.loses.sampleId, k.loses.sampleGeneration]
    by_cases named : (u.voice m).sampleId = id
    · rw [k.sounding m named]
    · rw [beq_eq_false_iff_ne.mpr named, Bool.and_false, Bool.and_false]

theorem State.LoadFell.apart {done : Completion} (h : s.LoadFell u id done) (k : u.ApartFrom t id) : s.LoadFell t id done where
  state := by rw [k.record]; exact h.state
  reason := by rw [k.record]; exact h.reason
  headSlot := by rw [k.record]; exact h.headSlot
  load := by rw [k.record]; exact h.load
  queue e listed := h.queue e (k.loses.queue.subset listed)
  voices m plays := by
    obtain ⟨named, ending, reason⟩ := h.voices m plays
    rw [k.ended m named (by simp [Voice.sounding, ending])]
    exact ⟨named, ending, reason⟩
  done := k.loses.done _ h.done

/-- The load fails (R39, R112). -/
theorem State.LoadStands.falls {l : Load} (h : s.LoadStands u id) (c : u.Canonical) (state : (s.record id).state = .loading)
    (load : (s.record id).load = some l) (k : Nat) :
    s.LoadFell (u.failLoad id (.dieOffline k)) id ((LoadFailure.dieOffline k).completion l) := by
  have record := h.record
  have generation : (u.record id).generation = (s.record id).generation := by rw [record]
  have loads : (u.record id).load = some l := by
    rw [record]
    exact load
  have loading : (u.record id).state = .loading := by
    rw [record]
    exact state
  have parted := State.failLoad_parted (.dieOffline k) c loads (by rw [loading]; exact nofun) (by rw [loading]; exact nofun)
  have entries := State.failLoad_entries (.dieOffline k) loads
  rw [generation] at parted entries
  refine ⟨by rw [parted.record], by rw [parted.record]; rfl, by rw [parted.record], by rw [parted.record], entries,
    fun m plays => ?_, by rw [parted.completions]; exact List.mem_cons_self⟩
  rw [← h.plays m] at plays
  have named : (u.voice m).sampleId = id := Voice.plays_id plays
  rw [parted.voices m ((State.mem_slotsPlaying c.voices _ _ m).mpr plays)]
  exact ⟨named, rfl, rfl⟩

/-! ### The loads of the lost entries -/

theorem State.failLoadOffline_other (entries : List FetchEntry) (c : u.Canonical) {x : Nat × Generation} (other : id ≠ x.1) :
    u.ApartFrom (State.failLoadOffline entries u x) id := by
  simp only [State.failLoadOffline]
  split
  · split
    · exact State.ApartFrom.failLoad c other _
    · exact State.ApartFrom.refl u id
  · exact State.ApartFrom.refl u id

theorem State.LoadFell.failLoads {done : Completion} (entries : List FetchEntry) (owners : List (Nat × Generation)) :
    ∀ u : State, u.Canonical → s.LoadFell u id done → s.LoadFell (owners.foldl (State.failLoadOffline entries) u) id done := by
  induction owners with
  | nil => exact fun _ _ h => h
  | cons x xs ih =>
    intro u c h
    have canonical := (State.Loses.failLoadOffline entries u x).inner.canonical c
    by_cases e : id = x.1
    · have stays : State.failLoadOffline entries u x = u := by
        simp only [State.failLoadOffline]
        refine if_neg ?_
        rw [State.loadRunning_iff, ← e, h.load]
        exact fun k => nomatch k.2
      rw [List.foldl_cons, stays]
      exact ih u c h
    · exact ih _ canonical (h.apart (State.failLoadOffline_other entries c e))

/-- A load with head blocks among the lost entries fails at the lowest of them (R112). -/
theorem State.LoadStands.failLoads {l : Load} {k : Nat} {entries : List FetchEntry} (state : (s.record id).state = .loading)
    (load : (s.record id).load = some l) (least : (headBlocksOf id (s.record id).generation entries).min? = some k)
    (owners : List (Nat × Generation)) : ∀ u : State, u.Canonical → s.LoadStands u id → (id, (s.record id).generation) ∈ owners →
      s.LoadFell (owners.foldl (State.failLoadOffline entries) u) id ((LoadFailure.dieOffline k).completion l) := by
  induction owners with
  | nil => exact fun _ _ _ listed => nomatch listed
  | cons x xs ih =>
    intro u c h listed
    have canonical := (State.Loses.failLoadOffline entries u x).inner.canonical c
    have generation : (u.record id).generation = (s.record id).generation := by rw [h.record]
    have loads : (u.record id).load = some l := by
      rw [h.record]
      exact load
    by_cases mine : x = (id, (s.record id).generation)
    · have fails : State.failLoadOffline entries u x = u.failLoad id (.dieOffline k) := by
        rw [mine]
        simp only [State.failLoadOffline, least]
        exact if_pos (State.loadRunning_iff.mpr ⟨generation, by rw [loads]; rfl⟩)
      rw [List.foldl_cons]
      refine State.LoadFell.failLoads entries xs _ canonical ?_
      rw [fails]
      exact h.falls c state load k
    · have later : (id, (s.record id).generation) ∈ xs := (List.mem_cons.mp listed).resolve_left fun e => mine e.symm
      by_cases e : id = x.1
      · have stays : State.failLoadOffline entries u x = u := by
          simp only [State.failLoadOffline]
          refine if_neg ?_
          rw [State.loadRunning_iff, ← e, generation]
          exact fun k => mine (Prod.ext e.symm k.1.symm)
        rw [List.foldl_cons, stays]
        exact ih u c h later
      · exact ih _ canonical (h.apart (State.failLoadOffline_other entries c e)) later

/-- A load with no head block among the lost entries stands. -/
theorem State.LoadStands.failNone {entries : List FetchEntry} (none : headBlocksOf id (s.record id).generation entries = [])
    (owners : List (Nat × Generation)) : ∀ u : State, u.Canonical → s.LoadStands u id →
      s.LoadStands (owners.foldl (State.failLoadOffline entries) u) id := by
  induction owners with
  | nil => exact fun _ _ h => h
  | cons x xs ih =>
    intro u c h
    have canonical := (State.Loses.failLoadOffline entries u x).inner.canonical c
    refine ih _ canonical ?_
    by_cases e : id = x.1
    · have stays : State.failLoadOffline entries u x = u := by
        simp only [State.failLoadOffline]
        split
        · rename_i running
          have generation := (State.loadRunning_iff.mp running).1
          rw [← e, h.record] at generation
          rw [← e, ← generation, none]
          rfl
        · rfl
      rw [stays]
      exact h
    · exact h.apart (State.failLoadOffline_other entries c e)

/-! ### The loads judged at the event's end -/

theorem State.settleLoad_other (c : u.Canonical) {x : Nat} (other : id ≠ x) : u.ApartFrom (u.settleLoad x) id := by
  simp only [State.settleLoad]
  split
  · split
    · exact State.ApartFrom.failLoad c other _
    · exact State.ApartFrom.refl u id
  · exact State.ApartFrom.refl u id

theorem State.LoadFell.settleLoads {done : Completion} (ids : List Nat) : ∀ u : State, u.Canonical → s.LoadFell u id done →
    s.LoadFell (ids.foldl State.settleLoad u) id done := by
  induction ids with
  | nil => exact fun _ _ h => h
  | cons x xs ih =>
    intro u c h
    by_cases e : id = x
    · have stays : u.settleLoad x = u := by simp [State.settleLoad, ← e, h.load]
      rw [List.foldl_cons, stays]
      exact ih u c h
    · exact ih _ ((State.Loses.settleLoad u x).inner.canonical c) (h.apart (State.settleLoad_other c e))

/-- A load whose next head block lies on an OFFLINE die fails (R106). -/
theorem State.LoadStands.settleLoads {l : Load} {a : Nat} (state : (s.record id).state = .loading)
    (load : (s.record id).load = some l) (address : (s.record id).loadAddress = some a) (ids : List Nat) : ∀ u : State,
      u.Canonical → s.LoadStands u id → u.resetting = false → u.dieOffline (dieOf a) = true → id ∈ ids →
      s.LoadFell (ids.foldl State.settleLoad u) id ((LoadFailure.dieOffline l.nextBlock).completion l) := by
  induction ids with
  | nil => exact fun _ _ _ _ _ listed => nomatch listed
  | cons x xs ih =>
    intro u c h calm off listed
    have loses := State.Loses.settleLoad u x
    by_cases e : id = x
    · have loads : (u.record id).load = some l := by
        rw [h.record]
        exact load
      have next : (u.record id).loadAddress = some a := by
        rw [h.record]
        exact address
      have fails : u.settleLoad x = u.failLoad id (.dieOffline l.nextBlock) := by
        rw [← e]
        simp [State.settleLoad, loads, next, calm, off]
      rw [List.foldl_cons]
      refine State.LoadFell.settleLoads xs _ (loses.inner.canonical c) ?_
      rw [fails]
      exact h.falls c state load _
    · refine ih _ (loses.inner.canonical c) (h.apart (State.settleLoad_other c e)) (loses.resetting.trans calm) ?_
        ((List.mem_cons.mp listed).resolve_left e)
      unfold State.dieOffline at off ⊢
      rw [loses.dieState c]
      exact off

/-! ### The timed-out work -/

theorem State.endVoiceRead_soundings (s : State) (n : Nat) (g : Generation) (w i : Nat) (m : Nat) :
    ((s.endVoiceRead n g w i .offline).voice m).sounding = (s.voice m).sounding := by
  have counted := State.ReadsCounted.readEnded s n
  simp only [State.endVoiceRead]
  split
  · split
    · split
      · rw [State.fillAwaited_kept]
        exact counted.sounding m
      · exact counted.sounding m
    · refine Eq.trans ?_ (counted.sounding m)
      generalize hb : (State.setWindow _ w _) = b
      have voice : b.voice m = (s.setVoice n (s.voice n).readEnded).voice m := by rw [← hb]; rfl
      rw [← voice]
      simp only [State.settleFree]
      split
      · rename_i frees
        by_cases e : m = n
        · rw [e, State.voice_setVoice_same]
          simp [Voice.sounding, frees.1]
        · rw [State.voice_setVoice_other _ _ e]
          rfl
      · rfl
  · rfl

theorem State.LoadStands.timedOutWork (s : State) (o : Operation) (state : (s.record id).state = .loading) :
    s.LoadStands (s.timedOutWork o) id := by
  have stands := State.LoadStands.refl s id
  unfold State.timedOutWork
  split
  · exact stands
  · split
    · rename_i f read
      unfold State.timedOutRead
      split
      · rename_i n g w j owner destination
        have loses := State.Loses.endVoiceRead s n g w j .offline
        have catalog : (s.endVoiceRead n g w j .offline).catalog = s.catalog := by rw [State.endVoiceRead_kept]
        refine ⟨by rw [State.record_congr catalog], fun m => ?_⟩
        unfold Voice.plays
        rw [s.endVoiceRead_soundings, loses.sampleId, loses.sampleGeneration]
      · rename_i x g head k owner destination
        have lowered : s.LoadStands (s.lowerLoadReads x g head) id := by
          refine ⟨?_, fun m => by rw [State.lowerLoadReads_kept]; rfl⟩
          simp only [State.lowerLoadReads]
          split
          · by_cases e : id = x
            · rw [e, State.record_setRecord_same]
            · rw [State.record_setRecord_other _ _ e]
              rfl
          · rfl
        split
        · exact lowered
        · have kept := State.settleRetiring_kept (s.lowerLoadReads x g head) x
          refine ⟨?_, fun m => by rw [kept]; exact lowered.plays m⟩
          by_cases e : id = x
          · subst e
            have loading : ((s.lowerLoadReads id g head).record id).state = .loading := by
              rw [lowered.record]
              exact state
            rw [State.settleRetiring_other (by rw [loading]; exact nofun)]
            exact lowered.record
          · rw [State.settleRetiring_otherRecord _ e]
            exact lowered.record
      all_goals exact stands
    · rename_i p _
      exact stands.apart ((State.StoresKept.programFails s p).apart (State.Loses.programFails s p) id)
    · exact stands

end

/-! ### The event -/

theorem mem_headBlocksOf {id j : Nat} {g : Generation} {entries : List FetchEntry} :
    j ∈ headBlocksOf id g entries ↔ ∃ e ∈ entries, e.owner = .load id g ∧ ∃ n, e.destination = .headBlock n j := by
  unfold headBlocksOf
  rw [List.mem_filterMap]
  refine exists_congr fun e => and_congr_right fun _ => ?_
  cases e.destination with
  | place w i => simp
  | headBlock n k =>
    by_cases owner : e.owner = .load id g <;> simp [owner]

theorem mem_loadOwners {id : Nat} {g : Generation} {entries : List FetchEntry} {e : FetchEntry} (listed : e ∈ entries)
    (owner : e.owner = .load id g) : (id, g) ∈ loadOwners entries :=
  List.mem_filterMap.mpr ⟨e, listed, by rw [owner]⟩

theorem State.mem_lostEntries {s : State} {d : Nat} {o : Operation} (unmarked : o.discard = false) (e : FetchEntry) :
    e ∈ o.lostEntry ++ s.subQueue d ↔ (e ∈ s.queue ∧ dieOf e.address = d) ∨ o.work = .read e := by
  have work : e ∈ o.lostEntry ↔ o.work = .read e := by
    unfold Operation.lostEntry
    rw [unmarked]
    cases o.work with
    | read f => simp [eq_comm]
    | program p => simp
    | poll => simp
  rw [List.mem_append, work, or_comm]
  unfold State.subQueue
  rw [List.mem_filter, beq_iff_eq]

/-- A LOADING record whose head blocks, queued or next, lie on a die that goes OFFLINE (R106, R112, R126). -/
theorem timesOut_load {s : State} {d : Fin 16} {o : Operation} {c : Instr} {id k : Nat} {l : Load} (h : timesOut s d o c)
    (unmarked : o.discard = false) (state : (s.record id).state = .loading) (load : (s.record id).load = some l) :
    let lost (e : FetchEntry) (j : Nat) : Prop := ((e ∈ s.queue ∧ dieOf e.address = d.val) ∨ o.work = .read e) ∧
      e.owner = .load id (s.record id).generation ∧ ∃ n, e.destination = .headBlock n j
    ((∃ e, lost e k) ∧ ∀ e j, lost e j → k ≤ j) ∨
      ((∀ e j, ¬ lost e j) ∧ k = l.nextBlock ∧ ∃ a, (s.record id).loadAddress = some a ∧ dieOf a = d.val) →
    ∃ t, exec c s = .next t ∧ (t.record id).state = .stale ∧ (t.record id).staleReason = .dieOffline ∧
      (t.record id).headSlot = none ∧ (t.record id).load = none ∧
      (∀ e ∈ t.queue, e.owner ≠ .load id (s.record id).generation) ∧
      (∀ m, (s.voice m).plays id (s.record id).generation = true →
        (t.voice m).state = .ending ∧ (t.voice m).endReason = some .stale) ∧
      wroteAt s t l.token.address
        (doneBytes .dieOffline (BitVec.ofNat 32 k) (BitVec.ofNat 32 l.arrived.length)) := by
  intro lost which
  obtain ⟨t, ht, ended⟩ := exec_timesOut h
  obtain ⟨canonical, ready, -⟩ := h
  have wellFormed := Canonical.wentOffline canonical d.val
  have named (j : Nat) : j ∈ headBlocksOf id (s.record id).generation (o.lostEntry ++ s.subQueue d.val) ↔ ∃ e, lost e j := by
    rw [mem_headBlocksOf]
    exact exists_congr fun e => and_congr_left fun _ => State.mem_lostEntries unmarked e
  have worked := State.Loses.timedOutWork (s.wentOffline d.val) o
  have entries := State.ApartFrom.foldl (id := id) State.failVoiceEntry (s.subQueue d.val)
    (fun u e _ _ => State.ApartFrom.failVoiceEntry u e id) _ (worked.inner.canonical wellFormed)
  have stands : (s.wentOffline d.val).LoadStands (s.placesLost d.val o) id :=
    (State.LoadStands.timedOutWork (s.wentOffline d.val) o state).apart entries
  have places := (s.wentOffline_placesLost d.val o).inner.canonical wellFormed
  have stores := (s.loadsLost_stores d.val o).apart (s.loadsLost_storesLost d.val o) id
  have voices := State.ApartFrom.settleVoices (s.storesLost d.val o) id
  have settling := (s.wentOffline_storesLost d.val o).trans (State.Loses.settleVoices _)
  have settled := settling.inner.canonical wellFormed
  have fell : (s.wentOffline d.val).LoadFell (s.storesLost d.val o).settleVoices.settleLoads id
      ((LoadFailure.dieOffline k).completion l) := by
    obtain ⟨⟨e, mine, owner, destination⟩, lowest⟩ | ⟨nobody, rfl, a, address, at_die⟩ := which
    · have first : (headBlocksOf id (s.record id).generation (o.lostEntry ++ s.subQueue d.val)).min? = some k :=
        List.min?_eq_some_iff.mpr ⟨(named k).mpr ⟨e, mine, owner, destination⟩, fun j listed => by
          obtain ⟨e, at_j⟩ := (named j).mp listed
          exact lowest e j at_j⟩
      have owned := mem_loadOwners ((State.mem_lostEntries unmarked e).mpr mine) owner
      have fell := State.LoadStands.failLoads (s := s.wentOffline d.val) state load first _ _ places stands owned
      exact State.LoadFell.settleLoads _ _ settled ((State.LoadFell.apart fell stores).apart voices)
    · have empty : headBlocksOf id (s.record id).generation (o.lostEntry ++ s.subQueue d.val) = [] :=
        List.eq_nil_iff_forall_not_mem.mpr fun j listed => by
          obtain ⟨e, at_j⟩ := (named j).mp listed
          exact nobody e j at_j
      have stands := State.LoadStands.failNone (s := s.wentOffline d.val) empty (loadOwners (o.lostEntry ++ s.subQueue d.val)) _
        places stands
      have stands := (State.LoadStands.apart stands stores).apart voices
      refine State.LoadStands.settleLoads (s := s.wentOffline d.val) state load address _ _ settled stands
        (settling.resetting.trans (State.not_resetting_of ready)) ?_ ?_
      · unfold State.dieOffline
        rw [settling.dieState wellFormed, at_die, s.wentOffline_die d.val]
        rfl
      · have record := stands.record
        obtain listed | blank := Table.get_mem Record.blank (s.storesLost d.val o).settleVoices.catalog id
        · exact List.mem_map.mpr ⟨_, listed, rfl⟩
        · have loading : ((s.storesLost d.val o).settleVoices.record id).state = .loading := by
            rw [record]
            exact state
          unfold State.record at loading
          rw [blank] at loading
          cases loading
  have closed := ended.posted.closed
  have out : (s.storesLost d.val o).settleVoices.settleLoads.out = s.out := (s.wentOffline_settled d.val o).out
  have wrote := (ended.wrote _ fell.done).from (s := s) (out ▸ List.prefix_rfl)
  refine ⟨t, ht, ?_, ?_, ?_, ?_, fun e listed => ?_, fun m plays => ?_, wrote⟩
  · rw [closed.record]
    exact fell.state
  · rw [closed.record]
    exact fell.reason
  · rw [closed.record]
    exact fell.headSlot
  · rw [closed.record]
    exact fell.load
  · rw [closed.queue] at listed
    exact fell.queue e listed
  · rw [closed.voice]
    exact (fell.voices m plays).2

end Sys2Proof.Machine
end

section
/-! PROOFS. The STOREs with programs on a die that goes OFFLINE (R126, R134, R135), and O60. -/

namespace Sys2Proof.Machine

/-! ### One STORE of the table -/

/-- A STORE is in flight, the only one of its place. -/
structure State.HoldsStore (s : State) (x : StoreEntry) : Prop where
  listed : x ∈ s.stores
  once : ∀ z ∈ s.stores, z.place = x.place → z = x

/-- No die has a program queued of the STORE at a place. -/
def State.NoPrograms (s : State) (place : Nat) : Prop := ∀ j, ∀ q ∈ (s.die j).programs, q.place ≠ place

/-- A STORE has left the table, its status to be written (R135). -/
structure State.StoreDone (s : State) (x : StoreEntry) : Prop where
  gone : ∀ z ∈ s.stores, z.place ≠ x.place
  done : ∃ c ∈ s.completions, c.token = x.token ∧ doneBytes c.result c.word0 c.word1 = x.doneStatus

section
variable {s t : State} {x : StoreEntry}

theorem State.HoldsStore.of_stores (h : s.HoldsStore x) (stores : t.stores = s.stores) : t.HoldsStore x :=
  ⟨by rw [stores]; exact h.listed, by rw [stores]; exact h.once⟩

theorem State.HoldsStore.storeAt (h : s.HoldsStore x) : s.storeAt x.place = some x := State.storeAt_of h.listed h.once

theorem State.NoPrograms.loses {place : Nat} (h : s.NoPrograms place) (c : s.Canonical) (k : s.Loses t) : t.NoPrograms place :=
  fun j q listed => h j q ((k.dies c j).2.subset listed)

theorem State.HoldsStore.update (h : s.HoldsStore x) {y : StoreEntry} (place : y.place = x.place) :
    (s.updateStore x.place fun _ => y).HoldsStore y where
  listed := List.mem_map.mpr ⟨x, h.listed, if_pos rfl⟩
  once z listed same := by
    obtain ⟨w, before, rfl⟩ := List.mem_map.mp listed
    by_cases e : w.place = x.place
    · exact if_pos e
    · rw [if_neg e, place] at same
      exact absurd same e

theorem State.HoldsStore.updateOther (h : s.HoldsStore x) {place : Nat} {f : StoreEntry → StoreEntry} (other : x.place ≠ place)
    (same : ∀ y, (f y).place = y.place) : (s.updateStore place f).HoldsStore x where
  listed := List.mem_map.mpr ⟨x, h.listed, if_neg other⟩
  once z listed at_x := by
    obtain ⟨w, before, rfl⟩ := List.mem_map.mp listed
    by_cases e : w.place = place
    · rw [if_pos e, same] at at_x
      exact absurd (at_x.symm.trans e) other
    · rw [if_neg e] at at_x ⊢
      exact h.once w before at_x

theorem State.HoldsStore.failOther (h : s.HoldsStore x) {place : Nat} (other : x.place ≠ place) (block : Nat) :
    (s.failStore place block).HoldsStore x := by
  simp only [State.failStore]
  split
  · exact h
  · split
    · exact h
    · exact State.HoldsStore.updateOther (s := s.dropPrograms place) (h.of_stores rfl) other fun _ => rfl

theorem State.HoldsStore.failedAlready (h : s.HoldsStore x) (failed : x.failure.isSome = true) (block : Nat) :
    s.failStore x.place block = s := by
  simp [State.failStore, h.storeAt, failed]

/-- A STORE as its first failure leaves it, beside its programs in flight (R134). -/
def StoreEntry.failedAt (x : StoreEntry) (block : Nat) : StoreEntry := { x with failure := some block, queued := 0 }

theorem State.dropPrograms_none (c : s.Canonical) (place : Nat) : (s.dropPrograms place).NoPrograms place := by
  intro j q listed
  rw [State.die_dropPrograms c.dies] at listed
  simpa using (List.mem_filter.mp listed).2

theorem State.updateStore_congr (place : Nat) {f g : StoreEntry → StoreEntry}
    (h : ∀ y ∈ s.stores, y.place = place → f y = g y) : s.updateStore place f = s.updateStore place g := by
  unfold State.updateStore
  have same : (s.stores.map fun y => if y.place = place then f y else y) =
      s.stores.map fun y => if y.place = place then g y else y := by
    refine List.map_congr_left fun y listed => ?_
    by_cases e : y.place = place
    · rw [if_pos e, if_pos e, h y listed e]
    · rw [if_neg e, if_neg e]
  rw [same]

theorem State.HoldsStore.fails (h : s.HoldsStore x) (c : s.Canonical) (fresh : x.failure = none) (block : Nat) :
    (s.failStore x.place block).HoldsStore (x.failedAt block) ∧ (s.failStore x.place block).NoPrograms x.place := by
  have eq : s.failStore x.place block = (s.dropPrograms x.place).updateStore x.place fun _ => x.failedAt block := by
    simp only [State.failStore, h.storeAt, fresh]
    exact State.updateStore_congr (s := s.dropPrograms x.place) x.place fun y listed at_x => by
      rw [h.once y listed at_x]
      rfl
  rw [eq]
  exact ⟨State.HoldsStore.update (s := s.dropPrograms x.place) (h.of_stores rfl) rfl, State.dropPrograms_none c x.place⟩

/-! ### The queued programs of the die -/

theorem State.HoldsStore.failQueuedOther (h : s.HoldsStore x) (programs : List ProgramEntry) {place : Nat}
    (other : x.place ≠ place) : (State.failQueuedStore programs s place).HoldsStore x := by
  simp only [State.failQueuedStore]
  split
  · exact h.failOther other _
  · exact h

/-- A STORE that has failed stays as it is. -/
theorem State.HoldsStore.failedStays (failed : x.failure.isSome = true) (programs : List ProgramEntry) (places : List Nat) :
    ∀ s : State, s.HoldsStore x → (places.foldl (State.failQueuedStore programs) s).HoldsStore x := by
  induction places with
  | nil => exact fun _ h => h
  | cons place places ih =>
    intro s h
    by_cases e : x.place = place
    · have stays : State.failQueuedStore programs s place = s := by
        simp only [State.failQueuedStore]
        split
        · rw [← e]
          exact h.failedAlready failed _
        · rfl
      rw [List.foldl_cons, stays]
      exact ih s h
    · exact ih _ (h.failQueuedOther programs e)

/-- A STORE with entries queued on the die fails at the lowest of them (R134). -/
theorem State.HoldsStore.failsQueued {a : Nat} {programs : List ProgramEntry} (fresh : x.failure = none)
    (least : ((programs.filter fun p => p.place == x.place).map ProgramEntry.address).min? = some a) (places : List Nat) :
    ∀ s : State, s.Canonical → s.HoldsStore x → x.place ∈ places →
      (places.foldl (State.failQueuedStore programs) s).HoldsStore (x.failedAt a) ∧
        (places.foldl (State.failQueuedStore programs) s).NoPrograms x.place := by
  induction places with
  | nil => exact fun _ _ _ listed => nomatch listed
  | cons place places ih =>
    intro s c h listed
    have canonical := (State.Loses.failQueuedStore programs s place).inner.canonical c
    by_cases e : x.place = place
    · have fails : State.failQueuedStore programs s place = s.failStore x.place a := by
        rw [← e]
        simp only [State.failQueuedStore, least]
      obtain ⟨holds, cleared⟩ := h.fails c fresh a
      rw [← fails] at holds cleared
      exact ⟨State.HoldsStore.failedStays rfl programs places _ holds,
        cleared.loses canonical (State.Loses.foldl _ (State.Loses.failQueuedStore programs) _ _)⟩
    · exact ih _ canonical (h.failQueuedOther programs e) ((List.mem_cons.mp listed).resolve_left e)

/-! ### The STOREs judged -/

theorem State.HoldsStore.judgeOther (h : s.HoldsStore x) {place : Nat} (other : x.place ≠ place) :
    (s.judgeStore place).HoldsStore x := by
  simp only [State.judgeStore]
  split
  · exact h
  · rename_i y _
    split
    · obtain ⟨done, -, -, -, eq⟩ := y.complete_completions { s with stores := s.stores.filter fun z => z.place != place }
      rw [eq]
      exact ⟨List.mem_filter.mpr ⟨h.listed, by simpa using other⟩, fun z listed => h.once z (List.mem_filter.mp listed).1⟩
    · exact h

theorem State.StoreDone.judge (h : s.StoreDone x) (place : Nat) : (s.judgeStore place).StoreDone x := by
  obtain ⟨gone, c, listed, written⟩ := h
  refine ⟨fun z hz => ?_, c, (State.Loses.judgeStore s place).done c listed, written⟩
  simp only [State.judgeStore] at hz
  split at hz
  · exact gone z hz
  · rename_i y _
    split at hz
    · obtain ⟨done, -, -, -, eq⟩ := y.complete_completions { s with stores := s.stores.filter fun z => z.place != place }
      rw [eq] at hz
      exact gone z (List.mem_filter.mp hz).1
    · exact gone z hz

theorem State.HoldsStore.judgeDone (h : s.HoldsStore x) (none : x.queued = 0 ∧ x.inFlight = 0) : (s.judgeStore x.place).StoreDone x := by
  simp only [State.judgeStore, h.storeAt]
  rw [if_pos none]
  obtain ⟨done, -, token, status, eq⟩ := x.complete_completions { s with stores := s.stores.filter fun z => z.place != x.place }
  rw [eq]
  exact ⟨fun z hz => by simpa using (List.mem_filter.mp hz).2, done, List.mem_cons_self, token, status⟩

theorem State.HoldsStore.judgeBusy (h : s.HoldsStore x) (some : ¬ (x.queued = 0 ∧ x.inFlight = 0)) : s.judgeStore x.place = s := by
  simp only [State.judgeStore, h.storeAt]
  exact if_neg some

/-- A STORE with nothing left completes (R135). -/
theorem State.HoldsStore.completes (none : x.queued = 0 ∧ x.inFlight = 0) (places : List Nat) : ∀ s : State, s.HoldsStore x →
    x.place ∈ places → (places.foldl State.judgeStore s).StoreDone x := by
  have kept (places : List Nat) : ∀ s : State, s.StoreDone x → (places.foldl State.judgeStore s).StoreDone x := by
    induction places with
    | nil => exact fun _ h => h
    | cons place places ih => exact fun s h => ih _ (h.judge place)
  induction places with
  | nil => exact fun _ _ listed => nomatch listed
  | cons place places ih =>
    intro s h listed
    by_cases e : x.place = place
    · rw [List.foldl_cons, ← e]
      exact kept places _ (h.judgeDone none)
    · exact ih _ (h.judgeOther e) ((List.mem_cons.mp listed).resolve_left e)

theorem State.HoldsStore.waits (some : ¬ (x.queued = 0 ∧ x.inFlight = 0)) (places : List Nat) : ∀ s : State, s.HoldsStore x →
    (places.foldl State.judgeStore s).HoldsStore x := by
  induction places with
  | nil => exact fun _ h => h
  | cons place places ih =>
    intro s h
    by_cases e : x.place = place
    · rw [List.foldl_cons, ← e, h.judgeBusy some]
      exact ih s h
    · exact ih _ (h.judgeOther e)

end

/-! ### The event -/

/-- Neither the entries nor the loads lost touch the STOREs and the dies. -/
theorem State.loadsLost_kept (s : State) (d : Nat) (o : Operation) :
    (s.loadsLost d o).stores = ((s.wentOffline d).timedOutWork o).stores ∧
      (s.loadsLost d o).dies = ((s.wentOffline d).timedOutWork o).dies := by
  have entries := (State.Filling.entries (s.subQueue d) ((s.wentOffline d).timedOutWork o)).kept
  have loads (entries : List FetchEntry) (owners : List (Nat × Generation)) : ∀ u : State,
      u.TakeKept (owners.foldl (State.failLoadOffline entries) u) := by
    induction owners with
    | nil => exact State.TakeKept.refl
    | cons x xs ih =>
      intro u
      refine State.TakeKept.trans ?_ (ih _)
      simp only [State.failLoadOffline]
      split
      · split
        · exact State.TakeKept.failLoad ..
        · rfl
      · rfl
  have kept : (s.placesLost d o).TakeKept (s.loadsLost d o) := loads ..
  unfold State.TakeKept at kept
  rw [kept]
  unfold State.placesLost
  rw [entries]
  exact ⟨rfl, rfl⟩

/-- A STORE as the lost programs have left it is judged, and nothing after that touches it (R135). -/
theorem timesOut_store {s : State} {d : Fin 16} {o : Operation} {c : Instr} {y : StoreEntry} (h : timesOut s d o c)
    (holds : (((s.die d.val).programs.map ProgramEntry.place).foldl (State.failQueuedStore (s.die d.val).programs)
      (s.loadsLost d.val o)).HoldsStore y) :
    ∃ t, exec c s = .next t ∧
      (y.queued = 0 ∧ y.inFlight = 0 → (∀ z ∈ t.stores, z.place ≠ y.place) ∧ wroteAt s t y.token.address y.doneStatus) ∧
      (¬ (y.queued = 0 ∧ y.inFlight = 0) → y ∈ t.stores) ∧
      ∀ place, (((s.die d.val).programs.map ProgramEntry.place).foldl (State.failQueuedStore (s.die d.val).programs)
        (s.loadsLost d.val o)).NoPrograms place → t.NoPrograms place := by
  obtain ⟨t, ht, ended⟩ := exec_timesOut h
  have canonical := Canonical.wentOffline h.1 d.val
  have closed := ended.posted.closed
  have settled := s.storesLost_settled d.val o
  have out : (s.storesLost d.val o).settleVoices.settleLoads.out = s.out := (s.wentOffline_settled d.val o).out
  have lost := (s.wentOffline_placesLost d.val o).trans (s.placesLost_loadsLost d.val o)
  have judges : s.storesLost d.val o = (((s.die d.val).programs.map ProgramEntry.place).foldl
      (State.failQueuedStore (s.die d.val).programs) (s.loadsLost d.val o)).judgeStores := rfl
  have queued := State.Loses.foldl _ (State.Loses.failQueuedStore (s.die d.val).programs)
    ((s.die d.val).programs.map ProgramEntry.place) (s.loadsLost d.val o)
  generalize ((s.die d.val).programs.map ProgramEntry.place).foldl (State.failQueuedStore (s.die d.val).programs)
    (s.loadsLost d.val o) = b at holds judges queued ⊢
  have wellFormed := queued.inner.canonical (lost.inner.canonical canonical)
  have loads (ids : List Nat) : ∀ u : State, u.TakeKept (ids.foldl State.settleLoad u) := by
    induction ids with
    | nil => exact State.TakeKept.refl
    | cons x xs ih => exact fun u => (State.TakeKept.settleLoad u x).trans (ih _)
  have stores : t.stores = b.judgeStores.stores := by
    have kept : (s.storesLost d.val o).settleVoices.TakeKept (s.storesLost d.val o).settleVoices.settleLoads := loads _ _
    have voices := (s.storesLost d.val o).settleVoices_judging.kept
    unfold State.TakeKept at kept
    rw [closed.stores, kept, ← judges]
    show (s.storesLost d.val o).settleVoices.stores = _
    rw [voices]
  refine ⟨t, ht, fun none => ?_, fun some => ?_, fun place cleared => ?_⟩
  · obtain ⟨gone, done, listed, token, status⟩ :=
      State.HoldsStore.completes none _ b holds (List.mem_map.mpr ⟨y, holds.listed, rfl⟩)
    rw [stores]
    refine ⟨gone, ?_⟩
    have written : done ∈ (s.storesLost d.val o).completions := by
      rw [judges]
      exact listed
    have wrote := (ended.wrote done (settled.done done written)).from (s := s) (out ▸ List.prefix_rfl)
    rwa [token, status] at wrote
  · rw [stores]
    exact (State.HoldsStore.waits some _ b holds).listed
  · have after : t.NoPrograms place ↔ (s.storesLost d.val o).settleVoices.settleLoads.NoPrograms place := by
      unfold State.NoPrograms
      exact forall_congr' fun j => by rw [closed.die]
    rw [after]
    have judged := State.Loses.judgeStores b
    rw [← judges] at judged
    exact cleared.loses wellFormed (judged.trans settled)

theorem StoreEntry.afterFailure_kept (x : StoreEntry) (block : Nat) :
    (x.afterFailure block).place = x.place ∧ (x.afterFailure block).token = x.token ∧ (x.afterFailure block).failure.isSome = true := by
  unfold StoreEntry.afterFailure
  cases x.failure <;> simp

theorem State.timedOutWork_program {s : State} {o : Operation} {p : ProgramEntry} (work : o.work = .program p)
    (unmarked : o.discard = false) : s.timedOutWork o = s.programFails p := by
  simp [State.timedOutWork, work, unmarked]

/-- The timed-out program of a STORE (R134): what it leaves of the STORE stands through the other losses. -/
theorem timesOut_programFails {s : State} {d : Fin 16} {o : Operation} {c : Instr} {p : ProgramEntry} {x : StoreEntry}
    (h : timesOut s d o c) (work : o.work = .program p) (unmarked : o.discard = false) (listed : x ∈ s.stores)
    (once : ∀ z ∈ s.stores, z.place = x.place → z = x) (place : x.place = p.place) :
    ∃ t, exec c s = .next t ∧
      ((x.afterFailure p.address).queued = 0 ∧ (x.afterFailure p.address).inFlight = 0 →
        (∀ z ∈ t.stores, z.place ≠ x.place) ∧ wroteAt s t x.token.address (x.afterFailure p.address).doneStatus) ∧
      (¬ ((x.afterFailure p.address).queued = 0 ∧ (x.afterFailure p.address).inFlight = 0) →
        x.afterFailure p.address ∈ t.stores) ∧
      (x.failure = none → t.NoPrograms x.place) := by
  have canonical := Canonical.wentOffline h.1 d.val
  have holds : (s.wentOffline d.val).HoldsStore x := ⟨listed, once⟩
  obtain ⟨samePlace, token, failed⟩ := x.afterFailure_kept p.address
  have fails := State.programFails_eq (s := s.wentOffline d.val) listed once place
  rw [← State.timedOutWork_program work unmarked] at fails
  obtain ⟨stores, dies⟩ := s.loadsLost_kept d.val o
  have lost := (s.wentOffline_placesLost d.val o).trans (s.placesLost_loadsLost d.val o)
  have queued := State.Loses.foldl _ (State.Loses.failQueuedStore (s.die d.val).programs)
    ((s.die d.val).programs.map ProgramEntry.place) (s.loadsLost d.val o)
  have left : (s.loadsLost d.val o).HoldsStore (x.afterFailure p.address) := by
    refine State.HoldsStore.of_stores ?_ stores
    rw [fails]
    refine State.HoldsStore.update (State.HoldsStore.of_stores holds ?_) samePlace
    split <;> rfl
  obtain ⟨t, ht, none, some, clears⟩ := timesOut_store h (State.HoldsStore.failedStays failed _ _ _ left)
  rw [samePlace, token] at none
  refine ⟨t, ht, none, some, fun fresh => clears _ (State.NoPrograms.loses ?_ (lost.inner.canonical canonical) queued)⟩
  have dropped : ((s.wentOffline d.val).timedOutWork o).NoPrograms x.place := by
    rw [fails, fresh]
    exact State.dropPrograms_none canonical x.place
  intro j q at_j
  exact dropped j q (by rwa [State.die, dies] at at_j)

/-- The first failure of a STORE by the entries queued on the die (R134), the timed-out program being none of its own. -/
theorem timesOut_queued {s : State} {d : Fin 16} {o : Operation} {c : Instr} {x : StoreEntry} {a : Nat}
    (h : timesOut s d o c) (listed : x ∈ s.stores) (once : ∀ z ∈ s.stores, z.place = x.place → z = x) (fresh : x.failure = none)
    (other : ∀ p, o.work = .program p → o.discard = false → x.place ≠ p.place)
    (least : (((s.die d.val).programs.filter fun p => p.place == x.place).map ProgramEntry.address).min? = some a) :
    ∃ t, exec c s = .next t ∧
      (x.inFlight = 0 → (∀ z ∈ t.stores, z.place ≠ x.place) ∧ wroteAt s t x.token.address (x.failedAt a).doneStatus) ∧
      (¬ x.inFlight = 0 → x.failedAt a ∈ t.stores) ∧ t.NoPrograms x.place := by
  have canonical := Canonical.wentOffline h.1 d.val
  have holds : (s.wentOffline d.val).HoldsStore x := ⟨listed, once⟩
  obtain ⟨stores, -⟩ := s.loadsLost_kept d.val o
  have lost := (s.wentOffline_placesLost d.val o).trans (s.placesLost_loadsLost d.val o)
  have stays : ((s.wentOffline d.val).timedOutWork o).HoldsStore x := by
    unfold State.timedOutWork
    split
    · exact holds
    · rename_i marked
      split
      · rename_i f _
        refine holds.of_stores ?_
        unfold State.timedOutRead
        split
        · rw [State.endVoiceRead_kept]
        · split
          · rw [State.lowerLoadReads_kept]
          · rw [State.settleRetiring_kept, State.lowerLoadReads_kept]
        all_goals rfl
      · rename_i p work
        have apart := other p work ((Bool.not_eq_true _).mp marked)
        have updated := holds.updateOther (f := fun y => { y with inFlight := y.inFlight - 1 }) apart fun _ => rfl
        exact updated.failOther apart _
      · exact holds
  have named : x.place ∈ (s.die d.val).programs.map ProgramEntry.place := by
    obtain ⟨member, -⟩ := List.min?_eq_some_iff.mp least
    obtain ⟨q, queued, -⟩ := List.mem_map.mp member
    obtain ⟨queued, at_x⟩ := List.mem_filter.mp queued
    exact List.mem_map.mpr ⟨q, queued, by simpa using at_x⟩
  obtain ⟨failed, cleared⟩ := State.HoldsStore.failsQueued fresh least _ _ (lost.inner.canonical canonical)
    (stays.of_stores stores) named
  obtain ⟨t, ht, none, some, clears⟩ := timesOut_store h failed
  exact ⟨t, ht, fun left => none ⟨rfl, left⟩, fun left => some fun k => left k.2, clears _ cleared⟩

/-- Settles O60: what is seen of the dies, a queued entry's place, the memory and the runs, a load, a STORE that had failed, and the
first failure of a STORE. -/
theorem dieGoesOffline : Obligations.DieGoesOffline := by
  refine ⟨fun s d o c h => timesOut_dies h,
    fun s d o c e slot i l r h once none queued at_die owner destination apart refs sounds layout wait =>
      timesOut_place h once none queued at_die owner destination apart refs sounds layout wait,
    fun s d o c h once own => timesOut_memory h once own, fun s d o c id k l h unmarked state load => timesOut_load h unmarked state load,
    fun s d o c p x h work unmarked listed once place _ => ?_, fun s d o c x a h listed once fresh => ?_⟩
  · obtain ⟨t, ht, none, some, -⟩ := timesOut_programFails h work unmarked listed once place
    exact ⟨t, ht, none, fun left => some fun k => by omega⟩
  · intro queued timedOut which left timed untimed
    obtain ⟨q, work, unmarked, at_x, rfl⟩ | ⟨untouched, atA, least⟩ := which
    · have after : x.afterFailure q.address = { x with inFlight := left, queued := 0, failure := some q.address } := by
        rw [timed ⟨_, q, work, unmarked, at_x, rfl⟩]
        unfold StoreEntry.afterFailure
        rw [fresh]
      obtain ⟨t, ht, none, some, cleared⟩ := timesOut_programFails h work unmarked listed once at_x.symm
      rw [after] at none some
      exact ⟨t, ht, cleared fresh, fun done => none ⟨rfl, done⟩, fun busy => some fun k => (Nat.ne_of_gt busy) k.2⟩
    · have count := untimed untouched
      have members (j : Nat) : j ∈ ((s.die d.val).programs.filter fun p => p.place == x.place).map ProgramEntry.address ↔ queued j := by
        rw [List.mem_map]
        refine exists_congr fun q => ?_
        rw [List.mem_filter, beq_iff_eq, and_assoc]
      obtain ⟨t, ht, none, some, cleared⟩ := timesOut_queued h listed once fresh
        (fun p work unmarked at_x => untouched _ ⟨p, work, unmarked, at_x.symm, rfl⟩)
        (List.min?_eq_some_iff.mpr ⟨(members a).mpr atA, fun j hj => least j ((members j).mp hj)⟩)
      rw [count]
      exact ⟨t, ht, cleared, none, fun busy => some (Nat.ne_of_gt busy)⟩

end Sys2Proof.Machine
end

section
/-! PROOFS. What the commands of the Request List and of the Buffer List leave unchanged (8.1, 8.2, 7.1): the two list parts of
O22. -/

namespace Sys2Proof.Machine

/-! ### The Request List -/

/-- What the commands of the Request List do, apart from taking a request: they move the Request Processor through its list, read
the link, write the holds of the pointer, and latch PORT_ERROR. -/
structure Requested (s t : State) : Prop where
  kept : t = { s with
    out := t.out, requests := t.requests
    registers := { s.registers with status := t.registers.status, writeHolds := t.registers.writeHolds } }
  counts : t.requests.takenCount = s.requests.takenCount ∧ t.requests.lastTag = s.requests.lastTag
  flags : ∀ f : Flag, f ≠ .portError → t.latched f = s.latched f

namespace Requested

theorem refl (s : State) : Requested s s := ⟨rfl, ⟨rfl, rfl⟩, fun _ _ => rfl⟩

theorem trans {s t u : State} (h : Requested s t) (k : Requested t u) : Requested s u where
  kept := by
    have e := k.kept
    rw [h.kept] at e
    exact e
  counts := ⟨k.counts.1.trans h.counts.1, k.counts.2.trans h.counts.2⟩
  flags f hf := (k.flags f hf).trans (h.flags f hf)

theorem ite {s t u : State} {c : Prop} [Decidable c] (h : Requested s t) (k : Requested s u) :
    Requested s (if c then t else u) := by
  split
  · exact h
  · exact k

theorem emit (s : State) (o : Output) : Requested s (s.emit o) := ⟨rfl, ⟨rfl, rfl⟩, fun _ _ => rfl⟩

theorem sendMessage (b s : State) : Requested s (Machine.sendMessage b s) := ite (emit s _) (refl s)

theorem latchPort (s : State) : Requested s (s.latch .portError) where
  kept := rfl
  counts := ⟨rfl, rfl⟩
  flags _ hf := State.latched_other s hf

theorem setWriteHold (s : State) (r : WideRegister) (v : Word) : Requested s (s.setWriteHold r v) :=
  ⟨rfl, ⟨rfl, rfl⟩, fun _ _ => rfl⟩

/-- The processor moves without taking a request. -/
theorem setRequests (s : State) (q : RequestProcessor)
    (h : (q.takenCount, q.lastTag) = (s.requests.takenCount, s.requests.lastTag)) : Requested s { s with requests := q } := by
  simp only [Prod.mk.injEq] at h
  exact ⟨rfl, h, fun _ _ => rfl⟩

/-- The processor moves and reads the link. -/
theorem setRequests_emit (s : State) (q : RequestProcessor) (o : Output)
    (h : (q.takenCount, q.lastTag) = (s.requests.takenCount, s.requests.lastTag)) :
    Requested s (({ s with requests := q } : State).emit o) :=
  (setRequests s q h).trans (emit _ o)

theorem parkRequestsLinkError (s : State) (a : HostAddr) (taken : Bool) : Requested s (s.parkRequestsLinkError a taken) :=
  trans (setRequests s { s.requests.leave with
    state := .parked, waiting := false, address := a, heldNext := none, parkReason := some .linkError
    takenMark := taken, resumePending := false } rfl) (latchPort _)

theorem parkRequestsEnd (s : State) : Requested s s.parkRequestsEnd := setRequests s _ rfl

theorem fetchRequest (s : State) (a : HostAddr) : Requested s (s.fetchRequest a) := by
  simp only [State.fetchRequest]
  exact ite (setRequests s _ rfl) (ite (setRequests_emit s _ _ rfl) (parkRequestsLinkError s a _))

theorem rereadFetching (s : State) (kind : RequestRead) : Requested s (s.rereadFetching kind) := by
  simp only [State.rereadFetching]
  exact ite (setRequests s _ rfl) (setRequests_emit s _ _ rfl)

theorem rereadAtResume (s : State) : Requested s s.rereadAtResume := by
  simp only [State.rereadAtResume]
  exact ite (setRequests s _ rfl) (setRequests_emit s _ _ rfl)

theorem rereadAgain (s : State) : Requested s s.rereadAgain := by
  simp only [State.rereadAgain]
  exact ite (rereadFetching s _) ((setRequests s { s.requests with resumePending := false } rfl).trans (rereadAtResume _))

theorem advanceRequests (s : State) (a : HostAddr) : Requested s (s.advanceRequests a) := by
  simp only [State.advanceRequests]
  exact ite (fetchRequest s a) (ite (rereadFetching s _) (parkRequestsEnd s))

theorem writeRequestPointer (s : State) (a : HostAddr) : Requested s (s.writeRequestPointer a) := by
  simp only [State.writeRequestPointer]
  exact ite (latchPort s) (ite (setRequests s _ rfl)
    (ite ((setRequests s { s.requests with resumePending := false } rfl).trans (fetchRequest _ a)) (latchPort s)))

theorem resumeRequests (s : State) : Requested s s.resumeRequests := by
  simp only [State.resumeRequests]
  split
  · exact refl s
  · exact setRequests s _ rfl
  · split
    · exact rereadAtResume s
    · exact rereadAtResume s
    · exact fetchRequest s _
    · exact refl s

theorem requestFetchFails (s : State) : Requested s s.requestFetchFails := ite (parkRequestsLinkError s _ _) (refl s)

theorem rereadAtResumeEnds (s : State) (read : Option HostAddr) : Requested s (s.rereadAtResumeEnds read) := by
  cases read with
  | none => exact (parkRequestsEnd s).trans (latchPort _)
  | some a => exact ite (fetchRequest s a) (ite (rereadAgain s) (parkRequestsEnd s))

theorem rereadAtAdvanceEnds (s : State) (read : Option HostAddr) : Requested s (s.rereadAtAdvanceEnds read) := by
  cases read with
  | none => exact parkRequestsLinkError s _ _
  | some a => exact advanceRequests s a

theorem rereadUnused (s : State) (read : Option HostAddr) : Requested s (s.rereadUnused read) := ite (latchPort s) (refl s)

theorem olderRereadEnds (s : State) (read : Option HostAddr) : Requested s (s.olderRereadEnds read) := by
  cases read with
  | none => exact rereadUnused s none
  | some a => exact ite (fetchRequest s a) (refl s)

theorem parkedRereadEnds (s : State) (read : Option HostAddr) : Requested s (s.parkedRereadEnds read) := by
  have counted := setRequests s { s.requests with rereads := s.requests.rereads - 1 } rfl
  exact ite (counted.trans (rereadAtResumeEnds _ read)) (counted.trans (olderRereadEnds _ read))

theorem fetchingRereadEnds (s : State) (read : Option HostAddr) : Requested s (s.fetchingRereadEnds read) := by
  have ended := setRequests s { s.requests with read := .none } rfl
  refine ite (refl s) ?_
  split
  · exact ended.trans (rereadAtAdvanceEnds _ read)
  · exact ended.trans (rereadAtResumeEnds _ read)
  · exact refl s
  · exact refl s

theorem requestReread (s : State) (read : Option HostAddr) : Requested s (s.requestReread read) :=
  ite ((setRequests s { s.requests with lateRereads := s.requests.lateRereads - 1 } rfl).trans (rereadUnused _ read))
    (ite (parkedRereadEnds s read) (fetchingRereadEnds s read))

/-- Each command of the Request List but the arrival of a descriptor. -/
theorem work {c : Instr} (s : State)
    (hc : c = .requestFetchFailed ∨ (∃ r, c = .requestNextRereadEnd r) ∨ c = .statusWriteFailed ∨
      (∃ w, c = .requestListPointer w) ∨ c = .requestResume) : Requested s (Machine.work c s) := by
  obtain rfl | ⟨r, rfl⟩ | rfl | ⟨w, rfl⟩ | rfl := hc
  · exact requestFetchFails s
  · exact requestReread s r
  · exact latchPort s
  · exact (setWriteHold s .requestListPointer 0#32).trans (writeRequestPointer _ _)
  · exact resumeRequests s

theorem streams {s t : State} (h : Requested s t) : SameStreams s t := by
  have kept := h.kept
  refine ⟨fun a => by rw [kept], ⟨fun id => ?_, by rw [kept], by rw [kept], by rw [kept]⟩,
    ⟨fun n => ?_, fun w => ?_, by rw [kept]⟩, ⟨by rw [kept], by rw [kept]⟩, ⟨fun d => ?_, by rw [kept]⟩, by rw [kept]⟩
  all_goals
    rw [kept]
    rfl

theorem completions {s t : State} (h : Requested s t) : t.completions = s.completions := by rw [h.kept]

end Requested

/-- The state after a command is what the owners' work and the interrupt message leave, where no long request completes. -/
theorem exec_settled_eq {c : Instr} {s t : State} (settled : (work c s).completions = []) (h : exec c s = .next t) :
    t = sendMessage s (work c s) := by
  have e := exec_settled rfl settled
  rw [h] at e
  exact Host.Outcome.next.inj e

theorem exec_requested {c : Instr} {s t : State}
    (hc : c = .requestFetchFailed ∨ (∃ r, c = .requestNextRereadEnd r) ∨ c = .statusWriteFailed ∨
      (∃ w, c = .requestListPointer w) ∨ c = .requestResume)
    (settled : s.completions = []) (h : exec c s = .next t) : Requested s t := by
  have worked := Requested.work s hc
  rw [exec_settled_eq (worked.completions.trans settled) h]
  exact worked.trans (Requested.sendMessage _ _)

/-! ### The Buffer List -/

theorem Listed.sendMessage (b s : State) : Listed s (Machine.sendMessage b s) := Listed.ite (Listed.emit s _) (Listed.refl s)

theorem Requested.streams_listed {s t u : State} (h : Requested s t) (k : Listed t u) : SameStreams s u := by
  obtain ⟨d, ⟨c, cp, cr, cc⟩, ⟨v, w, n⟩, ⟨q, e⟩, ⟨x, st⟩, tu⟩ := h.streams
  obtain ⟨d', ⟨c', cp', cr', cc'⟩, ⟨v', w', n'⟩, ⟨q', e'⟩, ⟨x', st'⟩, tu'⟩ := k.streams
  exact ⟨fun a => (d' a).trans (d a), ⟨fun a => (c' a).trans (c a), cp'.trans cp, cr'.trans cr, cc'.trans cc⟩,
    ⟨fun a => (v' a).trans (v a), fun a => (w' a).trans (w a), n'.trans n⟩, ⟨q'.trans q, e'.trans e⟩,
    ⟨fun a => (x' a).trans (x a), st'.trans st⟩, tu'.trans tu⟩

/-- The state whose write hold of the Buffer List Pointer a command clears first, if it does (R176): what is left is Listed. -/
theorem work_listed {c : Instr} (s : State)
    (hc : (∃ w, c = .bufferListPointer w) ∨ c = .bufferResume ∨ (∃ n b d, c = .bufferFetchArrival n b d) ∨
      c = .bufferFetchFailed ∨ (∃ r, c = .bufferNextRereadEnd r) ∨ c = .deliveryWriteFailed) :
    ∃ u, (u = s ∨ u = s.setWriteHold .bufferListPointer 0#32) ∧ Listed u (work c s) := by
  obtain ⟨w, rfl⟩ | rfl | ⟨n, b, d, rfl⟩ | rfl | ⟨r, rfl⟩ | rfl := hc
  · exact ⟨_, .inr rfl, Listed.writeBufferPointer _ _⟩
  · exact ⟨s, .inl rfl, Listed.resumeBuffer s⟩
  · exact ⟨s, .inl rfl, Listed.bufferArrives s n b d⟩
  · exact ⟨s, .inl rfl, Listed.bufferFetchFails s⟩
  · exact ⟨s, .inl rfl, Listed.bufferReread s r⟩
  · exact ⟨s, .inl rfl, Listed.deliveryFails s⟩

theorem exec_listed {c : Instr} {s t : State}
    (hc : (∃ w, c = .bufferListPointer w) ∨ c = .bufferResume ∨ (∃ n b d, c = .bufferFetchArrival n b d) ∨
      c = .bufferFetchFailed ∨ (∃ r, c = .bufferNextRereadEnd r) ∨ c = .deliveryWriteFailed)
    (settled : s.completions = []) (h : exec c s = .next t) :
    ∃ u, (u = s ∨ u = s.setWriteHold .bufferListPointer 0#32) ∧ Listed u t := by
  obtain ⟨u, hu, worked⟩ := work_listed s hc
  have same : u.completions = s.completions := by obtain rfl | rfl := hu <;> rfl
  refine ⟨u, hu, ?_⟩
  rw [exec_settled_eq ((worked.completions.trans same).trans settled) h]
  exact worked.trans (Listed.sendMessage _ _)

/-! ### What the two lists' commands leave unchanged -/

theorem eventFrames_requests (c : Instr) (s t : State)
    (hc : c = .requestFetchFailed ∨ (∃ r, c = .requestNextRereadEnd r) ∨ c = .statusWriteFailed ∨
      (∃ w, c = .requestListPointer w) ∨ c = .requestResume)
    (settled : s.completions = []) (h : exec c s = .next t) :
    SameStreams s t ∧ SameModel s t ∧ t.pace = s.pace ∧ t.delivery = s.delivery ∧ t.takes = s.takes ∧
      t.requests.takenCount = s.requests.takenCount ∧ t.requests.lastTag = s.requests.lastTag ∧
      (∀ f : Flag, f ≠ .portError → t.latched f = s.latched f) ∧
      t.registers.engine = s.registers.engine ∧ t.registers.mask = s.registers.mask ∧
      t.registers.counters = s.registers.counters ∧ t.registers.snapshot = s.registers.snapshot := by
  have moved := exec_requested hc settled h
  have streams := moved.streams
  obtain ⟨kept, ⟨taken, tag⟩, flags⟩ := moved
  refine ⟨streams, ⟨?_, ?_, ?_⟩, ?_, ?_, ?_, taken, tag, flags, ?_, ?_, ?_, ?_⟩
  all_goals rw [kept]

theorem eventFrames_buffers (c : Instr) (s t : State)
    (hc : (∃ w, c = .bufferListPointer w) ∨ c = .bufferResume ∨ (∃ n b d, c = .bufferFetchArrival n b d) ∨
      c = .bufferFetchFailed ∨ (∃ r, c = .bufferNextRereadEnd r) ∨ c = .deliveryWriteFailed)
    (settled : s.completions = []) (h : exec c s = .next t) :
    SameStreams s t ∧ SameModel s t ∧ t.pace = s.pace ∧ t.requests = s.requests ∧ t.takes = s.takes ∧
      t.delivery.count = s.delivery.count ∧ t.delivery.noticeCount = s.delivery.noticeCount ∧
      t.delivery.noticeStamp = s.delivery.noticeStamp ∧
      (∀ f : Flag, f ≠ .portError → f ≠ .bufferParked → t.latched f = s.latched f) ∧
      t.registers.engine = s.registers.engine ∧ t.registers.mask = s.registers.mask ∧
      t.registers.counters = s.registers.counters ∧ t.registers.snapshot = s.registers.snapshot := by
  obtain ⟨u, hu, moved⟩ := exec_listed hc settled h
  have held : Requested s u := by
    obtain rfl | rfl := hu
    · exact Requested.refl u
    · exact Requested.setWriteHold s _ _
  have streams := held.streams_listed moved
  obtain ⟨-, kept, ⟨count, notices, stamp⟩, flags, -⟩ := moved
  have same : u.delivery = s.delivery ∧ u.requests = s.requests ∧ ∀ f, u.latched f = s.latched f := by
    obtain rfl | rfl := hu
    · exact ⟨rfl, rfl, fun _ => rfl⟩
    · exact ⟨rfl, rfl, fun _ => rfl⟩
  obtain ⟨delivery, requests, latched⟩ := same
  rw [delivery] at count notices stamp
  refine ⟨streams, ⟨?_, ?_, ?_⟩, ?_, ?_, ?_, count, notices, stamp,
    fun f hp hb => (flags f hp hb).trans (latched f), ?_, ?_, ?_, ?_⟩
  all_goals rw [kept]
  any_goals rw [held.kept]
  exact requests

end Sys2Proof.Machine
end

section
/-! PROOFS. What the dies' answers, the part's timers and the fill arbiter's enqueue leave unchanged (05, 06): the frame of the
third part of O22. -/

namespace Sys2Proof.Machine

/-! ### The frame that these events share with the deliveries and the period expiry -/

/-- What an event of the dies, a delivery and a period expiry leave of the part. -/
structure State.EventKept (s t : State) : Prop where
  tunables : t.tunables = s.tunables
  partition : t.partition = s.partition
  startCount : t.startCount = s.startCount
  takes : t.takes = s.takes
  pending : t.pending = s.pending
  requests : t.requests = { s.requests with lastTag := t.requests.lastTag }
  window : t.registers = { s.registers with status := t.registers.status, counters := t.registers.counters }

namespace State.EventKept
variable {s t u : State}

theorem refl (s : State) : s.EventKept s := ⟨rfl, rfl, rfl, rfl, rfl, rfl, rfl⟩

theorem trans (h : s.EventKept t) (k : t.EventKept u) : s.EventKept u where
  tunables := k.tunables.trans h.tunables
  partition := k.partition.trans h.partition
  startCount := k.startCount.trans h.startCount
  takes := k.takes.trans h.takes
  pending := k.pending.trans h.pending
  requests := by rw [k.requests, h.requests]
  window := by rw [k.window, h.window]

theorem of_inner (h : Inner s t) : s.EventKept t :=
  ⟨h.tunables, h.partition, h.startCount, h.takes, h.pending, by rw [h.requests], h.window⟩

theorem of_takeKept (h : s.TakeKept t) : s.EventKept t := by
  unfold State.TakeKept at h
  constructor
  all_goals rw [h]

theorem of_dieKept (h : s.DieKept t) : s.EventKept t := by
  unfold State.DieKept at h
  constructor
  all_goals rw [h]

theorem of_runs (h : s.KeptButRuns t) : s.EventKept t := by
  unfold State.KeptButRuns at h
  constructor
  all_goals rw [h]

/-- The writes and the message at the end of an event. -/
theorem flushed (h : s.EventKept u) : s.EventKept (Machine.sendMessage s u.flush) := by
  have posted := (Posted.flush u).trans (Posted.sendMessage s _)
  obtain ⟨tag, requests⟩ := u.flush_requests
  refine h.trans ⟨posted.tunables, posted.partition, posted.startCount, posted.takes, posted.pending, ?_, ?_⟩
  · rw [sendMessage_requests, requests]
  · rw [posted.2]

end State.EventKept

/-- An event's end, named by its work. -/
theorem exec_flushed {c : Instr} {s t : State} (h : exec c s = .next t) : t = sendMessage s (work c s).flush := by
  rw [exec_work] at h
  exact (Host.Outcome.next.inj h).symm

theorem exec_ends {c : Instr} {s t : State} (h : exec c s = .next t) : (work c s).Ended t := by
  obtain ⟨u, hu, ended⟩ := exec_ended c s
  rw [hu] at h
  exact Host.Outcome.next.inj h ▸ ended

/-! ### The flags that an operation may latch -/

/-- Of the interrupt flags only some may have been latched, and none was cleared. -/
structure Latches (may : Flag → Prop) (s t : State) : Prop where
  others : ∀ f, ¬ may f → t.latched f = s.latched f
  stays : ∀ f, s.latched f = true → t.latched f = true

namespace Latches
variable {may : Flag → Prop} {s t u : State}

theorem of_registers (h : t.registers = s.registers) : Latches may s t := by
  have same (f : Flag) : t.latched f = s.latched f := by
    unfold State.latched
    rw [h]
  exact ⟨fun f _ => same f, fun f k => (same f).trans k⟩

theorem trans (h : Latches may s t) (k : Latches may t u) : Latches may s u :=
  ⟨fun f hf => (k.others f hf).trans (h.others f hf), fun f => k.stays f ∘ h.stays f⟩

theorem latch (s : State) (f : Flag) : Latches (· = f) s (s.latch f) where
  others _ hg := State.latched_other s hg
  stays g k := State.latched_latch s g f k

theorem count (s : State) (c : CounterName) : Latches may s (s.count c) := ⟨fun _ _ => rfl, fun _ => id⟩

theorem mono {more : Flag → Prop} (h : Latches may s t) (le : ∀ f, may f → more f) : Latches more s t :=
  ⟨fun f hf => h.others f (hf ∘ le f), h.stays⟩

/-- Some operations latch nothing. -/
theorem of_calm (h : Calm s t) : Latches may s t := of_registers h.registers

theorem ended (h : Latches may s u) (k : u.Ended t) : Latches (fun f => may f ∨ f = .requestDone) s t where
  others f hf := (k.flags f fun e => hf (.inr e)).trans (h.others f fun m => hf (.inl m))
  stays f := k.latched f ∘ h.stays f

end Latches

/-! ### What the events of the dies latch -/

/-- The flags that the work of a command of the dies or of their timers may latch. -/
def mayLatch (c : Instr) (d : Fin 16) (f : Flag) : Prop :=
  (f = .blockFault ∧ (c = .dieAddressRefused d ∨ ∃ x y, c = .dieTransferEnd d x y)) ∨
    (f = .dieFault ∧ (c = .readTimeout d ∨ c = .programTimeout d)) ∨ (f = .portError ∧ c = .programDmaFailed d)

/-- A command of the dies or of their timers. -/
def ofDie (c : Instr) (d : Fin 16) : Prop :=
  c = .diePollInterval d ∨ c = .dieAddressAck d ∨ c = .dieAddressRefused d ∨ (∃ n, c = .dieReadyAnswer d n) ∨
    (∃ n, c = .dieBusyAnswer d n) ∨ (∃ x y, c = .dieTransferEnd d x y) ∨ c = .readTimeout d ∨ c = .pollTimeout d ∨
    (∃ x, c = .programDataPhaseEnd d x) ∨ c = .programDmaFailed d ∨ c = .programTimeout d

section
variable {may : Flag → Prop}

theorem Latches.pollInterval (s : State) (d : Nat) : Latches may s (s.pollInterval d) := by
  simp only [State.pollInterval]
  split
  · split <;> exact .of_registers rfl
  · exact .of_registers rfl

theorem Latches.addressAck (s : State) (d : Nat) : Latches may s (s.addressAck d) := by
  simp only [State.addressAck]
  split
  · split <;> exact .of_registers rfl
  · exact .of_registers rfl

theorem Latches.endAttempt (s : State) (d : Nat) (f : FetchEntry) (o : Operation) :
    Latches (· = .blockFault) s (s.endAttempt d f o) := by
  simp only [State.endAttempt]
  split
  · exact .of_calm (Calm.endRead s d f _ _)
  · split
    · exact .of_registers rfl
    · exact ((count s _).trans (latch _ _)).trans (.of_calm (Calm.endRead _ d f _ _))

theorem Latches.addressRefused (s : State) (d : Nat) : Latches (· = .blockFault) s (s.addressRefused d) := by
  simp only [State.addressRefused]
  split
  · split
    · exact endAttempt s d _ _
    · exact .of_calm (Calm.failProgram s d _ _)
    · exact .of_registers rfl
  · exact .of_registers rfl

theorem Latches.readyAnswer (s : State) (d n : Nat) : Latches may s (s.readyAnswer d n) := by
  simp only [State.readyAnswer]
  split
  · exact .of_registers rfl
  · split
    · exact .of_calm (Calm.endPoll s d _ _ _)
    · split <;> exact .of_registers rfl
    · split
      · exact .of_calm (Calm.endProgram s d _ _)
      · exact .of_registers rfl

theorem Latches.busyAnswer (s : State) (d n : Nat) : Latches may s (s.busyAnswer d n) := by
  simp only [State.busyAnswer]
  split
  · exact .of_registers rfl
  · split
    · exact .of_calm (Calm.endPoll s d _ _ _)
    all_goals exact .of_registers rfl

theorem Latches.crcMismatch (s : State) (d : Nat) (f : FetchEntry) (o : Operation) :
    Latches (· = .blockFault) s (s.crcMismatch d f o) := by
  simp only [State.crcMismatch]
  refine Latches.trans ?_ (endAttempt _ d f o)
  split
  · exact .of_registers rfl
  · exact count s _

theorem Latches.transferEnd (s : State) (d : Nat) (data stored : List Byte) :
    Latches (· = .blockFault) s (s.transferEnd d data stored) := by
  have held (given : List Byte) : Latches (· = .blockFault) s (s.holdTransfer d given) := .of_registers rfl
  simp only [State.transferEnd]
  split
  · split
    · split
      · exact (held _).trans (.of_calm (Calm.endRead _ d _ _ _))
      · exact (held _).trans (crcMismatch _ d _ _)
    all_goals exact .of_registers rfl
  · exact .of_registers rfl

theorem Latches.goOffline (s : State) (d : Nat) (o : Operation) : Latches (· = .dieFault) s (s.goOffline d o) :=
  (latch s _).trans (.of_calm (s.goOffline_calm d o))

theorem Latches.readTimesOut (s : State) (d : Nat) : Latches (· = .dieFault) s (s.readTimesOut d) := by
  simp only [State.readTimesOut]
  split
  · exact .of_registers rfl
  · split
    · exact goOffline s d _
    all_goals exact .of_registers rfl

theorem Latches.programTimesOut (s : State) (d : Nat) : Latches (· = .dieFault) s (s.programTimesOut d) := by
  simp only [State.programTimesOut]
  split
  · exact .of_registers rfl
  · split
    · exact goOffline s d _
    all_goals exact .of_registers rfl

theorem Latches.pollTimesOut (s : State) (d : Nat) : Latches may s (s.pollTimesOut d) := by
  simp only [State.pollTimesOut]
  split
  · exact .of_registers rfl
  · split
    · exact .of_calm (Calm.endPoll s d _ _ _)
    all_goals exact .of_registers rfl

theorem Latches.dataPhaseEnds (s : State) (d : Nat) (data : List Byte) : Latches may s (s.dataPhaseEnds d data) := by
  simp only [State.dataPhaseEnds]
  split
  · split <;> exact .of_registers rfl
  · exact .of_registers rfl

theorem Latches.dmaFails (s : State) (d : Nat) : Latches (· = .portError) s (s.dmaFails d) := by
  simp only [State.dmaFails]
  split
  · split
    · exact (latch s _).trans (.of_calm (Calm.failProgram _ d _ _))
    all_goals exact .of_registers rfl
  · exact .of_registers rfl

end

/-- Engine Status READY, an event of the dies is what the answer or the timer does: no engine reset completes. -/
theorem Inner.finish_ready {s u : State} (h : Inner s u) (ready : s.registers.engine = .ready) : u.finishEngineReset = u := by
  refine State.finishEngineReset_ready (State.not_resetting_of ?_)
  rw [h.window]
  exact ready

/-- The work of a command of the dies: an inner operation that latches no flags but its own. -/
theorem work_ofDie {c : Instr} {d : Fin 16} {s : State} (hc : ofDie c d) (ready : s.registers.engine = .ready) :
    Inner s (work c s) ∧ Latches (mayLatch c d) s (work c s) := by
  have finished {u : State} {may : Flag → Prop} (h : Inner s u) (k : Latches may s u)
      (w : work c s = u.finishEngineReset) (le : ∀ f, may f → mayLatch c d f) :
      Inner s (work c s) ∧ Latches (mayLatch c d) s (work c s) := by
    rw [w, h.finish_ready ready]
    exact ⟨h, k.mono le⟩
  obtain rfl | rfl | rfl | ⟨n, rfl⟩ | ⟨n, rfl⟩ | ⟨x, y, rfl⟩ | rfl | rfl | ⟨x, rfl⟩ | rfl | rfl := hc
  · exact ⟨Inner.pollInterval s d.val, Latches.pollInterval s d.val⟩
  · exact ⟨Inner.addressAck s d.val, Latches.addressAck s d.val⟩
  · exact finished (Inner.addressRefused s d.val) (Latches.addressRefused s d.val) rfl fun f e => .inl ⟨e, .inl rfl⟩
  · exact finished (may := fun _ => False) (Inner.readyAnswer s d.val _) (Latches.readyAnswer s d.val _) rfl nofun
  · exact finished (may := fun _ => False) (Inner.busyAnswer s d.val _) (Latches.busyAnswer s d.val _) rfl nofun
  · exact finished (Inner.transferEnd s d.val x y) (Latches.transferEnd s d.val x y) rfl fun f e => .inl ⟨e, .inr ⟨x, y, rfl⟩⟩
  · exact finished (Inner.readTimesOut s d.val) (Latches.readTimesOut s d.val) rfl fun f e => .inr (.inl ⟨e, .inl rfl⟩)
  · exact finished (may := fun _ => False) (Inner.pollTimesOut s d.val) (Latches.pollTimesOut s d.val) rfl nofun
  · exact ⟨Inner.dataPhaseEnds s d.val x, Latches.dataPhaseEnds s d.val x⟩
  · exact finished (Inner.dmaFails s d.val) (Latches.dmaFails s d.val) rfl fun f e => .inr (.inr ⟨e, rfl⟩)
  · exact finished (Inner.programTimesOut s d.val) (Latches.programTimesOut s d.val) rfl fun f e => .inr (.inl ⟨e, .inr rfl⟩)

/-! ### The memory -/

theorem State.DieKept.dram {s t : State} (h : s.DieKept t) : t.dram = s.dram := by rw [h]

theorem State.StoresKept.dram {s t : State} (h : s.StoresKept t) : t.dram = s.dram := by rw [h]

theorem State.endProgram_dram (s : State) (d : Nat) (p : ProgramEntry) (discard : Bool) :
    (s.endProgram d p discard).dram = s.dram := by
  simp only [State.endProgram]
  refine (State.DieKept.arbitrate _ d).dram.trans ?_
  split
  · rfl
  · exact (State.StoresKept.judgeStore _ _).dram

theorem State.failProgram_dram (s : State) (d : Nat) (p : ProgramEntry) (discard : Bool) :
    (s.failProgram d p discard).dram = s.dram := by
  simp only [State.failProgram]
  refine (State.DieKept.arbitrate _ d).dram.trans ?_
  split
  · rfl
  · exact ((State.StoresKept.programFails _ p).trans (State.StoresKept.judgeStore _ _)).dram

theorem State.endPoll_dram (s : State) (d : Nat) (o : Operation) (a : PollAnswer) (n : Nat) :
    (s.endPoll d o a n).dram = s.dram := by
  simp only [State.endPoll]
  split <;> exact (State.DieKept.arbitrate _ d).dram

theorem State.pollInterval_dram (s : State) (d : Nat) : (s.pollInterval d).dram = s.dram := by
  simp only [State.pollInterval]
  split
  · split <;> rfl
  · rfl

theorem State.addressAck_dram (s : State) (d : Nat) : (s.addressAck d).dram = s.dram := by
  simp only [State.addressAck]
  split
  · split <;> rfl
  · rfl

theorem State.readyAnswer_dram (s : State) (d n : Nat) : (s.readyAnswer d n).dram = s.dram := by
  simp only [State.readyAnswer]
  split
  · rfl
  · split
    · exact State.endPoll_dram ..
    · split <;> rfl
    · split
      · exact State.endProgram_dram ..
      · rfl

theorem State.busyAnswer_dram (s : State) (d n : Nat) : (s.busyAnswer d n).dram = s.dram := by
  simp only [State.busyAnswer]
  split
  · rfl
  · split
    · exact State.endPoll_dram ..
    all_goals rfl

theorem State.pollTimesOut_dram (s : State) (d : Nat) : (s.pollTimesOut d).dram = s.dram := by
  simp only [State.pollTimesOut]
  split
  · rfl
  · split
    · exact State.endPoll_dram ..
    all_goals rfl

theorem State.dataPhaseEnds_dram (s : State) (d : Nat) (data : List Byte) : (s.dataPhaseEnds d data).dram = s.dram := by
  simp only [State.dataPhaseEnds]
  split
  · split <;> rfl
  · rfl

theorem State.dmaFails_dram (s : State) (d : Nat) : (s.dmaFails d).dram = s.dram := by
  simp only [State.dmaFails]
  split
  · split
    · exact State.failProgram_dram ..
    all_goals rfl
  · rfl

/-- The memory is written at the end of a read and when a die goes OFFLINE alone. -/
theorem work_dram {c : Instr} {d : Fin 16} {s : State}
    (hc : c = .diePollInterval d ∨ c = .dieAddressAck d ∨ (∃ n, c = .dieReadyAnswer d n) ∨ (∃ n, c = .dieBusyAnswer d n) ∨
      c = .pollTimeout d ∨ (∃ x, c = .programDataPhaseEnd d x) ∨ c = .programDmaFailed d)
    (ready : s.registers.engine = .ready) : (work c s).dram = s.dram := by
  have finished {u : State} (h : Inner s u) (k : u.dram = s.dram) (w : work c s = u.finishEngineReset) :
      (work c s).dram = s.dram := by
    rw [w, h.finish_ready ready, k]
  obtain rfl | rfl | ⟨n, rfl⟩ | ⟨n, rfl⟩ | rfl | ⟨x, rfl⟩ | rfl := hc
  · exact State.pollInterval_dram s d.val
  · exact State.addressAck_dram s d.val
  · exact finished (Inner.readyAnswer s d.val _) (State.readyAnswer_dram s d.val _) rfl
  · exact finished (Inner.busyAnswer s d.val _) (State.busyAnswer_dram s d.val _) rfl
  · exact finished (Inner.pollTimesOut s d.val) (State.pollTimesOut_dram s d.val) rfl
  · exact State.dataPhaseEnds_dram s d.val x
  · exact finished (Inner.dmaFails s d.val) (State.dmaFails_dram s d.val) rfl

end Sys2Proof.Machine
end

section
/-! PROOFS. What the fill arbiter's enqueue leaves unchanged, and the memory after it (R44, R102, R105, R106). -/

namespace Sys2Proof.Machine

/-! ### The parts of the state that an enqueue moves -/

/-- What an enqueue with the judgments that follow it may change (R104, R105). -/
def State.EnqueueKept (s t : State) : Prop :=
  t = { s with
    catalog := t.catalog, reclaiming := t.reclaiming, recency := t.recency, windows := t.windows, voices := t.voices
    queue := t.queue, enqueueCount := t.enqueueCount, dies := t.dies, stores := t.stores, dram := t.dram, out := t.out
    completions := t.completions, freeCount := t.freeCount }

namespace State.EnqueueKept
variable {s t u : State}

theorem trans (h : s.EnqueueKept t) (k : t.EnqueueKept u) : s.EnqueueKept u := by
  unfold State.EnqueueKept at h k ⊢
  rw [k, h]

theorem of_takeKept (h : s.TakeKept t) : s.EnqueueKept t := by
  unfold State.TakeKept at h
  unfold State.EnqueueKept
  rw [h]

theorem of_dieKept (h : s.DieKept t) : s.EnqueueKept t := by
  unfold State.DieKept at h
  unfold State.EnqueueKept
  rw [h]

theorem of_runs (h : s.KeptButRuns t) : s.EnqueueKept t := by
  unfold State.KeptButRuns at h
  unfold State.EnqueueKept
  rw [h]

theorem enqueueVoice (s : State) (slot a : Nat) : s.EnqueueKept (s.enqueueVoice slot a) := by
  simp only [State.enqueueVoice]
  split
  · rfl
  · split <;> rfl

theorem enqueueLoad (s : State) (id a : Nat) : s.EnqueueKept (s.enqueueLoad id a) := by
  simp only [State.enqueueLoad]
  split <;> rfl

theorem arbitrate (s : State) (d : Nat) : s.EnqueueKept (s.arbitrate d) := of_dieKept (State.DieKept.arbitrate s d)

theorem settleLoad (s : State) (id : Nat) : s.EnqueueKept (s.settleLoad id) := of_takeKept (State.TakeKept.settleLoad s id)

theorem enqueueForLoad (s : State) (id a : Nat) : s.EnqueueKept (s.enqueueForLoad id a) := by
  have queued := enqueueLoad s id a
  have counted : s.EnqueueKept { s.enqueueLoad id a with freeCount := s.freeCount + 1 } := queued.trans rfl
  simp only [State.enqueueForLoad]
  split
  · split
    · exact counted.trans ((arbitrate _ _).trans (settleLoad _ id))
    · exact counted.trans ((settleLoad _ id).trans (arbitrate _ _))
  · exact queued.trans (arbitrate _ _)

theorem fetchEnqueue (s : State) : s.EnqueueKept s.fetchEnqueue := by
  unfold State.fetchEnqueue
  split
  · rfl
  · exact enqueueForLoad s _ _
  · rename_i slot a _
    exact (enqueueVoice s slot a).trans ((of_runs (State.settleVoice_judged _ slot).kept).trans (arbitrate _ _))

theorem event (h : s.EnqueueKept t) : s.EventKept t := by
  unfold State.EnqueueKept at h
  constructor
  all_goals rw [h]

end State.EnqueueKept

/-! ### The die arbiter's choice -/

/-- What the arbiter's choice at a die leaves of the voices, their layouts and the dies OFFLINE (R129). -/
structure State.Chosen (s t : State) : Prop where
  kept : s.DieKept t
  voices : ∀ n, (t.voice n).sounding = (s.voice n).sounding ∧ (t.voice n).window = (s.voice n).window ∧
    t.layoutOf (t.voice n) = s.layoutOf (s.voice n)
  offline : ∀ d, (t.die d).state = .offline ↔ (s.die d).state = .offline

theorem State.Chosen.refl (s : State) : s.Chosen s := ⟨rfl, fun _ => ⟨rfl, rfl, rfl⟩, fun _ => .rfl⟩

theorem State.Chosen.issuePoll (s : State) (d : Nat) (off : (s.die d).state = .offline) : s.Chosen (s.issuePoll d) := by
  refine ⟨rfl, fun _ => ⟨rfl, rfl, rfl⟩, fun x => ?_⟩
  by_cases e : x = d
  · rw [e, off]
    have same : ((s.issuePoll d).die d).state = if (s.die d).state = .offline then .offline else .polling :=
      congrArg Die.state (State.die_setDie_same s d _)
    rw [same, if_pos off]
  · have same : (s.issuePoll d).die x = s.die x := State.die_setDie_other s _ e
    rw [same]

theorem State.Arbitrated.offline {s t : State} {d : Nat} (h : s.Arbitrated t d) (ready : (s.die d).state = .ready) (x : Nat) :
    (t.die x).state = .offline ↔ (s.die x).state = .offline := by
  by_cases e : x = d
  · rw [e, h.die, ready]
    cases s.dieChoice d with
    | none => simp [ready]
    | some w => cases w <;> simp
  · rw [h.others x e]

theorem State.Chosen.arbitrate (s : State) (d : Nat) : s.Chosen (s.arbitrate d) := by
  by_cases waits : (s.resetting || (s.die d).operation.isSome) = true
  · rw [show s.arbitrate d = s from if_pos waits]
    exact State.Chosen.refl s
  · have chooses := waits
    rw [Bool.or_eq_true, not_or, Bool.not_eq_true, Bool.not_eq_true, Option.isSome_eq_false_iff, Option.isNone_iff_eq_none]
      at chooses
    obtain ⟨calm, idle⟩ := chooses
    cases state : (s.die d).state with
    | ready =>
      obtain ⟨chosen, -⟩ := s.arbitrate_arbitrated d calm idle state
      refine ⟨State.DieKept.arbitrate s d, fun n => ?_, chosen.offline state⟩
      rw [chosen.voice n]
      refine ⟨rfl, rfl, ?_⟩
      unfold State.layoutOf
      rw [chosen.record]
    | offline =>
      simp only [State.arbitrate, waits, state, Bool.false_eq_true, if_false]
      split
      · exact State.Chosen.refl s
      · exact State.Chosen.issuePoll s d state
    | addressing | polling | transferring =>
      simp only [State.arbitrate, waits, state, Bool.false_eq_true, if_false]
      exact State.Chosen.refl s

/-! ### An enqueue for a load writes nothing in the memory -/

/-- No place of a sounding voice moves, and no byte of the memory. -/
structure State.Still (s t : State) : Prop where
  dram : t.dram = s.dram
  voices : ∀ n, (t.voice n).sounding = true → (s.voice n).sounding = true ∧ (t.voice n).window = (s.voice n).window
  windows : ∀ n, (t.voice n).sounding = true → t.window (s.voice n).window = s.window (s.voice n).window

namespace State.Still
variable {s t u : State}

theorem trans (h : s.Still t) (k : t.Still u) : s.Still u where
  dram := k.dram.trans h.dram
  voices n sounds := by
    obtain ⟨before, window⟩ := k.voices n sounds
    obtain ⟨first, same⟩ := h.voices n before
    exact ⟨first, window.trans same⟩
  windows n sounds := by
    obtain ⟨before, -⟩ := k.voices n sounds
    obtain ⟨-, same⟩ := h.voices n before
    have later := k.windows n sounds
    rw [same] at later
    exact later.trans (h.windows n before)

theorem of_same (dram : t.dram = s.dram) (voices : t.voices = s.voices) (windows : t.windows = s.windows) : s.Still t where
  dram := dram
  voices n sounds := by
    rw [State.voice_congr voices] at sounds ⊢
    exact ⟨sounds, rfl⟩
  windows n _ := State.window_congr windows _

theorem of_chosen (h : s.Chosen t) : s.Still t where
  dram := h.kept.dram
  voices n sounds := by
    obtain ⟨sounding, window, -⟩ := h.voices n
    exact ⟨sounding.symm.trans sounds, window⟩
  windows n _ := State.window_congr (by rw [h.kept]) _

theorem settleLoad (s : State) (id : Nat) (c : s.Canonical) (once : s.WindowsHeldOnce) : s.Still (s.settleLoad id) := by
  have fills := State.Fills.settleLoad (lost := fun _ => False) s id c once
  refine ⟨by rw [State.TakeKept.settleLoad s id], fun n sounds => ?_, fun n sounds => ?_⟩
  · have same := fills.voice n sounds
    rw [same] at sounds ⊢
    exact ⟨sounds, rfl⟩
  · exact (fills.windows n sounds).still fun _ none => none

/-- Where no place moves none is given in silence. -/
theorem silence (h : s.Still t) : SilenceWritten s t := by
  intro a
  rw [h.dram]
  refine ⟨fun given => ?_, fun _ => rfl⟩
  obtain ⟨n, i, r, l, b, sounds, -, filled, -, empty, -⟩ := given
  obtain ⟨sounding, window⟩ := h.voices n sounds
  rw [window, h.windows n sounds] at filled
  rw [window, filled, State.windowFree_sounding sounding] at empty
  obtain e | e := empty <;> cases e

theorem closed (h : s.Still t) (k : Closed t u) : s.Still u := by
  refine h.trans (.of_same k.dram ?_ ?_)
  all_goals rw [k.2]

end State.Still

theorem State.Still.enqueueForLoad {s : State} (id a : Nat) (room : s.queue.length < Config.queueLimit) (c : s.Canonical)
    (once : s.WindowsHeldOnce) : s.Still (s.enqueueForLoad id a) := by
  have kept : (s.enqueueLoad id a).dram = s.dram ∧ (s.enqueueLoad id a).voices = s.voices ∧
      (s.enqueueLoad id a).windows = s.windows := by
    simp only [State.enqueueLoad]
    split <;> exact ⟨rfl, rfl, rfl⟩
  obtain ⟨dram, voices, windows⟩ := kept
  have ordered := Orderly.enqueueLoad id a room
  simp only [State.enqueueForLoad]
  have canonical := ordered.canonical c
  generalize s.enqueueLoad id a = u at dram voices windows canonical
  have same (v : State) (dv : v.dram = u.dram) (vv : v.voices = u.voices) (wv : v.windows = u.windows) : s.Still v :=
    .of_same (dv.trans dram) (vv.trans voices) (wv.trans windows)
  split
  · have counted := same { u with freeCount := s.freeCount + 1 } rfl rfl rfl
    have fit : ({ u with freeCount := s.freeCount + 1 } : State).Canonical ∧
        ({ u with freeCount := s.freeCount + 1 } : State).WindowsHeldOnce :=
      ⟨canonical.of_same rfl rfl rfl rfl rfl, once.of_tame fun n => by
        rw [show ({ u with freeCount := s.freeCount + 1 } : State).voice n = s.voice n from State.voice_congr voices n]
        exact Voice.Tame.refl _⟩
    generalize ({ u with freeCount := s.freeCount + 1 } : State) = b at counted fit
    obtain ⟨cb, ob⟩ := fit
    have arbiter := Inner.arbitrate b (dieOf a)
    split
    · exact counted.trans ((of_chosen (.arbitrate b _)).trans (settleLoad _ id (arbiter.canonical cb)
        (ob.of_tame fun n => (arbiter.voices n).tame)))
    · exact counted.trans ((settleLoad b id cb ob).trans (of_chosen (.arbitrate _ _)))
  · exact (same u rfl rfl rfl).trans (of_chosen (.arbitrate _ _))

/-! ### An enqueue for a voice -/

/-- A voice has its next run, the place to be fetched AWAITED if there is one (R105). -/
structure State.Awaits (s t : State) : Prop where
  dram : t.dram = s.dram
  partition : t.partition = s.partition
  voices : ∀ n, (t.voice n).sounding = (s.voice n).sounding ∧ (t.voice n).window = (s.voice n).window
  places : ∀ w i, (t.window w).place i = (s.window w).place i ∨ ∃ r, (t.window w).place i = .awaited r

theorem State.Awaits.enqueueVoice (s : State) (slot a : Nat) : s.Awaits (s.enqueueVoice slot a) := by
  cases layout : s.layoutOf (s.voice slot) with
  | none =>
    rw [show s.enqueueVoice slot a = s by simp [State.enqueueVoice, layout]]
    exact ⟨rfl, rfl, fun _ => ⟨rfl, rfl⟩, fun _ _ => .inl rfl⟩
  | some l =>
    have given {t : State} (voice : t.voice slot = (s.voice slot).giveRun l) (others : ∀ n, n ≠ slot → t.voice n = s.voice n)
        (n : Nat) : (t.voice n).sounding = (s.voice n).sounding ∧ (t.voice n).window = (s.voice n).window := by
      by_cases e : n = slot
      · rw [e, voice]
        exact ⟨Voice.giveRun_sounding _ l, Voice.giveRun_window _ l⟩
      · rw [others n e]
        exact ⟨rfl, rfl⟩
    cases fits : (s.voice slot).runFits l with
    | false =>
      rw [State.enqueueVoice_unfit a layout fits]
      exact ⟨rfl, rfl, given (State.voice_setVoice_same ..) fun n => State.voice_setVoice_other _ _, fun _ _ => .inl rfl⟩
    | true =>
      obtain ⟨⟨kept, voice, others, window, windows⟩, -⟩ := State.enqueueVoice_fits a layout fits
      refine ⟨by rw [kept], by rw [kept], given voice others, fun w i => ?_⟩
      by_cases e : w = (s.voice slot).window
      · rw [e, window, State.takesRun_fits fits]
        by_cases f : i = (s.window (s.voice slot).window).fill
        · rw [f]
          exact .inr ⟨_,
            Window.place_setPlace_same (s.window (s.voice slot).window) _ (.awaited ((s.voice slot).nextRun l false))⟩
        · exact .inl (Window.place_setPlace_other (s.window (s.voice slot).window) (.awaited ((s.voice slot).nextRun l false)) f)
      · exact .inl (by rw [windows w e])

/-- The silent bytes of an enqueue for a voice are those of the judging in it. -/
theorem State.Awaits.silentByte {s u v t : State} {slot : Nat} (h : s.Awaits u) (judged : Judged (· = slot) u v) (k : v.Chosen t)
    (a : Nat) : silentByte s t a ↔ silentByte u v a := by
  have area (w i : Nat) (r : Run) (f : Format) : s.inRun w i r f a ↔ u.inRun w i r f a := by
    unfold State.inRun State.placeBase
    rw [h.partition]
  have empty {n i : Nat} {r : Run} (sounds : (v.voice n).sounding = true)
      (filled : (v.window (v.voice n).window).place i = .filled r) :
      ((s.window (v.voice n).window).place i = .empty ∨ s.windowFree (v.voice n).window = true) ↔
        ((u.window (v.voice n).window).place i = .empty ∨ u.windowFree (v.voice n).window = true) := by
    obtain ⟨sounding, window, -⟩ := judged.voices n
    obtain ⟨first, same⟩ := h.voices n
    have soundsU := sounding.symm.trans sounds
    have heldU := State.windowFree_sounding soundsU
    have heldS := State.windowFree_sounding (first.symm.trans soundsU)
    rw [window] at filled ⊢
    rw [← same] at heldS
    rw [heldU, heldS]
    obtain e | ⟨q, waits⟩ := h.places (u.voice n).window i
    · rw [e]
    · obtain e | ⟨e, -⟩ := judged.places (u.voice n).window i
      · rw [filled, waits] at e
        cases e
      · rw [waits] at e
        cases e
  have windows (w : Nat) : t.window w = v.window w := State.window_congr (by rw [k.kept]) w
  constructor
  · rintro ⟨n, i, r, l, b, sounds, layout, filled, damaged, before, block, off, inside⟩
    obtain ⟨sounding, window, layouts⟩ := k.voices n
    rw [sounding] at sounds
    rw [layouts] at layout
    rw [window] at filled before inside
    rw [windows] at filled
    exact ⟨n, i, r, l, b, sounds, layout, filled, damaged, (empty sounds filled).mp before, block, (k.offline _).mp off,
      (area _ _ _ _).mp inside⟩
  · rintro ⟨n, i, r, l, b, sounds, layout, filled, damaged, before, block, off, inside⟩
    obtain ⟨sounding, window, layouts⟩ := k.voices n
    refine ⟨n, i, r, l, b, sounding.trans sounds, layouts.trans layout, ?_, damaged, ?_, block, (k.offline _).mpr off, ?_⟩
    · rw [window, windows, filled]
    · rw [window]
      exact (empty sounds filled).mpr before
    · rw [window]
      exact (area _ _ _ _).mpr inside

theorem State.Awaits.silence {s u v t : State} {slot : Nat} (h : s.Awaits u) (judged : Judged (· = slot) u v) (k : v.Chosen t)
    (once : s.WindowsHeldOnce) : SilenceWritten s t := by
  have sounded : u.SoundedOnce := fun m n hm hn e => by
    obtain ⟨soundM, windowM⟩ := h.voices m
    obtain ⟨soundN, windowN⟩ := h.voices n
    exact once.sounded m n (soundM.symm.trans hm) (soundN.symm.trans hn) (windowM.symm.trans (e.trans windowN))
  have written := judged.silence sounded
  intro a
  rw [h.silentByte judged k, k.kept.dram, ← h.dram]
  exact written a

/-! ### The event -/

/-- The silent places given by an enqueue read 0, every other byte as before (R44, R106). -/
theorem fetchEnqueue_silence {s t : State} (c : s.Canonical) (once : s.WindowsHeldOnce) (closed : Closed s.fetchEnqueue t) :
    SilenceWritten s t := by
  have written : SilenceWritten s s.fetchEnqueue := by
    unfold State.fetchEnqueue
    split
    · exact (State.Still.of_same rfl rfl rfl).silence
    · exact (State.Still.enqueueForLoad _ _ (State.fillChoice_room ‹_›) c once).silence
    · rename_i slot a _
      exact (State.Awaits.enqueueVoice s slot a).silence (State.settleVoice_judged _ slot) (.arbitrate _ _) once
  intro a
  rw [closed.dram]
  have same : silentByte s t a ↔ silentByte s s.fetchEnqueue a := by
    unfold silentByte
    simp only [closed.voice, closed.window, closed.die, State.layoutOf_congr closed.catalog]
  rw [same]
  exact written a

end Sys2Proof.Machine
end

section
/-! PROOFS. What a delivery and a period expiry leave unchanged (R82, R113, R150 to R159), and O22. -/

namespace Sys2Proof.Machine

/-! ### The parts of the state that a delivery and an expiry move -/

/-- What a delivery and a period expiry may change. -/
def State.StreamKept (s t : State) : Prop :=
  t = { s with
    registers := { s.registers with status := t.registers.status, counters := t.registers.counters }
    catalog := t.catalog, dram := t.dram, reclaiming := t.reclaiming, recency := t.recency, windows := t.windows
    voices := t.voices, pace := t.pace, queue := t.queue, delivery := t.delivery, out := t.out, completions := t.completions }

namespace State.StreamKept
variable {s t u : State}

theorem trans (h : s.StreamKept t) (k : t.StreamKept u) : s.StreamKept u := by
  unfold State.StreamKept at h k ⊢
  rw [k, h]

theorem of_takeKept (h : s.TakeKept t) : s.StreamKept t := by
  unfold State.TakeKept at h
  unfold State.StreamKept
  rw [h]

theorem of_runs (h : s.KeptButRuns t) : s.StreamKept t := by
  unfold State.KeptButRuns at h
  unfold State.StreamKept
  rw [h]

theorem of_monitor (h : s.MonitorKept t) : s.StreamKept t := by
  unfold State.MonitorKept at h
  unfold State.StreamKept
  rw [h]

theorem of_listed (h : Listed s t) : s.StreamKept t := by
  unfold State.StreamKept
  rw [h.kept]

theorem event (h : s.StreamKept t) : s.EventKept t := by
  unfold State.StreamKept at h
  constructor
  all_goals rw [h]

theorem dies (h : s.StreamKept t) (k : Closed t u) : SameDies s u := by
  unfold State.StreamKept at h
  refine ⟨fun d => ?_, ?_⟩
  · rw [k.die, h]
    rfl
  · rw [k.stores, h]

end State.StreamKept

/-- The interrupt flags are those that one latch leaves. -/
theorem Latches.of_status {may : Flag → Prop} {s t : State} (f : Flag) (h : t.registers.status = (s.latch f).registers.status)
    (m : may f) : Latches may s t := by
  have same (g : Flag) : t.latched g = (s.latch f).latched g := by
    unfold State.latched
    rw [h]
  obtain ⟨others, stays⟩ := (Latches.latch s f).mono (more := may) fun _ e => e ▸ m
  exact ⟨fun g hg => (same g).trans (others g hg), fun g k => (same g).trans (stays g k)⟩

/-! ### The deliveries -/

/-- A flag that a delivery may latch, its notices and its advance (R153, R157, R159). -/
def deliveryFlag (f : Flag) : Prop := f = .delivery ∨ f = .priorityDelivery ∨ f = .bufferParked ∨ f = .portError

/-- What the work of a delivery leaves. -/
structure State.Delivers (s t : State) : Prop where
  kept : s.StreamKept t
  pace : t.pace = s.pace
  counters : t.registers.counters = s.registers.counters
  flags : Latches deliveryFlag s t

namespace State.Delivers
variable {s t u : State}

theorem trans (h : s.Delivers t) (k : t.Delivers u) : s.Delivers u :=
  ⟨h.kept.trans k.kept, k.pace.trans h.pace, k.counters.trans h.counters, h.flags.trans k.flags⟩

theorem refl (s : State) : s.Delivers s := ⟨rfl, rfl, rfl, .of_registers rfl⟩

theorem countDelivery (s : State) : s.Delivers s.countDelivery := by
  have counts := s.countDelivery_kept
  have flags : Latches deliveryFlag s s.countDelivery := by
    unfold State.countDelivery
    dsimp only
    split
    · exact .of_status .delivery rfl (Or.inl rfl)
    · exact .of_registers rfl
  generalize s.countDelivery = t at counts flags
  refine ⟨?_, ?_, ?_, flags⟩
  · unfold State.StreamKept
    rw [counts]
  · rw [counts]
  · rw [counts]

theorem noticePriority (s : State) (v : Voice) : s.Delivers (s.noticePriority v) := by
  unfold State.noticePriority
  split
  · exact ⟨rfl, rfl, rfl, .of_status .priorityDelivery rfl (Or.inr (.inl rfl))⟩
  · exact refl s

theorem dataPosted (s : State) (slot : Nat) (l : Layout) (buffer : HostAddr) : s.Delivers (s.dataPosted slot l buffer) := by
  rw [s.dataPosted_kept slot l buffer]
  exact ⟨rfl, rfl, rfl, .of_registers rfl⟩

theorem settleFree (s : State) (slot : Nat) : s.Delivers (s.settleFree slot) := by
  rw [s.settleFree_kept slot]
  exact ⟨rfl, rfl, rfl, .of_registers rfl⟩

theorem of_takeKept (h : s.TakeKept t) : s.Delivers t := by
  refine ⟨.of_takeKept h, ?_, ?_, .of_registers ?_⟩
  all_goals rw [h]

theorem of_runs (h : s.KeptButRuns t) : s.Delivers t := by
  refine ⟨.of_runs h, ?_, ?_, .of_registers ?_⟩
  all_goals rw [h]

theorem voiceJudged (s : State) (slot : Nat) : s.Delivers (s.voiceJudged slot) :=
  (of_takeKept (s.naturalEnd_kept slot)).trans (of_runs (State.settleVoice_judged _ slot).kept)

theorem advanceBuffer (s : State) (next : HostAddr) : s.Delivers (s.advanceBuffer next) := by
  have listed := Listed.advanceBuffer s next
  refine ⟨.of_listed listed, ?_, ?_, fun f other => ?_, listed.latched⟩
  · rw [listed.kept]
  · rw [listed.kept]
  · exact listed.flags f (fun e => other (.inr (.inr (.inr e)))) fun e => other (.inr (.inr (.inl e)))

theorem deliverData (s : State) : s.Delivers s.deliverData := by
  have none {t : State} (h : t = s) : s.Delivers t := h ▸ refl s
  cases chosen : s.dataChoice with
  | none => exact none (by simp [State.deliverData, chosen])
  | some slot =>
    cases layout : s.layoutOf (s.voice slot) with
    | none => exact none (by simp [State.deliverData, chosen, layout])
    | some l =>
      cases held : s.delivery.heldNext with
      | none => exact none (by simp [State.deliverData, chosen, layout, held])
      | some next =>
        cases into : s.delivery.heldBuffer with
        | none => exact none (by simp [State.deliverData, chosen, layout, held, into])
        | some buffer =>
          have made : s.deliverData = _ := work_dataDelivery chosen layout held into
          rw [made]
          exact ((((dataPosted s slot l buffer).trans (countDelivery _)).trans (noticePriority _ _)).trans
            (voiceJudged _ slot)).trans (advanceBuffer _ next)

theorem deliverEnd (s : State) : s.Delivers s.deliverEnd := by
  have none {t : State} (h : t = s) : s.Delivers t := h ▸ refl s
  cases chosen : s.endChoice with
  | none => exact none (by simp [State.deliverEnd, chosen])
  | some slot =>
    cases held : s.delivery.heldNext with
    | none => exact none (by simp [State.deliverEnd, chosen, held])
    | some next =>
      have made : s.deliverEnd = _ := work_endDelivery chosen held
      have posted : s.Delivers (s.endPosted slot) := ⟨rfl, rfl, rfl, .of_registers rfl⟩
      rw [made]
      exact ((posted.trans (countDelivery _)).trans (settleFree _ slot)).trans (advanceBuffer _ next)

end State.Delivers

/-! ### The period expiry -/

/-- A flag that the work of an expiry may latch: the lead monitor's and the notice's (R114, R115, R158). -/
def expiryFlag (f : Flag) : Prop := f = .leadLow ∨ f = .underrun ∨ f = .delivery

/-- What the work of an expiry leaves. -/
structure State.Expires (s t : State) : Prop where
  kept : s.StreamKept t
  counters : ∀ n, n ≠ .starve → n ≠ .underrun → t.registers.counters.value n = s.registers.counters.value n
  flags : Latches expiryFlag s t

namespace State.Expires
variable {s t u : State}

theorem trans (h : s.Expires t) (k : t.Expires u) : s.Expires u :=
  ⟨h.kept.trans k.kept, fun n a b => (k.counters n a b).trans (h.counters n a b), h.flags.trans k.flags⟩

theorem of_registers (h : s.StreamKept t) (same : t.registers = s.registers) : s.Expires t :=
  ⟨h, fun n _ _ => by rw [same], .of_registers same⟩

theorem refl (s : State) : s.Expires s := of_registers rfl rfl

theorem foldl (f : State → Nat → State) (h : ∀ (s : State) n, s.Expires (f s n)) (l : List Nat) :
    ∀ s : State, s.Expires (l.foldl f s) := by
  induction l with
  | nil => exact refl
  | cons n l ih => exact fun s => (h s n).trans (ih _)

theorem leadTest (s : State) (n : Nat) : s.Expires (s.leadTest n) := by
  have starved (s : State) : Latches expiryFlag s (s.starvedTest n) := by
    unfold State.starvedTest
    dsimp only
    split
    · exact .of_status .leadLow rfl (Or.inl rfl)
    · exact .of_registers rfl
  have behind (s : State) : Latches expiryFlag s (s.underrunTest n) := by
    unfold State.underrunTest
    dsimp only
    split
    · exact .of_status .underrun rfl (Or.inr (.inl rfl))
    · exact .of_registers rfl
  exact ⟨.of_monitor (s.leadTest_kept n), (s.leadTest_counted n).others, (starved s).trans (behind _)⟩

theorem naturalEnd (s : State) (n : Nat) : s.Expires (s.naturalEnd n) :=
  of_registers (.of_takeKept (s.naturalEnd_kept n)) (by rw [s.naturalEnd_kept n])

theorem noticeAge (s : State) : s.Expires s.noticeAge := by
  have posted : s.Expires s.postNotice :=
    ⟨rfl, fun _ _ _ => rfl, .of_status .delivery rfl (Or.inr (.inr rfl))⟩
  unfold State.noticeAge
  split
  · split
    · exact posted
    · exact refl s
  · exact refl s

theorem expiryPaced (s : State) : s.Expires s.expiryPaced := by
  rw [s.expiryPaced_kept]
  exact of_registers rfl rfl

theorem expiryEnded (s : State) : s.Expires s.expiryEnded := by
  have consumed : s.expiryPaced.Expires s.expiryConsumed := of_registers rfl rfl
  exact (((expiryPaced s).trans consumed).trans (foldl _ leadTest _ _)).trans (foldl _ naturalEnd _ _)

theorem expiry (s : State) : s.Expires s.expiry := by
  have runs := s.expiryEnded.settleVoices_judging.kept
  have judged : s.expiryEnded.Expires s.expiryEnded.settleVoices := of_registers (.of_runs runs) (by rw [runs])
  rw [State.expiry_eq]
  refine trans ?_ (noticeAge _)
  split
  · exact (expiryEnded s).trans judged
  · exact expiryPaced s

end State.Expires

/-! ### O22 -/

theorem eventFrames_dies (c : Instr) (d : Fin 16) (s t : State) (ready : s.registers.engine = .ready)
    (hc : c = .fetchEnqueue ∨ ofDie c d) (h : exec c s = .next t) :
    t.pace = s.pace ∧ t.delivery = s.delivery ∧ s.EventKept t ∧
      Latches (fun f => mayLatch c d f ∨ f = .requestDone) s t := by
  have ended := exec_ends h
  have kept : (work c s).pace = s.pace ∧ (work c s).delivery = s.delivery ∧ s.EventKept (work c s) ∧
      Latches (mayLatch c d) s (work c s) := by
    obtain rfl | hc := hc
    · have kept := State.EnqueueKept.fetchEnqueue s
      change s.EnqueueKept (work .fetchEnqueue s) at kept
      generalize work .fetchEnqueue s = u at kept
      refine ⟨?_, ?_, kept.event, .of_registers ?_⟩
      all_goals rw [kept]
    · obtain ⟨inner, latches⟩ := work_ofDie hc ready
      exact ⟨inner.pace, inner.delivery, .of_inner inner, latches⟩
  obtain ⟨pace, delivery, event, latches⟩ := kept
  exact ⟨ended.posted.pace.trans pace, ended.posted.delivery.trans delivery, exec_flushed h ▸ event.flushed,
    latches.ended ended⟩

/-- The frame of an event whose work moves the streams. -/
theorem exec_stream {c : Instr} {s t : State} (h : exec c s = .next t) (kept : s.StreamKept (work c s)) :
    s.EventKept t ∧ SameDies s t ∧ t.enqueueCount = s.enqueueCount ∧ t.freeCount = s.freeCount := by
  have posted := (exec_ends h).posted
  refine ⟨exec_flushed h ▸ kept.event.flushed, kept.dies posted.closed, ?_, ?_⟩
  · rw [posted.enqueueCount, kept]
  · rw [posted.freeCount, kept]

theorem eventFrames_delivery {c : Instr} {s t : State} (hc : c = .dataDelivery ∨ c = .endDelivery) (h : exec c s = .next t) :
    s.StreamKept (work c s) ∧ t.pace = s.pace ∧ t.registers.counters = s.registers.counters ∧
      Latches (fun f => deliveryFlag f ∨ f = .requestDone) s t := by
  have delivers : s.Delivers (work c s) := by
    obtain rfl | rfl := hc
    · exact .deliverData s
    · exact .deliverEnd s
  have ended := exec_ends h
  exact ⟨delivers.kept, ended.posted.pace.trans delivers.pace, ended.posted.closed.counters.trans delivers.counters,
    delivers.flags.ended ended⟩

theorem eventFrames_expiry {s t : State} (h : exec .periodExpiry s = .next t) :
    (∀ n : CounterName, n ≠ .starve → n ≠ .underrun → t.registers.counters.value n = s.registers.counters.value n) ∧
      Latches (fun f => expiryFlag f ∨ f = .requestDone) s t := by
  have expires : s.Expires (work .periodExpiry s) := .expiry s
  have ended := exec_ends h
  refine ⟨fun n starve underrun => ?_, expires.flags.ended ended⟩
  rw [ended.posted.closed.counters]
  exact expires.counters n starve underrun

/-- Settles O22: the commands of the two lists, the events of the dies and the enqueue, the deliveries and the period expiry. -/
theorem eventFrames : Obligations.EventFrames := by
  refine ⟨eventFrames_requests, eventFrames_buffers, fun c d s t ready hc h => ?_, fun c s t hc h => ?_⟩
  · obtain ⟨pace, delivery, ⟨tunables, partition, starts, takes, pending, requests, window⟩, others, stays⟩ :=
      eventFrames_dies c d s t ready hc h
    refine ⟨pace, delivery, partition, tunables, starts, requests, window, stays, takes, pending,
      fun f block die port done => others f ?_, fun refused ends => others _ ?_, fun read program => others _ ?_,
      fun dma => others _ ?_, ?_, fun which a => ?_⟩
    · rintro ((⟨e, -⟩ | ⟨e, -⟩ | ⟨e, -⟩) | e)
      · exact block e
      · exact die e
      · exact port e
      · exact done e
    · rintro ((⟨-, e | ⟨x, y, e⟩⟩ | ⟨e, -⟩ | ⟨e, -⟩) | e)
      · exact refused e
      · exact ends x y e
      all_goals cases e
    · rintro ((⟨e, -⟩ | ⟨-, e | e⟩ | ⟨e, -⟩) | e)
      · cases e
      · exact read e
      · exact program e
      all_goals cases e
    · rintro ((⟨e, -⟩ | ⟨e, -⟩ | ⟨-, e⟩) | e)
      · cases e
      · cases e
      · exact dma e
      · cases e
    · rintro rfl canonical once
      exact fetchEnqueue_silence canonical once (exec_ends h).posted.closed
    · rw [(exec_ends h).posted.dram, work_dram which ready]
  · have kept : s.StreamKept (work c s) ∧ ∃ may, Latches may s t := by
      obtain rfl | rfl | rfl := hc
      · obtain ⟨kept, -, -, latches⟩ := eventFrames_delivery (.inl rfl) h
        exact ⟨kept, _, latches⟩
      · obtain ⟨kept, -, -, latches⟩ := eventFrames_delivery (.inr rfl) h
        exact ⟨kept, _, latches⟩
      · obtain ⟨-, latches⟩ := eventFrames_expiry h
        exact ⟨(State.Expires.expiry s).kept, _, latches⟩
    obtain ⟨kept, _, latches⟩ := kept
    obtain ⟨⟨tunables, partition, starts, takes, pending, requests, window⟩, dies, enqueues, frees⟩ := exec_stream h kept
    refine ⟨tunables, partition, starts, dies, enqueues, requests, window, latches.stays, takes, pending, frees,
      fun made => ?_, ?_⟩
    · obtain ⟨-, pace, counters, latches⟩ := eventFrames_delivery (hc.imp id fun e => e.resolve_right made) h
      refine ⟨pace, counters, fun f notice priority parked port done => latches.others f ?_⟩
      rintro ((e | e | e | e) | e)
      · exact notice e
      · exact priority e
      · exact parked e
      · exact port e
      · exact done e
    · rintro rfl
      obtain ⟨counters, latches⟩ := eventFrames_expiry h
      refine ⟨counters, fun f low under notice done => latches.others f ?_⟩
      rintro ((e | e | e) | e)
      · exact low e
      · exact under e
      · exact notice e
      · exact done e

end Sys2Proof.Machine
end
